-- ==== Sys2Proof/Word.lean ====
section
/-! DEFINITION. The word types of the YCPU (spec/00_scope.md R5, R6) and their plainest arithmetic. -/

namespace Sys2Proof

/-- A 16-bit word: a register, a logical address, an instruction word. -/
abbrev Word := BitVec 16

/-- An octet, the addressable unit of memory (spec/20_memory.md R60). -/
abbrev Byte := BitVec 8

/-- A 26-bit physical address (spec/20_memory.md R71). -/
abbrev PAddr := BitVec 26

/-- The number of a general register R0..R7 (spec/10_state.md R20, R21). -/
abbrev Reg := Fin 8

/-- The operand width of an ALU instruction: bit 8 of its word (spec/40_alu.md R142). -/
inductive Size where
  | byte
  | word
  deriving DecidableEq, Repr

/-- The width in bits. -/
def Size.bits : Size → Nat
  | .byte => 8
  | .word => 16

/-- The number of bytes moved, `n` of spec/40_alu.md R140. -/
def Size.bytes : Size → Word
  | .byte => 1
  | .word => 2

end Sys2Proof
end

