-- ==== Sys2Proof/Operand.lean ====
section
/-! DEFINITION. The operands of the YCPU's instructions: processor registers, addressing modes, the ALU operations. -/

namespace Sys2Proof

/-- The processor registers in the order of their indexes (spec/10_state.md R41). `sp` is the current stack pointer. -/
inductive ProcReg where
  | fl | pc | ps | p2 | ii | ia | usp | sp
  deriving DecidableEq, Repr

/-- The addressing modes that name a place in memory (spec/20_memory.md R84, spec/30_encoding.md R105, R107). -/
inductive MemMode where
  /-- `[$1234]` -/
  | abs (addr : Word)
  /-- `[Rx]` -/
  | ind (base : Reg)
  /-- `[Rx,$1234]`, also spelled `[$1234,Rx]` -/
  | offset (base : Reg) (off : Word)
  /-- `S[$0]` to `S[$7]` -/
  | stack (slot : Fin 8)
  /-- `[Rx+]` -/
  | postInc (base : Reg)
  /-- `[-Rx]` -/
  | preDec (base : Reg)
  /-- `[Rx,Ri]` -/
  | indexed (base index : Reg)
  deriving DecidableEq, Repr

/-- The second operand M of an ALU instruction (spec/30_encoding.md R105, spec/40_alu.md R140). -/
inductive AluOperand where
  | imm (value : Word)
  | proc (p : ProcReg)
  | reg (r : Reg)
  | mem (m : MemMode)
  deriving DecidableEq, Repr

/-- The operand of a near jump (spec/30_encoding.md R107, spec/46_jump.md R240). -/
inductive JmpOperand where
  | imm (target : Word)
  | reg (r : Reg)
  | mem (m : MemMode)
  deriving DecidableEq, Repr

/-- The operand pair of a far jump (spec/46_jump.md R241). -/
inductive FarOperand where
  | imm (lower upper : Word)
  | reg (r : Reg)
  | mem (m : MemMode)
  deriving DecidableEq, Repr

/-- The operation field `w[7:3]` of the ALU pattern (spec/30_encoding.md R104, R119). -/
inductive AluOp where
  | cmp | neg | add | sub | adc | sbc | mul | div | mli | dvi | mod | mdi | and | orr | eor | not | lod | sto
  deriving DecidableEq, Repr

/-- Why the decoder gives no instruction: the bytes end before the instruction does. Every complete word sequence
decodes (spec/INDEX.md: every 16-bit value is matched by an instruction row). -/
inductive DecodeError where
  | truncated
  deriving DecidableEq, Repr

end Sys2Proof
end

