-- ==== Sys2Proof/Syntax.lean ====
section
/-! DEFINITION. The instruction set: one constructor per row of spec/opcode_table.json, in the table's order.
Rows of the formats ALU-mode and JMI-mode are addressing modes, not instructions (spec/INDEX.md); their
constructors are second names for "an instruction that uses this mode". Macro rows are second names too. -/

namespace Sys2Proof

inductive Instr where
  /-- $2080, the macro `LOD R0, R0` (R273). -/
  | nop
  /-- ALU mode row Immediate (R140). -/
  | aluImmediate (op : AluOp) (sz : Size) (rx : Reg) (value : Word)
  /-- ALU mode row Absolute (R140). -/
  | aluAbsolute (op : AluOp) (sz : Size) (rx : Reg) (addr : Word)
  /-- ALU mode row ProcReg (R140, R143). -/
  | aluProcReg (op : AluOp) (rx : Reg) (p : ProcReg)
  /-- ALU mode row Register (R140). -/
  | aluRegister (op : AluOp) (sz : Size) (rx : Reg) (r : Reg)
  /-- ALU mode row Indirect (R140). -/
  | aluIndirect (op : AluOp) (sz : Size) (rx : Reg) (r : Reg)
  /-- ALU mode row IndirectOffset (R140). -/
  | aluIndirectOffset (op : AluOp) (sz : Size) (rx : Reg) (r : Reg) (off : Word)
  /-- ALU mode row StackOffset (R140, R85). -/
  | aluStackOffset (op : AluOp) (sz : Size) (rx : Reg) (slot : Fin 8)
  /-- ALU mode row IndirectPostInc (R140). -/
  | aluPostInc (op : AluOp) (sz : Size) (rx : Reg) (r : Reg)
  /-- ALU mode row IndirectPreDec (R140). -/
  | aluPreDec (op : AluOp) (sz : Size) (rx : Reg) (r : Reg)
  /-- ALU mode row IndirectIndexed (R140). -/
  | aluIndexed (op : AluOp) (sz : Size) (rx : Reg) (r i : Reg)
  /-- The ALU pattern with an unassigned mode, `w[15:12] = 0000` and `w[11:9]` = 2..7 (R121). -/
  | aluUnassigned (op : AluOp) (sz : Size) (rx : Reg) (r : Reg)
  /-- Compare (R145). -/
  | cmp (sz : Size) (rx : Reg) (m : AluOperand)
  /-- Negate (R146). -/
  | neg (sz : Size) (rx : Reg) (m : AluOperand)
  /-- Add (R147). -/
  | add (sz : Size) (rx : Reg) (m : AluOperand)
  /-- Subtract (R148). -/
  | sub (sz : Size) (rx : Reg) (m : AluOperand)
  /-- Add with carry (R149). -/
  | adc (sz : Size) (rx : Reg) (m : AluOperand)
  /-- Subtract with carry (R150). -/
  | sbc (sz : Size) (rx : Reg) (m : AluOperand)
  /-- Unsigned multiply (R151). -/
  | mul (sz : Size) (rx : Reg) (m : AluOperand)
  /-- Unsigned divide (R152). -/
  | div (sz : Size) (rx : Reg) (m : AluOperand)
  /-- Signed multiply (R153). -/
  | mli (sz : Size) (rx : Reg) (m : AluOperand)
  /-- Signed divide (R154). -/
  | dvi (sz : Size) (rx : Reg) (m : AluOperand)
  /-- Unsigned modulus (R155). -/
  | mod (sz : Size) (rx : Reg) (m : AluOperand)
  /-- Signed modulus (R156). -/
  | mdi (sz : Size) (rx : Reg) (m : AluOperand)
  /-- Bitwise and (R157). -/
  | and (sz : Size) (rx : Reg) (m : AluOperand)
  /-- Bitwise or (R158). -/
  | orr (sz : Size) (rx : Reg) (m : AluOperand)
  /-- Bitwise exclusive or (R159). -/
  | eor (sz : Size) (rx : Reg) (m : AluOperand)
  /-- Bitwise not (R160). -/
  | not (sz : Size) (rx : Reg) (m : AluOperand)
  /-- Load (R161). -/
  | lod (sz : Size) (rx : Reg) (m : AluOperand)
  /-- STO with the Immediate mode: UNDEFINED (R120, R162). -/
  | undefStoImmediate (sz : Size) (rx : Reg)
  /-- STO with the Register mode: UNDEFINED (R120, R162). -/
  | undefStoRegister (r : Reg) (sz : Size) (rx : Reg)
  /-- Store (R162). -/
  | sto (sz : Size) (rx : Reg) (m : AluOperand)
  /-- Branch if carry clear, second name BUF (R211). -/
  | bcc (off : BitVec 8)
  /-- Branch if carry set, second name BUH (R212). -/
  | bcs (off : BitVec 8)
  /-- Branch if zero clear (R213). -/
  | bne (off : BitVec 8)
  /-- Branch if zero set (R214). -/
  | beq (off : BitVec 8)
  /-- Branch if negative clear, second name BSF (R215). -/
  | bpl (off : BitVec 8)
  /-- Branch if negative set, second name BSH (R216). -/
  | bmi (off : BitVec 8)
  /-- Branch if overflow clear (R217). -/
  | bvc (off : BitVec 8)
  /-- Branch if overflow set (R218). -/
  | bvs (off : BitVec 8)
  /-- Branch if unsigned greater than (R219). -/
  | bug (off : BitVec 8)
  /-- Branch if signed greater than (R220). -/
  | bsg (off : BitVec 8)
  /-- Branch always (R221). -/
  | baw (off : BitVec 8)
  /-- Branch condition 10: UNDEFINED (R222). -/
  | undefBranch10
  /-- Branch condition 11: UNDEFINED (R222). -/
  | undefBranch11
  /-- Branch condition 12: UNDEFINED (R222). -/
  | undefBranch12
  /-- Branch condition 13: UNDEFINED (R222). -/
  | undefBranch13
  /-- Branch condition 14: UNDEFINED (R222). -/
  | undefBranch14
  /-- Arithmetic shift left by `count + 1` (R180, R181). -/
  | aslImm (rx : Reg) (count : BitVec 4)
  /-- Arithmetic shift left by a register (R180, R181). -/
  | aslReg (rx : Reg) (rc : Reg)
  /-- Logical shift left by `count + 1` (R182). -/
  | lslImm (rx : Reg) (count : BitVec 4)
  /-- Logical shift left by a register (R182). -/
  | lslReg (rx : Reg) (rc : Reg)
  /-- Rotate through carry left by `count + 1` (R183). -/
  | rolImm (rx : Reg) (count : BitVec 4)
  /-- Rotate through carry left by a register (R183). -/
  | rolReg (rx : Reg) (rc : Reg)
  /-- Rotate left by `count + 1` (R184). -/
  | rnlImm (rx : Reg) (count : BitVec 4)
  /-- Rotate left by a register (R184). -/
  | rnlReg (rx : Reg) (rc : Reg)
  /-- Arithmetic shift right by `count + 1` (R185). -/
  | asrImm (rx : Reg) (count : BitVec 4)
  /-- Arithmetic shift right by a register (R185). -/
  | asrReg (rx : Reg) (rc : Reg)
  /-- Logical shift right by `count + 1` (R186). -/
  | lsrImm (rx : Reg) (count : BitVec 4)
  /-- Logical shift right by a register (R186). -/
  | lsrReg (rx : Reg) (rc : Reg)
  /-- Rotate through carry right by `count + 1` (R187). -/
  | rorImm (rx : Reg) (count : BitVec 4)
  /-- Rotate through carry right by a register (R187). -/
  | rorReg (rx : Reg) (rc : Reg)
  /-- Rotate right by `count + 1` (R188). -/
  | rnrImm (rx : Reg) (count : BitVec 4)
  /-- Rotate right by a register (R188). -/
  | rnrReg (rx : Reg) (rc : Reg)
  /-- Test a bit (R200, R201). -/
  | bttImm (rx : Reg) (bit : BitVec 4)
  /-- Test the bit a register names (R201). -/
  | bttReg (rx : Reg) (rb : Reg)
  /-- Test a bit and change it (R202). -/
  | btxImm (rx : Reg) (bit : BitVec 4)
  /-- Test the bit a register names and change it (R202). -/
  | btxReg (rx : Reg) (rb : Reg)
  /-- Test a bit and clear it (R203). -/
  | btcImm (rx : Reg) (bit : BitVec 4)
  /-- Test the bit a register names and clear it (R203). -/
  | btcReg (rx : Reg) (rb : Reg)
  /-- Test a bit and set it (R204). -/
  | btsImm (rx : Reg) (bit : BitVec 4)
  /-- Test the bit a register names and set it (R204). -/
  | btsReg (rx : Reg) (rb : Reg)
  /-- Opcodes $AC and $AD: UNDEFINED (R120). -/
  | undefAcAd
  /-- Set flag bits; the mask is N Z C V from the left (R260). -/
  | sef (mask : BitVec 4)
  /-- Clear flag bits (R261). -/
  | clf (mask : BitVec 4)
  /-- Push general registers; bit n of the mask selects Rn (R251). -/
  | pshGeneral (mask : BitVec 8)
  /-- Push status registers; bits 7..0 select FL PC PS P2 II IA USP SP (R252). -/
  | pshStatus (mask : BitVec 8)
  /-- Pop general registers (R253). -/
  | popGeneral (mask : BitVec 8)
  /-- $40B3, the macro `POP PC` (R245). -/
  | rts
  /-- Pop status registers (R254). -/
  | popStatus (mask : BitVec 8)
  /-- Opcode $B4: UNDEFINED (R120). -/
  | undefB4
  /-- Read a word of the MMU cache (R269). -/
  | mmr (rv ra : Reg)
  /-- Write a word of the MMU cache (R270). -/
  | mmw (rv ra : Reg)
  /-- Push one half of the MMU cache (R271). -/
  | mml (rv : Reg)
  /-- Pull one half of the MMU cache (R272). -/
  | mms (rv : Reg)
  /-- Set a register to a small constant (R227, A = 0). -/
  | setSmall (rx : Reg) (v : BitVec 5)
  /-- Set a register to a power of two or a small negative constant (R227, A = 1). -/
  | setAlt (rx : Reg) (v : BitVec 5)
  /-- The macro `ADI Rx, 1` (R225). -/
  | inc (rx : Reg)
  /-- Add `v + 1` (R225). -/
  | adi (rx : Reg) (v : BitVec 5)
  /-- The macro `SBI Rx, 1` (R226). -/
  | dec (rx : Reg)
  /-- Subtract `v + 1` (R226). -/
  | sbi (rx : Reg) (v : BitVec 5)
  /-- JMI mode row Immediate, near (R240); `call` tells JSR from JMP. -/
  | jmiImmediateNear (call : Bool) (target : Word)
  /-- JMI mode row Absolute, near (R240). -/
  | jmiAbsoluteNear (call : Bool) (addr : Word)
  /-- JMI mode row Register, near (R240). -/
  | jmiRegisterNear (call : Bool) (r : Reg)
  /-- JMI mode row Indirect, near (R240). -/
  | jmiIndirectNear (call : Bool) (r : Reg)
  /-- JMI mode row IndirectOffset, near (R240). -/
  | jmiIndirectOffsetNear (call : Bool) (r : Reg) (off : Word)
  /-- JMI mode row StackOffset, near (R240). -/
  | jmiStackOffsetNear (call : Bool) (slot : Fin 8)
  /-- JMI mode row IndirectPostInc, near (R240). -/
  | jmiPostIncNear (call : Bool) (r : Reg)
  /-- JMI mode row IndirectPreDec, near (R240). -/
  | jmiPreDecNear (call : Bool) (r : Reg)
  /-- JMI mode row IndirectIndexed, near (R240). -/
  | jmiIndexedNear (call : Bool) (r i : Reg)
  /-- JMI mode row Immediate, far (R241). -/
  | jmiImmediateFar (call : Bool) (lower upper : Word)
  /-- JMI mode row Absolute, far (R241). -/
  | jmiAbsoluteFar (call : Bool) (addr : Word)
  /-- JMI mode row Register, far (R241). -/
  | jmiRegisterFar (call : Bool) (r : Reg)
  /-- JMI mode row Indirect, far (R241). -/
  | jmiIndirectFar (call : Bool) (r : Reg)
  /-- JMI mode row IndirectOffset, far (R241). -/
  | jmiIndirectOffsetFar (call : Bool) (r : Reg) (off : Word)
  /-- JMI mode row StackOffset, far (R241). -/
  | jmiStackOffsetFar (call : Bool) (slot : Fin 8)
  /-- JMI mode row IndirectPostInc, far (R241). -/
  | jmiPostIncFar (call : Bool) (r : Reg)
  /-- JMI mode row IndirectPreDec, far (R241). -/
  | jmiPreDecFar (call : Bool) (r : Reg)
  /-- JMI mode row IndirectIndexed, far (R241). -/
  | jmiIndexedFar (call : Bool) (r i : Reg)
  /-- The JMI pattern with an unassigned mode: `w[15:12] = 0001` when `procRow`, else `0000` with r = 2..7 (R121). -/
  | jmiUnassigned (call far procRow : Bool) (r : Reg)
  /-- Near jump (R242). -/
  | jmp (m : JmpOperand)
  /-- Far jump (R242). -/
  | jmpF (m : FarOperand)
  /-- Near call (R243). -/
  | jsr (m : JmpOperand)
  /-- Far call (R243). -/
  | jsrF (m : FarOperand)
  /-- Bus device count (R263). -/
  | hwq00
  /-- Bus device query (R264). -/
  | hwq01
  /-- Bus device message (R265). -/
  | hwq02
  /-- RTC read (R266). -/
  | hwq80
  /-- RTC interrupt rate (R267). -/
  | hwq81
  /-- HWQ with an unassigned operation index (R268). -/
  | hwqUnassigned (index : BitVec 8)
  /-- Sleep until interrupt (R274). -/
  | slp
  /-- Raise the software interrupt (R230). -/
  | swi
  /-- Return from interrupt (R231). -/
  | rti
  /-- Opcodes $C0 to $FF: UNDEFINED (R120). -/
  | undefC0FF
  deriving DecidableEq, Repr

end Sys2Proof
end

