-- ==== Sys2Proof/WellFormed.lean ====
section
/-! DEFINITION. When an instruction term stands for an encoding: its fields are ones the encoding admits, and its name
is the first row of the opcode table that matches its words (spec/INDEX.md, "How to read opcode_table.json"). -/

namespace Sys2Proof

/-- An operand of an ALU instruction under a width: in the ProcReg mode bit 8 is not E, and the operand is 16 bits
wide (spec/30_encoding.md R105). -/
def AluOperand.fits : AluOperand → Size → Bool
  | .proc _, sz => sz == .word
  | _, _ => true

/-- STO has neither the Immediate nor the Register mode (spec/40_alu.md R162). -/
def AluOperand.storable : AluOperand → Bool
  | .imm _ => false
  | .reg _ => false
  | _ => true

/-- The HWQ operation indexes that are not assigned (spec/48_processor.md R268). -/
def hwqIndexUnassigned (index : BitVec 8) : Bool :=
  !(index == 0x00 || index == 0x01 || index == 0x02 || index == 0x80 || index == 0x81)

/-- The fields are ones the row's encoding admits. -/
def Instr.fieldsOk : Instr → Bool
  | .cmp sz _ m | .neg sz _ m | .add sz _ m | .sub sz _ m | .adc sz _ m | .sbc sz _ m
  | .mul sz _ m | .div sz _ m | .mli sz _ m | .dvi sz _ m | .mod sz _ m | .mdi sz _ m
  | .and sz _ m | .orr sz _ m | .eor sz _ m | .not sz _ m | .lod sz _ m => m.fits sz
  | .sto sz _ m => m.fits sz && m.storable
  | .aluUnassigned _ _ _ r => decide (2 ≤ r.val)
  | .jmiUnassigned _ _ procRow r => procRow || decide (2 ≤ r.val)
  | .hwqUnassigned index => hwqIndexUnassigned index
  | _ => true

/-- The name is that of the first row that matches the words: not a mode row, and not an instruction row whose words
an earlier macro row names (NOP before LOD, INC before ADI, DEC before SBI, RTS before POP). -/
def Instr.isPrimary : Instr → Bool
  | .aluImmediate .. | .aluAbsolute .. | .aluProcReg .. | .aluRegister .. | .aluIndirect .. | .aluIndirectOffset ..
  | .aluStackOffset .. | .aluPostInc .. | .aluPreDec .. | .aluIndexed .. => false
  | .jmiImmediateNear .. | .jmiAbsoluteNear .. | .jmiRegisterNear .. | .jmiIndirectNear .. | .jmiIndirectOffsetNear ..
  | .jmiStackOffsetNear .. | .jmiPostIncNear .. | .jmiPreDecNear .. | .jmiIndexedNear .. => false
  | .jmiImmediateFar .. | .jmiAbsoluteFar .. | .jmiRegisterFar .. | .jmiIndirectFar .. | .jmiIndirectOffsetFar ..
  | .jmiStackOffsetFar .. | .jmiPostIncFar .. | .jmiPreDecFar .. | .jmiIndexedFar .. => false
  | .lod sz rx m => !(sz == .word && rx == 0 && m == .reg 0)
  | .adi _ v => !(v == 0)
  | .sbi _ v => !(v == 0)
  | .popStatus mask => !(mask == 0x40)
  | _ => true

/-- Well-formed: `decode` gives exactly these terms. -/
def Instr.wf (i : Instr) : Bool := i.fieldsOk && i.isPrimary

end Sys2Proof
end

