-- ==== Sys2Proof/Decode.lean ====
section
/-! DEFINITION. The decoder, total on any words and any bytes, and after it the encoder, both written from
spec/30_encoding.md. Ignored bits (R122) are dropped by the decoder and written as 0 by the encoder. -/

namespace Sys2Proof

/-- The bits `lo + n - 1` down to `lo` of a word (spec/00_scope.md R6). -/
def field (w : Word) (lo n : Nat) : Nat := w.toNat / 2 ^ lo % 2 ^ n

/-- The register number in the three bits from `lo` up. -/
def regAt (w : Word) (lo : Nat) : Reg := Fin.ofNat 8 (field w lo 3)

/-- The word whose bytes are `lo` at the lower address and `hi` above it (R101, spec/20_memory.md R61). -/
def wordOfBytes (lo hi : Byte) : Word := hi ++ lo

/-- The two bytes of a word, the lower address first. -/
def bytesOfWord (w : Word) : List Byte := [w.extractLsb' 0 8, w.extractLsb' 8 8]

/-- The operation numbers `w[7:3]` of the ALU pattern (R119). -/
def AluOp.code : AluOp → Nat
  | .cmp => 0
  | .neg => 1
  | .add => 2
  | .sub => 3
  | .adc => 4
  | .sbc => 5
  | .mul => 6
  | .div => 7
  | .mli => 8
  | .dvi => 9
  | .mod => 10
  | .mdi => 11
  | .and => 12
  | .orr => 13
  | .eor => 14
  | .not => 15
  | .lod => 16
  | .sto => 17

/-- The ALU operation of a number; the numbers from 17 up do not occur below opcode $90 but for STO. -/
def AluOp.ofCode : Nat → AluOp
  | 0 => .cmp
  | 1 => .neg
  | 2 => .add
  | 3 => .sub
  | 4 => .adc
  | 5 => .sbc
  | 6 => .mul
  | 7 => .div
  | 8 => .mli
  | 9 => .dvi
  | 10 => .mod
  | 11 => .mdi
  | 12 => .and
  | 13 => .orr
  | 14 => .eor
  | 15 => .not
  | 16 => .lod
  | _ => .sto

/-- Processor register indexes (spec/10_state.md R41). -/
def ProcReg.code : ProcReg → Nat
  | .fl => 0
  | .pc => 1
  | .ps => 2
  | .p2 => 3
  | .ii => 4
  | .ia => 5
  | .usp => 6
  | .sp => 7

/-- The processor register of an index. -/
def ProcReg.ofCode : Nat → ProcReg
  | 0 => .fl
  | 1 => .pc
  | 2 => .ps
  | 3 => .p2
  | 4 => .ii
  | 5 => .ia
  | 6 => .usp
  | _ => .sp

/-- The bit E or F of a width (R104). -/
def Size.code : Size → Nat
  | .word => 0
  | .byte => 1

/-- The width that bit 8 selects (R104). -/
def sizeAt (w : Word) : Size := if field w 8 1 = 1 then .byte else .word

/-- The constructor of an ALU operation. -/
def AluOp.plain : AluOp → Size → Reg → AluOperand → Instr
  | .cmp => .cmp
  | .neg => .neg
  | .add => .add
  | .sub => .sub
  | .adc => .adc
  | .sbc => .sbc
  | .mul => .mul
  | .div => .div
  | .mli => .mli
  | .dvi => .dvi
  | .mod => .mod
  | .mdi => .mdi
  | .and => .and
  | .orr => .orr
  | .eor => .eor
  | .not => .not
  | .lod => .lod
  | .sto => .sto

/-- The instruction an ALU word stands for once its fields are read: the UNDEFINED forms of STO (R120) and the macro
NOP (R126) take precedence over the instruction rows. -/
def aluInstr (op : AluOp) (sz : Size) (rx : Reg) (m : AluOperand) : Instr :=
  match op, m with
  | .sto, .imm _ => .undefStoImmediate sz rx
  | .sto, .reg r => .undefStoRegister r sz rx
  | .lod, .reg r => if sz = .word ∧ rx = 0 ∧ r = 0 then .nop else .lod sz rx (.reg r)
  | op, m => op.plain sz rx m

/-- The memory modes of `w[15:12]` from 3 up (R105, R107). -/
def memModeAt (w w1 : Word) : MemMode :=
  match field w 12 4 with
  | 3 => .ind (regAt w 9)
  | 4 => .offset (regAt w 9) w1
  | 5 => .stack (regAt w 9)
  | 6 => .postInc (regAt w 9)
  | 7 => .preDec (regAt w 9)
  | _ => .indexed (regAt w 9) (regAt w 12)

/-- The ALU instruction of a word (R104, R105, R121). -/
def decodeAlu (w w1 : Word) : Instr :=
  let op := AluOp.ofCode (field w 3 5)
  let sz := sizeAt w
  let rx := regAt w 0
  match field w 12 4 with
  | 0 =>
    match field w 9 3 with
    | 0 => aluInstr op sz rx (.imm w1)
    | 1 => aluInstr op sz rx (.mem (.abs w1))
    | _ => .aluUnassigned op sz rx (regAt w 9)
  | 1 => aluInstr op .word rx (.proc (ProcReg.ofCode (field w 9 3)))
  | 2 => aluInstr op sz rx (.reg (regAt w 9))
  | _ => aluInstr op sz rx (.mem (memModeAt w w1))

/-- The near jump or call of a word (R106, R107, R121). -/
def decodeJmiNear (call : Bool) (w w1 : Word) : Instr :=
  let build (m : JmpOperand) : Instr := if call then .jsr m else .jmp m
  match field w 12 4 with
  | 0 =>
    match field w 9 3 with
    | 0 => build (.imm w1)
    | 1 => build (.mem (.abs w1))
    | _ => .jmiUnassigned call false false (regAt w 9)
  | 1 => .jmiUnassigned call false true (regAt w 9)
  | 2 => build (.reg (regAt w 9))
  | _ => build (.mem (memModeAt w w1))

/-- The far jump or call of a word (R106, R107, R121). -/
def decodeJmiFar (call : Bool) (w w1 w2 : Word) : Instr :=
  let build (m : FarOperand) : Instr := if call then .jsrF m else .jmpF m
  match field w 12 4 with
  | 0 =>
    match field w 9 3 with
    | 0 => build (.imm w1 w2)
    | 1 => build (.mem (.abs w1))
    | _ => .jmiUnassigned call true false (regAt w 9)
  | 1 => .jmiUnassigned call true true (regAt w 9)
  | 2 => build (.reg (regAt w 9))
  | _ => build (.mem (memModeAt w w1))

/-- A jump or call word: bit 8 is F (R106). -/
def decodeJmi (call : Bool) (w w1 w2 : Word) : Instr :=
  if field w 8 1 = 1 then decodeJmiFar call w w1 w2 else decodeJmiNear call w w1

/-- A shift word: bit 12 selects the register count (R109). -/
def decodeShift (imm : Reg → BitVec 4 → Instr) (reg : Reg → Reg → Instr) (w : Word) : Instr :=
  if field w 12 1 = 1 then reg (regAt w 13) (regAt w 8) else imm (regAt w 13) (BitVec.ofNat 4 (field w 8 4))

/-- The MMU operations of opcode $B5 (R114). -/
def decodeMmu (w : Word) : Instr :=
  match field w 8 2 with
  | 0 => .mmr (regAt w 13) (regAt w 10)
  | 1 => .mmw (regAt w 13) (regAt w 10)
  | 2 => .mml (regAt w 13)
  | _ => .mms (regAt w 13)

/-- HWQ by its operation index (R112, R121). -/
def decodeHwq (w : Word) : Instr :=
  match field w 8 8 with
  | 0x00 => .hwq00
  | 0x01 => .hwq01
  | 0x02 => .hwq02
  | 0x80 => .hwq80
  | 0x81 => .hwq81
  | i => .hwqUnassigned (BitVec.ofNat 8 i)

/-- The instruction of a program word and its operand words, by the opcode map (R102, R119). -/
def decodeWords (w w1 w2 : Word) : Instr :=
  let high : BitVec 8 := BitVec.ofNat 8 (field w 8 8)
  let rx := regAt w 13
  let v : BitVec 5 := BitVec.ofNat 5 (field w 8 5)
  let op := field w 0 8
  if op < 0x90 then decodeAlu w w1
  else if 0xC0 ≤ op then .undefC0FF
  else match op with
  | 0x90 => .bcc high
  | 0x91 => .bcs high
  | 0x92 => .bne high
  | 0x93 => .beq high
  | 0x94 => .bpl high
  | 0x95 => .bmi high
  | 0x96 => .bvc high
  | 0x97 => .bvs high
  | 0x98 => .bug high
  | 0x99 => .bsg high
  | 0x9F => .baw high
  | 0x9A => .undefBranch10
  | 0x9B => .undefBranch11
  | 0x9C => .undefBranch12
  | 0x9D => .undefBranch13
  | 0x9E => .undefBranch14
  | 0xA0 => decodeShift .aslImm .aslReg w
  | 0xA1 => decodeShift .lslImm .lslReg w
  | 0xA2 => decodeShift .rolImm .rolReg w
  | 0xA3 => decodeShift .rnlImm .rnlReg w
  | 0xA4 => decodeShift .asrImm .asrReg w
  | 0xA5 => decodeShift .lsrImm .lsrReg w
  | 0xA6 => decodeShift .rorImm .rorReg w
  | 0xA7 => decodeShift .rnrImm .rnrReg w
  | 0xA8 => decodeShift .bttImm .bttReg w
  | 0xA9 => decodeShift .btxImm .btxReg w
  | 0xAA => decodeShift .btcImm .btcReg w
  | 0xAB => decodeShift .btsImm .btsReg w
  | 0xAE => .sef (BitVec.ofNat 4 (field w 12 4))
  | 0xAF => .clf (BitVec.ofNat 4 (field w 12 4))
  | 0xB0 => .pshGeneral high
  | 0xB1 => .pshStatus high
  | 0xB2 => .popGeneral high
  | 0xB3 => if high = 0x40 then .rts else .popStatus high
  | 0xB4 => .undefB4
  | 0xB5 => decodeMmu w
  | 0xB6 => .setSmall rx v
  | 0xB7 => .setAlt rx v
  | 0xB8 => if v = 0 then .inc rx else .adi rx v
  | 0xB9 => if v = 0 then .dec rx else .sbi rx v
  | 0xBA => decodeJmi false w w1 w2
  | 0xBB => decodeJmi true w w1 w2
  | 0xBC => decodeHwq w
  | 0xBD => .slp
  | 0xBE => .swi
  | 0xBF => .rti
  | _ => .undefAcAd

/-- The length of an instruction in words, from the program word alone (R103). UNDEFINED and unassigned encodings
are one word long (R120, R280). -/
def wordCount (w : Word) : Nat :=
  let op := field w 0 8
  let a := field w 12 4
  let r := field w 9 3
  if op < 0x90 then
    if a = 0 then
      if r = 0 then (if 0x88 ≤ op then 1 else 2)
      else if r = 1 then 2 else 1
    else if a = 4 then 2 else 1
  else if op = 0xBA ∨ op = 0xBB then
    if a = 0 then
      if r = 0 then (if field w 8 1 = 1 then 3 else 2)
      else if r = 1 then 2 else 1
    else if a = 4 then 2 else 1
  else 1

/-- The instruction at the head of a byte sequence, and the bytes after it. -/
def decode : List Byte → Except DecodeError (Instr × List Byte)
  | b0 :: b1 :: rest =>
    let w := wordOfBytes b0 b1
    match wordCount w, rest with
    | 2, b2 :: b3 :: rest => .ok (decodeWords w (wordOfBytes b2 b3) 0, rest)
    | 3, b2 :: b3 :: b4 :: b5 :: rest => .ok (decodeWords w (wordOfBytes b2 b3) (wordOfBytes b4 b5), rest)
    | 1, rest => .ok (decodeWords w 0 0, rest)
    | _, _ => .error .truncated
  | _ => .error .truncated

/-- The `n` low bytes of a number, the least significant first: an instruction's bytes as memory holds them. -/
def tableBytes : Nat → Nat → List Byte
  | 0, _ => []
  | n + 1, v => BitVec.ofNat 8 v :: tableBytes n (v / 256)

/-- The decoder's answer on the instruction whose `nbits` bits are `w` and whose other bits are 0. -/
def decodeTableWord (nbits w : Nat) : Option Instr :=
  match decode (tableBytes 6 (w % 2 ^ nbits)) with
  | .ok (i, _) => some i
  | .error _ => none

/-- `w[15:12]` and `w[11:9]` of a memory mode (R105, R107). -/
def MemMode.modeBits : MemMode → Nat × Nat
  | .abs _ => (0, 1)
  | .ind r => (3, r.val)
  | .offset r _ => (4, r.val)
  | .stack s => (5, s.val)
  | .postInc r => (6, r.val)
  | .preDec r => (7, r.val)
  | .indexed r i => (8 + i.val, r.val)

/-- The operand words of a memory mode. -/
def MemMode.extra : MemMode → List Word
  | .abs a => [a]
  | .offset _ off => [off]
  | _ => []

/-- `w[15:12]` and `w[11:9]` of an ALU operand (R105). -/
def AluOperand.modeBits : AluOperand → Nat × Nat
  | .imm _ => (0, 0)
  | .proc p => (1, p.code)
  | .reg r => (2, r.val)
  | .mem m => m.modeBits

/-- The operand words of an ALU operand (R103). -/
def AluOperand.extra : AluOperand → List Word
  | .imm v => [v]
  | .proc _ => []
  | .reg _ => []
  | .mem m => m.extra

/-- `w[15:12]` and `w[11:9]` of a near jump's operand (R107). -/
def JmpOperand.modeBits : JmpOperand → Nat × Nat
  | .imm _ => (0, 0)
  | .reg r => (2, r.val)
  | .mem m => m.modeBits

/-- The operand words of a near jump (R103). -/
def JmpOperand.extra : JmpOperand → List Word
  | .imm v => [v]
  | .reg _ => []
  | .mem m => m.extra

/-- `w[15:12]` and `w[11:9]` of a far jump's operand (R107). -/
def FarOperand.modeBits : FarOperand → Nat × Nat
  | .imm _ _ => (0, 0)
  | .reg r => (2, r.val)
  | .mem m => m.modeBits

/-- The operand words of a far jump (R103). -/
def FarOperand.extra : FarOperand → List Word
  | .imm lower upper => [lower, upper]
  | .reg _ => []
  | .mem m => m.extra

/-- The word `AAAA rrrE OOOO ORRR` (R104). -/
def aluWord (op : AluOp) (sz : Size) (rx : Reg) (mode : Nat × Nat) : Word :=
  BitVec.ofNat 16 (mode.1 * 4096 + mode.2 * 512 + sz.code * 256 + op.code * 8 + rx.val)

/-- The operand words of an ALU instruction: the UNDEFINED STO with the Immediate mode has none (R120). -/
def aluExtra (op : AluOp) (m : AluOperand) : List Word :=
  match op, m with
  | .sto, .imm _ => []
  | _, m => m.extra

/-- An ALU instruction's words. -/
def encodeAlu (op : AluOp) (sz : Size) (rx : Reg) (m : AluOperand) : List Word :=
  aluWord op sz rx m.modeBits :: aluExtra op m

/-- The word `AAAA rrrF 1011 101L` (R106). -/
def jmiWord (call far : Bool) (mode : Nat × Nat) : Word :=
  BitVec.ofNat 16 (mode.1 * 4096 + mode.2 * 512 + (if far then 256 else 0) + (if call then 0xBB else 0xBA))

/-- A near jump's or call's words. -/
def encodeNear (call : Bool) (m : JmpOperand) : List Word := jmiWord call false m.modeBits :: m.extra

/-- A far jump's or call's words. -/
def encodeFar (call : Bool) (m : FarOperand) : List Word := jmiWord call true m.modeBits :: m.extra

/-- A one-word instruction whose high octet is `high` and whose opcode is `op`. -/
def wordOf (high op : Nat) : List Word := [BitVec.ofNat 16 (high * 256 + op)]

/-- `rrr0 ssss` of the immediate shift and bit-test forms (R109, R110). -/
def immHigh (rx : Reg) (n : BitVec 4) : Nat := rx.val * 32 + n.toNat

/-- `rrr1 0sss` of the register shift and bit-test forms (R109, R110). -/
def regHigh (rx : Reg) (r : Reg) : Nat := rx.val * 32 + 16 + r.val

/-- `RRRv vvvv` of the IMM and SEI patterns (R113, R115). -/
def valueHigh (rx : Reg) (v : BitVec 5) : Nat := rx.val * 32 + v.toNat

/-- The words of an instruction. -/
def encode : Instr → List Word
  | .nop => [0x2080]
  | .aluImmediate op sz rx v => encodeAlu op sz rx (.imm v)
  | .aluAbsolute op sz rx a => encodeAlu op sz rx (.mem (.abs a))
  | .aluProcReg op rx p => encodeAlu op .word rx (.proc p)
  | .aluRegister op sz rx r => encodeAlu op sz rx (.reg r)
  | .aluIndirect op sz rx r => encodeAlu op sz rx (.mem (.ind r))
  | .aluIndirectOffset op sz rx r off => encodeAlu op sz rx (.mem (.offset r off))
  | .aluStackOffset op sz rx s => encodeAlu op sz rx (.mem (.stack s))
  | .aluPostInc op sz rx r => encodeAlu op sz rx (.mem (.postInc r))
  | .aluPreDec op sz rx r => encodeAlu op sz rx (.mem (.preDec r))
  | .aluIndexed op sz rx r i => encodeAlu op sz rx (.mem (.indexed r i))
  | .aluUnassigned op sz rx r => [aluWord op sz rx (0, r.val)]
  | .cmp sz rx m => encodeAlu .cmp sz rx m
  | .neg sz rx m => encodeAlu .neg sz rx m
  | .add sz rx m => encodeAlu .add sz rx m
  | .sub sz rx m => encodeAlu .sub sz rx m
  | .adc sz rx m => encodeAlu .adc sz rx m
  | .sbc sz rx m => encodeAlu .sbc sz rx m
  | .mul sz rx m => encodeAlu .mul sz rx m
  | .div sz rx m => encodeAlu .div sz rx m
  | .mli sz rx m => encodeAlu .mli sz rx m
  | .dvi sz rx m => encodeAlu .dvi sz rx m
  | .mod sz rx m => encodeAlu .mod sz rx m
  | .mdi sz rx m => encodeAlu .mdi sz rx m
  | .and sz rx m => encodeAlu .and sz rx m
  | .orr sz rx m => encodeAlu .orr sz rx m
  | .eor sz rx m => encodeAlu .eor sz rx m
  | .not sz rx m => encodeAlu .not sz rx m
  | .lod sz rx m => encodeAlu .lod sz rx m
  | .undefStoImmediate sz rx => [aluWord .sto sz rx (0, 0)]
  | .undefStoRegister r sz rx => [aluWord .sto sz rx (2, r.val)]
  | .sto sz rx m => encodeAlu .sto sz rx m
  | .bcc off => wordOf off.toNat 0x90
  | .bcs off => wordOf off.toNat 0x91
  | .bne off => wordOf off.toNat 0x92
  | .beq off => wordOf off.toNat 0x93
  | .bpl off => wordOf off.toNat 0x94
  | .bmi off => wordOf off.toNat 0x95
  | .bvc off => wordOf off.toNat 0x96
  | .bvs off => wordOf off.toNat 0x97
  | .bug off => wordOf off.toNat 0x98
  | .bsg off => wordOf off.toNat 0x99
  | .baw off => wordOf off.toNat 0x9F
  | .undefBranch10 => wordOf 0 0x9A
  | .undefBranch11 => wordOf 0 0x9B
  | .undefBranch12 => wordOf 0 0x9C
  | .undefBranch13 => wordOf 0 0x9D
  | .undefBranch14 => wordOf 0 0x9E
  | .aslImm rx n => wordOf (immHigh rx n) 0xA0
  | .aslReg rx r => wordOf (regHigh rx r) 0xA0
  | .lslImm rx n => wordOf (immHigh rx n) 0xA1
  | .lslReg rx r => wordOf (regHigh rx r) 0xA1
  | .rolImm rx n => wordOf (immHigh rx n) 0xA2
  | .rolReg rx r => wordOf (regHigh rx r) 0xA2
  | .rnlImm rx n => wordOf (immHigh rx n) 0xA3
  | .rnlReg rx r => wordOf (regHigh rx r) 0xA3
  | .asrImm rx n => wordOf (immHigh rx n) 0xA4
  | .asrReg rx r => wordOf (regHigh rx r) 0xA4
  | .lsrImm rx n => wordOf (immHigh rx n) 0xA5
  | .lsrReg rx r => wordOf (regHigh rx r) 0xA5
  | .rorImm rx n => wordOf (immHigh rx n) 0xA6
  | .rorReg rx r => wordOf (regHigh rx r) 0xA6
  | .rnrImm rx n => wordOf (immHigh rx n) 0xA7
  | .rnrReg rx r => wordOf (regHigh rx r) 0xA7
  | .bttImm rx n => wordOf (immHigh rx n) 0xA8
  | .bttReg rx r => wordOf (regHigh rx r) 0xA8
  | .btxImm rx n => wordOf (immHigh rx n) 0xA9
  | .btxReg rx r => wordOf (regHigh rx r) 0xA9
  | .btcImm rx n => wordOf (immHigh rx n) 0xAA
  | .btcReg rx r => wordOf (regHigh rx r) 0xAA
  | .btsImm rx n => wordOf (immHigh rx n) 0xAB
  | .btsReg rx r => wordOf (regHigh rx r) 0xAB
  | .undefAcAd => wordOf 0 0xAC
  | .sef mask => wordOf (mask.toNat * 16) 0xAE
  | .clf mask => wordOf (mask.toNat * 16) 0xAF
  | .pshGeneral mask => wordOf mask.toNat 0xB0
  | .pshStatus mask => wordOf mask.toNat 0xB1
  | .popGeneral mask => wordOf mask.toNat 0xB2
  | .rts => [0x40B3]
  | .popStatus mask => wordOf mask.toNat 0xB3
  | .undefB4 => wordOf 0 0xB4
  | .mmr rv ra => wordOf (rv.val * 32 + ra.val * 4 + 0) 0xB5
  | .mmw rv ra => wordOf (rv.val * 32 + ra.val * 4 + 1) 0xB5
  | .mml rv => wordOf (rv.val * 32 + 2) 0xB5
  | .mms rv => wordOf (rv.val * 32 + 3) 0xB5
  | .setSmall rx v => wordOf (valueHigh rx v) 0xB6
  | .setAlt rx v => wordOf (valueHigh rx v) 0xB7
  | .inc rx => wordOf (valueHigh rx 0) 0xB8
  | .adi rx v => wordOf (valueHigh rx v) 0xB8
  | .dec rx => wordOf (valueHigh rx 0) 0xB9
  | .sbi rx v => wordOf (valueHigh rx v) 0xB9
  | .jmiImmediateNear call t => encodeNear call (.imm t)
  | .jmiAbsoluteNear call a => encodeNear call (.mem (.abs a))
  | .jmiRegisterNear call r => encodeNear call (.reg r)
  | .jmiIndirectNear call r => encodeNear call (.mem (.ind r))
  | .jmiIndirectOffsetNear call r off => encodeNear call (.mem (.offset r off))
  | .jmiStackOffsetNear call s => encodeNear call (.mem (.stack s))
  | .jmiPostIncNear call r => encodeNear call (.mem (.postInc r))
  | .jmiPreDecNear call r => encodeNear call (.mem (.preDec r))
  | .jmiIndexedNear call r i => encodeNear call (.mem (.indexed r i))
  | .jmiImmediateFar call lower upper => encodeFar call (.imm lower upper)
  | .jmiAbsoluteFar call a => encodeFar call (.mem (.abs a))
  | .jmiRegisterFar call r => encodeFar call (.reg r)
  | .jmiIndirectFar call r => encodeFar call (.mem (.ind r))
  | .jmiIndirectOffsetFar call r off => encodeFar call (.mem (.offset r off))
  | .jmiStackOffsetFar call s => encodeFar call (.mem (.stack s))
  | .jmiPostIncFar call r => encodeFar call (.mem (.postInc r))
  | .jmiPreDecFar call r => encodeFar call (.mem (.preDec r))
  | .jmiIndexedFar call r i => encodeFar call (.mem (.indexed r i))
  | .jmiUnassigned call far procRow r => [jmiWord call far (if procRow then 1 else 0, r.val)]
  | .jmp m => encodeNear false m
  | .jmpF m => encodeFar false m
  | .jsr m => encodeNear true m
  | .jsrF m => encodeFar true m
  | .hwq00 => wordOf 0x00 0xBC
  | .hwq01 => wordOf 0x01 0xBC
  | .hwq02 => wordOf 0x02 0xBC
  | .hwq80 => wordOf 0x80 0xBC
  | .hwq81 => wordOf 0x81 0xBC
  | .hwqUnassigned index => wordOf index.toNat 0xBC
  | .slp => wordOf 0 0xBD
  | .swi => wordOf 0 0xBE
  | .rti => wordOf 0 0xBF
  | .undefC0FF => wordOf 0 0xC0

/-- The bytes of an instruction as memory holds them (R101). -/
def encodeBytes (i : Instr) : List Byte := (encode i).flatMap bytesOfWord

/-- The name the opcode table's first matching row gives an instruction's words. -/
def Instr.primary : Instr → Instr
  | .aluImmediate op sz rx v => aluInstr op sz rx (.imm v)
  | .aluAbsolute op sz rx a => aluInstr op sz rx (.mem (.abs a))
  | .aluProcReg op rx p => aluInstr op .word rx (.proc p)
  | .aluRegister op sz rx r => aluInstr op sz rx (.reg r)
  | .aluIndirect op sz rx r => aluInstr op sz rx (.mem (.ind r))
  | .aluIndirectOffset op sz rx r off => aluInstr op sz rx (.mem (.offset r off))
  | .aluStackOffset op sz rx s => aluInstr op sz rx (.mem (.stack s))
  | .aluPostInc op sz rx r => aluInstr op sz rx (.mem (.postInc r))
  | .aluPreDec op sz rx r => aluInstr op sz rx (.mem (.preDec r))
  | .aluIndexed op sz rx r i => aluInstr op sz rx (.mem (.indexed r i))
  | .lod sz rx m => aluInstr .lod sz rx m
  | .adi rx v => if v = 0 then .inc rx else .adi rx v
  | .sbi rx v => if v = 0 then .dec rx else .sbi rx v
  | .popStatus mask => if mask = 0x40 then .rts else .popStatus mask
  | .jmiImmediateNear call t => if call then .jsr (.imm t) else .jmp (.imm t)
  | .jmiAbsoluteNear call a => if call then .jsr (.mem (.abs a)) else .jmp (.mem (.abs a))
  | .jmiRegisterNear call r => if call then .jsr (.reg r) else .jmp (.reg r)
  | .jmiIndirectNear call r => if call then .jsr (.mem (.ind r)) else .jmp (.mem (.ind r))
  | .jmiIndirectOffsetNear call r off => if call then .jsr (.mem (.offset r off)) else .jmp (.mem (.offset r off))
  | .jmiStackOffsetNear call s => if call then .jsr (.mem (.stack s)) else .jmp (.mem (.stack s))
  | .jmiPostIncNear call r => if call then .jsr (.mem (.postInc r)) else .jmp (.mem (.postInc r))
  | .jmiPreDecNear call r => if call then .jsr (.mem (.preDec r)) else .jmp (.mem (.preDec r))
  | .jmiIndexedNear call r i => if call then .jsr (.mem (.indexed r i)) else .jmp (.mem (.indexed r i))
  | .jmiImmediateFar call lower upper => if call then .jsrF (.imm lower upper) else .jmpF (.imm lower upper)
  | .jmiAbsoluteFar call a => if call then .jsrF (.mem (.abs a)) else .jmpF (.mem (.abs a))
  | .jmiRegisterFar call r => if call then .jsrF (.reg r) else .jmpF (.reg r)
  | .jmiIndirectFar call r => if call then .jsrF (.mem (.ind r)) else .jmpF (.mem (.ind r))
  | .jmiIndirectOffsetFar call r off => if call then .jsrF (.mem (.offset r off)) else .jmpF (.mem (.offset r off))
  | .jmiStackOffsetFar call s => if call then .jsrF (.mem (.stack s)) else .jmpF (.mem (.stack s))
  | .jmiPostIncFar call r => if call then .jsrF (.mem (.postInc r)) else .jmpF (.mem (.postInc r))
  | .jmiPreDecFar call r => if call then .jsrF (.mem (.preDec r)) else .jmpF (.mem (.preDec r))
  | .jmiIndexedFar call r i => if call then .jsrF (.mem (.indexed r i)) else .jmpF (.mem (.indexed r i))
  | i => i

end Sys2Proof
end

