-- ==== Sys2Proof/Config.lean ====
section
/-! DEFINITION. The implementation parameters of spec/00_scope.md R5 as plain data, and the free values: opaque
constants about which nothing can be proved. -/

namespace Sys2Proof

/-- What fetching an instruction at an odd address does (spec/20_memory.md R77, D3). -/
inductive OddPcPolicy where
  | refuse | split
  deriving DecidableEq, Repr

/-- What a branch offset is relative to (spec/43_branch.md R210, D9). -/
inductive BranchBase where
  | instr | next
  deriving DecidableEq, Repr

/-- Which MMU cache word an MMR or MMW index names (spec/48_processor.md R269, D23). -/
inductive MmuIndexMap where
  | compact | wide
  deriving DecidableEq, Repr

/-- What a memory bank exposed by a device is (spec/20_memory.md R75): plain memory, read-only memory, or a bank
whose accesses have side effects in the device. -/
inductive BankKind where
  | ram | rom | active
  deriving DecidableEq, Repr

/-- A memory bank a device exposes, under its 8-bit index. -/
structure DeviceBank where
  index : Byte
  kind : BankKind
  deriving DecidableEq, Repr

/-- The four words HWQ $01 returns (spec/48_processor.md R264). -/
structure Identity where
  deviceType : Word
  manufacturer : Word
  deviceId : Word
  flags : Word
  deriving DecidableEq, Repr, Inhabited

/-- A device at a bus index: `Devices` of spec/00_scope.md R5, as far as it is fixed data. Its answers to messages,
its memory accesses and its IRQ are inputs of a step. -/
structure Device where
  identity : Identity
  banks : List DeviceBank
  deriving DecidableEq, Repr

/-- The fixed parameters of a machine (spec/00_scope.md R5 and the parameter table of spec/92_eei_decisions.md).
`RomImage` is the part of memory in the ROM banks and stands in the state's memory. -/
structure Platform where
  ramBanks : Nat
  romBanks : Nat
  cpuInfo : Identity
  cpuFrequency : Nat
  oddPc : OddPcPolicy
  branchBase : BranchBase
  mmuIndexMap : MmuIndexMap
  deriving DecidableEq, Repr

/-- The values the parameter table allows; a frequency of at least 1024 Hz is spec/48_processor.md R267. -/
def Platform.valid (p : Platform) : Bool :=
  decide (4 ≤ p.ramBanks ∧ p.ramBanks ≤ 128 ∧ 1 ≤ p.romBanks ∧ p.romBanks ≤ 128 ∧ 1024 ≤ p.cpuFrequency)

/-- The date and time words of the RTC, field by field (spec/48_processor.md R266, D40). `yearTop` is bit 15 of the
first word, which the spec leaves free. -/
structure RtcTime where
  yearTop : Bool
  year : BitVec 7
  month : BitVec 4
  day : BitVec 5
  hour : BitVec 5
  minute : BitVec 6
  second : BitVec 6
  tick : Word
  deriving DecidableEq, Repr, Inhabited

/-- A byte a device writes at a physical address (spec/20_memory.md R79). -/
structure DeviceWrite where
  addr : PAddr
  value : Byte
  deriving DecidableEq, Repr, Inhabited

/-- What a device answers to HWQ $02 (spec/48_processor.md R265, the table's last four rows). -/
inductive Reply where
  /-- MSG_ACK: R1 and R2 may be return parameters, and memory may have been written. -/
  | ack (r1 r2 : Word) (writes : List DeviceWrite)
  /-- MSG_WAIT: the device will raise its IRQ later. -/
  | wait
  /-- MSG_ERROR: R1 and R2 remain unchanged. -/
  | error
  deriving DecidableEq, Repr, Inhabited

/-- FREE VALUE (log 9): the RTC's time at its n-th reading, given the time it last showed. -/
opaque Config.rtcNow : Nat → RtcTime → RtcTime

/-- FREE VALUE (log 8): a device's answer to a message with the two parameter words. -/
opaque Config.deviceReply : Nat → Word → Word → Reply

/-- FREE VALUE (log 10): the byte a device bank with side effects gives when it is read. -/
opaque Config.deviceByte : Nat → PAddr → Byte

/-- FREE VALUE (log 6): which of several asynchronous interrupts that are ready is taken first. -/
opaque Config.asyncPick : Nat → Nat

/-- FREE VALUE (log 11): the identity words of the YCPU itself after reset. -/
opaque Config.cpuInfo : Identity

/-- FREE VALUE (log 11): by how much the CPU frequency after reset exceeds 1024 Hz. -/
opaque Config.cpuFrequencyAbove1024 : Nat

/-- The platform of the state after reset: the defaults of the parameter table, the words it leaves free left free. -/
def Platform.default : Platform :=
  { ramBanks := 4, romBanks := 1, cpuInfo := Config.cpuInfo,
    cpuFrequency := 1024 + Config.cpuFrequencyAbove1024,
    oddPc := .refuse, branchBase := .instr, mmuIndexMap := .compact }

end Sys2Proof
end

