-- ==== Sys2Proof/Machine/State.lean ====
section
/-! DEFINITION. The state of the machine as plain data: every register, cache word, line and hidden flag of
spec/10_state.md, memory, the parameters, and the model's own inputs; the reasons a step can stop; reset. -/

namespace Sys2Proof.Machine

/-- The devices attached to the bus, by bus index; the entry of index 0 is not used (spec/60_exceptions.md R307:
"Device Index 0 on the Hardware Bus refers to the YCPU itself"). -/
abbrev DeviceTable := Vector (Option Device) 16

/-- The Real Time Clock (spec/60_exceptions.md R306). -/
structure Rtc where
  /-- The CLOCK interrupt is enabled. -/
  enabled : Bool
  /-- Its rate in Hz. -/
  rate : Word
  /-- The time last read (spec/48_processor.md R266). -/
  time : RtcTime
  deriving DecidableEq, Repr

/-- The lines and events the processor samples before an instruction (spec/10_state.md R45). -/
structure Lines where
  /-- The RESET line is high (spec/60_exceptions.md R282). -/
  reset : Bool
  /-- The RTC ticks now (R283). -/
  clock : Bool
  /-- The hardware on the bus has changed and BusRefresh waits to be taken (R292). -/
  busRefresh : Bool
  /-- The DEBUG line is raised (R293). -/
  debug : Bool
  /-- Bit i: the device at bus index i asserts its IRQ (R291, R300). -/
  irq : BitVec 16
  /-- Bit i: the device at bus index i is reading or writing memory (spec/20_memory.md R79). -/
  busy : BitVec 16
  deriving DecidableEq, Repr

/-- What the outside does at one step (log 5). -/
structure Inputs where
  /-- The lines. `busRefresh` here says only whether a change of an earlier step is still signalled: a change of this
  step raises it by itself (log 32). -/
  lines : Lines
  /-- What is attached to the bus from now on, when a device is attached or removed at this step (R292). -/
  devices : Option DeviceTable
  /-- The device writes, one list for each moment before a memory access cycle of the step (spec/20_memory.md R79). -/
  writes : List (List DeviceWrite)
  deriving DecidableEq, Repr

/-- The machine (spec/10_state.md). -/
structure State where
  /-- R0 to R7 (R20). -/
  regs : Vector Word 8
  /-- FL: N 15, Z 14, C 13, V 12, the rest storage (R24). -/
  fl : Word
  /-- PC (R27). -/
  pc : Word
  /-- PS: S 15, M 14, I 13, Q 11, U 10, W 9, the rest storage (R29 to R35). -/
  ps : Word
  /-- P2 (R36). -/
  p2 : Word
  /-- II (R26). -/
  ii : Word
  /-- IA (R25). -/
  ia : Word
  /-- USP (R37). -/
  usp : Word
  /-- SSP (R37). -/
  ssp : Word
  /-- MMU_U[0..3] (R42, R43). -/
  mmuU : Vector Word 4
  /-- MMU_S[0..3] (R42, R43). -/
  mmuS : Vector Word 4
  /-- Physical memory by 26-bit address (R44), in canonical form (`Mem.wf`). -/
  mem : List Host.Cell
  /-- The halted flag (R45). -/
  halted : Bool
  /-- The RTC (R45). -/
  rtc : Rtc
  /-- The temporary register of the interrupt sequence (R45). -/
  tempPs : Word
  /-- The lines the processor samples (R45). -/
  lines : Lines
  /-- What is attached to the bus (spec/00_scope.md R5 `Devices`). -/
  devices : DeviceTable
  /-- The other parameters of spec/00_scope.md R5. -/
  platform : Platform
  /-- The MODEL's own: what the outside does at each coming step (log 5). -/
  inputs : List Inputs
  /-- The MODEL's own: the device writes before each coming access cycle (log 7). -/
  bus : List (List DeviceWrite)
  /-- The MODEL's own: how many free values have been drawn (log 24). -/
  freeCount : Nat
  deriving DecidableEq, Repr

/-- Why the machine stops. -/
inductive Fault where
  /-- Raised by the interrupt sequence whose own push or vector read is refused by the MMU: the spec calls this
  `stuck`, "the processor has no defined next step" (spec/60_exceptions.md R303, U13). Safe. -/
  | stuckInInterrupt
  deriving DecidableEq, Repr

/-- Why the model gives no meaning. Each is a case of which the spec says that a model must `refuse` it. -/
inductive Refusal where
  /-- Raised by the dispatcher for an instruction without a meaning. Safe. -/
  | notModelled (mnemonic : String)
  /-- Raised by the ALU pattern with an unassigned mode (spec/30_encoding.md R121, U3). Safe. -/
  | unassignedAluMode
  /-- Raised by the JMI pattern with an unassigned mode (R121, U3). Safe. -/
  | unassignedJumpMode
  /-- Raised by HWQ with an unassigned operation index in Supervisor mode (spec/48_processor.md R268, U3). Safe. -/
  | unassignedHwqIndex
  /-- Raised by an ALU instruction whose Rx is also its PostInc or PreDec base (spec/40_alu.md R140, U4). Safe. -/
  | baseIsRx
  /-- Raised by MUL and MLI in 8-bit mode (R142, U5). Safe. -/
  | byteMultiply
  /-- Raised by MMR and MMW when the index names no cache word (spec/48_processor.md R269, R270, U6). Safe. -/
  | mmuIndexNamesNothing
  /-- Raised by the fetch at an odd PC under `OddPcPolicy = refuse` (spec/20_memory.md R77, U12). Safe. -/
  | oddPc
  deriving DecidableEq, Repr

/-- The byte address whose access an MMU check refused, and the values of PS.U and PS.W that describe it
(spec/20_memory.md R68, R69). -/
structure BankFault where
  addr : Word
  user : Bool
  write : Bool
  deriving DecidableEq, Repr

/-- The interrupts that enter through the sequence of spec/60_exceptions.md R295: all of R281 that are ever raised,
but for Reset. -/
inductive Interrupt where
  | clock
  | divideByZero
  | bankFault (f : BankFault)
  | unprivOpcode
  | undefOpcode
  | hwi
  | busRefresh
  | debugQuery
  | swi
  deriving DecidableEq, Repr

/-- The result of a part of an instruction: a value and the state after it, an interrupt raised with the state its
partial effects leave (D20), or a refusal. -/
inductive Res (α : Type) where
  | ok (v : α) (s : State)
  | trap (t : Interrupt) (s : State)
  | refuse (r : Refusal)
  deriving Repr

/-- Whether an access reads or writes (spec/20_memory.md R67, R68). -/
inductive Access where
  | read | write
  deriving DecidableEq, Repr

/-- What stands behind a physical address (R72 to R75). -/
inductive Backing where
  /-- Reads back what was written. -/
  | ram
  /-- Reads; writes are dropped. -/
  | rom
  /-- Not connected: reads with all bits set; writes are dropped. -/
  | absent
  /-- A device bank whose accesses are the device's business. -/
  | active
  deriving DecidableEq, Repr

/-- What one step answers. -/
abbrev Result := Host.Outcome State Fault Refusal

/-- All lines low. -/
def Lines.quiet : Lines :=
  { reset := false, clock := false, busRefresh := false, debug := false, irq := 0, busy := 0 }

/-- The machine after the RESET interrupt (spec/10_state.md R48, spec/70_reset_and_hazards.md R330): PS, IA, the RTC
enable, the halted flag and PC as stated; every other register 0 (DESIGN CHOICE, log 2); memory with nothing listed
(log 3), so that the word at the reset vector is $0000; the default parameters (log 1, log 11). -/
def State.reset : State :=
  { regs := Vector.replicate 8 0
    fl := 0
    pc := 0
    ps := 0x8000
    p2 := 0
    ii := 0
    ia := 0
    usp := 0
    ssp := 0
    mmuU := Vector.replicate 4 0
    mmuS := Vector.replicate 4 0
    mem := []
    halted := false
    rtc := { enabled := false, rate := 0,
             time := { yearTop := false, year := 0, month := 0, day := 0, hour := 0, minute := 0, second := 0, tick := 0 } }
    tempPs := 0
    lines := Lines.quiet
    devices := Vector.replicate 16 none
    platform := Platform.default
    inputs := []
    bus := []
    freeCount := 0 }

end Sys2Proof.Machine
end

