-- ==== Sys2Proof/Machine/Ops.lean ====
section
/-! DEFINITION. The named operations over registers and memory: register access (spec/10_state.md), translation,
protection and memory access (spec/20_memory.md), the stack primitives, taking an interrupt, RESET and the return from
an interrupt (spec/60_exceptions.md, spec/70_reset_and_hazards.md, spec/45_interrupt_instr.md). -/

namespace Sys2Proof.Machine

/-! ## Results -/

/-- Go on with the value and the state of a part that completed. -/
def Res.bind {α β : Type} : Res α → (α → State → Res β) → Res β
  | .ok v s, k => k v s
  | .trap t s, _ => .trap t s
  | .refuse r, _ => .refuse r

/-! ## Bits -/

/-- `w` with bit `n` set to `b`. -/
def putBit (w : Word) (n : Nat) (b : Bool) : Word :=
  if b then w ||| BitVec.twoPow 16 n else w &&& ~~~ BitVec.twoPow 16 n

/-! ## Memory as a canonical list -/

/-- What an address with no entry reads as (DESIGN CHOICE, log 3). -/
def Mem.unlisted : Byte := 0x00

/-- The byte at an address. -/
def Mem.get : List Host.Cell → Nat → Byte
  | [], _ => Mem.unlisted
  | (k, v) :: rest, a => if k = a then v else Mem.get rest a

/-- Memory with the byte at an address replaced, the canonical form kept. -/
def Mem.set : List Host.Cell → Nat → Byte → List Host.Cell
  | [], a, v => if v = Mem.unlisted then [] else [(a, v)]
  | (k, w) :: rest, a, v =>
    if k = a then (if v = Mem.unlisted then rest else (a, v) :: rest)
    else if a < k then (if v = Mem.unlisted then (k, w) :: rest else (a, v) :: (k, w) :: rest)
    else (k, w) :: Mem.set rest a v

/-- The keys of a memory are above a bound and rise strictly, below the end of the physical space, and no entry holds
what an unlisted address reads as. -/
def Mem.wfFrom : Nat → List Host.Cell → Bool
  | _, [] => true
  | bound, (k, v) :: rest => decide (bound ≤ k ∧ k < 2 ^ 26) && (v != Mem.unlisted) && Mem.wfFrom (k + 1) rest

/-- The canonical form. -/
def Mem.wf (m : List Host.Cell) : Bool := Mem.wfFrom 0 m

/-! ## Registers -/

/-- General register r (spec/10_state.md R20). -/
def State.reg (s : State) (r : Reg) : Word := s.regs[r]

/-- Write general register r. -/
def State.setReg (s : State) (r : Reg) (v : Word) : State := { s with regs := s.regs.set r v }

/-- PS.S: Supervisor mode (R30). -/
def State.supervisor (s : State) : Bool := s.ps.getLsbD 15

/-- PS.M: the MMU is enabled (R31). -/
def State.mmuOn (s : State) : Bool := s.ps.getLsbD 14

/-- PS.I: hardware interrupts are enabled (R32). -/
def State.irqEnabled (s : State) : Bool := s.ps.getLsbD 13

/-- PS.Q: hardware interrupts are blocked (R33). -/
def State.irqBlocked (s : State) : Bool := s.ps.getLsbD 11

/-- The current stack pointer: SSP in Supervisor mode, USP in User mode (R39). -/
def State.sp (s : State) : Word := if s.supervisor then s.ssp else s.usp

/-- Write the current stack pointer (R39). -/
def State.setSp (s : State) (v : Word) : State := if s.supervisor then { s with ssp := v } else { s with usp := v }

/-- Set PC. -/
def State.setPc (s : State) (v : Word) : State := { s with pc := v }

/-- `PReg(p)` read (R41). While an instruction executes PC holds `pcn` (R28). -/
def State.proc (s : State) : ProcReg → Word
  | .fl => s.fl
  | .pc => s.pc
  | .ps => s.ps
  | .p2 => s.p2
  | .ii => s.ii
  | .ia => s.ia
  | .usp => s.usp
  | .sp => s.sp

/-- `PReg(p)` written, all 16 bits (R41, spec/40_alu.md R143). -/
def State.setProc (s : State) (p : ProcReg) (v : Word) : State :=
  match p with
  | .fl => { s with fl := v }
  | .pc => { s with pc := v }
  | .ps => { s with ps := v }
  | .p2 => { s with p2 := v }
  | .ii => { s with ii := v }
  | .ia => { s with ia := v }
  | .usp => { s with usp := v }
  | .sp => s.setSp v

/-- The processor registers of the table of R41 that are "Supervisor only". -/
def supervisorOnly : ProcReg → Bool
  | .ps | .p2 | .ii | .ia => true
  | .fl | .pc | .usp | .sp => false

/-! ## The MMU -/

/-- The logical bank of an address, its high two bits (spec/20_memory.md R67). -/
def bankOf (a : Word) : Fin 4 := (a.extractLsb' 14 2).toFin

/-- The words the fixed map with the MMU disabled is equivalent to (R66). -/
def fixedWord : Fin 4 → Word
  | 0 => 0x0080
  | 1 => 0x0001
  | 2 => 0x0002
  | 3 => 0x0003

/-- The word that translates a logical bank: the fixed map, or the cache half of the mode in force (R66, R67). -/
def State.mapWord (s : State) (k : Fin 4) : Word :=
  if s.mmuOn then (if s.supervisor then s.mmuS[k] else s.mmuU[k]) else fixedWord k

/-- The physical address `D ++ b ++ a[13:0]` (R67, R71). -/
def physAddr (e a : Word) : PAddr := e.extractLsb' 0 12 ++ a.extractLsb' 0 14

/-- The physical address of a logical byte address under the mapping in force. -/
def State.translate (s : State) (a : Word) : PAddr := physAddr (s.mapWord (bankOf a)) a

/-- The protection checks for one byte, in the order P, S, W (R68, D18). -/
def State.check (s : State) (kind : Access) (a : Word) : Option BankFault :=
  let e := s.mapWord (bankOf a)
  if s.mmuOn then
    if e.getLsbD 13 then some { addr := a, user := false, write := false }
    else if !s.supervisor && e.getLsbD 15 then some { addr := a, user := true, write := kind == .write }
    else if kind == .write && e.getLsbD 14 then some { addr := a, user := false, write := true }
    else none
  else none

/-- Both bytes of a 16-bit access are checked before either is transferred; the lower failing one is reported
(R65, R69, D19). -/
def State.checkSized (s : State) (kind : Access) (sz : Size) (a : Word) : Option BankFault :=
  match sz with
  | .byte => s.check kind a
  | .word => (s.check kind a).or (s.check kind (a + 1))

/-- The A flag of the cache word that translated a write is set while the MMU is on (R70, D21). -/
def State.touch (s : State) (a : Word) : State :=
  if s.mmuOn then
    let k := bankOf a
    if s.supervisor then { s with mmuS := s.mmuS.set k (putBit s.mmuS[k] 12 true) }
    else { s with mmuU := s.mmuU.set k (putBit s.mmuU[k] 12 true) }
  else s

/-! ## Physical memory -/

/-- What a bank of an attached device is. -/
def bankBacking : BankKind → Backing
  | .ram => .ram
  | .rom => .rom
  | .active => .active

/-- What stands behind bank b of device 0 (R72). -/
def ownBacking (p : Platform) (b : Byte) : Backing :=
  if b.toNat < 128 then (if b.toNat < p.ramBanks then .ram else .absent)
  else if b.toNat - 128 < p.romBanks then .rom else .absent

/-- What stands behind bank b of a device (R75). -/
def deviceBacking (d : Device) (b : Byte) : Backing :=
  match d.banks.find? (fun bank => bank.index == b) with
  | some bank => bankBacking bank.kind
  | none => .absent

/-- What stands behind a physical address. -/
def State.backing (s : State) (pa : PAddr) : Backing :=
  let d : BitVec 4 := pa.extractLsb' 22 4
  let b : Byte := pa.extractLsb' 14 8
  if d = 0 then ownBacking s.platform b
  else match s.devices[d.toFin] with
    | some dev => deviceBacking dev b
    | none => .absent

/-- `PhysRead` (R72 to R75). The byte of a device bank with side effects is a free value (log 10). -/
def State.physRead (s : State) (pa : PAddr) : Byte × State :=
  match s.backing pa with
  | .ram | .rom => (Mem.get s.mem pa.toNat, s)
  | .absent => (0xFF, s)
  | .active => (Config.deviceByte s.freeCount pa, { s with freeCount := s.freeCount + 1 })

/-- `PhysWrite` (R72 to R75, D22). -/
def State.physWrite (s : State) (pa : PAddr) (v : Byte) : State :=
  match s.backing pa with
  | .ram => { s with mem := Mem.set s.mem pa.toNat v }
  | .rom | .absent | .active => s

/-- Writes a device makes, in order (R79). -/
def State.deviceWrites (s : State) (ws : List DeviceWrite) : State :=
  ws.foldl (fun s w => s.physWrite w.addr w.value) s

/-- The moment before a memory access cycle, at which devices may write (R79, log 7). -/
def State.busCycle (s : State) : State :=
  match s.bus with
  | [] => s
  | ws :: rest => { s with bus := rest }.deviceWrites ws

/-! ## Memory access -/

/-- One byte in one access cycle. -/
def State.readByte (s : State) (pa : PAddr) : Byte × State := s.busCycle.physRead pa

/-- One byte in one access cycle. -/
def State.writeByte (s : State) (pa : PAddr) (v : Byte) : State := s.busCycle.physWrite pa v

/-- The two bytes of a word, the low octet first: one cycle when aligned, two when not (R61, R63). -/
def State.readPair (s : State) (aligned : Bool) (pa0 pa1 : PAddr) : Word × State :=
  let (lo, s1) := s.readByte pa0
  let (hi, s2) := if aligned then s1.physRead pa1 else s1.readByte pa1
  (hi ++ lo, s2)

/-- The two bytes of a word, the low octet first: one cycle when aligned, two when not (R61, R63). -/
def State.writePair (s : State) (aligned : Bool) (pa0 pa1 : PAddr) (v : Word) : State :=
  let s1 := s.writeByte pa0 (v.extractLsb' 0 8)
  if aligned then s1.physWrite pa1 (v.extractLsb' 8 8) else s1.writeByte pa1 (v.extractLsb' 8 8)

/-- Whether a word at an address takes one access cycle (R63). -/
def isAligned (a : Word) : Bool := !a.getLsbD 0

/-- `MemRead(a, n)` (R65); a byte is zero-extended. -/
def memRead (sz : Size) (a : Word) (s : State) : Res Word :=
  match s.checkSized .read sz a with
  | some f => .trap (.bankFault f) s
  | none =>
    match sz with
    | .byte =>
      let (b, s1) := s.readByte (s.translate a)
      .ok (b.setWidth 16) s1
    | .word =>
      let (v, s1) := s.readPair (isAligned a) (s.translate a) (s.translate (a + 1))
      .ok v s1

/-- The bytes a write that passed its checks moves. -/
def State.storeSized (s : State) (sz : Size) (a v : Word) : State :=
  match sz with
  | .byte => s.writeByte (s.translate a) (v.extractLsb' 0 8)
  | .word => s.writePair (isAligned a) (s.translate a) (s.translate (a + 1)) v

/-- The A flags a write that passed its checks sets (R70). -/
def State.touchSized (s : State) (sz : Size) (a : Word) : State :=
  match sz with
  | .byte => s.touch a
  | .word => (s.touch a).touch (a + 1)

/-- `MemWrite(a, n, v)` (R65). The A flags do not move the bytes: bit 12 is no part of a physical address. -/
def memWrite (sz : Size) (a v : Word) (s : State) : Res Unit :=
  match s.checkSized .write sz a with
  | some f => .trap (.bankFault f) s
  | none => .ok () ((s.storeSized sz a v).touchSized sz a)

/-! ## The stack -/

/-- `Push(v)`: SP is lowered before the write and stays lowered if it faults (spec/10_state.md R40, D20). -/
def push (v : Word) (s : State) : Res Unit :=
  let s1 := s.setSp (s.sp - 2)
  memWrite .word s1.sp v s1

/-- `Pop()`: SP is raised after a read that succeeded (R40). -/
def pop (s : State) : Res Word :=
  (memRead .word s.sp s).bind fun v s1 => .ok v (s1.setSp (s1.sp + 2))

/-- Push words one after the other. -/
def pushAll : List Word → State → Res Unit
  | [], s => .ok () s
  | v :: rest, s => (push v s).bind fun _ s1 => pushAll rest s1

/-! ## Interrupts -/

/-- The index in the vector table (spec/60_exceptions.md R281). -/
def Interrupt.index : Interrupt → Word
  | .clock => 0x1
  | .divideByZero => 0x2
  | .bankFault _ => 0x5
  | .unprivOpcode => 0x6
  | .undefOpcode => 0x7
  | .hwi => 0xC
  | .busRefresh => 0xD
  | .debugQuery => 0xE
  | .swi => 0xF

/-- PS after steps 2 and 3 of the interrupt sequence (R295): S set, Q set by HWI, U and W assigned by BankFault. -/
def Interrupt.entryPs (i : Interrupt) (ps : Word) : Word :=
  match i with
  | .hwi => putBit (putBit ps 15 true) 11 true
  | .bankFault f => putBit (putBit (putBit ps 15 true) 10 f.user) 9 f.write
  | _ => putBit ps 15 true

/-- Steps 1 to 3 of the interrupt sequence (R295). -/
def State.enter (s : State) (i : Interrupt) : State :=
  let s1 := { s with tempPs := s.ps, ps := i.entryPs s.ps }
  match i with
  | .bankFault f => { s1 with p2 := f.addr }
  | _ => s1

/-- The accesses of the interrupt sequence: push the saved PS, push PC, read the vector (R295, R297). -/
def interruptFrame (i : Interrupt) (savedPc : Word) (s : State) : Res Word :=
  (push s.tempPs s).bind fun _ s1 =>
  (push savedPc s1).bind fun _ s2 =>
  memRead .word (s2.ia + 2 * i.index) s2

/-- TAKING AN INTERRUPT, the whole sequence as one step (R295). An access of the sequence that the MMU refuses leaves
the processor stuck (R303). -/
def takeInterrupt (i : Interrupt) (savedPc : Word) (s : State) : Result :=
  match interruptFrame i savedPc (s.enter i) with
  | .ok vector s1 => .next { s1 with pc := vector, halted := false }
  | .trap _ _ => .fault .stuckInInterrupt
  | .refuse r => .refused r

/-- The RESET sequence (spec/70_reset_and_hazards.md R330). The vector is read with the MMU off and cannot fault. -/
def resetSequence (s : State) : Result :=
  let s1 := { s with rtc := { s.rtc with enabled := false }, ps := 0x8000, ia := 0 }
  match memRead .word 0 s1 with
  | .ok vector s2 => .next { s2 with pc := vector, halted := false }
  | .trap _ _ => .fault .stuckInInterrupt
  | .refuse r => .refused r

/-- RETURN FROM INTERRUPT: pop PC, pop PS, then PC and PS are written, PS with Q, U and W cleared
(spec/45_interrupt_instr.md R231). -/
def returnFromInterrupt (s : State) : Res Unit :=
  (pop s).bind fun newPc s1 =>
  (pop s1).bind fun newPs s2 =>
  .ok () { s2 with pc := newPc, ps := newPs &&& 0xF1FF }

/-! ## Running one instruction -/

/-- The PC an interrupt raised by an instruction saves: `pc0` for the error interrupts, `pcn` for SWI (R296). -/
def Interrupt.savedPc (i : Interrupt) (pc0 pcn : Word) : Word :=
  match i with
  | .swi => pcn
  | _ => pc0

/-- An instruction of `len` words at `pc0 = PC`: PC is set to `pcn = pc0 + 2*len` before its own effects
(spec/10_state.md R28), and an interrupt it raises is taken (spec/60_exceptions.md R280). -/
def runBody (len : Nat) (body : State → Res Unit) (s : State) : Result :=
  let pc0 := s.pc
  let pcn := pc0 + BitVec.ofNat 16 (2 * len)
  match body (s.setPc pcn) with
  | .ok _ s1 => .next s1
  | .trap t s1 => takeInterrupt t (t.savedPc pc0 pcn) s1
  | .refuse r => .refused r

/-- A privileged instruction: in User mode it raises UnprivOpcode and does nothing else (R305). -/
def privileged (body : State → Res Unit) (s : State) : Res Unit :=
  if s.supervisor then body s else .trap .unprivOpcode s

/-- An UNDEFINED encoding: one word long, UndefOpcode and no other effect (spec/30_encoding.md R120). -/
def undefinedBody (s : State) : Res Unit := .trap .undefOpcode s

end Sys2Proof.Machine
end

