-- ==== Sys2Proof/Machine/Cycle.lean ====
section
/-! DEFINITION. The parts of the instruction cycle (spec/60_exceptions.md R280): sampling the inputs, choosing an
asynchronous interrupt, fetching an instruction; and storing an instruction where the next fetch looks for it. -/

namespace Sys2Proof.Machine

/-! ## Inputs -/

/-- Whether BusRefresh is signalled after an entry of the script: it is raised when the entry attaches or removes a
device, and only then; raised before, it stays while the entry still signals it (R292, D26; log 32). -/
def Inputs.raisesRefresh (e : Inputs) (pending : Bool) : Bool := e.devices.isSome || (pending && e.lines.busRefresh)

/-- The start of a step: the next entry of the script, if any, gives the lines, the device table and the schedule of
device writes; without one the lines keep their levels (log 5). The device table changes only where BusRefresh is raised
with it (R292, U10; log 32). Memory is left as it is: the banks of a device that is attached hold what is listed at their
physical addresses, $00 elsewhere (DESIGN CHOICE, log 33). -/
def State.sample (s : State) : State :=
  match s.inputs with
  | [] => s
  | e :: rest =>
    { s with
      inputs := rest, lines := { e.lines with busRefresh := e.raisesRefresh s.lines.busRefresh },
      devices := e.devices.getD s.devices, bus := e.writes }

/-! ## Asynchronous interrupts -/

/-- The asynchronous interrupts but for Reset (R281). -/
inductive Async where
  | clock | hwi | busRefresh | debugQuery
  deriving DecidableEq, Repr

/-- The lowest bus index 1..15 whose device asserts its IRQ (R291). -/
def lowestIrq (irq : BitVec 16) : Option Nat := (List.range' 1 15).find? fun i => irq.getLsbD i

/-- Whether an asynchronous interrupt can be accepted now: Clock while the RTC interrupt is enabled (R283), HWI while
PS.I = 1 and PS.Q = 0 (R291, R300), BusRefresh and DebugQuery always (R292, R293, D26). -/
def State.accepts (s : State) : Async → Bool
  | .clock => s.lines.clock && s.rtc.enabled
  | .hwi => s.irqEnabled && !s.irqBlocked && (lowestIrq s.lines.irq).isSome
  | .busRefresh => s.lines.busRefresh
  | .debugQuery => s.lines.debug

/-- The asynchronous interrupts that are ready. -/
def State.ready (s : State) : List Async := [.clock, .hwi, .busRefresh, .debugQuery].filter s.accepts

/-- The one taken in this step: when several are ready the choice is free (R301, D26, log 6). -/
def chooseAsync (s : State) : Option (Async × State) :=
  match s.ready with
  | [] => none
  | [e] => some (e, s)
  | e :: more =>
    some ((e :: more).getD (Config.asyncPick s.freeCount % (more.length + 1)) e, { s with freeCount := s.freeCount + 1 })

/-- Accept an asynchronous interrupt: a tick, a change of the bus or a debug query is consumed, an IRQ is a level the
device drives (D39); HWI loads II (R291). The saved PC is the next instruction's (R296). -/
def takeAsync (e : Async) (s : State) : Result :=
  match e with
  | .clock => takeInterrupt .clock s.pc { s with lines := { s.lines with clock := false } }
  | .hwi => takeInterrupt .hwi s.pc { s with ii := BitVec.ofNat 16 ((lowestIrq s.lines.irq).getD 0) }
  | .busRefresh => takeInterrupt .busRefresh s.pc { s with lines := { s.lines with busRefresh := false } }
  | .debugQuery => takeInterrupt .debugQuery s.pc { s with lines := { s.lines with debug := false } }

/-! ## Fetch -/

/-- A fetch at this address is one the policy gives a meaning (spec/20_memory.md R77, D3). -/
def State.fetchable (s : State) : Bool := isAligned s.pc || s.platform.oddPc == .split

/-- The operand words after a program word, one read after the other (R77, spec/30_encoding.md R103). -/
def fetchOperands (w pc0 : Word) (s : State) : Res (Word × Word) :=
  match wordCount w with
  | 2 => (memRead .word (pc0 + 2) s).bind fun w1 s1 => .ok (w1, 0) s1
  | 3 =>
    (memRead .word (pc0 + 2) s).bind fun w1 s1 =>
    (memRead .word (pc0 + 4) s1).bind fun w2 s2 => .ok (w1, w2) s2
  | _ => .ok (0, 0) s

/-- The instruction at PC (R77, R280 step 4). -/
def fetch (s : State) : Res Instr :=
  (memRead .word s.pc s).bind fun w s1 =>
  (fetchOperands w s.pc s1).bind fun ws s2 => .ok (decodeWords w ws.1 ws.2) s2

/-! ## Placing an instruction -/

/-- Memory with bytes stored at the logical addresses from `a` up, through the mapping in force, whatever stands
behind them: the load of a program from outside (log 4). -/
def State.placeBytes (s : State) : Word → List Byte → State
  | _, [] => s
  | a, b :: rest => { s with mem := Mem.set s.mem (s.translate a).toNat b }.placeBytes (a + 1) rest

/-- The longest instruction, in bytes (spec/30_encoding.md R103). -/
def longestInstruction : Nat := 6

/-- The state with the outside quiet and the processor running: nothing comes before the next fetch. -/
def State.quietOutside (s : State) : State :=
  { s with inputs := [], bus := [], lines := Lines.quiet, halted := false }

end Sys2Proof.Machine
end

