-- ==== Sys2Proof/Machine/Flags.lean ====
section
/-! DEFINITION. FL and the flag computations (spec/10_state.md R24, spec/40_alu.md R142, R144). Every flag of an
operation of width w is computed at width w (D6); every "Set if" flag is assigned (D4). -/

namespace Sys2Proof.Machine

/-- The four flags of FL (R24). -/
structure Flags where
  n : Bool
  z : Bool
  c : Bool
  v : Bool
  deriving DecidableEq, Repr

/-- The flags in FL: N 15, Z 14, C 13, V 12 (R24). -/
def flagsOf (fl : Word) : Flags :=
  { n := fl.getLsbD 15, z := fl.getLsbD 14, c := fl.getLsbD 13, v := fl.getLsbD 12 }

/-- FL with its flags replaced; bits 11..0 keep their value (R24, D16). -/
def putFlags (fl : Word) (f : Flags) : Word :=
  putBit (putBit (putBit (putBit fl 15 f.n) 14 f.z) 13 f.c) 12 f.v

/-- The flags in force. -/
def State.flags (s : State) : Flags := flagsOf s.fl

/-- Assign the four flags. -/
def State.setFlags (s : State) (f : Flags) : State := { s with fl := putFlags s.fl f }

/-- `SetNZ(r)` (R144). -/
def Flags.setNZ {w : Nat} (f : Flags) (r : BitVec w) : Flags := { f with n := r.msb, z := r == 0#w }

/-- `AddW(a, b, cin)`: result, carry out of the top bit, signed overflow (R144). -/
def addW {w : Nat} (a b : BitVec w) (cin : Bool) : BitVec w × Bool × Bool :=
  let sum := a.toNat + b.toNat + cin.toNat
  let r := BitVec.ofNat w sum
  (r, decide (2 ^ w ≤ sum), a.msb == b.msb && r.msb != a.msb)

/-- `SubW(a, b, cin)`, which computes a - b - (1 - cin) (R144). -/
def subW {w : Nat} (a b : BitVec w) (cin : Bool) : BitVec w × Bool × Bool := addW a (~~~ b) cin

/-- All four flags from a sum or difference (R147 to R150). -/
def Flags.arith {w : Nat} (r : BitVec w) (carry overflow : Bool) : Flags :=
  { n := r.msb, z := r == 0#w, c := carry, v := overflow }

/-- The flags of CMP: N is the signed comparison itself; V is kept (R145). -/
def Flags.compare {w : Nat} (f : Flags) (a m : BitVec w) : Flags :=
  { f with n := decide (m.toInt ≤ a.toInt), z := a == m, c := decide (m.toNat ≤ a.toNat) }

/-- The flags of MUL and MLI, from the 32-bit product and the N the instruction gives; V is kept (R151, R153). -/
def Flags.product (f : Flags) (n : Bool) (p : BitVec 32) : Flags :=
  { f with n := n, z := p == 0, c := p.extractLsb' 16 16 != 0 }

end Sys2Proof.Machine
end

