-- ==== Sys2Proof/Machine/Operands.lean ====
section
/-! DEFINITION. Every operand form: the addressing modes (spec/20_memory.md R84, R85), the ALU operand
(spec/40_alu.md R140 to R143), the near and far jump operands (spec/46_jump.md R240, R241), shift counts and bit
numbers (spec/41_shift.md R180, spec/42_bittest.md R200). -/

namespace Sys2Proof.Machine

/-! ## Places in memory -/

/-- The address a memory mode names when `n` bytes are moved, from the state before the instruction; the lowered base
in the PreDec mode (R84, R85). -/
def effectiveAddress (m : MemMode) (n : Word) (s : State) : Word :=
  match m with
  | .abs a => a
  | .ind r => s.reg r
  | .offset r off => s.reg r + off
  | .stack slot => s.sp + 2 * BitVec.ofNat 16 slot.val
  | .postInc r => s.reg r
  | .preDec r => s.reg r - n
  | .indexed r i => s.reg r + s.reg i

/-- A PreDec base is lowered before the access (R140 step 3). -/
def lowerBase (m : MemMode) (n : Word) (s : State) : State :=
  match m with
  | .preDec r => s.setReg r (s.reg r - n)
  | _ => s

/-- A PostInc base is raised after the access has succeeded (R140 step 5). -/
def raiseBase (m : MemMode) (n a : Word) (s : State) : State :=
  match m with
  | .postInc r => s.setReg r (a + n)
  | _ => s

/-- Read the place a memory mode names. -/
def readPlace (sz : Size) (m : MemMode) (s : State) : Res Word :=
  let a := effectiveAddress m sz.bytes s
  (memRead sz a (lowerBase m sz.bytes s)).bind fun v s1 => .ok v (raiseBase m sz.bytes a s1)

/-- Write the place a memory mode names (STO). -/
def writePlace (sz : Size) (m : MemMode) (v : Word) (s : State) : Res Unit :=
  let a := effectiveAddress m sz.bytes s
  (memWrite sz a v (lowerBase m sz.bytes s)).bind fun _ s1 => .ok () (raiseBase m sz.bytes a s1)

/-! ## The operand of an ALU instruction -/

/-- The width of an operation: 16 bits in the ProcReg mode whatever E is (R105, R143). -/
def operandSize (m : AluOperand) (sz : Size) : Size :=
  match m with
  | .proc _ => .word
  | _ => sz

/-- Rx is also the base register of a PostInc or PreDec operand (R140, U4). -/
def baseIsRx (m : AluOperand) (rx : Reg) : Bool :=
  match m with
  | .mem (.postInc r) => r == rx
  | .mem (.preDec r) => r == rx
  | _ => false

/-- The length of an ALU instruction in words (R103). -/
def aluWords (m : AluOperand) : Nat := 1 + m.extra.length

/-- `CheckProcReg(p)` (R143): whether the mode in force may name the register. -/
def procAllowed (s : State) (p : ProcReg) : Bool := s.supervisor || !supervisorOnly p

/-- A value cut to a width: the low octet, or the whole word (R141). -/
def cut (sz : Size) (v : Word) : BitVec sz.bits := v.setWidth sz.bits

/-- `ReadM(EvalOperand(w))` at a width (R140, R141). -/
def readOperand (sz : Size) (m : AluOperand) (s : State) : Res (BitVec sz.bits) :=
  match m with
  | .imm v => .ok (cut sz v) s
  | .proc p => if procAllowed s p then .ok (cut sz (s.proc p)) s else .trap .unprivOpcode s
  | .reg r => .ok (cut sz (s.reg r)) s
  | .mem mode => (readPlace sz mode s).bind fun v s1 => .ok (cut sz v) s1

/-! ## Jump operands -/

/-- `JumpOperand(w)` (R240). -/
def readNear (m : JmpOperand) (s : State) : Res Word :=
  match m with
  | .imm target => .ok target s
  | .reg r => .ok (s.reg r) s
  | .mem mode => readPlace .word mode s

/-- Where the lower and the upper word of a far operand lie, counted from the effective address: two successive
pre-decrements leave the upper word below the lower one (R241). -/
def farOffsets : MemMode → Word × Word
  | .preDec _ => (2, 0)
  | _ => (0, 2)

/-- The two words of a far operand in memory, the lower one read first (R241, D10). -/
def readFarPlace (m : MemMode) (s : State) : Res (Word × Word) :=
  let a := effectiveAddress m 4 s
  (memRead .word (a + (farOffsets m).1) (lowerBase m 4 s)).bind fun lower s1 =>
  (memRead .word (a + (farOffsets m).2) s1).bind fun upper s2 =>
  .ok (lower, upper) (raiseBase m 4 a s2)

/-- `FarOperands(w)`: the pair (lower, upper) (R241). Register indexes wrap at 8. -/
def readFar (m : FarOperand) (s : State) : Res (Word × Word) :=
  match m with
  | .imm lower upper => .ok (lower, upper) s
  | .reg r => .ok (s.reg r, s.reg (r + 1)) s
  | .mem mode => readFarPlace mode s

/-! ## Counts and bit numbers -/

/-- The shift count of the immediate form, 1..16 (R180). -/
def immCount (n : BitVec 4) : Nat := n.toNat + 1

/-- The shift count of the register form, 0..15 (R180). -/
def regCount (s : State) (r : Reg) : Nat := (s.reg r &&& 0x000F).toNat

/-- The bit number of the register form (R200). -/
def regBit (s : State) (r : Reg) : Nat := (s.reg r &&& 0x000F).toNat

end Sys2Proof.Machine
end

