-- ==== Sys2Proof/Machine/Alu.lean ====
section
/-! DEFINITION. The ALU instructions (spec/40_alu.md) and the macro NOP (spec/48_processor.md R273). -/

namespace Sys2Proof.Machine

/-! ## Shared shape -/

/-- The operand is read, then Rx, then the instruction goes on at its width (R140). -/
def withOperand (sz : Size) (rx : Reg) (m : AluOperand)
    (k : (a v : BitVec (operandSize m sz).bits) → State → Res Unit) (s : State) : Res Unit :=
  if baseIsRx m rx then .refuse .baseIsRx
  else (readOperand (operandSize m sz) m s).bind fun v s1 => k (cut _ (s1.reg rx)) v s1

/-- Write Rx, zero-extended (R141 `WriteRx`), and FL. -/
def setResult {w : Nat} (rx : Reg) (r : BitVec w) (f : Flags) (s : State) : Res Unit :=
  .ok () ((s.setReg rx (r.setWidth 16)).setFlags f)

/-- Write a sum or difference and all four flags (R147 to R150). -/
def setArith {w : Nat} (rx : Reg) (x : BitVec w × Bool × Bool) (s : State) : Res Unit :=
  setResult rx x.1 (.arith x.1 x.2.1 x.2.2) s

/-- Write a result, N and Z (R155 to R161). -/
def setLogic {w : Nat} (rx : Reg) (r : BitVec w) (s : State) : Res Unit :=
  setResult rx r (s.flags.setNZ r) s

/-- Go on unless the divisor is zero (R152). -/
def unlessZero {w : Nat} (m : BitVec w) (k : State → Res Unit) (s : State) : Res Unit :=
  if m = 0#w then .trap .divideByZero s else k s

/-- Write the two halves of a product, R0 first, and the flags (R151, R153). -/
def setProduct (rx : Reg) (p : BitVec 32) (n : Bool) (s : State) : Res Unit :=
  .ok () (((s.setReg 0 (p.extractLsb' 16 16)).setReg rx (p.extractLsb' 0 16)).setFlags (s.flags.product n p))

/-- The two factors of a 16-bit product; the 8-bit product is refused (R142, U5). -/
def withFactors (sz : Size) (rx : Reg) (m : AluOperand) (k : (a v : Word) → State → Res Unit) (s : State) : Res Unit :=
  if operandSize m sz = .byte then .refuse .byteMultiply
  else if baseIsRx m rx then .refuse .baseIsRx
  else (readOperand .word m s).bind fun v s1 => k (s1.reg rx) v s1

/-! ## What each operation does -/

/-- R145. -/
def cmpBody (sz : Size) (rx : Reg) (m : AluOperand) : State → Res Unit :=
  withOperand sz rx m fun a v s => .ok () (s.setFlags (s.flags.compare a v))

/-- R146. -/
def negBody (sz : Size) (rx : Reg) (m : AluOperand) : State → Res Unit :=
  withOperand sz rx m fun _ v s =>
    setResult rx (0 - v) { s.flags.setNZ (0 - v) with v := v == BitVec.intMin _ } s

/-- R147. -/
def addBody (sz : Size) (rx : Reg) (m : AluOperand) : State → Res Unit :=
  withOperand sz rx m fun a v s => setArith rx (addW a v false) s

/-- R148. -/
def subBody (sz : Size) (rx : Reg) (m : AluOperand) : State → Res Unit :=
  withOperand sz rx m fun a v s => setArith rx (subW a v true) s

/-- R149. -/
def adcBody (sz : Size) (rx : Reg) (m : AluOperand) : State → Res Unit :=
  withOperand sz rx m fun a v s => setArith rx (addW a v s.flags.c) s

/-- R150. -/
def sbcBody (sz : Size) (rx : Reg) (m : AluOperand) : State → Res Unit :=
  withOperand sz rx m fun a v s => setArith rx (subW a v s.flags.c) s

/-- The 32-bit unsigned product (R151). -/
def mulUnsigned (a v : Word) : BitVec 32 := BitVec.ofNat 32 (a.toNat * v.toNat)

/-- The 32-bit signed product (R153). -/
def mulSigned (a v : Word) : BitVec 32 := BitVec.ofInt 32 (a.toInt * v.toInt)

/-- R151. -/
def mulBody (sz : Size) (rx : Reg) (m : AluOperand) : State → Res Unit :=
  withFactors sz rx m fun a v s => setProduct rx (mulUnsigned a v) false s

/-- R152. -/
def divBody (sz : Size) (rx : Reg) (m : AluOperand) : State → Res Unit :=
  withOperand sz rx m fun a v => unlessZero v fun s =>
    let q := BitVec.ofNat (operandSize m sz).bits (a.toNat / v.toNat)
    setResult rx q { s.flags with n := false, z := q == 0 } s

/-- R153. -/
def mliBody (sz : Size) (rx : Reg) (m : AluOperand) : State → Res Unit :=
  withFactors sz rx m fun a v s => setProduct rx (mulSigned a v) (mulSigned a v).msb s

/-- The quotient toward zero; the one that does not fit is the most negative number itself (R154, D7). -/
def divSigned {w : Nat} (a v : BitVec w) : BitVec w := BitVec.ofInt w (a.toInt.tdiv v.toInt)

/-- The remainder of the division toward zero (R156, D7). -/
def modSigned {w : Nat} (a v : BitVec w) : BitVec w := BitVec.ofInt w (a.toInt - a.toInt.tdiv v.toInt * v.toInt)

/-- R154. -/
def dviBody (sz : Size) (rx : Reg) (m : AluOperand) : State → Res Unit :=
  withOperand sz rx m fun a v => unlessZero v fun s =>
    let q := divSigned a v
    setResult rx q { s.flags.setNZ q with v := a == BitVec.intMin _ && v == BitVec.allOnes _ } s

/-- R155. -/
def modBody (sz : Size) (rx : Reg) (m : AluOperand) : State → Res Unit :=
  withOperand sz rx m fun a v => unlessZero v fun s =>
    setLogic rx (BitVec.ofNat (operandSize m sz).bits (a.toNat % v.toNat)) s

/-- R156. -/
def mdiBody (sz : Size) (rx : Reg) (m : AluOperand) : State → Res Unit :=
  withOperand sz rx m fun a v => unlessZero v fun s => setLogic rx (modSigned a v) s

/-- R157. -/
def andBody (sz : Size) (rx : Reg) (m : AluOperand) : State → Res Unit :=
  withOperand sz rx m fun a v s => setLogic rx (a &&& v) s

/-- R158. -/
def orrBody (sz : Size) (rx : Reg) (m : AluOperand) : State → Res Unit :=
  withOperand sz rx m fun a v s => setLogic rx (a ||| v) s

/-- R159. -/
def eorBody (sz : Size) (rx : Reg) (m : AluOperand) : State → Res Unit :=
  withOperand sz rx m fun a v s => setLogic rx (a ^^^ v) s

/-- R160. -/
def notBody (sz : Size) (rx : Reg) (m : AluOperand) : State → Res Unit :=
  withOperand sz rx m fun _ v s => setLogic rx (~~~ v) s

/-- R161. -/
def lodBody (sz : Size) (rx : Reg) (m : AluOperand) : State → Res Unit :=
  withOperand sz rx m fun _ v s => setLogic rx v s

/-- R162. The Immediate and Register forms are UNDEFINED. -/
def stoBody (sz : Size) (rx : Reg) (m : AluOperand) (s : State) : Res Unit :=
  match m with
  | .imm _ => undefinedBody s
  | .reg _ => undefinedBody s
  | .proc p => if procAllowed s p then .ok () (s.setProc p (s.reg rx)) else .trap .unprivOpcode s
  | .mem mode => if baseIsRx m rx then .refuse .baseIsRx else writePlace sz mode (s.reg rx) s

/-! ## The instructions -/

/-- CMP. -/
def execCmp (sz : Size) (rx : Reg) (m : AluOperand) (s : State) : Result := runBody (aluWords m) (cmpBody sz rx m) s

/-- NEG. -/
def execNeg (sz : Size) (rx : Reg) (m : AluOperand) (s : State) : Result := runBody (aluWords m) (negBody sz rx m) s

/-- ADD. -/
def execAdd (sz : Size) (rx : Reg) (m : AluOperand) (s : State) : Result := runBody (aluWords m) (addBody sz rx m) s

/-- SUB. -/
def execSub (sz : Size) (rx : Reg) (m : AluOperand) (s : State) : Result := runBody (aluWords m) (subBody sz rx m) s

/-- ADC. -/
def execAdc (sz : Size) (rx : Reg) (m : AluOperand) (s : State) : Result := runBody (aluWords m) (adcBody sz rx m) s

/-- SBC. -/
def execSbc (sz : Size) (rx : Reg) (m : AluOperand) (s : State) : Result := runBody (aluWords m) (sbcBody sz rx m) s

/-- MUL. -/
def execMul (sz : Size) (rx : Reg) (m : AluOperand) (s : State) : Result := runBody (aluWords m) (mulBody sz rx m) s

/-- DIV. -/
def execDiv (sz : Size) (rx : Reg) (m : AluOperand) (s : State) : Result := runBody (aluWords m) (divBody sz rx m) s

/-- MLI. -/
def execMli (sz : Size) (rx : Reg) (m : AluOperand) (s : State) : Result := runBody (aluWords m) (mliBody sz rx m) s

/-- DVI. -/
def execDvi (sz : Size) (rx : Reg) (m : AluOperand) (s : State) : Result := runBody (aluWords m) (dviBody sz rx m) s

/-- MOD. -/
def execMod (sz : Size) (rx : Reg) (m : AluOperand) (s : State) : Result := runBody (aluWords m) (modBody sz rx m) s

/-- MDI. -/
def execMdi (sz : Size) (rx : Reg) (m : AluOperand) (s : State) : Result := runBody (aluWords m) (mdiBody sz rx m) s

/-- AND. -/
def execAnd (sz : Size) (rx : Reg) (m : AluOperand) (s : State) : Result := runBody (aluWords m) (andBody sz rx m) s

/-- ORR. -/
def execOrr (sz : Size) (rx : Reg) (m : AluOperand) (s : State) : Result := runBody (aluWords m) (orrBody sz rx m) s

/-- EOR. -/
def execEor (sz : Size) (rx : Reg) (m : AluOperand) (s : State) : Result := runBody (aluWords m) (eorBody sz rx m) s

/-- NOT. -/
def execNot (sz : Size) (rx : Reg) (m : AluOperand) (s : State) : Result := runBody (aluWords m) (notBody sz rx m) s

/-- LOD. -/
def execLod (sz : Size) (rx : Reg) (m : AluOperand) (s : State) : Result := runBody (aluWords m) (lodBody sz rx m) s

/-- STO. -/
def execSto (sz : Size) (rx : Reg) (m : AluOperand) (s : State) : Result := runBody (aluWords m) (stoBody sz rx m) s

/-- NOP, the word of `LOD R0, R0` (R273): N and Z are assigned from R0. -/
def execNop (s : State) : Result := runBody 1 (lodBody .word 0 (.reg 0)) s

end Sys2Proof.Machine
end

