-- ==== Sys2Proof/Machine/AluModes.lean ====
section
/-! DEFINITION. The ALU addressing-mode rows of the opcode table (spec/30_encoding.md R105): "an instruction of the
ALU pattern that uses this mode", for every operation of the pattern. -/

namespace Sys2Proof.Machine

/-- What an operation of the ALU pattern does. -/
def aluBody (op : AluOp) (sz : Size) (rx : Reg) (m : AluOperand) : State → Res Unit :=
  match op with
  | .cmp => cmpBody sz rx m
  | .neg => negBody sz rx m
  | .add => addBody sz rx m
  | .sub => subBody sz rx m
  | .adc => adcBody sz rx m
  | .sbc => sbcBody sz rx m
  | .mul => mulBody sz rx m
  | .div => divBody sz rx m
  | .mli => mliBody sz rx m
  | .dvi => dviBody sz rx m
  | .mod => modBody sz rx m
  | .mdi => mdiBody sz rx m
  | .and => andBody sz rx m
  | .orr => orrBody sz rx m
  | .eor => eorBody sz rx m
  | .not => notBody sz rx m
  | .lod => lodBody sz rx m
  | .sto => stoBody sz rx m

/-- An instruction of the ALU pattern. -/
def runAlu (op : AluOp) (sz : Size) (rx : Reg) (m : AluOperand) (s : State) : Result :=
  runBody (aluWords m) (aluBody op sz rx m) s

/-- Immediate. -/
def execAluImmediate (op : AluOp) (sz : Size) (rx : Reg) (value : Word) (s : State) : Result :=
  runAlu op sz rx (.imm value) s

/-- Absolute. -/
def execAluAbsolute (op : AluOp) (sz : Size) (rx : Reg) (addr : Word) (s : State) : Result :=
  runAlu op sz rx (.mem (.abs addr)) s

/-- ProcReg. -/
def execAluProcReg (op : AluOp) (rx : Reg) (p : ProcReg) (s : State) : Result :=
  runAlu op .word rx (.proc p) s

/-- Register. -/
def execAluRegister (op : AluOp) (sz : Size) (rx r : Reg) (s : State) : Result :=
  runAlu op sz rx (.reg r) s

/-- Indirect. -/
def execAluIndirect (op : AluOp) (sz : Size) (rx r : Reg) (s : State) : Result :=
  runAlu op sz rx (.mem (.ind r)) s

/-- Absolute Offset and Indirect Offset. -/
def execAluIndirectOffset (op : AluOp) (sz : Size) (rx r : Reg) (off : Word) (s : State) : Result :=
  runAlu op sz rx (.mem (.offset r off)) s

/-- Stack Offset. -/
def execAluStackOffset (op : AluOp) (sz : Size) (rx : Reg) (slot : Fin 8) (s : State) : Result :=
  runAlu op sz rx (.mem (.stack slot)) s

/-- Indirect PostInc. -/
def execAluPostInc (op : AluOp) (sz : Size) (rx r : Reg) (s : State) : Result :=
  runAlu op sz rx (.mem (.postInc r)) s

/-- Indirect PreDec. -/
def execAluPreDec (op : AluOp) (sz : Size) (rx r : Reg) (s : State) : Result :=
  runAlu op sz rx (.mem (.preDec r)) s

/-- Indirect Indexed. -/
def execAluIndexed (op : AluOp) (sz : Size) (rx r i : Reg) (s : State) : Result :=
  runAlu op sz rx (.mem (.indexed r i)) s

/-- An unassigned mode (R121): the spec gives it neither an effect nor a length, and a model must refuse it. -/
def execAluUnassigned (_op : AluOp) (_sz : Size) (_rx _r : Reg) (_s : State) : Result :=
  .refused .unassignedAluMode

end Sys2Proof.Machine
end

