-- ==== Sys2Proof/Machine/BitTest.lean ====
section
/-! DEFINITION. The bit testing instructions (spec/42_bittest.md). -/

namespace Sys2Proof.Machine

/-- R201: Z when the bit is clear; nothing else. -/
def testBit (rx : Reg) (b : Nat) (s : State) : Res Unit :=
  .ok () (s.setFlags { s.flags with z := !(s.reg rx).getLsbD b })

/-- Replace a bit of Rx; Z when the old bit was clear (R202 to R204). -/
def replaceBit (rx : Reg) (b : Nat) (new carry : Bool) (s : State) : Res Unit :=
  .ok () ((s.setReg rx (putBit (s.reg rx) b new)).setFlags { s.flags with z := !(s.reg rx).getLsbD b, c := carry })

/-- R202: C when the new bit is set. -/
def changeBit (rx : Reg) (b : Nat) (s : State) : Res Unit :=
  let old := (s.reg rx).getLsbD b
  replaceBit rx b (!old) (!old) s

/-- R203: C when the old bit differs from the new one. -/
def clearBit (rx : Reg) (b : Nat) (s : State) : Res Unit :=
  let old := (s.reg rx).getLsbD b
  replaceBit rx b false old s

/-- R204: C when the old bit differs from the new one. -/
def raiseBit (rx : Reg) (b : Nat) (s : State) : Res Unit :=
  let old := (s.reg rx).getLsbD b
  replaceBit rx b true (!old) s

/-- BTT of an immediate bit number. -/
def execBttImm (rx : Reg) (bit : BitVec 4) (s : State) : Result :=
  runBody 1 (testBit rx bit.toNat) s

/-- BTT of the bit a register names. -/
def execBttReg (rx rb : Reg) (s : State) : Result :=
  runBody 1 (fun t => testBit rx (regBit t rb) t) s

/-- BTX of an immediate bit number. -/
def execBtxImm (rx : Reg) (bit : BitVec 4) (s : State) : Result :=
  runBody 1 (changeBit rx bit.toNat) s

/-- BTX of the bit a register names. -/
def execBtxReg (rx rb : Reg) (s : State) : Result :=
  runBody 1 (fun t => changeBit rx (regBit t rb) t) s

/-- BTC of an immediate bit number. -/
def execBtcImm (rx : Reg) (bit : BitVec 4) (s : State) : Result :=
  runBody 1 (clearBit rx bit.toNat) s

/-- BTC of the bit a register names. -/
def execBtcReg (rx rb : Reg) (s : State) : Result :=
  runBody 1 (fun t => clearBit rx (regBit t rb) t) s

/-- BTS of an immediate bit number. -/
def execBtsImm (rx : Reg) (bit : BitVec 4) (s : State) : Result :=
  runBody 1 (raiseBit rx bit.toNat) s

/-- BTS of the bit a register names. -/
def execBtsReg (rx rb : Reg) (s : State) : Result :=
  runBody 1 (fun t => raiseBit rx (regBit t rb) t) s

end Sys2Proof.Machine
end

