-- ==== Sys2Proof/Machine/Branch.lean ====
section
/-! DEFINITION. The branch instructions (spec/43_branch.md). -/

namespace Sys2Proof.Machine

/-- `BranchTarget(w)` for a branch at `pc0`, under the parameter `BranchBase` (R210, D9). -/
def branchTarget (base : BranchBase) (pc0 : Word) (off : BitVec 8) : Word :=
  (match base with
    | .instr => pc0
    | .next => pc0 + 2) + 2 * off.signExtend 16

/-- A branch: PC becomes the target when the condition on the flags holds, and stays `pcn` when not (R210). -/
def runBranch (cond : Flags → Bool) (off : BitVec 8) (s : State) : Result :=
  runBody 1 (fun t =>
    .ok () (if cond t.flags then t.setPc (branchTarget s.platform.branchBase s.pc off) else t)) s

/-- BCC (R211). -/
def execBcc (off : BitVec 8) (s : State) : Result := runBranch (fun f => !f.c) off s

/-- BCS (R212). -/
def execBcs (off : BitVec 8) (s : State) : Result := runBranch (fun f => f.c) off s

/-- BNE (R213). -/
def execBne (off : BitVec 8) (s : State) : Result := runBranch (fun f => !f.z) off s

/-- BEQ (R214). -/
def execBeq (off : BitVec 8) (s : State) : Result := runBranch (fun f => f.z) off s

/-- BPL (R215). -/
def execBpl (off : BitVec 8) (s : State) : Result := runBranch (fun f => !f.n) off s

/-- BMI (R216). -/
def execBmi (off : BitVec 8) (s : State) : Result := runBranch (fun f => f.n) off s

/-- BVC (R217). -/
def execBvc (off : BitVec 8) (s : State) : Result := runBranch (fun f => !f.v) off s

/-- BVS (R218). -/
def execBvs (off : BitVec 8) (s : State) : Result := runBranch (fun f => f.v) off s

/-- BUG (R219). -/
def execBug (off : BitVec 8) (s : State) : Result := runBranch (fun f => f.c && !f.z) off s

/-- BSG (R220). -/
def execBsg (off : BitVec 8) (s : State) : Result := runBranch (fun f => f.n && !f.z) off s

/-- BAW (R221). -/
def execBaw (off : BitVec 8) (s : State) : Result := runBranch (fun _ => true) off s

end Sys2Proof.Machine
end

