-- ==== Sys2Proof/Machine/Immediate.lean ====
section
/-! DEFINITION. The immediate instructions (spec/44_immediate.md). -/

namespace Sys2Proof.Machine

/-- The operand `v + 1`, 1..32 (R225, R226). -/
def immValue (v : BitVec 5) : Word := v.setWidth 16 + 1

/-- Write a 16-bit sum or difference to Rx, and all four flags. -/
def setSum (rx : Reg) (x : Word × Bool × Bool) (s : State) : Res Unit :=
  .ok () ((s.setReg rx x.1).setFlags (.arith x.1 x.2.1 x.2.2))

/-- The constant of SET with A = 1 (R227). -/
def altConstant (v : BitVec 5) : Word :=
  if v.toNat ≤ 10 then BitVec.ofNat 16 (2 ^ (5 + v.toNat)) else 0xFFE0 + v.setWidth 16

/-- ADI (R225). -/
def execAdi (rx : Reg) (v : BitVec 5) (s : State) : Result :=
  runBody 1 (fun t => setSum rx (addW (t.reg rx) (immValue v) false) t) s

/-- INC, the word of `ADI Rx, 1` (R225). -/
def execInc (rx : Reg) (s : State) : Result :=
  runBody 1 (fun t => setSum rx (addW (t.reg rx) 1 false) t) s

/-- SBI (R226). -/
def execSbi (rx : Reg) (v : BitVec 5) (s : State) : Result :=
  runBody 1 (fun t => setSum rx (subW (t.reg rx) (immValue v) true) t) s

/-- DEC, the word of `SBI Rx, 1` (R226). -/
def execDec (rx : Reg) (s : State) : Result :=
  runBody 1 (fun t => setSum rx (subW (t.reg rx) 1 true) t) s

/-- SET with A = 0 (R227); FL is unchanged (D35). -/
def execSetSmall (rx : Reg) (v : BitVec 5) (s : State) : Result :=
  runBody 1 (fun t => .ok () (t.setReg rx (v.setWidth 16))) s

/-- SET with A = 1 (R227); FL is unchanged (D35). -/
def execSetAlt (rx : Reg) (v : BitVec 5) (s : State) : Result :=
  runBody 1 (fun t => .ok () (t.setReg rx (altConstant v))) s

end Sys2Proof.Machine
end

