-- ==== Sys2Proof/Machine/Interrupt.lean ====
section
/-! DEFINITION. SWI and RTI (spec/45_interrupt_instr.md) and the UNDEFINED encodings (spec/30_encoding.md R120). -/

namespace Sys2Proof.Machine

/-- SWI (R230): the saved PC is the address of the instruction after it. -/
def execSwi (s : State) : Result := runBody 1 (fun t => .trap .swi t) s

/-- RTI (R231). -/
def execRti (s : State) : Result := runBody 1 (privileged returnFromInterrupt) s

/-- STO with the Immediate mode (R120, item 5). -/
def execUndefStoImmediate (_sz : Size) (_rx : Reg) (s : State) : Result := runBody 1 undefinedBody s

/-- STO with the Register mode (R120, item 6). -/
def execUndefStoRegister (_r : Reg) (_sz : Size) (_rx : Reg) (s : State) : Result := runBody 1 undefinedBody s

/-- Opcode $9A (R120, item 4). -/
def execUndefBranch10 (s : State) : Result := runBody 1 undefinedBody s

/-- Opcode $9B (R120, item 4). -/
def execUndefBranch11 (s : State) : Result := runBody 1 undefinedBody s

/-- Opcode $9C (R120, item 4). -/
def execUndefBranch12 (s : State) : Result := runBody 1 undefinedBody s

/-- Opcode $9D (R120, item 4). -/
def execUndefBranch13 (s : State) : Result := runBody 1 undefinedBody s

/-- Opcode $9E (R120, item 4). -/
def execUndefBranch14 (s : State) : Result := runBody 1 undefinedBody s

/-- Opcodes $AC and $AD (R120, item 1). -/
def execUndefAcAd (s : State) : Result := runBody 1 undefinedBody s

/-- Opcode $B4 (R120, item 2). -/
def execUndefB4 (s : State) : Result := runBody 1 undefinedBody s

/-- Opcodes $C0 to $FF (R120, item 3). -/
def execUndefC0FF (s : State) : Result := runBody 1 undefinedBody s

end Sys2Proof.Machine
end

