-- ==== Sys2Proof/Machine/Jump.lean ====
section
/-! DEFINITION. Jumps and calls, near and far (spec/46_jump.md). -/

namespace Sys2Proof.Machine

/-- `FarSwitch(lower, upper)`: the word of the supervisor half that maps the new PC, its flags cleared (R244, D25). -/
def farSwitch (lower upper : Word) (s : State) : State :=
  { s with mmuS := s.mmuS.set (bankOf lower) (upper &&& 0x0FFF) }

/-- R242, near. -/
def jumpNear (m : JmpOperand) (s : State) : Res Unit :=
  (readNear m s).bind fun target s1 => .ok () (s1.setPc target)

/-- R243, near: the operand is evaluated, then PC, which is `pcn`, is pushed (D11). -/
def callNear (m : JmpOperand) (s : State) : Res Unit :=
  (readNear m s).bind fun target s1 =>
  (push s1.pc s1).bind fun _ s2 => .ok () (s2.setPc target)

/-- R242, far. -/
def jumpFar (m : FarOperand) : State → Res Unit :=
  privileged fun s =>
    (readFar m s).bind fun lu s1 => .ok () ((farSwitch lu.1 lu.2 s1).setPc lu.1)

/-- R243, far: the push is made before the bank switch. -/
def callFar (m : FarOperand) : State → Res Unit :=
  privileged fun s =>
    (readFar m s).bind fun lu s1 =>
    (push s1.pc s1).bind fun _ s2 => .ok () ((farSwitch lu.1 lu.2 s2).setPc lu.1)

/-- The length of a near jump in words (spec/30_encoding.md R103). -/
def nearWords (m : JmpOperand) : Nat := 1 + m.extra.length

/-- The length of a far jump in words (R103). -/
def farWords (m : FarOperand) : Nat := 1 + m.extra.length

/-- JMP. -/
def execJmp (m : JmpOperand) (s : State) : Result := runBody (nearWords m) (jumpNear m) s

/-- JSR. -/
def execJsr (m : JmpOperand) (s : State) : Result := runBody (nearWords m) (callNear m) s

/-- JMP.F. -/
def execJmpF (m : FarOperand) (s : State) : Result := runBody (farWords m) (jumpFar m) s

/-- JSR.F. -/
def execJsrF (m : FarOperand) (s : State) : Result := runBody (farWords m) (callFar m) s

end Sys2Proof.Machine
end

