-- ==== Sys2Proof/Machine/JumpModes.lean ====
section
/-! DEFINITION. The JMI addressing-mode rows of the opcode table (spec/30_encoding.md R107): "a jump or call that uses
this mode", near or far. -/

namespace Sys2Proof.Machine

/-- A near jump, or a call. -/
def runNear (call : Bool) (m : JmpOperand) (s : State) : Result :=
  runBody (nearWords m) (if call then callNear m else jumpNear m) s

/-- A far jump, or a call. -/
def runFar (call : Bool) (m : FarOperand) (s : State) : Result :=
  runBody (farWords m) (if call then callFar m else jumpFar m) s

/-- Immediate, near. -/
def execJmiImmediateNear (call : Bool) (target : Word) (s : State) : Result := runNear call (.imm target) s

/-- Absolute, near. -/
def execJmiAbsoluteNear (call : Bool) (addr : Word) (s : State) : Result := runNear call (.mem (.abs addr)) s

/-- Register, near. -/
def execJmiRegisterNear (call : Bool) (r : Reg) (s : State) : Result := runNear call (.reg r) s

/-- Indirect, near. -/
def execJmiIndirectNear (call : Bool) (r : Reg) (s : State) : Result := runNear call (.mem (.ind r)) s

/-- Absolute Offset and Indirect Offset, near. -/
def execJmiIndirectOffsetNear (call : Bool) (r : Reg) (off : Word) (s : State) : Result := runNear call (.mem (.offset r off)) s

/-- Stack Offset, near. -/
def execJmiStackOffsetNear (call : Bool) (slot : Fin 8) (s : State) : Result := runNear call (.mem (.stack slot)) s

/-- Indirect PostInc, near. -/
def execJmiPostIncNear (call : Bool) (r : Reg) (s : State) : Result := runNear call (.mem (.postInc r)) s

/-- Indirect PreDec, near. -/
def execJmiPreDecNear (call : Bool) (r : Reg) (s : State) : Result := runNear call (.mem (.preDec r)) s

/-- Indirect Indexed, near. -/
def execJmiIndexedNear (call : Bool) (r i : Reg) (s : State) : Result := runNear call (.mem (.indexed r i)) s

/-- Immediate, far. -/
def execJmiImmediateFar (call : Bool) (lower upper : Word) (s : State) : Result := runFar call (.imm lower upper) s

/-- Absolute, far. -/
def execJmiAbsoluteFar (call : Bool) (addr : Word) (s : State) : Result := runFar call (.mem (.abs addr)) s

/-- Register, far. -/
def execJmiRegisterFar (call : Bool) (r : Reg) (s : State) : Result := runFar call (.reg r) s

/-- Indirect, far. -/
def execJmiIndirectFar (call : Bool) (r : Reg) (s : State) : Result := runFar call (.mem (.ind r)) s

/-- Absolute Offset and Indirect Offset, far. -/
def execJmiIndirectOffsetFar (call : Bool) (r : Reg) (off : Word) (s : State) : Result := runFar call (.mem (.offset r off)) s

/-- Stack Offset, far. -/
def execJmiStackOffsetFar (call : Bool) (slot : Fin 8) (s : State) : Result := runFar call (.mem (.stack slot)) s

/-- Indirect PostInc, far. -/
def execJmiPostIncFar (call : Bool) (r : Reg) (s : State) : Result := runFar call (.mem (.postInc r)) s

/-- Indirect PreDec, far. -/
def execJmiPreDecFar (call : Bool) (r : Reg) (s : State) : Result := runFar call (.mem (.preDec r)) s

/-- Indirect Indexed, far. -/
def execJmiIndexedFar (call : Bool) (r i : Reg) (s : State) : Result := runFar call (.mem (.indexed r i)) s

/-- An unassigned mode (R121): the spec gives it neither an effect nor a length, and a model must refuse it. -/
def execJmiUnassigned (_call _far _procRow : Bool) (_r : Reg) (_s : State) : Result :=
  .refused .unassignedJumpMode

end Sys2Proof.Machine
end

