-- ==== Sys2Proof/Machine/Processor.lean ====
section
/-! DEFINITION. The processor function instructions (spec/48_processor.md): flags, the hardware bus, the RTC, the MMU
cache, SLP. -/

namespace Sys2Proof.Machine

/-! ## Flag instructions -/

/-- A mask over N Z C V at the positions of the flags in FL (spec/30_encoding.md R111). -/
def flagMask (mask : BitVec 4) : Word := mask ++ (0 : BitVec 12)

/-- SEF (R260). -/
def execSef (mask : BitVec 4) (s : State) : Result :=
  runBody 1 (fun t => .ok () { t with fl := t.fl ||| flagMask mask }) s

/-- CLF (R261). -/
def execClf (mask : BitVec 4) (s : State) : Result :=
  runBody 1 (fun t => .ok () { t with fl := t.fl &&& ~~~ flagMask mask }) s

/-! ## The hardware bus -/

/-- The device at a bus index 1..15; index 0, the indexes above 15 and empty slots have none (R264, R265, D34). -/
def deviceAt (s : State) (i : Word) : Option Device :=
  if i.toNat = 0 then none else (s.devices[i.toNat]?).join

/-- The number of devices attached at the indexes 1..15 (R263, D34). -/
def deviceCount (s : State) : Nat := (s.devices.toList.drop 1).countP Option.isSome

/-- Write four words to R0..R3. -/
def setFour (a b c d : Word) (s : State) : State := (((s.setReg 0 a).setReg 1 b).setReg 2 c).setReg 3 d

/-- The four words of an identity (R264). -/
def setIdentity (id : Identity) (s : State) : State :=
  setFour id.deviceType id.manufacturer id.deviceId id.flags s

/-- R264. -/
def queryBody (s : State) : Res Unit :=
  if s.reg 0 = 0 then .ok () (setIdentity s.platform.cpuInfo s)
  else match deviceAt s (s.reg 0) with
    | some d => .ok () (setIdentity d.identity s)
    | none => .ok () (s.setReg 0 0)

/-- What a device's answer leaves: the rows of the table of R265. -/
def applyReply (r : Reply) (s : State) : State :=
  match r with
  | .ack r1 r2 writes => (((s.deviceWrites writes).setReg 0 0x0001).setReg 1 r1).setReg 2 r2
  | .wait => s.setReg 0 0x0002
  | .error => s.setReg 0 0xFFFF

/-- R265: the answer is a free value (log 8). -/
def messageBody (s : State) : Res Unit :=
  match deviceAt s (s.reg 0) with
  | none => .ok () s
  | some _ =>
    .ok () (applyReply (Config.deviceReply s.freeCount (s.reg 1) (s.reg 2)) { s with freeCount := s.freeCount + 1 })

/-- The four words of a time (R266, D40). -/
def setTime (t : RtcTime) (s : State) : State :=
  setFour (BitVec.ofBool t.yearTop ++ t.year ++ (0 : BitVec 4) ++ t.month)
    ((0 : BitVec 3) ++ t.day ++ (0 : BitVec 3) ++ t.hour)
    ((0 : BitVec 2) ++ t.minute ++ (0 : BitVec 2) ++ t.second) t.tick s

/-- R266: the time is a free value within its layout (log 9). -/
def clockReadBody (s : State) : Res Unit :=
  let t := Config.rtcNow s.freeCount s.rtc.time
  .ok () (setTime t { s with rtc := { s.rtc with time := t }, freeCount := s.freeCount + 1 })

/-- The rate HWQ $81 sets: capped to the CPU frequency divided by 1024 (R267). -/
def cappedRate (p : Platform) (hz : Word) : Word := BitVec.ofNat 16 (min hz.toNat (p.cpuFrequency / 1024))

/-- R267. -/
def clockSetBody (s : State) : Res Unit :=
  let hz := s.reg 0
  let rate := if hz = 0 then 0 else cappedRate s.platform hz
  .ok () ({ s with rtc := { s.rtc with enabled := hz != 0, rate := rate } }.setReg 0 rate)

/-- HWQ $00 (R263). -/
def execHwq00 (s : State) : Result :=
  runBody 1 (privileged fun t => .ok () (t.setReg 0 (BitVec.ofNat 16 (deviceCount t)))) s

/-- HWQ $01 (R264). -/
def execHwq01 (s : State) : Result := runBody 1 (privileged queryBody) s

/-- HWQ $02 (R265). -/
def execHwq02 (s : State) : Result := runBody 1 (privileged messageBody) s

/-- HWQ $80 (R266). -/
def execHwq80 (s : State) : Result := runBody 1 (privileged clockReadBody) s

/-- HWQ $81 (R267). -/
def execHwq81 (s : State) : Result := runBody 1 (privileged clockSetBody) s

/-- HWQ with an unassigned index: UnprivOpcode in User mode; in Supervisor mode a model must refuse it (R268). -/
def execHwqUnassigned (_index : BitVec 8) (s : State) : Result :=
  runBody 1 (privileged fun _ => .refuse .unassignedHwqIndex) s

/-! ## The MMU cache -/

/-- Which word an index names: whether it is in the supervisor half, and its bank (R269, D23). -/
def mmuIndex (map : MmuIndexMap) (i : Word) : Option (Bool × Fin 4) :=
  match map with
  | .compact => if i.toNat < 8 then some (decide (4 ≤ i.toNat), Fin.ofNat 4 i.toNat) else none
  | .wide =>
    if i.toNat < 16 ∧ i.toNat % 2 = 0 then some (decide (8 ≤ i.toNat), Fin.ofNat 4 (i.toNat / 2)) else none

/-- A half of the cache. -/
def State.mmuHalf (s : State) (sup : Bool) : Vector Word 4 := if sup then s.mmuS else s.mmuU

/-- Replace a half of the cache. -/
def State.setMmuHalf (s : State) (sup : Bool) (half : Vector Word 4) : State :=
  if sup then { s with mmuS := half } else { s with mmuU := half }

/-- R269. -/
def mmrBody (rv ra : Reg) (s : State) : Res Unit :=
  match mmuIndex s.platform.mmuIndexMap (s.reg ra) with
  | some (sup, k) => .ok () (s.setReg rv (s.mmuHalf sup)[k])
  | none => .refuse .mmuIndexNamesNothing

/-- R270. -/
def mmwBody (rv ra : Reg) (s : State) : Res Unit :=
  match mmuIndex s.platform.mmuIndexMap (s.reg ra) with
  | some (sup, k) => .ok () (s.setMmuHalf sup ((s.mmuHalf sup).set k (s.reg rv)))
  | none => .refuse .mmuIndexNamesNothing

/-- R271: the words are those of before the first push; word 0 first (D24). -/
def mmlBody (rv : Reg) (s : State) : Res Unit := pushAll (s.mmuHalf ((s.reg rv).getLsbD 0)).toList s

/-- R272: four pops, word 3 first, then the half is replaced as a whole (D24). -/
def mmsBody (rv : Reg) (s : State) : Res Unit :=
  (pop s).bind fun v3 s1 =>
  (pop s1).bind fun v2 s2 =>
  (pop s2).bind fun v1 s3 =>
  (pop s3).bind fun v0 s4 =>
  .ok () (s4.setMmuHalf ((s4.reg rv).getLsbD 0) #v[v0, v1, v2, v3])

/-- MMR (R269). -/
def execMmr (rv ra : Reg) (s : State) : Result := runBody 1 (privileged (mmrBody rv ra)) s

/-- MMW (R270). -/
def execMmw (rv ra : Reg) (s : State) : Result := runBody 1 (privileged (mmwBody rv ra)) s

/-- MML (R271). -/
def execMml (rv : Reg) (s : State) : Result := runBody 1 (privileged (mmlBody rv)) s

/-- MMS (R272). -/
def execMms (rv : Reg) (s : State) : Result := runBody 1 (privileged (mmsBody rv)) s

/-! ## SLP -/

/-- SLP (R274). -/
def execSlp (s : State) : Result := runBody 1 (privileged fun t => .ok () { t with halted := true }) s

end Sys2Proof.Machine
end

