-- ==== Sys2Proof/Machine/Shift.lean ====
section
/-! DEFINITION. The bit shifting instructions (spec/41_shift.md). -/

namespace Sys2Proof.Machine

/-- What a shift gives: the new value of Rx and, where the instruction assigns them, C and V. -/
structure Shifted where
  value : Word
  carry : Bool
  overflow : Bool

/-- Write Rx and the flags of a shift: N and Z from the result (R180). -/
def setShifted (rx : Reg) (x : Shifted) (s : State) : Res Unit :=
  .ok () ((s.setReg rx x.value).setFlags (Flags.arith x.value x.carry x.overflow))

/-- The shift of a register by a count: the old value, the count and the flags in force give the new ones (R180). -/
def shiftBody (f : Word → Nat → Flags → Shifted) (rx : Reg) (count : State → Nat) (s : State) : Res Unit :=
  setShifted rx (f (s.reg rx) (count s) s.flags) s

/-- R181, R182: zeros enter on the right; C when a 1 is lost. -/
def shiftLeft (v : Word) (x : Nat) (f : Flags) : Shifted :=
  let t := v.toNat * 2 ^ x
  { value := BitVec.ofNat 16 t, carry := decide (2 ^ 16 ≤ t), overflow := f.v }

/-- R183: the 17 bits C ++ Rx rotate left. -/
def rotateLeftCarry (v : Word) (x : Nat) (f : Flags) : Shifted :=
  let t : BitVec 17 := (BitVec.ofBool f.c ++ v).rotateLeft x
  { value := t.extractLsb' 0 16, carry := if x = 0 then f.c else t.getLsbD 16, overflow := f.v }

/-- R184. -/
def rotateLeftPlain (v : Word) (x : Nat) (f : Flags) : Shifted :=
  { value := v <<< (x % 16) ||| v >>> (16 - x % 16), carry := f.c, overflow := f.v }

/-- Whether a 1 is among the X low bits, which a right shift loses (R185, R186). -/
def losesOne (v : Word) (x : Nat) : Bool := decide (v.toNat % 2 ^ x ≠ 0)

/-- R185: bit 15 is copied in; the quotient by 2^X rounded toward minus infinity. -/
def shiftRightSigned (v : Word) (x : Nat) (_ : Flags) : Shifted :=
  let r := v.sshiftRight x
  { value := r, carry := losesOne v x, overflow := v != 0xFFFF && r == 0xFFFF }

/-- R186. -/
def shiftRightPlain (v : Word) (x : Nat) (f : Flags) : Shifted :=
  { value := BitVec.ofNat 16 (v.toNat / 2 ^ x), carry := losesOne v x, overflow := f.v }

/-- R187: the 17 bits C ++ Rx rotate right. -/
def rotateRightCarry (v : Word) (x : Nat) (f : Flags) : Shifted :=
  let t : BitVec 17 := (BitVec.ofBool f.c ++ v).rotateRight x
  { value := t.extractLsb' 0 16, carry := if x = 0 then f.c else t.getLsbD 16, overflow := f.v }

/-- R188. -/
def rotateRightPlain (v : Word) (x : Nat) (f : Flags) : Shifted :=
  { value := v >>> (x % 16) ||| v <<< (16 - x % 16), carry := f.c, overflow := f.v }

/-- ASL by an immediate count. -/
def execAslImm (rx : Reg) (count : BitVec 4) (s : State) : Result :=
  runBody 1 (shiftBody shiftLeft rx fun _ => immCount count) s

/-- ASL by a register. -/
def execAslReg (rx rc : Reg) (s : State) : Result :=
  runBody 1 (shiftBody shiftLeft rx fun t => regCount t rc) s

/-- LSL by an immediate count. -/
def execLslImm (rx : Reg) (count : BitVec 4) (s : State) : Result :=
  runBody 1 (shiftBody shiftLeft rx fun _ => immCount count) s

/-- LSL by a register. -/
def execLslReg (rx rc : Reg) (s : State) : Result :=
  runBody 1 (shiftBody shiftLeft rx fun t => regCount t rc) s

/-- ROL by an immediate count. -/
def execRolImm (rx : Reg) (count : BitVec 4) (s : State) : Result :=
  runBody 1 (shiftBody rotateLeftCarry rx fun _ => immCount count) s

/-- ROL by a register. -/
def execRolReg (rx rc : Reg) (s : State) : Result :=
  runBody 1 (shiftBody rotateLeftCarry rx fun t => regCount t rc) s

/-- RNL by an immediate count. -/
def execRnlImm (rx : Reg) (count : BitVec 4) (s : State) : Result :=
  runBody 1 (shiftBody rotateLeftPlain rx fun _ => immCount count) s

/-- RNL by a register. -/
def execRnlReg (rx rc : Reg) (s : State) : Result :=
  runBody 1 (shiftBody rotateLeftPlain rx fun t => regCount t rc) s

/-- ASR by an immediate count. -/
def execAsrImm (rx : Reg) (count : BitVec 4) (s : State) : Result :=
  runBody 1 (shiftBody shiftRightSigned rx fun _ => immCount count) s

/-- ASR by a register. -/
def execAsrReg (rx rc : Reg) (s : State) : Result :=
  runBody 1 (shiftBody shiftRightSigned rx fun t => regCount t rc) s

/-- LSR by an immediate count. -/
def execLsrImm (rx : Reg) (count : BitVec 4) (s : State) : Result :=
  runBody 1 (shiftBody shiftRightPlain rx fun _ => immCount count) s

/-- LSR by a register. -/
def execLsrReg (rx rc : Reg) (s : State) : Result :=
  runBody 1 (shiftBody shiftRightPlain rx fun t => regCount t rc) s

/-- ROR by an immediate count. -/
def execRorImm (rx : Reg) (count : BitVec 4) (s : State) : Result :=
  runBody 1 (shiftBody rotateRightCarry rx fun _ => immCount count) s

/-- ROR by a register. -/
def execRorReg (rx rc : Reg) (s : State) : Result :=
  runBody 1 (shiftBody rotateRightCarry rx fun t => regCount t rc) s

/-- RNR by an immediate count. -/
def execRnrImm (rx : Reg) (count : BitVec 4) (s : State) : Result :=
  runBody 1 (shiftBody rotateRightPlain rx fun _ => immCount count) s

/-- RNR by a register. -/
def execRnrReg (rx rc : Reg) (s : State) : Result :=
  runBody 1 (shiftBody rotateRightPlain rx fun t => regCount t rc) s

end Sys2Proof.Machine
end

