-- ==== Sys2Proof/Machine/Stack.lean ====
section
/-! DEFINITION. The stack instructions (spec/47_stack.md) and the macro RTS (spec/46_jump.md R245). -/

namespace Sys2Proof.Machine

/-! ## The register lists -/

/-- The general registers a mask names, by rising number: the push order (R250, R251). -/
def maskRegs (mask : BitVec 8) : List Reg := (List.finRange 8).filter fun r => mask.getLsbD r.val

/-- The processor registers in the order POP takes them, mask bits 7 down to 0 of the high octet (R250, R254). -/
def procOrder : List ProcReg := [.fl, .pc, .ps, .p2, .ii, .ia, .usp, .sp]

/-- Whether a mask names a processor register: bit `15 - index` of the word (R41). -/
def masked (mask : BitVec 8) (p : ProcReg) : Bool := mask.getLsbD (7 - p.code)

/-- The processor registers a mask names that are transferred in the mode in force, in the order of POP: in User mode
PS, P2, II and IA are skipped (R255, D14). -/
def maskProcs (mask : BitVec 8) (s : State) : List ProcReg :=
  procOrder.filter fun p => masked mask p && procAllowed s p

/-- Whether a mask names a register that the mode in force may not name (R255). -/
def namesForbidden (mask : BitVec 8) (s : State) : Bool :=
  procOrder.any fun p => masked mask p && !procAllowed s p

/-- UnprivOpcode is raised after the transfers (R255). -/
def afterTransfers (forbidden : Bool) (s : State) : Res Unit :=
  if forbidden then .trap .unprivOpcode s else .ok () s

/-! ## PSH -/

/-- R251. -/
def pushGeneralBody (mask : BitVec 8) (s : State) : Res Unit := pushAll ((maskRegs mask).map s.reg) s

/-- R252: the values are those of before the instruction, PC is `pcn`; the order is the reverse of POP's. -/
def pushStatusBody (mask : BitVec 8) (s : State) : Res Unit :=
  (pushAll ((maskProcs mask s).reverse.map s.proc) s).bind fun _ s1 =>
  afterTransfers (namesForbidden mask s) s1

/-! ## POP -/

/-- Pop into general registers one after the other. -/
def popRegs : List Reg → State → Res Unit
  | [], s => .ok () s
  | r :: rest, s => (pop s).bind fun v s1 => popRegs rest (s1.setReg r v)

/-- R253: by falling register number. -/
def popGeneralBody (mask : BitVec 8) (s : State) : Res Unit := popRegs (maskRegs mask).reverse s

/-- Write the held PS, if one was popped (R254). -/
def commitPs (held : Option Word) (s : State) : State :=
  match held with
  | some v => { s with ps := v }
  | none => s

/-- Pop into processor registers one after the other. The word popped for PS is held and written when the instruction
ends, normally or by a BankFault, so that the mode at the start governs every pop (R254, D13). -/
def popProcs : List ProcReg → Option Word → State → Res Unit
  | [], held, s => .ok () (commitPs held s)
  | p :: rest, held, s =>
    match pop s with
    | .ok v s1 => if p = .ps then popProcs rest (some v) s1 else popProcs rest held (s1.setProc p v)
    | .trap t s1 => .trap t (commitPs held s1)
    | .refuse r => .refuse r

/-- R254. -/
def popStatusBody (mask : BitVec 8) (s : State) : Res Unit :=
  (popProcs (maskProcs mask s) none s).bind fun _ s1 => afterTransfers (namesForbidden mask s) s1

/-! ## The instructions -/

/-- PSH, group 1. -/
def execPshGeneral (mask : BitVec 8) (s : State) : Result := runBody 1 (pushGeneralBody mask) s

/-- PSH, group 2. -/
def execPshStatus (mask : BitVec 8) (s : State) : Result := runBody 1 (pushStatusBody mask) s

/-- POP, group 1. -/
def execPopGeneral (mask : BitVec 8) (s : State) : Result := runBody 1 (popGeneralBody mask) s

/-- POP, group 2. -/
def execPopStatus (mask : BitVec 8) (s : State) : Result := runBody 1 (popStatusBody mask) s

/-- RTS, the word of `POP PC` (R245). -/
def execRts (s : State) : Result := runBody 1 (fun t => (pop t).bind fun v s1 => .ok () (s1.setPc v)) s

end Sys2Proof.Machine
end

