-- ==== Sys2Proof/Machine/Dispatch.lean ====
section
/-! DEFINITION. One arm per instruction, in the order of spec/opcode_table.json. -/

namespace Sys2Proof.Machine

def exec (i : Instr) (s : State) : Host.Outcome State Fault Refusal :=
  match i with
  | .nop => Sys2Proof.Machine.execNop s
  | .aluImmediate op sz rx value => Sys2Proof.Machine.execAluImmediate op sz rx value s
  | .aluAbsolute op sz rx addr => Sys2Proof.Machine.execAluAbsolute op sz rx addr s
  | .aluProcReg op rx p => Sys2Proof.Machine.execAluProcReg op rx p s
  | .aluRegister op sz rx r => Sys2Proof.Machine.execAluRegister op sz rx r s
  | .aluIndirect op sz rx r => Sys2Proof.Machine.execAluIndirect op sz rx r s
  | .aluIndirectOffset op sz rx r off => Sys2Proof.Machine.execAluIndirectOffset op sz rx r off s
  | .aluStackOffset op sz rx slot => Sys2Proof.Machine.execAluStackOffset op sz rx slot s
  | .aluPostInc op sz rx r => Sys2Proof.Machine.execAluPostInc op sz rx r s
  | .aluPreDec op sz rx r => Sys2Proof.Machine.execAluPreDec op sz rx r s
  | .aluIndexed op sz rx r ix => Sys2Proof.Machine.execAluIndexed op sz rx r ix s
  | .aluUnassigned op sz rx r => Sys2Proof.Machine.execAluUnassigned op sz rx r s
  | .cmp sz rx m => Sys2Proof.Machine.execCmp sz rx m s
  | .neg sz rx m => Sys2Proof.Machine.execNeg sz rx m s
  | .add sz rx m => Sys2Proof.Machine.execAdd sz rx m s
  | .sub sz rx m => Sys2Proof.Machine.execSub sz rx m s
  | .adc sz rx m => Sys2Proof.Machine.execAdc sz rx m s
  | .sbc sz rx m => Sys2Proof.Machine.execSbc sz rx m s
  | .mul sz rx m => Sys2Proof.Machine.execMul sz rx m s
  | .div sz rx m => Sys2Proof.Machine.execDiv sz rx m s
  | .mli sz rx m => Sys2Proof.Machine.execMli sz rx m s
  | .dvi sz rx m => Sys2Proof.Machine.execDvi sz rx m s
  | .mod sz rx m => Sys2Proof.Machine.execMod sz rx m s
  | .mdi sz rx m => Sys2Proof.Machine.execMdi sz rx m s
  | .and sz rx m => Sys2Proof.Machine.execAnd sz rx m s
  | .orr sz rx m => Sys2Proof.Machine.execOrr sz rx m s
  | .eor sz rx m => Sys2Proof.Machine.execEor sz rx m s
  | .not sz rx m => Sys2Proof.Machine.execNot sz rx m s
  | .lod sz rx m => Sys2Proof.Machine.execLod sz rx m s
  | .undefStoImmediate sz rx => Sys2Proof.Machine.execUndefStoImmediate sz rx s
  | .undefStoRegister r sz rx => Sys2Proof.Machine.execUndefStoRegister r sz rx s
  | .sto sz rx m => Sys2Proof.Machine.execSto sz rx m s
  | .bcc off => Sys2Proof.Machine.execBcc off s
  | .bcs off => Sys2Proof.Machine.execBcs off s
  | .bne off => Sys2Proof.Machine.execBne off s
  | .beq off => Sys2Proof.Machine.execBeq off s
  | .bpl off => Sys2Proof.Machine.execBpl off s
  | .bmi off => Sys2Proof.Machine.execBmi off s
  | .bvc off => Sys2Proof.Machine.execBvc off s
  | .bvs off => Sys2Proof.Machine.execBvs off s
  | .bug off => Sys2Proof.Machine.execBug off s
  | .bsg off => Sys2Proof.Machine.execBsg off s
  | .baw off => Sys2Proof.Machine.execBaw off s
  | .undefBranch10 => Sys2Proof.Machine.execUndefBranch10 s
  | .undefBranch11 => Sys2Proof.Machine.execUndefBranch11 s
  | .undefBranch12 => Sys2Proof.Machine.execUndefBranch12 s
  | .undefBranch13 => Sys2Proof.Machine.execUndefBranch13 s
  | .undefBranch14 => Sys2Proof.Machine.execUndefBranch14 s
  | .aslImm rx count => Sys2Proof.Machine.execAslImm rx count s
  | .aslReg rx rc => Sys2Proof.Machine.execAslReg rx rc s
  | .lslImm rx count => Sys2Proof.Machine.execLslImm rx count s
  | .lslReg rx rc => Sys2Proof.Machine.execLslReg rx rc s
  | .rolImm rx count => Sys2Proof.Machine.execRolImm rx count s
  | .rolReg rx rc => Sys2Proof.Machine.execRolReg rx rc s
  | .rnlImm rx count => Sys2Proof.Machine.execRnlImm rx count s
  | .rnlReg rx rc => Sys2Proof.Machine.execRnlReg rx rc s
  | .asrImm rx count => Sys2Proof.Machine.execAsrImm rx count s
  | .asrReg rx rc => Sys2Proof.Machine.execAsrReg rx rc s
  | .lsrImm rx count => Sys2Proof.Machine.execLsrImm rx count s
  | .lsrReg rx rc => Sys2Proof.Machine.execLsrReg rx rc s
  | .rorImm rx count => Sys2Proof.Machine.execRorImm rx count s
  | .rorReg rx rc => Sys2Proof.Machine.execRorReg rx rc s
  | .rnrImm rx count => Sys2Proof.Machine.execRnrImm rx count s
  | .rnrReg rx rc => Sys2Proof.Machine.execRnrReg rx rc s
  | .bttImm rx bit => Sys2Proof.Machine.execBttImm rx bit s
  | .bttReg rx rb => Sys2Proof.Machine.execBttReg rx rb s
  | .btxImm rx bit => Sys2Proof.Machine.execBtxImm rx bit s
  | .btxReg rx rb => Sys2Proof.Machine.execBtxReg rx rb s
  | .btcImm rx bit => Sys2Proof.Machine.execBtcImm rx bit s
  | .btcReg rx rb => Sys2Proof.Machine.execBtcReg rx rb s
  | .btsImm rx bit => Sys2Proof.Machine.execBtsImm rx bit s
  | .btsReg rx rb => Sys2Proof.Machine.execBtsReg rx rb s
  | .undefAcAd => Sys2Proof.Machine.execUndefAcAd s
  | .sef mask => Sys2Proof.Machine.execSef mask s
  | .clf mask => Sys2Proof.Machine.execClf mask s
  | .pshGeneral mask => Sys2Proof.Machine.execPshGeneral mask s
  | .pshStatus mask => Sys2Proof.Machine.execPshStatus mask s
  | .popGeneral mask => Sys2Proof.Machine.execPopGeneral mask s
  | .rts => Sys2Proof.Machine.execRts s
  | .popStatus mask => Sys2Proof.Machine.execPopStatus mask s
  | .undefB4 => Sys2Proof.Machine.execUndefB4 s
  | .mmr rv ra => Sys2Proof.Machine.execMmr rv ra s
  | .mmw rv ra => Sys2Proof.Machine.execMmw rv ra s
  | .mml rv => Sys2Proof.Machine.execMml rv s
  | .mms rv => Sys2Proof.Machine.execMms rv s
  | .setSmall rx v => Sys2Proof.Machine.execSetSmall rx v s
  | .setAlt rx v => Sys2Proof.Machine.execSetAlt rx v s
  | .inc rx => Sys2Proof.Machine.execInc rx s
  | .adi rx v => Sys2Proof.Machine.execAdi rx v s
  | .dec rx => Sys2Proof.Machine.execDec rx s
  | .sbi rx v => Sys2Proof.Machine.execSbi rx v s
  | .jmiImmediateNear call target => Sys2Proof.Machine.execJmiImmediateNear call target s
  | .jmiAbsoluteNear call addr => Sys2Proof.Machine.execJmiAbsoluteNear call addr s
  | .jmiRegisterNear call r => Sys2Proof.Machine.execJmiRegisterNear call r s
  | .jmiIndirectNear call r => Sys2Proof.Machine.execJmiIndirectNear call r s
  | .jmiIndirectOffsetNear call r off => Sys2Proof.Machine.execJmiIndirectOffsetNear call r off s
  | .jmiStackOffsetNear call slot => Sys2Proof.Machine.execJmiStackOffsetNear call slot s
  | .jmiPostIncNear call r => Sys2Proof.Machine.execJmiPostIncNear call r s
  | .jmiPreDecNear call r => Sys2Proof.Machine.execJmiPreDecNear call r s
  | .jmiIndexedNear call r ix => Sys2Proof.Machine.execJmiIndexedNear call r ix s
  | .jmiImmediateFar call lower upper => Sys2Proof.Machine.execJmiImmediateFar call lower upper s
  | .jmiAbsoluteFar call addr => Sys2Proof.Machine.execJmiAbsoluteFar call addr s
  | .jmiRegisterFar call r => Sys2Proof.Machine.execJmiRegisterFar call r s
  | .jmiIndirectFar call r => Sys2Proof.Machine.execJmiIndirectFar call r s
  | .jmiIndirectOffsetFar call r off => Sys2Proof.Machine.execJmiIndirectOffsetFar call r off s
  | .jmiStackOffsetFar call slot => Sys2Proof.Machine.execJmiStackOffsetFar call slot s
  | .jmiPostIncFar call r => Sys2Proof.Machine.execJmiPostIncFar call r s
  | .jmiPreDecFar call r => Sys2Proof.Machine.execJmiPreDecFar call r s
  | .jmiIndexedFar call r ix => Sys2Proof.Machine.execJmiIndexedFar call r ix s
  | .jmiUnassigned call far procRow r => Sys2Proof.Machine.execJmiUnassigned call far procRow r s
  | .jmp m => Sys2Proof.Machine.execJmp m s
  | .jmpF m => Sys2Proof.Machine.execJmpF m s
  | .jsr m => Sys2Proof.Machine.execJsr m s
  | .jsrF m => Sys2Proof.Machine.execJsrF m s
  | .hwq00 => Sys2Proof.Machine.execHwq00 s
  | .hwq01 => Sys2Proof.Machine.execHwq01 s
  | .hwq02 => Sys2Proof.Machine.execHwq02 s
  | .hwq80 => Sys2Proof.Machine.execHwq80 s
  | .hwq81 => Sys2Proof.Machine.execHwq81 s
  | .hwqUnassigned index => Sys2Proof.Machine.execHwqUnassigned index s
  | .slp => Sys2Proof.Machine.execSlp s
  | .swi => Sys2Proof.Machine.execSwi s
  | .rti => Sys2Proof.Machine.execRti s
  | .undefC0FF => Sys2Proof.Machine.execUndefC0FF s

end Sys2Proof.Machine
end

