-- ==== Sys2Proof/Machine/Step.lean ====
section
/-! DEFINITION. One step of the machine (spec/60_exceptions.md R280). -/

namespace Sys2Proof.Machine

/-- Fetch the instruction at PC and run it (R280 step 4). A BankFault of the fetch saves `pc0`. -/
def fetchAndExec (s : State) : Host.Outcome State Fault Refusal :=
  if s.fetchable then
    match fetch s with
    | .ok i s1 => exec i s1
    | .trap t s1 => takeInterrupt t s.pc s1
    | .refuse r => .refused r
  else .refused .oddPc

/-- What follows sampling, in the order of R280: Reset, the stall while a device accesses memory (spec/20_memory.md
R79, log 16), one accepted asynchronous interrupt, the halted wait, an instruction. -/
def stepSampled (s : State) : Host.Outcome State Fault Refusal :=
  if s.lines.reset then resetSequence s
  else if s.lines.busy ≠ 0 then .next s
  else match chooseAsync s with
    | some (e, s1) => takeAsync e s1
    | none => if s.halted then .next s else fetchAndExec s

/-- One step: the outside is sampled, devices may write, then the processor acts. -/
def step (s : State) : Host.Outcome State Fault Refusal := stepSampled s.sample.busCycle

/-- `s` with the instruction whose low `nbits` bits are `w`, zero above, stored where the next step fetches, and the
outside quiet. -/
def State.withFetchWord (s : State) (nbits w : Nat) : State :=
  s.quietOutside.placeBytes s.pc (tableBytes longestInstruction (w % 2 ^ nbits))

end Sys2Proof.Machine
end

