-- ==== Sys2Proof/Safety.lean ====
section
/-! DEFINITION. What the statements call a good state, a place that may be read or stored to, what a load, a store, a
push, a pop and an interrupt leave of a state, and the part of the state that belongs to the supervisor. -/

namespace Sys2Proof.Machine

/-! ## Good states -/

/-- The CLOCK interrupt has a rate the RTC can give: not 0 while enabled, and at most the CPU frequency divided by
1024 (spec/60_exceptions.md R306). -/
def rtcWf (r : Rtc) (p : Platform) : Bool :=
  (!r.enabled || decide (0 < r.rate.toNat)) && decide (r.rate.toNat ≤ p.cpuFrequency / 1024)

/-- The invariant of the machine: memory in canonical form, parameters the spec allows, an RTC rate it allows. -/
structure State.Inv (s : State) : Prop where
  mem : Mem.wf s.mem = true
  platform : s.platform.valid = true
  rtc : rtcWf s.rtc s.platform = true

/-! ## Memory, seen by the statements -/

/-- The byte memory holds for a physical address. -/
def State.peek (s : State) (pa : PAddr) : Byte := Mem.get s.mem pa.toNat

/-- The byte a read of a logical address gives now (spec/20_memory.md R65). -/
def State.byteAt (s : State) (a : Word) : Byte := (s.physRead (s.translate a)).1

/-- The word a read of a logical address gives now, little-endian (R61). -/
def State.wordAt (s : State) (a : Word) : Word := s.byteAt (a + 1) ++ s.byteAt a

/-- The value a read of a width gives now, a byte zero-extended. -/
def State.valueAt (s : State) (sz : Size) (a : Word) : Word :=
  match sz with
  | .byte => (s.byteAt a).setWidth 16
  | .word => s.wordAt a

/-- No device writes in between (the schedule of R79 is empty). -/
def State.quiet (s : State) : Prop := s.bus = []

/-- The `n` bytes from a logical address up are RAM: they read back what was written (R72). -/
def State.ramFrom (s : State) (a : Word) (n : Nat) : Prop :=
  ∀ k < n, s.backing (s.translate (a + BitVec.ofNat 16 k)) = .ram

/-- None of the `n` bytes from a logical address up lies in a device bank with side effects (R75). -/
def State.plainFrom (s : State) (a : Word) (n : Nat) : Prop :=
  ∀ k < n, s.backing (s.translate (a + BitVec.ofNat 16 k)) ≠ .active

/-! ## Places that may be read or stored to -/

/-- The next `n` pushes are allowed by the MMU. -/
def State.pushable (s : State) (n : Nat) : Prop :=
  ∀ k < n, s.checkSized .write .word (s.sp - BitVec.ofNat 16 (2 * (k + 1))) = none

/-- The next `n` pops are allowed by the MMU. -/
def State.poppable (s : State) (n : Nat) : Prop :=
  ∀ k < n, s.checkSized .read .word (s.sp + BitVec.ofNat 16 (2 * k)) = none

/-- The operand of an ALU instruction may be read: the mode in force may name the processor register, or the MMU
allows the place in memory. -/
def operandReadable (sz : Size) (m : AluOperand) (s : State) : Prop :=
  match m with
  | .imm _ => True
  | .reg _ => True
  | .proc p => procAllowed s p = true
  | .mem mode => s.checkSized .read sz (effectiveAddress mode sz.bytes s) = none

/-- The operand of a near jump may be read. -/
def nearReadable (m : JmpOperand) (s : State) : Prop :=
  match m with
  | .imm _ => True
  | .reg _ => True
  | .mem mode => s.checkSized .read .word (effectiveAddress mode 2 s) = none

/-- Both words of a far jump's operand may be read. -/
def farReadable (m : FarOperand) (s : State) : Prop :=
  match m with
  | .imm _ _ => True
  | .reg _ => True
  | .mem mode =>
    s.checkSized .read .word (effectiveAddress mode 4 s + (farOffsets mode).1) = none ∧
    s.checkSized .read .word (effectiveAddress mode 4 s + (farOffsets mode).2) = none

/-- The interrupt sequence is not stuck: its two pushes and its vector read are allowed (spec/60_exceptions.md R295,
R303). -/
def interruptible (i : Interrupt) (s : State) : Prop :=
  (s.enter i).pushable 2 ∧ (s.enter i).checkSized .read .word (s.ia + 2 * i.index) = none

/-! ## Operands, seen by the statements -/

/-- The state in which an instruction of `len` words has its effects: PC is `pcn` (spec/10_state.md R28). -/
def State.started (s : State) (len : Nat) : State := s.setPc (s.pc + BitVec.ofNat 16 (2 * len))

/-- The value `MemRead` gives, 0 where it gives none. -/
def readValue (sz : Size) (a : Word) (s : State) : Word :=
  match memRead sz a s with
  | .ok v _ => v
  | _ => 0

/-- The value of an ALU operand at a width (spec/40_alu.md R140, R141). -/
def operandValue (sz : Size) (m : AluOperand) (s : State) : BitVec sz.bits :=
  match m with
  | .imm v => v.setWidth sz.bits
  | .proc p => (s.proc p).setWidth sz.bits
  | .reg r => (s.reg r).setWidth sz.bits
  | .mem mode => (readValue sz (effectiveAddress mode sz.bytes s) s).setWidth sz.bits

/-- R0..R7 after an access through a memory mode of `n` bytes: the PostInc base raised, the PreDec base lowered. -/
def movedRegs (m : MemMode) (n : Word) (s : State) : Vector Word 8 :=
  match m with
  | .postInc r => s.regs.set r (s.reg r + n)
  | .preDec r => s.regs.set r (s.reg r - n)
  | _ => s.regs

/-- R0..R7 after an access through a memory mode that faulted: only a PreDec base has moved (D20). -/
def loweredRegs (m : MemMode) (n : Word) (s : State) : Vector Word 8 :=
  match m with
  | .preDec r => s.regs.set r (s.reg r - n)
  | _ => s.regs

/-- R0..R7 after an ALU operand was read. -/
def aluRegs (sz : Size) (m : AluOperand) (s : State) : Vector Word 8 :=
  match m with
  | .mem mode => movedRegs mode sz.bytes s
  | _ => s.regs

/-- R0..R7 after a near jump's operand was read. -/
def nearRegs (m : JmpOperand) (s : State) : Vector Word 8 :=
  match m with
  | .mem mode => movedRegs mode 2 s
  | _ => s.regs

/-- R0..R7 after a far jump's operand was read. -/
def farRegs (m : FarOperand) (s : State) : Vector Word 8 :=
  match m with
  | .mem mode => movedRegs mode 4 s
  | _ => s.regs

/-- The target of a near jump (spec/46_jump.md R240). -/
def nearValue (m : JmpOperand) (s : State) : Word :=
  match m with
  | .imm target => target
  | .reg r => s.reg r
  | .mem mode => readValue .word (effectiveAddress mode 2 s) s

/-- The lower and the upper word of a far jump, the lower one read first (R241). -/
def farValue (m : FarOperand) (s : State) : Word × Word :=
  match m with
  | .imm lower upper => (lower, upper)
  | .reg r => (s.reg r, s.reg (r + 1))
  | .mem mode =>
    let a := effectiveAddress mode 4 s
    match memRead .word (a + (farOffsets mode).1) s with
    | .ok lower t => (lower, readValue .word (a + (farOffsets mode).2) t)
    | _ => (0, 0)

/-- Whether an operand lies in memory. -/
def aluInMemory : AluOperand → Bool
  | .mem _ => true
  | _ => false

/-- Whether a near jump's operand lies in memory. -/
def nearInMemory : JmpOperand → Bool
  | .mem _ => true
  | _ => false

/-- Whether a far jump's operand lies in memory. -/
def farInMemory : FarOperand → Bool
  | .mem _ => true
  | _ => false

/-- An ALU instruction the spec gives an effect and whose operand may be read: Rx is not the base that a PostInc or
PreDec operand moves (R140, U4). -/
def aluReady (sz : Size) (rx : Reg) (m : AluOperand) (s : State) : Prop :=
  baseIsRx m rx = false ∧ operandReadable (operandSize m sz) m s

/-- Rx at the width of the operation (R141). -/
def aluLeft (sz : Size) (rx : Reg) (m : AluOperand) (s : State) : BitVec (operandSize m sz).bits :=
  (s.reg rx).setWidth (operandSize m sz).bits

/-- M at the width of the operation; PC reads as `pcn` (R141). -/
def aluRight (sz : Size) (m : AluOperand) (s : State) : BitVec (operandSize m sz).bits :=
  operandValue (operandSize m sz) m (s.started (aluWords m))

/-- The condition under which an operation of the ALU pattern completes with its own effect: a readable operand, a
divisor that is not 0, a 16-bit product, for STO a place it may write. -/
def aluCompletes (op : AluOp) (sz : Size) (rx : Reg) (m : AluOperand) (s : State) : Prop :=
  match op with
  | .div | .dvi | .mod | .mdi => aluReady sz rx m s ∧ aluRight sz m s ≠ 0
  | .mul | .mli => aluReady sz rx m s ∧ operandSize m sz = .word
  | .sto =>
    match m with
    | .imm _ => False
    | .reg _ => False
    | .proc p => procAllowed s p = true
    | .mem mode => baseIsRx m rx = false ∧ s.checkSized .write sz (effectiveAddress mode sz.bytes s) = none
  | _ => aluReady sz rx m s

/-- An integer a width can hold as a signed number. -/
def fitsSigned (w : Nat) (x : Int) : Bool := decide (-(2 ^ (w - 1) : Int) ≤ x ∧ x < (2 ^ (w - 1) : Int))

/-- The flags of a sum or difference whose exact signed value is `x`: V when it does not fit (spec/40_alu.md R144). -/
def sumFlags (w : Nat) (x : Int) (carry : Bool) : Flags :=
  { n := (BitVec.ofInt w x).msb, z := BitVec.ofInt w x == 0#w, c := carry, v := !fitsSigned w x }

/-! ## What instructions leave -/

/-- FL holds the flags `f`; its bits 11..0 are those of before (spec/10_state.md R24). -/
structure FlagsSet (s t : State) (f : Flags) : Prop where
  flags : t.flags = f
  rest : t.fl.extractLsb' 0 12 = s.fl.extractLsb' 0 12

/-- An ALU instruction that reads its operand has completed: R0..R7 are `regs`, the flags are `f`, PC is `pcn`; no
other register has changed, and memory is as before unless a device wrote between the accesses. -/
structure AluResult (m : AluOperand) (s t : State) (regs : Vector Word 8) (f : Flags) : Prop where
  only : t = { s with
    pc := s.pc + BitVec.ofNat 16 (2 * aluWords m), regs := regs, fl := t.fl, mem := t.mem, bus := t.bus,
    freeCount := t.freeCount }
  fl : FlagsSet s t f
  memory : s.quiet ∨ aluInMemory m = false → t.mem = s.mem ∧ t.bus = s.bus

/-- The state after a one-word instruction that changes R0..R7 and FL alone. -/
structure RegisterResult (s t : State) (regs : Vector Word 8) (f : Flags) : Prop where
  only : t = { s with pc := s.pc + 2, regs := regs, fl := t.fl }
  fl : FlagsSet s t f

/-- The bytes `bytes` were stored from the logical address `a` up, through the mapping of `s`. With no device writing,
every other byte reads as before, and a byte stored to RAM reads back (spec/20_memory.md R65, R72). The cache words of
the half in force that translated a stored byte have their A flag set while the MMU is on; the rest of the cache is
as before (R70). -/
structure Stores (a : Word) (bytes : List Byte) (s t : State) : Prop where
  others : s.quiet → ∀ pa : PAddr, (∀ k < bytes.length, pa ≠ s.translate (a + BitVec.ofNat 16 k)) →
    t.peek pa = s.peek pa
  stored : s.quiet → Mem.wf s.mem = true → ∀ k b, bytes[k]? = some b →
    s.backing (s.translate (a + BitVec.ofNat 16 k)) = .ram → t.peek (s.translate (a + BitVec.ofNat 16 k)) = b
  schedule : s.quiet → t.bus = s.bus
  accessedS : ∀ k : Fin 4, t.mmuS[k] =
    if s.mmuOn = true ∧ s.supervisor = true ∧ (∃ j < bytes.length, bankOf (a + BitVec.ofNat 16 j) = k) then
      s.mmuS[k] ||| 0x1000
    else s.mmuS[k]
  accessedU : ∀ k : Fin 4, t.mmuU[k] =
    if s.mmuOn = true ∧ s.supervisor = false ∧ (∃ j < bytes.length, bankOf (a + BitVec.ofNat 16 j) = k) then
      s.mmuU[k] ||| 0x1000
    else s.mmuU[k]

/-- `words` were pushed one after the other on the stack of the mode in force, the last one lowest, by an instruction
of `len` words; nothing else changed but PC, which is `pcn` (spec/10_state.md R40). -/
structure Pushed (len : Nat) (words : List Word) (s t : State) : Prop where
  only : t = { (s.started len).setSp (s.sp - BitVec.ofNat 16 (2 * words.length)) with
    mem := t.mem, bus := t.bus, freeCount := t.freeCount, mmuU := t.mmuU, mmuS := t.mmuS }
  stores : Stores (s.sp - BitVec.ofNat 16 (2 * words.length)) (words.reverse.flatMap bytesOfWord) s t

/-- Memory and the schedule of device writes are as before. -/
def sameMemory (s t : State) : Prop := t.mem = s.mem ∧ t.bus = s.bus

/-- `u` is what reads of memory leave of `s`: nothing differs, but for what devices wrote meanwhile. -/
structure Reads (s u : State) : Prop where
  only : u = { s with mem := u.mem, bus := u.bus, freeCount := u.freeCount }
  memory : s.quiet → sameMemory s u

/-- `n` pushes are allowed and the next one is refused. -/
def State.pushRefused (s : State) (n : Nat) (f : BankFault) : Prop :=
  s.pushable n ∧ s.checkSized .write .word (s.sp - BitVec.ofNat 16 (2 * (n + 1))) = some f

/-- `n` pops are allowed and the next one is refused. -/
def State.popRefused (s : State) (n : Nat) (f : BankFault) : Prop :=
  s.poppable n ∧ s.checkSized .read .word (s.sp + BitVec.ofNat 16 (2 * n)) = some f

/-- What is left when `words` were pushed and the next push of an instruction of `len` words was refused: the words stay
on the stack, and SP is lowered for the refused push as well (spec/10_state.md R40, D20). -/
structure PushFaulted (len : Nat) (words : List Word) (s u : State) : Prop where
  only : u = { (s.started len).setSp (s.sp - BitVec.ofNat 16 (2 * (words.length + 1))) with
    mem := u.mem, bus := u.bus, freeCount := u.freeCount, mmuU := u.mmuU, mmuS := u.mmuS }
  stores : Stores (s.sp - BitVec.ofNat 16 (2 * words.length)) (words.reverse.flatMap bytesOfWord) s u

/-- PS after the entry of an interrupt (spec/60_exceptions.md R295): S is set; HWI sets Q; BankFault assigns U and W. -/
def entryStatus (i : Interrupt) (ps : Word) : Word :=
  match i with
  | .hwi => ps ||| 0x8800
  | .bankFault f => ((ps ||| 0x8000) &&& 0xF9FF) ||| (if f.user then 0x0400 else 0) ||| (if f.write then 0x0200 else 0)
  | _ => ps ||| 0x8000

/-- P2 after the entry of an interrupt (R295). -/
def entryP2 (i : Interrupt) (p2 : Word) : Word :=
  match i with
  | .bankFault f => f.addr
  | _ => p2

/-- The interrupt `i` was taken in `s` with the saved PC `savedPc` (R295): the old PS and below it the saved PC are on
the supervisor stack, PC is the word at `IA + 2 * index`, and nothing else has changed. -/
structure EnteredHandler (i : Interrupt) (savedPc : Word) (s t : State) : Prop where
  only : t = { s with
    ps := entryStatus i s.ps, tempPs := s.ps, p2 := entryP2 i s.p2, ssp := s.ssp - 4, pc := t.pc, halted := false,
    mem := t.mem, bus := t.bus, freeCount := t.freeCount, mmuS := t.mmuS }
  frame : Stores (s.ssp - 4) (bytesOfWord savedPc ++ bytesOfWord s.ps) (s.enter i) t
  vector : s.quiet → (s.enter i).plainFrom (s.ia + 2 * i.index) 2 → t.pc = t.wordAt (s.ia + 2 * i.index)

/-- The outcome is the entry of the interrupt `i`, which saves `savedPc`; `u` is the state the instruction left when it
raised it. The entry is stuck exactly when one of its own accesses is refused (R303). -/
def raisesFrom (i : Interrupt) (savedPc : Word) (u : State) (r : Result) : Prop :=
  (interruptible i u → ∃ t, r = .next t ∧ EnteredHandler i savedPc u t) ∧
  (¬ interruptible i u → r = .fault .stuckInInterrupt)

/-! ## The supervisor's part of the state -/

/-- A cache word without its A flag (spec/10_state.md R43). -/
def withoutAccessed (e : Word) : Word := putBit e 12 false

/-- Everything a user program must not be able to change by itself: PS, P2, II, IA, SSP, the supervisor half of the
MMU cache, the user half but for its A flags, the RTC, the halted flag, the devices and the parameters
(spec/60_exceptions.md R304, R305). -/
structure SupervisorState where
  ps : Word
  p2 : Word
  ii : Word
  ia : Word
  ssp : Word
  mmuS : Vector Word 4
  mmuU : Vector Word 4
  rtc : Rtc
  halted : Bool
  devices : DeviceTable
  platform : Platform
  deriving DecidableEq, Repr

/-- The supervisor's part of a state. -/
def State.supervisorState (s : State) : SupervisorState :=
  { ps := s.ps, p2 := s.p2, ii := s.ii, ia := s.ia, ssp := s.ssp, mmuS := s.mmuS, mmuU := s.mmuU.map withoutAccessed,
    rtc := s.rtc, halted := s.halted, devices := s.devices, platform := s.platform }

end Sys2Proof.Machine
end

