-- ==== Sys2Proof/Certificates/Slice0/Obligations.lean ====
section
/-! DEFINITION. The statements for the provers. Each docstring names the rules of spec/ the statement formalises; where
a decision D<n> of spec/92_eei_decisions.md or a row of the assumption log stands behind a clause, it says so. -/

open Sys2Proof Sys2Proof.Machine

/-! ## Encoding -/

/-- Decoding the bytes of a well-formed instruction gives it back, and leaves the bytes after it (R100 to R118). -/
def Obligations.DecodeOfEncode : Prop :=
  ∀ (i : Instr) (rest : List Byte), i.wf = true → decode (encodeBytes i ++ rest) = .ok (i, rest)

/-- What the decoder gives is well-formed, and it has taken as many words as the instruction's encoding has (R103). -/
def Obligations.DecodeGivesWellFormed : Prop :=
  ∀ (bytes : List Byte) (i : Instr) (rest : List Byte), decode bytes = .ok (i, rest) →
    i.wf = true ∧ ∃ used, bytes = used ++ rest ∧ used.length = 2 * (encode i).length

/-- A second name of an instruction (a mode row, a macro's words under the instruction's name) has the words and the
meaning of the first name (log 18). -/
def Obligations.SecondNamesMeanTheSame : Prop :=
  ∀ i : Instr, i.fieldsOk = true →
    i.primary.wf = true ∧ encode i.primary = encode i ∧ ∀ s : State, exec i.primary s = exec i s

/-- Words of the spec's examples decode to the instructions they stand for. -/
def Obligations.SpecWordsDecode : Prop :=
  decodeWords 0x2080 0 0 = .nop ∧
  decodeWords 0x2411 0 0 = .add .word 1 (.reg 2) ∧
  decodeWords 0x0080 0x1234 0 = .lod .word 0 (.imm 0x1234) ∧
  decodeWords 0x3489 0 0 = .sto .word 1 (.mem (.ind 2)) ∧
  decodeWords 0x0390 0 0 = .bcc 3 ∧
  decodeWords 0x07A0 0 0 = .aslImm 0 7 ∧
  decodeWords 0x53AB 0 0 = .btsReg 2 3 ∧
  decodeWords 0x3FB8 0 0 = .adi 1 0x1F ∧
  decodeWords 0x2AB7 0 0 = .setAlt 1 0x0A ∧
  decodeWords 0x03B0 0 0 = .pshGeneral 0x03 ∧
  decodeWords 0x40B3 0 0 = .rts ∧
  decodeWords 0x05B5 0 0 = .mmw 0 1 ∧
  decodeWords 0x01BA 0xFF06 0x010E = .jmpF (.imm 0xFF06 0x010E) ∧
  decodeWords 0x00BB 0x4200 0 = .jsr (.imm 0x4200) ∧
  decodeWords 0x01BC 0 0 = .hwq01 ∧
  decodeWords 0x00BF 0 0 = .rti

/-- What a model must refuse. The words of spec/30_encoding.md R121: ALU and
jump words with an unassigned mode in either mode, HWQ with an unassigned index in Supervisor mode (R268). The forms that
decode: Rx also the base a PostInc or PreDec operand moves (U4), an 8-bit product (U5), an MMR or MMW index that names no
word (U6), a fetch at an odd PC under `OddPcPolicy = refuse` (U12). -/
def Obligations.ReservedEncodingsAreRefused : Prop :=
  ((∀ (w w1 w2 : Word) (s : State), field w 0 8 < 0x90 → field w 12 4 = 0 → 2 ≤ field w 9 3 →
    (∃ op sz rx r, decodeWords w w1 w2 = .aluUnassigned op sz rx r) ∧
    exec (decodeWords w w1 w2) s = .refused .unassignedAluMode) ∧
  (∀ (w w1 w2 : Word) (s : State), field w 0 8 = 0xBA ∨ field w 0 8 = 0xBB →
    field w 12 4 = 1 ∨ (field w 12 4 = 0 ∧ 2 ≤ field w 9 3) →
    (∃ call far procRow r, decodeWords w w1 w2 = .jmiUnassigned call far procRow r) ∧
    exec (decodeWords w w1 w2) s = .refused .unassignedJumpMode) ∧
  (∀ (w w1 w2 : Word) (s : State), field w 0 8 = 0xBC → ¬ field w 8 8 ∈ [0x00, 0x01, 0x02, 0x80, 0x81] →
    s.supervisor = true →
    (∃ index, decodeWords w w1 w2 = .hwqUnassigned index) ∧
    exec (decodeWords w w1 w2) s = .refused .unassignedHwqIndex)) ∧
  ((∀ (op : AluOp) (sz : Size) (rx : Reg) (s : State), (sz = .word ∨ (op ≠ .mul ∧ op ≠ .mli)) →
    exec (op.plain sz rx (.mem (.postInc rx))) s = .refused .baseIsRx ∧
    exec (op.plain sz rx (.mem (.preDec rx))) s = .refused .baseIsRx) ∧
  (∀ (rx : Reg) (m : AluOperand) (s : State), (∀ p, m ≠ .proc p) →
    exec (.mul .byte rx m) s = .refused .byteMultiply ∧ exec (.mli .byte rx m) s = .refused .byteMultiply) ∧
  (∀ (rv ra : Reg) (s : State), s.supervisor = true →
    (s.platform.mmuIndexMap = .compact ∧ 8 ≤ (s.reg ra).toNat) ∨
      (s.platform.mmuIndexMap = .wide ∧ (16 ≤ (s.reg ra).toNat ∨ (s.reg ra).toNat % 2 = 1)) →
    exec (.mmr rv ra) s = .refused .mmuIndexNamesNothing ∧ exec (.mmw rv ra) s = .refused .mmuIndexNamesNothing) ∧
  (∀ s : State, s.pc.toNat % 2 = 1 → s.platform.oddPc = .refuse → fetchAndExec s = .refused .oddPc))

/-! ## Reset -/

/-- The state after reset: PS, IA, the CLOCK interrupt, the halted flag and PC as R48 says; nothing is listed in
memory (log 3). -/
def Obligations.ResetState : Prop :=
  State.reset.ps = 0x8000 ∧ State.reset.ia = 0 ∧ State.reset.rtc.enabled = false ∧ State.reset.halted = false ∧
  State.reset.pc = State.reset.wordAt 0 ∧ State.reset.mem = []

/-- While the RESET line is high a step runs the RESET sequence, also when halted: the CLOCK interrupt is disabled, PS
is $8000, IA is 0, PC is the first word of ROM bank $80, which stands at physical address $200000; nothing else changes
(R330, D28). -/
def Obligations.ResetSequence : Prop :=
  ∀ s : State, s.sample.busCycle.lines.reset = true →
    ∃ t, step s = .next t ∧
      t = { s.sample.busCycle with
        rtc := { s.sample.busCycle.rtc with enabled := false }, ps := 0x8000, ia := 0, halted := false, pc := t.pc,
        mem := t.mem, bus := t.bus, freeCount := t.freeCount } ∧
      (s.sample.busCycle.quiet → sameMemory s.sample.busCycle t) ∧
      (s.sample.busCycle.quiet → s.platform.valid = true →
        t.pc = Mem.get s.sample.busCycle.mem 0x200001 ++ Mem.get s.sample.busCycle.mem 0x200000)

/-! ## Invariants -/

/-- The invariant holds after reset; the values of reset that the spec does not give (memory, the RTC's rate) are the
model's choice, log 2 and log 3. -/
def Obligations.ResetInv : Prop := State.reset.Inv

/-- Every step keeps the invariant: memory stays in canonical form below 2^26, the parameters stay ones the spec
allows, and the CLOCK interrupt has a rate the RTC can give while it is enabled (R306, R267). -/
def Obligations.StepKeepsInv : Prop := ∀ s t : State, s.Inv → step s = .next t → t.Inv

/-- No step of the processor changes a byte that is not RAM: writes to ROM and to unconnected memory are dropped (R73, and
R74 with D22). That a write to a device bank with side effects changes nothing is the model's choice, log 10; that no
device changes such a byte either is the model's choice, log 7; that memory stays as it is when a device is attached or
removed is the model's choice, log 33; that no step changes the parameters, and what stands behind an address changes
with the device table alone, is the model's choice, log 1. -/
def Obligations.StepKeepsReadOnlyMemory : Prop :=
  ∀ s t : State, step s = .next t →
    t.platform = s.platform ∧
    (∀ pa : PAddr, s.sample.backing pa ≠ .ram → t.peek pa = s.peek pa) ∧
    ∀ pa : PAddr, t.backing pa = s.sample.backing pa

/-- A User-mode instruction that ends in User mode leaves the supervisor's part of the state as it was: PS, P2, II, IA,
SSP, both halves of the MMU cache but for the A flags of the user half, the RTC, the halted flag, the devices and the
parameters (R304, R305, R42). -/
def Obligations.UserModeKeepsSupervisorState : Prop :=
  ∀ (i : Instr) (s t : State), exec i s = .next t → s.supervisor = false → t.supervisor = false →
    t.supervisorState = s.supervisorState

/-- The only way out of User mode is an interrupt, raised in a state whose supervisor's part is still as it was, and
saving `pc0` or, for SWI, the address of the next instruction (R30, R304, R296). The state it is raised in is the one the
instruction left: without device writes it has none to come either, its memory is as before but for RAM, and in canonical
form when it was. -/
def Obligations.UserModeIsLeftByInterrupt : Prop :=
  ∀ (i : Instr) (s t : State), exec i s = .next t → s.supervisor = false → t.supervisor = true →
    ∃ (e : Interrupt) (u : State), u.supervisorState = s.supervisorState ∧
      (s.quiet → u.quiet) ∧ (Mem.wf s.mem = true → Mem.wf u.mem = true) ∧
      (∀ pa : PAddr, s.backing pa ≠ .ram → u.peek pa = s.peek pa) ∧
      (e = .divideByZero ∨ (∃ f, e = .bankFault f) ∨ e = .unprivOpcode ∨ e = .undefOpcode ∨ e = .swi) ∧
      EnteredHandler e (if e = .swi then s.pc + 2 else s.pc) u t

/-- With the MMU on, a User-mode instruction that ends in User mode changes only bytes of banks that its half of the
MMU cache maps without P, S or W (R68); no device writes in between. -/
def Obligations.UserStoresStayInWritableBanks : Prop :=
  ∀ (i : Instr) (s t : State), exec i s = .next t → s.supervisor = false → t.supervisor = false → s.mmuOn = true →
    s.quiet → ∀ pa : PAddr, t.peek pa ≠ s.peek pa →
      ∃ k : Fin 4, s.mmuU[k].extractLsb' 0 12 = pa.extractLsb' 14 12 ∧ s.mmuU[k].extractLsb' 13 3 = 0

/-! ## ALU -/

/-- ADD, SUB, ADC, SBC: the result modulo 2^W, all four flags, the operand's base register, nothing else (R147 to R150,
R144; C after a subtraction is D5, the 8-bit flags are D6). -/
def Obligations.SumsAndDifferences : Prop :=
  ∀ (sz : Size) (rx : Reg) (m : AluOperand) (s : State), aluReady sz rx m s →
    let w := (operandSize m sz).bits
    let a := aluLeft sz rx m s
    let v := aluRight sz m s
    let c : Nat := s.flags.c.toNat
    ∀ p ∈ ([(.add sz rx m, a.toInt + v.toInt, decide (2 ^ w ≤ a.toNat + v.toNat)),
            (.sub sz rx m, a.toInt - v.toInt, decide (v.toNat ≤ a.toNat)),
            (.adc sz rx m, a.toInt + v.toInt + c, decide (2 ^ w ≤ a.toNat + v.toNat + c)),
            (.sbc sz rx m, a.toInt - v.toInt - (1 - c), decide (v.toNat + (1 - c) ≤ a.toNat))] :
            List (Instr × Int × Bool)),
      ∃ t, exec p.1 s = .next t ∧
        AluResult m s t ((aluRegs sz m s).set rx ((BitVec.ofInt w p.2.1).setWidth 16)) (sumFlags w p.2.1 p.2.2)

/-- CMP: N when Rx is at least M as signed numbers, C as unsigned numbers, Z when they are equal; V and every register
but the operand's base are unchanged (R145; the 8-bit flags are D6). -/
def Obligations.CompareFlags : Prop :=
  ∀ (sz : Size) (rx : Reg) (m : AluOperand) (s : State), aluReady sz rx m s →
    ∃ t, exec (.cmp sz rx m) s = .next t ∧
      AluResult m s t (aluRegs sz m s)
        { n := decide ((aluRight sz m s).toInt ≤ (aluLeft sz rx m s).toInt),
          z := decide (aluLeft sz rx m s = aluRight sz m s),
          c := decide ((aluRight sz m s).toNat ≤ (aluLeft sz rx m s).toNat), v := s.flags.v }

/-- NEG, AND, ORR, EOR, NOT, LOD: the result, zero-extended in 8-bit mode, N and Z from it; V by NEG alone; C and every
other register but the operand's base unchanged (R146, R157 to R161; the 8-bit flags are D6). NOP is `LOD R0, R0`: no
register and no byte changes, N and Z are assigned from R0 (R273). -/
def Obligations.LogicAndLoadResults : Prop :=
  (∀ (sz : Size) (rx : Reg) (m : AluOperand) (s : State), aluReady sz rx m s →
    let w := (operandSize m sz).bits
    let a := aluLeft sz rx m s
    let v := aluRight sz m s
    ∀ p ∈ ([(.neg sz rx m, 0 - v, decide (v.toNat = 2 ^ (w - 1))), (.and sz rx m, a &&& v, s.flags.v),
            (.orr sz rx m, a ||| v, s.flags.v), (.eor sz rx m, a ^^^ v, s.flags.v), (.not sz rx m, ~~~v, s.flags.v),
            (.lod sz rx m, v, s.flags.v)] : List (Instr × BitVec w × Bool)),
      ∃ t, exec p.1 s = .next t ∧
        AluResult m s t ((aluRegs sz m s).set rx (p.2.1.setWidth 16))
          { n := p.2.1.msb, z := decide (p.2.1 = 0), c := s.flags.c, v := p.2.2 }) ∧
  (∀ s : State, ∃ t, exec .nop s = .next t ∧
    RegisterResult s t s.regs
      { n := (s.reg 0).msb, z := decide (s.reg 0 = 0), c := s.flags.c, v := s.flags.v })

/-- MUL and MLI at 16 bits: the high word of the product in R0, then the low word in Rx, so that Rx = R0 keeps the low
word; N, Z and C from the 32-bit product, V unchanged (R151, R153). -/
def Obligations.Products : Prop :=
  ∀ (sz : Size) (rx : Reg) (m : AluOperand) (s : State), aluReady sz rx m s → operandSize m sz = .word →
    let a := s.reg rx
    let v : Word := operandValue .word m (s.started (aluWords m))
    ∀ p ∈ ([(.mul sz rx m, BitVec.ofNat 32 (a.toNat * v.toNat), false),
            (.mli sz rx m, BitVec.ofInt 32 (a.toInt * v.toInt), decide (a.toInt * v.toInt < 0))] :
            List (Instr × BitVec 32 × Bool)),
      ∃ t, exec p.1 s = .next t ∧
        AluResult m s t (((aluRegs sz m s).set 0 (p.2.1.extractLsb' 16 16)).set rx (p.2.1.extractLsb' 0 16))
          { n := p.2.2, z := decide (p.2.1 = 0), c := decide (p.2.1.extractLsb' 16 16 ≠ 0), v := s.flags.v }

/-- DIV, MOD, DVI, MDI with a divisor that is not 0: unsigned quotient and remainder; signed ones toward zero (D7); V by
DVI alone, when the quotient does not fit; C unchanged (R152, R154 to R156). -/
def Obligations.Quotients : Prop :=
  ∀ (sz : Size) (rx : Reg) (m : AluOperand) (s : State), aluReady sz rx m s → aluRight sz m s ≠ 0 →
    let w := (operandSize m sz).bits
    let a := aluLeft sz rx m s
    let v := aluRight sz m s
    ∀ p ∈ ([(.div sz rx m, BitVec.ofNat w (a.toNat / v.toNat), false, s.flags.v),
            (.mod sz rx m, BitVec.ofNat w (a.toNat % v.toNat), (BitVec.ofNat w (a.toNat % v.toNat)).msb, s.flags.v),
            (.dvi sz rx m, BitVec.ofInt w (a.toInt.tdiv v.toInt), (BitVec.ofInt w (a.toInt.tdiv v.toInt)).msb,
              !fitsSigned w (a.toInt.tdiv v.toInt)),
            (.mdi sz rx m, BitVec.ofInt w (a.toInt.tmod v.toInt), decide (a.toInt.tmod v.toInt < 0), s.flags.v)] :
            List (Instr × BitVec w × Bool × Bool)),
      ∃ t, exec p.1 s = .next t ∧
        AluResult m s t ((aluRegs sz m s).set rx (p.2.1.setWidth 16))
          { n := p.2.2.1, z := decide (p.2.1 = 0), c := s.flags.c, v := p.2.2.2 }

/-- Division by zero: Rx and FL are unchanged (D8), the operand's base has moved (D20), and DivideByZero is taken with
the saved PC `pc0` (R284, R296). -/
def Obligations.DivisionByZeroTraps : Prop :=
  ∀ (sz : Size) (rx : Reg) (m : AluOperand) (s : State), aluReady sz rx m s → aluRight sz m s = 0 →
    ∃ u, AluResult m s u (aluRegs sz m s) s.flags ∧
      ∀ i ∈ ([.div sz rx m, .mod sz rx m, .dvi sz rx m, .mdi sz rx m] : List Instr),
        raisesFrom .divideByZero s.pc u (exec i s)

/-- STO to memory: the one or two bytes of Rx are stored at the effective address, the operand's base moves, and nothing
else changes but A flags (R162, R70). -/
def Obligations.StoreToMemory : Prop :=
  ∀ (sz : Size) (rx : Reg) (mode : MemMode) (s : State), baseIsRx (.mem mode) rx = false →
    s.checkSized .write sz (effectiveAddress mode sz.bytes s) = none →
    ∃ t, exec (.sto sz rx (.mem mode)) s = .next t ∧
      t = { s with
        pc := s.pc + BitVec.ofNat 16 (2 * aluWords (.mem mode)), regs := movedRegs mode sz.bytes s, mem := t.mem,
        bus := t.bus, freeCount := t.freeCount, mmuU := t.mmuU, mmuS := t.mmuS } ∧
      Stores (effectiveAddress mode sz.bytes s) ((bytesOfWord (s.reg rx)).take (sz.bits / 8)) s t

/-- STO to a processor register the mode may name writes all 16 bits of it, and nothing else but PC (R143, R162). -/
def Obligations.StoreToProcessorRegister : Prop :=
  ∀ (rx : Reg) (p : ProcReg) (s : State), s.supervisor = true ∨ p ∈ [.fl, .pc, .usp, .sp] →
    exec (.sto .word rx (.proc p)) s = .next
      (match p with
      | .fl => { s with pc := s.pc + 2, fl := s.reg rx }
      | .pc => { s with pc := s.reg rx }
      | .ps => { s with pc := s.pc + 2, ps := s.reg rx }
      | .p2 => { s with pc := s.pc + 2, p2 := s.reg rx }
      | .ii => { s with pc := s.pc + 2, ii := s.reg rx }
      | .ia => { s with pc := s.pc + 2, ia := s.reg rx }
      | .usp => { s with pc := s.pc + 2, usp := s.reg rx }
      | .sp =>
        if s.supervisor then { s with pc := s.pc + 2, ssp := s.reg rx } else { s with pc := s.pc + 2, usp := s.reg rx })

/-- Each ALU mode row of the opcode table, for every operation of the pattern, completes where the instruction itself
does, in the same state (R105; log 18). -/
def Obligations.AluModeRowsComplete : Prop :=
  ∀ (op : AluOp) (sz : Size) (rx r i : Reg) (x : Word) (p : ProcReg) (slot : Fin 8) (s : State),
    ∀ q ∈ ([(.aluImmediate op sz rx x, sz, .imm x), (.aluAbsolute op sz rx x, sz, .mem (.abs x)),
            (.aluProcReg op rx p, .word, .proc p), (.aluRegister op sz rx r, sz, .reg r),
            (.aluIndirect op sz rx r, sz, .mem (.ind r)), (.aluIndirectOffset op sz rx r x, sz, .mem (.offset r x)),
            (.aluStackOffset op sz rx slot, sz, .mem (.stack slot)), (.aluPostInc op sz rx r, sz, .mem (.postInc r)),
            (.aluPreDec op sz rx r, sz, .mem (.preDec r)), (.aluIndexed op sz rx r i, sz, .mem (.indexed r i))] :
            List (Instr × Size × AluOperand)),
      aluCompletes op q.2.1 rx q.2.2 s →
        ∃ t, exec q.1 s = .next t ∧ exec (op.plain q.2.1 rx q.2.2) s = .next t

/-- The value of an operand in memory: with no device writing and no bank with side effects, the byte, or the word low
octet first, that stands there; each mode's address is a sum modulo 2^16 (R61, R84, R140). -/
def Obligations.OperandInMemory : Prop :=
  ∀ (sz : Size) (mode : MemMode) (s : State),
    let a : Word := match mode with
      | .abs x => x
      | .ind r => s.reg r
      | .offset r x => s.reg r + x
      | .stack slot => (if s.supervisor then s.ssp else s.usp) + BitVec.ofNat 16 (2 * slot.val)
      | .postInc r => s.reg r
      | .preDec r => s.reg r - BitVec.ofNat 16 (sz.bits / 8)
      | .indexed r i => s.reg r + s.reg i
    s.checkSized .read sz a = none → s.quiet → s.plainFrom a (sz.bits / 8) →
      readOperand sz (.mem mode) s =
        .ok ((match sz with
          | .byte => (s.byteAt a).setWidth 16
          | .word => s.byteAt (a + 1) ++ s.byteAt a : Word).setWidth sz.bits)
          { s with regs := movedRegs mode sz.bytes s }

/-- A BankFault of an ALU operand or of a jump operand, of either word of a far one: nothing of the instruction has
happened but that a PreDec base is lowered; the BankFault is taken with the saved PC `pc0` (R69, R140, R240, R241, R287,
D20). So is the BankFault of the fetch of the program word or of an operand word (R77, R296, D36). The refused pushes and
pops are in `StackFaultsTrap`. -/
def Obligations.AccessFaultsTrap : Prop :=
  (∀ (op : AluOp) (sz : Size) (rx : Reg) (mode : MemMode) (f : BankFault) (s : State),
    baseIsRx (.mem mode) rx = false → (sz = .word ∨ (op ≠ .mul ∧ op ≠ .mli)) →
    s.checkSized (if op = .sto then .write else .read) sz (effectiveAddress mode sz.bytes s) = some f →
    raisesFrom (.bankFault f) s.pc
      { s with
        pc := s.pc + BitVec.ofNat 16 (2 * aluWords (.mem mode)), regs := loweredRegs mode sz.bytes s }
      (exec (op.plain sz rx (.mem mode)) s)) ∧
  (∀ (s : State) (f : BankFault), s.fetchable = true → s.checkSized .read .word s.pc = some f →
    raisesFrom (.bankFault f) s.pc s (fetchAndExec s)) ∧
  (∀ (s : State) (f : BankFault), s.fetchable = true → s.checkSized .read .word s.pc = none →
    let words := wordCount (readValue .word s.pc s)
    (2 ≤ words ∧ s.checkSized .read .word (s.pc + 2) = some f) ∨
      (words = 3 ∧ s.checkSized .read .word (s.pc + 2) = none ∧ s.checkSized .read .word (s.pc + 4) = some f) →
    ∃ u, Reads s u ∧ raisesFrom (.bankFault f) s.pc u (fetchAndExec s)) ∧
  (∀ (mode : MemMode) (f : BankFault) (s : State), s.checkSized .read .word (effectiveAddress mode 2 s) = some f →
    ∀ i ∈ ([.jmp (.mem mode), .jsr (.mem mode)] : List Instr),
      raisesFrom (.bankFault f) s.pc { s.started (encode i).length with regs := loweredRegs mode 2 s } (exec i s)) ∧
  (∀ (mode : MemMode) (f : BankFault) (s : State), s.supervisor = true →
    let lower := effectiveAddress mode 4 s + (farOffsets mode).1
    let upper := effectiveAddress mode 4 s + (farOffsets mode).2
    s.checkSized .read .word lower = some f ∨
      (s.checkSized .read .word lower = none ∧ s.checkSized .read .word upper = some f) →
    ∀ i ∈ ([.jmpF (.mem mode), .jsrF (.mem mode)] : List Instr),
      ∃ u, Reads { s.started (encode i).length with regs := loweredRegs mode 4 s } u ∧
        raisesFrom (.bankFault f) s.pc u (exec i s))

/-! ## Branches -/

/-- The eleven branches: the words that encode them; PC is the target when the condition on FL holds and the next
instruction when not, and nothing else changes. The target is twice the signed offset from the address that the
parameter `BranchBase` names (R211 to R221; R210 and D9 leave the parameter open, and the statement holds for both). That
BUG and BSG need Z = 0, where the source prints 1, is the spec's resolution C13 (R219, R220). -/
def Obligations.Branches : Prop :=
  (∀ (w w1 w2 : Word), ∀ p ∈ ([(0x90, .bcc), (0x91, .bcs), (0x92, .bne), (0x93, .beq), (0x94, .bpl), (0x95, .bmi),
      (0x96, .bvc), (0x97, .bvs), (0x98, .bug), (0x99, .bsg), (0x9F, .baw)] : List (Nat × (BitVec 8 → Instr))),
    field w 0 8 = p.1 → decodeWords w w1 w2 = p.2 (w.extractLsb' 8 8)) ∧
  (∀ (off : BitVec 8) (s : State),
    let base := match s.platform.branchBase with
      | .instr => s.pc
      | .next => s.pc + 2
    let f := s.flags
    ∀ p ∈ ([(.bcc off, !f.c), (.bcs off, f.c), (.bne off, !f.z), (.beq off, f.z), (.bpl off, !f.n), (.bmi off, f.n),
            (.bvc off, !f.v), (.bvs off, f.v), (.bug off, f.c && !f.z), (.bsg off, f.n && !f.z), (.baw off, true)] :
            List (Instr × Bool)),
      exec p.1 s = .next { s with pc := if p.2 then base + BitVec.ofInt 16 (2 * off.toInt) else s.pc + 2 })

/-- After a compare of two registers the branches mean what their second names say, as signed and as unsigned numbers
(R211, R212, R215, R216, R219, R220 with R145). -/
def Obligations.BranchesAfterCompare : Prop :=
  ∀ (rx r : Reg) (off : BitVec 8) (s t : State), exec (.cmp .word rx (.reg r)) s = .next t →
    let a := s.reg rx
    let m := s.reg r
    ∀ p ∈ ([(.bcc off, decide (a.toNat < m.toNat)), (.bcs off, decide (m.toNat ≤ a.toNat)), (.bne off, decide (a ≠ m)),
            (.beq off, decide (a = m)), (.bpl off, decide (a.toInt < m.toInt)), (.bmi off, decide (m.toInt ≤ a.toInt)),
            (.bug off, decide (m.toNat < a.toNat)), (.bsg off, decide (m.toInt < a.toInt))] : List (Instr × Bool)),
      exec p.1 t = .next { s with
        pc := if p.2 then
            (match s.platform.branchBase with | .instr => s.pc + 2 | .next => s.pc + 4) + BitVec.ofInt 16 (2 * off.toInt)
          else s.pc + 4
        fl := t.fl }

/-! ## Shifts and bits -/

/-- ASL and LSL by 1..16 or by a register's low four bits: zeros enter on the right; N and Z from the result, C when a
1 was shifted out, V unchanged (R180 to R182; the count is read before the shift, D10). -/
def Obligations.ShiftsLeft : Prop :=
  ∀ (rx rc : Reg) (n : BitVec 4) (s : State),
    let v := s.reg rx
    let c := (s.reg rc).toNat % 16
    ∀ p ∈ ([(.aslImm rx n, n.toNat + 1), (.aslReg rx rc, c), (.lslImm rx n, n.toNat + 1), (.lslReg rx rc, c)] :
            List (Instr × Nat)),
      ∃ t, exec p.1 s = .next t ∧
        RegisterResult s t (s.regs.set rx (v <<< p.2))
          { n := (v <<< p.2).msb, z := decide (v <<< p.2 = 0), c := decide (2 ^ (16 - p.2) ≤ v.toNat),
            v := s.flags.v }

/-- ASR and LSR: the sign, or zeros, enter on the left; N and Z from the result, C when a 1 was shifted out; V by ASR
alone, when the result is -1 and the old value was not (R180, R185, R186; D10). -/
def Obligations.ShiftsRight : Prop :=
  ∀ (rx rc : Reg) (n : BitVec 4) (s : State),
    let v := s.reg rx
    let c := (s.reg rc).toNat % 16
    (∀ p ∈ ([(.asrImm rx n, n.toNat + 1), (.asrReg rx rc, c)] : List (Instr × Nat)),
      let r := BitVec.ofInt 16 (v.toInt / 2 ^ p.2)
      ∃ t, exec p.1 s = .next t ∧
        RegisterResult s t (s.regs.set rx r)
          { n := r.msb, z := decide (r = 0), c := decide (v.toNat % 2 ^ p.2 ≠ 0),
            v := decide (v.toInt ≠ -1 ∧ v.toInt / 2 ^ p.2 = -1) }) ∧
    (∀ p ∈ ([(.lsrImm rx n, n.toNat + 1), (.lsrReg rx rc, c)] : List (Instr × Nat)),
      let r := v >>> p.2
      ∃ t, exec p.1 s = .next t ∧
        RegisterResult s t (s.regs.set rx r)
          { n := r.msb, z := decide (r = 0), c := decide (v.toNat % 2 ^ p.2 ≠ 0), v := s.flags.v })

/-- ROL and ROR rotate the 17 bits of C and Rx: bit j of the result is bit j - X, or j + X, of them modulo 17; a rotation by
0 leaves C. RNL and RNR rotate the 16 bits of Rx and leave C. N and Z from the result, V unchanged (R180, R183, R184,
R187, R188; D10). -/
def Obligations.Rotates : Prop :=
  (∀ (rx rc : Reg) (n : BitVec 4) (s : State),
    let u : BitVec 17 := BitVec.ofBool s.flags.c ++ s.reg rx
    let c := (s.reg rc).toNat % 16
    ∀ p ∈ ([(.rolImm rx n, 17 - (n.toNat + 1)), (.rolReg rx rc, 17 - c), (.rorImm rx n, n.toNat + 1),
            (.rorReg rx rc, c)] : List (Instr × Nat)),
      ∃ (r : Word) (t : State), (∀ j < 16, r.getLsbD j = u.getLsbD ((j + p.2) % 17)) ∧ exec p.1 s = .next t ∧
        RegisterResult s t (s.regs.set rx r)
          { n := r.msb, z := decide (r = 0), c := u.getLsbD ((16 + p.2) % 17), v := s.flags.v }) ∧
  (∀ (rx rc : Reg) (n : BitVec 4) (s : State),
    let c := (s.reg rc).toNat % 16
    ∀ p ∈ ([(.rnlImm rx n, 16 - (n.toNat + 1)), (.rnlReg rx rc, 16 - c), (.rnrImm rx n, n.toNat + 1),
            (.rnrReg rx rc, c)] : List (Instr × Nat)),
      ∃ (r : Word) (t : State), (∀ j < 16, r.getLsbD j = (s.reg rx).getLsbD ((j + p.2) % 16)) ∧ exec p.1 s = .next t ∧
        RegisterResult s t (s.regs.set rx r)
          { n := r.msb, z := decide (r = 0), c := s.flags.c, v := s.flags.v })

/-- BTT, BTX, BTC, BTS: the words that encode them, the bit tested and changed, Z and C, and nothing else (R201 to
R204). The bit number of the register form is the low four bits of its register before the change, also when that is the
register tested (R200, D10); bit 11 of the register form's word is ignored (R110, D33). -/
def Obligations.BitTests : Prop :=
  (∀ (w w1 w2 : Word), ∀ p ∈ ([(0xA8, .bttImm, .bttReg), (0xA9, .btxImm, .btxReg), (0xAA, .btcImm, .btcReg),
      (0xAB, .btsImm, .btsReg)] : List (Nat × (Reg → BitVec 4 → Instr) × (Reg → Reg → Instr))),
    field w 0 8 = p.1 → decodeWords w w1 w2 =
      if w.getLsbD 12 then p.2.2 (w.extractLsb' 13 3).toFin (w.extractLsb' 8 3).toFin
      else p.2.1 (w.extractLsb' 13 3).toFin (w.extractLsb' 8 4)) ∧
  (∀ (rx rb : Reg) (bit : BitVec 4) (s : State) (imm : Bool),
    let b := if imm then bit.toNat else (s.reg rb).toNat % 16
    let old := (s.reg rx).getLsbD b
    (∃ t, exec (if imm then .bttImm rx bit else .bttReg rx rb) s = .next t ∧
      RegisterResult s t s.regs { s.flags with z := !old }) ∧
    ∀ p ∈ ([(if imm then .btxImm rx bit else .btxReg rx rb, !old, !old),
            (if imm then .btcImm rx bit else .btcReg rx rb, false, old),
            (if imm then .btsImm rx bit else .btsReg rx rb, true, !old)] : List (Instr × Bool × Bool)),
      ∃ (r : Word) (t : State),
        (∀ j < 16, r.getLsbD j = if j = b then p.2.1 else (s.reg rx).getLsbD j) ∧ exec p.1 s = .next t ∧
        RegisterResult s t (s.regs.set rx r) { s.flags with z := !old, c := p.2.2 })

/-! ## Immediates and flags -/

/-- SEF and CLF: the words that encode them; the flags their mask selects are set or cleared, and nothing else changes
(R260, R261). -/
def Obligations.FlagInstructions : Prop :=
  (∀ w w1 w2 : Word, field w 0 8 = 0xAE → decodeWords w w1 w2 = .sef (w.extractLsb' 12 4)) ∧
  (∀ w w1 w2 : Word, field w 0 8 = 0xAF → decodeWords w w1 w2 = .clf (w.extractLsb' 12 4)) ∧
  ∀ (mask : BitVec 4) (s : State), ∃ t u, exec (.sef mask) s = .next t ∧ exec (.clf mask) s = .next u ∧
    t = { s with pc := s.pc + 2, fl := t.fl } ∧ u = { s with pc := s.pc + 2, fl := u.fl } ∧
    (∀ j < 4, t.fl.getLsbD (12 + j) = (s.fl.getLsbD (12 + j) || mask.getLsbD j)) ∧
    (∀ j < 4, u.fl.getLsbD (12 + j) = (s.fl.getLsbD (12 + j) && !mask.getLsbD j)) ∧
    t.fl.extractLsb' 0 12 = s.fl.extractLsb' 0 12 ∧ u.fl.extractLsb' 0 12 = s.fl.extractLsb' 0 12

/-- ADI adds 1..32 to Rx and assigns all four flags, both as `ADD Rx, $00mm` does; INC is the word that adds 1 (R225). -/
def Obligations.AddImmediate : Prop :=
  (∀ w w1 w2 : Word, field w 0 8 = 0xB8 → decodeWords w w1 w2 =
    if w.extractLsb' 8 5 = 0 then .inc (w.extractLsb' 13 3).toFin
    else .adi (w.extractLsb' 13 3).toFin (w.extractLsb' 8 5)) ∧
  ∀ (rx : Reg) (v : BitVec 5) (s : State),
    ∀ p ∈ ([(.inc rx, 1), (.adi rx v, v.toNat + 1)] : List (Instr × Nat)),
      let x : Int := (s.reg rx).toInt + p.2
      ∃ t, exec p.1 s = .next t ∧
        RegisterResult s t (s.regs.set rx (BitVec.ofInt 16 x))
          (sumFlags 16 x (decide (2 ^ 16 ≤ (s.reg rx).toNat + p.2))) ∧
        ∃ u, exec (.add .word rx (.imm (BitVec.ofNat 16 p.2))) s = .next u ∧ u.regs = t.regs ∧ u.fl = t.fl

/-- SBI subtracts 1..32 from Rx and assigns all four flags, C when there was no borrow (D5); DEC is the word that subtracts
1 (R226). SET writes a constant 0..31, a power of two 2^5..2^15, or $FFE0 + v to Rx; FL is unchanged (R227, D35). -/
def Obligations.SubtractAndSetImmediate : Prop :=
  (∀ (rx : Reg) (v : BitVec 5) (s : State),
    ∀ p ∈ ([(.dec rx, 1), (.sbi rx v, v.toNat + 1)] : List (Instr × Nat)),
      let x : Int := (s.reg rx).toInt - p.2
      ∃ t, exec p.1 s = .next t ∧
        RegisterResult s t (s.regs.set rx (BitVec.ofInt 16 x)) (sumFlags 16 x (decide (p.2 ≤ (s.reg rx).toNat)))) ∧
  (∀ (rx : Reg) (v : BitVec 5) (s : State),
    exec (.setSmall rx v) s = .next { s with pc := s.pc + 2, regs := s.regs.set rx (BitVec.ofNat 16 v.toNat) } ∧
    exec (.setAlt rx v) s = .next { s with
      pc := s.pc + 2
      regs := s.regs.set rx
        (if v.toNat ≤ 0x0A then BitVec.ofNat 16 (2 ^ (5 + v.toNat)) else BitVec.ofNat 16 (0xFFE0 + v.toNat)) })

/-! ## Stack -/

/-- PSH of general registers stores R0..R7, those the mask names, by rising number and from the stack pointer down
(R250, R251). -/
def Obligations.PushGeneral : Prop :=
  ∀ (mask : BitVec 8) (s : State),
    let words := ((List.range 8).filter fun n => mask.getLsbD n).map fun n => s.regs.toList.getD n 0
    s.pushable words.length → ∃ t, exec (.pshGeneral mask) s = .next t ∧ Pushed 1 words s t

/-- POP of general registers loads them by falling number from the stack pointer up; nothing else changes (R250,
R253). -/
def Obligations.PopGeneral : Prop :=
  ∀ (mask : BitVec 8) (s : State),
    let order := ([7, 6, 5, 4, 3, 2, 1, 0] : List Reg).filter fun r => mask.getLsbD r.val
    s.poppable order.length →
    ∃ t, exec (.popGeneral mask) s = .next t ∧
      t = { (s.started 1).setSp (s.sp + BitVec.ofNat 16 (2 * order.length)) with
        regs := t.regs, mem := t.mem, bus := t.bus, freeCount := t.freeCount } ∧
      (∀ r, r ∉ order → t.reg r = s.reg r) ∧
      (s.quiet → sameMemory s t) ∧
      (s.quiet → s.plainFrom s.sp (2 * order.length) →
        ∀ k r, order[k]? = some r → t.reg r = s.wordAt (s.sp + BitVec.ofNat 16 (2 * k)))

/-- A POP of general registers with the same mask undoes a PSH: every register and the stack pointer are as before
(R250). -/
def Obligations.PopUndoesPush : Prop :=
  ∀ (mask : BitVec 8) (s : State),
    let n := ((List.range 8).filter fun k => mask.getLsbD k).length
    s.pushable n → s.quiet → Mem.wf s.mem = true → s.ramFrom (s.sp - BitVec.ofNat 16 (2 * n)) (2 * n) →
    ∃ t u, exec (.pshGeneral mask) s = .next t ∧ exec (.popGeneral mask) t = .next u ∧
      u = { s with pc := s.pc + 4, mem := t.mem, mmuU := t.mmuU, mmuS := t.mmuS }

/-- PSH of processor registers: in the order SP, USP, IA, II, P2, PS, PC, FL, each with its value of before the
instruction, PC as the address of the next one (R252, R256, D12). In User mode PS, P2, II and IA are skipped, and
UnprivOpcode is taken after the other pushes when the mask names one of them (R255, D14). -/
def Obligations.PushStatus : Prop :=
  ∀ (mask : BitVec 8) (s : State),
    let wanted (bit : Nat) (privileged : Bool) : Bool := mask.getLsbD bit && (s.supervisor || !privileged)
    let words : List Word :=
      (if wanted 0 false then [s.sp] else []) ++ (if wanted 1 false then [s.usp] else []) ++
      (if wanted 2 true then [s.ia] else []) ++ (if wanted 3 true then [s.ii] else []) ++
      (if wanted 4 true then [s.p2] else []) ++ (if wanted 5 true then [s.ps] else []) ++
      (if wanted 6 false then [s.pc + 2] else []) ++ (if wanted 7 false then [s.fl] else [])
    s.pushable words.length →
    ∃ t, Pushed 1 words s t ∧
      if s.supervisor = true ∨ mask &&& 0x3C = 0 then exec (.pshStatus mask) s = .next t
      else raisesFrom .unprivOpcode s.pc t (exec (.pshStatus mask) s)

/-- POP of processor registers in Supervisor mode: FL, PC, PS, P2, II, IA, USP, SP from the supervisor stack up; a
popped SP replaces the raised one; a popped PS governs from the next instruction on (R254, D13). -/
def Obligations.PopStatusSupervisor : Prop :=
  ∀ (mask : BitVec 8) (s : State), s.supervisor = true →
    let order := ([.fl, .pc, .ps, .p2, .ii, .ia, .usp, .sp] : List ProcReg).filter fun p => mask.getLsbD (7 - p.code)
    let popped (p : ProcReg) (old : Word) : Word :=
      if p ∈ order then s.wordAt (s.ssp + BitVec.ofNat 16 (2 * order.idxOf p)) else old
    s.poppable order.length →
    ∃ t, exec (.popStatus mask) s = .next t ∧
      t = { s with
        fl := t.fl, pc := t.pc, ps := t.ps, p2 := t.p2, ii := t.ii, ia := t.ia, usp := t.usp, ssp := t.ssp,
        mem := t.mem, bus := t.bus, freeCount := t.freeCount } ∧
      (s.quiet → sameMemory s t) ∧
      (s.quiet → s.plainFrom s.ssp (2 * order.length) →
        t.fl = popped .fl s.fl ∧ t.pc = popped .pc (s.pc + 2) ∧ t.ps = popped .ps s.ps ∧ t.p2 = popped .p2 s.p2 ∧
        t.ii = popped .ii s.ii ∧ t.ia = popped .ia s.ia ∧ t.usp = popped .usp s.usp ∧
        t.ssp = popped .sp (s.ssp + BitVec.ofNat 16 (2 * order.length)))

/-- POP of processor registers in User mode: FL and PC from the user stack up; then a popped USP is the stack pointer
that a pop of SP goes on from (D13); PS, P2, II and IA are skipped, and UnprivOpcode is taken after the other pops when
the mask names one of them (R254, R255, D14). No device writes in between and no bank has side effects. -/
def Obligations.PopStatusUser : Prop :=
  ∀ (mask : BitVec 8) (s : State), s.supervisor = false → s.quiet →
    let order := ([.fl, .pc, .usp] : List ProcReg).filter fun p => mask.getLsbD (7 - p.code)
    let value (p : ProcReg) : Word := s.wordAt (s.usp + BitVec.ofNat 16 (2 * order.idxOf p))
    let raised : Word := s.usp + BitVec.ofNat 16 (2 * order.length)
    let moved : Word := if mask.getLsbD 1 then value .usp else raised
    s.poppable order.length → s.plainFrom s.usp (2 * order.length) →
    (mask.getLsbD 0 = true → s.checkSized .read .word moved = none ∧ s.plainFrom moved 2) →
    let t : State := { s with
      fl := if mask.getLsbD 7 then value .fl else s.fl
      pc := if mask.getLsbD 6 then value .pc else s.pc + 2
      usp := if mask.getLsbD 0 then s.wordAt moved else moved }
    if mask &&& 0x3C = 0 then exec (.popStatus mask) s = .next t
    else raisesFrom .unprivOpcode s.pc t (exec (.popStatus mask) s)

/-- RTS pops PC (R245). A routine entered by JSR returns to the instruction after the call with the stack pointer as it was
(R243). -/
def Obligations.SubroutineReturns : Prop :=
  (∀ s : State, s.checkSized .read .word s.sp = none →
    ∃ t, exec .rts s = .next t ∧
      t = { s.setSp (s.sp + 2) with pc := t.pc, mem := t.mem, bus := t.bus, freeCount := t.freeCount } ∧
      (s.quiet → sameMemory s t) ∧ (s.quiet → s.plainFrom s.sp 2 → t.pc = s.wordAt s.sp)) ∧
  (∀ (m : JmpOperand) (s : State), nearReadable m s → s.pushable 1 → s.quiet → Mem.wf s.mem = true →
    s.ramFrom (s.sp - 2) 2 →
    ∃ t u, exec (.jsr m) s = .next t ∧ exec .rts t = .next u ∧
      u.pc = s.pc + BitVec.ofNat 16 (2 * (encode (.jsr m)).length) ∧ u.sp = s.sp ∧ u.regs = nearRegs m s ∧
      u.fl = s.fl ∧ u.ps = s.ps)

/-! ## Jumps -/

/-- JMP and JSR, near: PC is the operand, evaluated before the push of the address of the next instruction (D11);
nothing else changes but the operand's base, and for JSR the stack (R240, R242, R243). -/
def Obligations.NearJumps : Prop :=
  ∀ (m : JmpOperand) (s : State), nearReadable m s →
    (∃ t, exec (.jmp m) s = .next t ∧
      t = { s with
        pc := nearValue m s, regs := nearRegs m s, mem := t.mem, bus := t.bus, freeCount := t.freeCount } ∧
      (s.quiet ∨ nearInMemory m = false → sameMemory s t)) ∧
    (s.pushable 1 →
      ∃ t, exec (.jsr m) s = .next t ∧
        t = { s.setSp (s.sp - 2) with
          pc := nearValue m s, regs := nearRegs m s, mem := t.mem, bus := t.bus, freeCount := t.freeCount,
          mmuU := t.mmuU, mmuS := t.mmuS } ∧
        Stores (s.sp - 2) (bytesOfWord (s.pc + BitVec.ofNat 16 (2 * (encode (.jsr m)).length))) s t)

/-- JMP.F and JSR.F in Supervisor mode: PC is the lower word; the word of the supervisor half that maps the new PC
becomes the upper word without its flags (D25), after the push of JSR.F; nothing else changes but the operand's base
and the stack (R241 to R244). -/
def Obligations.FarJumps : Prop :=
  ∀ (m : FarOperand) (s : State), s.supervisor = true → farReadable m s →
    let k : Fin 4 := ((farValue m s).1.extractLsb' 14 2).toFin
    let e : Word := (farValue m s).2 &&& 0x0FFF
    (∃ t, exec (.jmpF m) s = .next t ∧
      t = { s with
        pc := (farValue m s).1, regs := farRegs m s, mmuS := s.mmuS.set k e, mem := t.mem, bus := t.bus,
        freeCount := t.freeCount } ∧
      (s.quiet ∨ farInMemory m = false → sameMemory s t)) ∧
    (s.pushable 1 →
      ∃ u t, Stores (s.ssp - 2) (bytesOfWord (s.pc + BitVec.ofNat 16 (2 * (encode (.jsrF m)).length))) s u ∧
        u = { s with
          pc := u.pc, ssp := s.ssp - 2, regs := farRegs m s, mem := u.mem, bus := u.bus, freeCount := u.freeCount,
          mmuS := u.mmuS } ∧
        exec (.jsrF m) s = .next t ∧ t = { u with pc := (farValue m s).1, mmuS := u.mmuS.set k e })

/-- Each jump mode row of the opcode table completes where the jump or call itself does, in the same state (R107;
log 18). -/
def Obligations.JumpModeRowsComplete : Prop :=
  ∀ (call : Bool) (r i : Reg) (x y : Word) (slot : Fin 8) (s : State), (call = true → s.pushable 1) →
    (∀ q ∈ ([(.jmiImmediateNear call x, .imm x), (.jmiAbsoluteNear call x, .mem (.abs x)),
             (.jmiRegisterNear call r, .reg r), (.jmiIndirectNear call r, .mem (.ind r)),
             (.jmiIndirectOffsetNear call r x, .mem (.offset r x)), (.jmiStackOffsetNear call slot, .mem (.stack slot)),
             (.jmiPostIncNear call r, .mem (.postInc r)), (.jmiPreDecNear call r, .mem (.preDec r)),
             (.jmiIndexedNear call r i, .mem (.indexed r i))] : List (Instr × JmpOperand)),
      nearReadable q.2 s →
        ∃ t, exec q.1 s = .next t ∧ exec (if call then .jsr q.2 else .jmp q.2) s = .next t) ∧
    (∀ q ∈ ([(.jmiImmediateFar call x y, .imm x y), (.jmiAbsoluteFar call x, .mem (.abs x)),
             (.jmiRegisterFar call r, .reg r), (.jmiIndirectFar call r, .mem (.ind r)),
             (.jmiIndirectOffsetFar call r x, .mem (.offset r x)), (.jmiStackOffsetFar call slot, .mem (.stack slot)),
             (.jmiPostIncFar call r, .mem (.postInc r)), (.jmiPreDecFar call r, .mem (.preDec r)),
             (.jmiIndexedFar call r i, .mem (.indexed r i))] : List (Instr × FarOperand)),
      s.supervisor = true → farReadable q.2 s →
        ∃ t, exec q.1 s = .next t ∧ exec (if call then .jsrF q.2 else .jmpF q.2) s = .next t)

/-! ## The MMU cache -/

/-- MMR and MMW in Supervisor mode read and write the cache word the index names under the parameter `MmuIndexMap`;
nothing else changes (R269, R270; D23 leaves the parameter open, and the statement holds for both). -/
def Obligations.MmuCacheWords : Prop :=
  ∀ (rv ra : Reg) (k : Fin 4) (sup : Bool) (s : State), s.supervisor = true →
    (s.reg ra).toNat = (match s.platform.mmuIndexMap with
      | .compact => (if sup then 4 else 0) + k.val
      | .wide => (if sup then 8 else 0) + 2 * k.val) →
    exec (.mmr rv ra) s = .next { s with
      pc := s.pc + 2, regs := s.regs.set rv (if sup then s.mmuS[k] else s.mmuU[k]) } ∧
    exec (.mmw rv ra) s = .next { s with
      pc := s.pc + 2
      mmuU := if sup then s.mmuU else s.mmuU.set k (s.reg rv)
      mmuS := if sup then s.mmuS.set k (s.reg rv) else s.mmuS }

/-- MML in Supervisor mode pushes the four words of the half that bit 0 of Rv selects, word 0 first; MMS pops four words,
word 3 first, and replaces the half (R271, R272, D24). -/
def Obligations.MmuCacheHalves : Prop :=
  ∀ (rv : Reg) (s : State), s.supervisor = true →
    (s.pushable 4 → ∃ t, exec (.mml rv) s = .next t ∧
      Pushed 1 (if (s.reg rv).getLsbD 0 then s.mmuS.toList else s.mmuU.toList) s t) ∧
    (s.poppable 4 → ∃ t, exec (.mms rv) s = .next t ∧
      t = { s with
        pc := s.pc + 2, ssp := s.ssp + 8, mmuU := t.mmuU, mmuS := t.mmuS, mem := t.mem, bus := t.bus,
        freeCount := t.freeCount } ∧
      (if (s.reg rv).getLsbD 0 then t.mmuU = s.mmuU else t.mmuS = s.mmuS) ∧
      (s.quiet → sameMemory s t) ∧
      (s.quiet → s.plainFrom s.ssp 8 → ∀ k : Fin 4,
        (if (s.reg rv).getLsbD 0 then t.mmuS[k] else t.mmuU[k]) = s.wordAt (s.ssp + BitVec.ofNat 16 (6 - 2 * k.val))))

/-! ## The hardware bus, the RTC, SLP -/

/-- HWQ $00 and $01 in Supervisor mode: the number of devices at the bus indexes 1..15; the identity words of the YCPU or of
a device, or R0 = 0 for an empty slot and for an index above 15 (R263, R264, D34). HWQ $02: no effect without a device at
the index in R0; else one of the answers of the table of R265, which the device chooses (log 8): R0 is MSG_ACK, MSG_WAIT
or MSG_ERROR, R1, R2 and memory may change under MSG_ACK alone, and nothing else changes. -/
def Obligations.BusQueries : Prop :=
  (∀ s : State, s.supervisor = true →
    exec .hwq00 s = .next { s with
      pc := s.pc + 2
      regs := s.regs.set 0
        (BitVec.ofNat 16 ((List.finRange 16).countP fun (i : Fin 16) => decide (i ≠ 0) && s.devices[i].isSome)) } ∧
    ∃ t, exec .hwq01 s = .next t ∧ t = { s with pc := s.pc + 2, regs := t.regs } ∧
      (∀ r : Reg, 4 ≤ r.val → t.reg r = s.reg r) ∧
      (s.reg 0 = 0 → [t.reg 0, t.reg 1, t.reg 2, t.reg 3] = [s.platform.cpuInfo.deviceType,
        s.platform.cpuInfo.manufacturer, s.platform.cpuInfo.deviceId, s.platform.cpuInfo.flags]) ∧
      (∀ (i : Fin 16) (d : Device), i ≠ 0 → (s.reg 0).toNat = i.val → s.devices[i] = some d →
        [t.reg 0, t.reg 1, t.reg 2, t.reg 3] =
          [d.identity.deviceType, d.identity.manufacturer, d.identity.deviceId, d.identity.flags]) ∧
      ((∀ i : Fin 16, (s.reg 0).toNat = i.val → i ≠ 0 ∧ s.devices[i] = none) →
        [t.reg 0, t.reg 1, t.reg 2, t.reg 3] = [0, s.reg 1, s.reg 2, s.reg 3])) ∧
  (∀ s : State, s.supervisor = true →
    ((∀ i : Fin 16, (s.reg 0).toNat = i.val → i = 0 ∨ s.devices[i] = none) →
      exec .hwq02 s = .next { s with pc := s.pc + 2 }) ∧
    (∀ i : Fin 16, (s.reg 0).toNat = i.val → i ≠ 0 → s.devices[i] ≠ none →
      ∃ t, exec .hwq02 s = .next t ∧
        t = { s with pc := s.pc + 2, regs := t.regs, mem := t.mem, freeCount := t.freeCount } ∧
        (∀ r : Reg, 3 ≤ r.val → t.reg r = s.reg r) ∧
        (t.reg 0 = 0x0001 ∨
          ((t.reg 0 = 0x0002 ∨ t.reg 0 = 0xFFFF) ∧ t.reg 1 = s.reg 1 ∧ t.reg 2 = s.reg 2 ∧ t.mem = s.mem))))

/-- HWQ $80 in Supervisor mode: R0..R3 hold a time in the layout of R266, with bit 15 of R0 free (D40); the time itself is a
free value (log 9); nothing else of the machine changes. HWQ $81: R0 = 0 disables the CLOCK interrupt; else it is enabled
at R0 Hz, capped to the CPU frequency divided by 1024; R0 becomes the rate (R267). -/
def Obligations.ClockQueries : Prop :=
  (∀ s : State, s.supervisor = true →
    ∃ t, exec .hwq80 s = .next t ∧
      t = { s with
        pc := s.pc + 2, regs := t.regs, rtc := { s.rtc with time := t.rtc.time }, freeCount := t.freeCount } ∧
      (∀ r : Reg, 4 ≤ r.val → t.reg r = s.reg r) ∧
      t.reg 0 &&& 0x00F0 = 0 ∧ t.reg 1 &&& 0xE0E0 = 0 ∧ t.reg 2 &&& 0xC0C0 = 0) ∧
  (∀ s : State, s.supervisor = true →
    let rate : Word := BitVec.ofNat 16 (min (s.reg 0).toNat (s.platform.cpuFrequency / 1024))
    exec .hwq81 s = .next { s with
      pc := s.pc + 2, regs := s.regs.set 0 rate
      rtc := { s.rtc with enabled := decide (s.reg 0 ≠ 0), rate := rate } })

/-- SLP in Supervisor mode sets the halted flag; while it is set and no interrupt is accepted a step changes nothing
(R274, R280, D29). -/
def Obligations.SleepUntilInterrupt : Prop :=
  (∀ s : State, s.supervisor = true → exec .slp s = .next { s with pc := s.pc + 2, halted := true }) ∧
  (∀ s : State, s.sample.busCycle.lines.reset = false → s.sample.busCycle.halted = true →
    s.sample.busCycle.ready = [] → step s = .next s.sample.busCycle)

/-! ## Interrupts -/

/-- Taking an interrupt: PS and the saved PC on the supervisor stack, S set, the vector read from IA; the sequence is stuck
exactly when the MMU refuses one of its accesses, which never happens with the MMU off (R295 to R297, R303). SWI takes the
software interrupt with the address of the next instruction, whatever I and Q hold (R230, R294). -/
def Obligations.InterruptEntry : Prop :=
  (∀ (i : Interrupt) (savedPc : Word) (s : State),
    raisesFrom i savedPc s (takeInterrupt i savedPc s) ∧ (s.mmuOn = false → interruptible i s)) ∧
  (∀ s : State, raisesFrom .swi (s.pc + 2) { s with pc := s.pc + 2 } (exec .swi s))

/-- RTI in Supervisor mode pops PC, then PS with Q, U and W cleared; nothing else changes (R231; C9 and D17). -/
def Obligations.ReturnFromInterrupt : Prop :=
  ∀ s : State, s.supervisor = true → s.poppable 2 →
    ∃ t, exec .rti s = .next t ∧
      t = { s with pc := t.pc, ps := t.ps, ssp := s.ssp + 4, mem := t.mem, bus := t.bus, freeCount := t.freeCount } ∧
      (s.quiet → sameMemory s t) ∧
      (s.quiet → s.plainFrom s.ssp 4 → t.pc = s.wordAt s.ssp ∧ t.ps = s.wordAt (s.ssp + 2) &&& 0xF1FF)

/-- RTI returns from an interrupt: run in the state an entry left, with the supervisor stack in RAM, it restores the
saved PC, PS but for Q, U and W, and both stack pointers (R298, R334). -/
def Obligations.ReturnUndoesEntry : Prop :=
  ∀ (i : Interrupt) (savedPc : Word) (s t : State), takeInterrupt i savedPc s = .next t → s.quiet →
    Mem.wf s.mem = true → (s.enter i).ramFrom (s.ssp - 4) 4 →
    ∃ u, exec .rti t = .next u ∧ u.pc = savedPc ∧ u.ps = s.ps &&& 0xF1FF ∧ u.ssp = s.ssp ∧ u.usp = s.usp ∧
      u.regs = s.regs ∧ u.fl = s.fl

/-- The UNDEFINED encodings take UndefOpcode with the saved PC `pc0` and have no other effect, in either mode; so does every
word with one of the opcodes $9A to $9E, $AC, $AD, $B4 and $C0 to $FF, and every word of STO with the Immediate or the
Register mode, whatever its other bits hold (R120, R222, R289). -/
def Obligations.UndefinedOpcodesTrap : Prop :=
  (∀ (sz : Size) (rx r : Reg) (s : State),
    ∀ i ∈ ([.undefStoImmediate sz rx, .undefStoRegister r sz rx, .undefBranch10, .undefBranch11, .undefBranch12,
            .undefBranch13, .undefBranch14, .undefAcAd, .undefB4, .undefC0FF] : List Instr),
      raisesFrom .undefOpcode s.pc { s with pc := s.pc + 2 } (exec i s)) ∧
  (∀ (w w1 w2 : Word) (s : State), 0x9A ≤ field w 0 8 → field w 0 8 ≤ 0x9E →
    raisesFrom .undefOpcode s.pc { s with pc := s.pc + 2 } (exec (decodeWords w w1 w2) s)) ∧
  (∀ (w w1 w2 : Word) (s : State), field w 0 8 ∈ [0xAC, 0xAD, 0xB4] ∨ 0xC0 ≤ field w 0 8 →
    raisesFrom .undefOpcode s.pc { s with pc := s.pc + 2 } (exec (decodeWords w w1 w2) s)) ∧
  (∀ (w w1 w2 : Word) (s : State), 0x88 ≤ field w 0 8 → field w 0 8 ≤ 0x8F → field w 9 7 = 0 ∨ field w 12 4 = 2 →
    raisesFrom .undefOpcode s.pc { s with pc := s.pc + 2 } (exec (decodeWords w w1 w2) s))

/-- The privileged instructions in User mode take UnprivOpcode with the saved PC `pc0` and do nothing else: MMR, MMW,
MML, MMS, every HWQ, SLP, RTI, far jumps, and ALU instructions that name PS, P2, II or IA (R305, R143, R288). -/
def Obligations.PrivilegedInstructionsTrap : Prop :=
  ∀ (rv ra : Reg) (index : BitVec 8) (m : FarOperand) (op : AluOp) (sz : Size) (p : ProcReg) (s : State),
    s.supervisor = false → p ∈ [.ps, .p2, .ii, .ia] →
    ∀ i ∈ ([.mmr rv ra, .mmw rv ra, .mml rv, .mms rv, .hwq00, .hwq01, .hwq02, .hwq80, .hwq81, .hwqUnassigned index,
            .slp, .rti, .jmpF m, .jsrF m, op.plain sz rv (.proc p)] : List Instr),
      raisesFrom .unprivOpcode s.pc { s with pc := s.pc + BitVec.ofNat 16 (2 * (encode i).length) } (exec i s)

/-- A hardware interrupt is accepted exactly while PS.I = 1, PS.Q = 0 and a device asserts its IRQ; when it is the only
interrupt that is ready, the step takes it: II is the lowest asserting index, the saved PC is the next instruction's
(R291, R300). That the line of an index 1 to 15 counts whether or not a device stands there is the model's choice,
log 22. -/
def Obligations.HardwareInterrupt : Prop :=
  ∀ s : State,
    (s.accepts .hwi = true ↔
      s.ps.getLsbD 13 = true ∧ s.ps.getLsbD 11 = false ∧ ∃ k, 1 ≤ k ∧ k < 16 ∧ s.lines.irq.getLsbD k = true) ∧
    ∀ k, 1 ≤ k → k < 16 → s.lines.irq.getLsbD k = true → (∀ j, 1 ≤ j → j < k → s.lines.irq.getLsbD j = false) →
      s.lines.reset = false → s.lines.busy = 0 → s.ready = [.hwi] →
      raisesFrom .hwi s.pc { s with ii := BitVec.ofNat 16 k } (stepSampled s)

/-- What a step does before it fetches, RESET aside: a device that accesses memory stalls it; else one of the
asynchronous interrupts that are ready is taken, any of them when there are several (R280, R301, D26, D27; log 6, 16);
Clock is ready only while the RTC interrupt is enabled (R283). Whichever is taken enters its handler with the saved PC of
the next instruction (R283, R291 to R293, R296); taking Clock, BusRefresh or DebugQuery clears its event, which is the
model's choice, log 20. A step at which the hardware on the bus changes has BusRefresh ready, and BusRefresh is raised by
such a change alone (R292, U10; log 32). -/
def Obligations.AsynchronousInterrupts : Prop :=
  ∀ s : State, s.lines.reset = false →
    (s.lines.busy ≠ 0 → stepSampled s = .next s) ∧
    (s.lines.busy = 0 → s.ready ≠ [] →
      ∃ (e : Async) (n : Nat), e ∈ s.ready ∧ stepSampled s = takeAsync e { s with freeCount := n }) ∧
    (.clock ∈ s.ready ↔ s.lines.clock = true ∧ s.rtc.enabled = true) ∧
    (.busRefresh ∈ s.ready ↔ s.lines.busRefresh = true) ∧ (.debugQuery ∈ s.ready ↔ s.lines.debug = true) ∧
    raisesFrom .clock s.pc { s with lines := { s.lines with clock := false } } (takeAsync .clock s) ∧
    raisesFrom .busRefresh s.pc { s with lines := { s.lines with busRefresh := false } } (takeAsync .busRefresh s) ∧
    raisesFrom .debugQuery s.pc { s with lines := { s.lines with debug := false } } (takeAsync .debugQuery s) ∧
    (∀ k, 1 ≤ k → k < 16 → s.lines.irq.getLsbD k = true → (∀ j, 1 ≤ j → j < k → s.lines.irq.getLsbD j = false) →
      raisesFrom .hwi s.pc { s with ii := BitVec.ofNat 16 k } (takeAsync .hwi s)) ∧
    ∀ u : State, (u.sample.devices ≠ u.devices → .busRefresh ∈ u.sample.ready) ∧
      (.busRefresh ∈ u.sample.ready → u.lines.busRefresh = true ∨ ∃ e ∈ u.inputs.head?, e.devices.isSome = true)

/-- A step runs the instruction that stands at PC: when nothing comes first and the bytes at PC, which the MMU lets the
processor read, decode to `i`, the step is `exec i` (R77, R280). -/
def Obligations.StepRunsDecoded : Prop :=
  ∀ (s : State) (i : Instr) (rest : List Byte),
    let u := s.sample.busCycle
    u.lines.reset = false → u.lines.busy = 0 → u.ready = [] → u.halted = false → u.fetchable = true → u.quiet →
    decode ((List.range 6).map fun k => u.byteAt (u.pc + BitVec.ofNat 16 k)) = .ok (i, rest) →
    (∀ k < (encode i).length, u.checkSized .read .word (u.pc + BitVec.ofNat 16 (2 * k)) = none) →
    u.plainFrom u.pc (2 * (encode i).length) → step s = exec i u

/-! ## Memory -/

/-- With the MMU off the four logical banks are the ROM bank $80 and the RAM banks $01, $02, $03 of device 0; no check is
made and the cache is neither read nor written (R66). -/
def Obligations.FixedMap : Prop :=
  ∀ (a : Word) (s : State), s.mmuOn = false →
    (s.translate a).toNat =
      (if a.toNat < 0x4000 then 0x80 else if a.toNat < 0x8000 then 0x01 else if a.toNat < 0xC000 then 0x02 else 0x03)
        * 0x4000 + a.toNat % 0x4000 ∧
    (∀ kind sz, s.checkSized kind sz a = none) ∧
    (∀ (e : Vector Word 4) (g : Vector Word 4), ({ s with mmuU := e, mmuS := g } : State).translate a = s.translate a) ∧
    (∀ sz v t, memRead sz a s = .ok v t → t.mmuU = s.mmuU ∧ t.mmuS = s.mmuS) ∧
    ∀ sz v t, memWrite sz a v s = .ok () t → t.mmuU = s.mmuU ∧ t.mmuS = s.mmuS

/-- With the MMU on a byte is translated by the word of its bank in the half of the mode in force; the checks are P, then
S in User mode, then W for a write, and the BankFault says which (R67, R68, D18). A word access reports its lower failing
byte (R69, D19). -/
def Obligations.ProtectionChecks : Prop :=
  ∀ (a : Word) (s : State), s.mmuOn = true →
    let k : Fin 4 := (a.extractLsb' 14 2).toFin
    let e : Word := if s.supervisor then s.mmuS[k] else s.mmuU[k]
    (s.translate a).toNat = (e.toNat % 0x1000) * 0x4000 + a.toNat % 0x4000 ∧
    (∀ kind, s.checkSized kind .byte a =
      if e.getLsbD 13 then some ⟨a, false, false⟩
      else if s.supervisor = false ∧ e.getLsbD 15 = true then some ⟨a, true, decide (kind = .write)⟩
      else if kind = .write ∧ e.getLsbD 14 = true then some ⟨a, false, true⟩
      else none) ∧
    (∀ kind, s.checkSized kind .word a =
      match s.checkSized kind .byte a with
      | some f => some f
      | none => s.checkSized kind .byte (a + 1)) ∧
    (∀ sz f, s.checkSized .read sz a = some f → memRead sz a s = .trap (.bankFault f) s) ∧
    (∀ sz f v, s.checkSized .write sz a = some f → memWrite sz a v s = .trap (.bankFault f) s)

/-- A word written to RAM reads back as the word, and byte by byte with its low octet first (R61, R72), wherever it lies: at
an odd address, across two banks, at $FFFF (R63, R64). Memory that is not connected reads with all bits set, and drops
writes (R74, D22). -/
def Obligations.MemoryReadsBack : Prop :=
  (∀ (a v : Word) (s t : State), memWrite .word a v s = .ok () t → s.quiet → Mem.wf s.mem = true → s.ramFrom a 2 →
    memRead .word a t = .ok v t ∧ memRead .byte a t = .ok (v &&& 0x00FF) t ∧
    memRead .byte (a + 1) t = .ok (v >>> 8) t) ∧
  (∀ (a v : Word) (s : State), s.quiet → (∀ k < 2, s.backing (s.translate (a + BitVec.ofNat 16 k)) = .absent) →
    (s.checkSized .read .word a = none → memRead .word a s = .ok 0xFFFF s) ∧
    (∀ t, memWrite .word a v s = .ok () t → t.mem = s.mem))

/-! ## Refused pushes and pops -/

/-- A BankFault of a push or a pop, with the partial effects of D20, is taken with the saved PC `pc0` (R287, R296). PSH, MML,
JSR: the words pushed before stay, SP is lowered for the refused push too (R40, R251, R252, R271), and the base of a
call's operand has moved, its PC and mapping not (R243). POP: the registers loaded before keep their words, a popped PS
among them (R253, R254, D13), and SP is as the pops before left it. RTS, RTI, MMS: SP is raised for the pops before, and
no PC, PS or cache word is written (R245, R231, R272, D24). For POP of processor registers in User mode no device writes in
between and no bank has side effects; UnprivOpcode is then not raised (R255). -/
def Obligations.StackFaultsTrap : Prop :=
  (∀ (mask : BitVec 8) (rv : Reg) (n : Nat) (f : BankFault) (s : State), s.pushRefused n f →
    let general := ((List.range 8).filter fun k => mask.getLsbD k).map fun k => s.regs.toList.getD k 0
    let wanted (bit : Nat) (privileged : Bool) : Bool := mask.getLsbD bit && (s.supervisor || !privileged)
    let status : List Word :=
      (if wanted 0 false then [s.sp] else []) ++ (if wanted 1 false then [s.usp] else []) ++
      (if wanted 2 true then [s.ia] else []) ++ (if wanted 3 true then [s.ii] else []) ++
      (if wanted 4 true then [s.p2] else []) ++ (if wanted 5 true then [s.ps] else []) ++
      (if wanted 6 false then [s.pc + 2] else []) ++ (if wanted 7 false then [s.fl] else [])
    let half := if (s.reg rv).getLsbD 0 then s.mmuS.toList else s.mmuU.toList
    ∀ q ∈ ([(.pshGeneral mask, general), (.pshStatus mask, status)] ++
        (if s.supervisor then [(.mml rv, half)] else []) : List (Instr × List Word)),
      n < q.2.length → ∃ u, PushFaulted 1 (q.2.take n) s u ∧ raisesFrom (.bankFault f) s.pc u (exec q.1 s)) ∧
  (∀ (m : JmpOperand) (f : BankFault) (s : State), nearReadable m s → s.pushRefused 0 f →
    ∃ u, u = { (s.started (encode (.jsr m)).length).setSp (s.sp - 2) with
        regs := nearRegs m s, mem := u.mem, bus := u.bus, freeCount := u.freeCount } ∧
      (s.quiet ∨ nearInMemory m = false → sameMemory s u) ∧ raisesFrom (.bankFault f) s.pc u (exec (.jsr m) s)) ∧
  (∀ (m : FarOperand) (f : BankFault) (s : State), s.supervisor = true → farReadable m s → s.pushRefused 0 f →
    ∃ u, u = { s.started (encode (.jsrF m)).length with
        ssp := s.ssp - 2, regs := farRegs m s, mem := u.mem, bus := u.bus, freeCount := u.freeCount } ∧
      (s.quiet ∨ farInMemory m = false → sameMemory s u) ∧ raisesFrom (.bankFault f) s.pc u (exec (.jsrF m) s)) ∧
  (∀ (rv : Reg) (n : Nat) (f : BankFault) (s : State), s.popRefused n f →
    ∀ q ∈ ([(.rts, 1)] ++ (if s.supervisor then [(.rti, 2), (.mms rv, 4)] else []) : List (Instr × Nat)),
      n < q.2 → ∃ u, Reads ((s.started 1).setSp (s.sp + BitVec.ofNat 16 (2 * n))) u ∧
        raisesFrom (.bankFault f) s.pc u (exec q.1 s)) ∧
  (∀ (mask : BitVec 8) (n : Nat) (f : BankFault) (s : State), s.popRefused n f →
    let order := ([7, 6, 5, 4, 3, 2, 1, 0] : List Reg).filter fun r => mask.getLsbD r.val
    n < order.length →
    ∃ u, Reads { (s.started 1).setSp (s.sp + BitVec.ofNat 16 (2 * n)) with regs := u.regs } u ∧
      (∀ r, r ∉ order.take n → u.reg r = s.reg r) ∧
      (s.quiet → s.plainFrom s.sp (2 * n) →
        ∀ k r, (order.take n)[k]? = some r → u.reg r = s.wordAt (s.sp + BitVec.ofNat 16 (2 * k))) ∧
      raisesFrom (.bankFault f) s.pc u (exec (.popGeneral mask) s)) ∧
  (∀ (mask : BitVec 8) (n : Nat) (f : BankFault) (s : State), s.supervisor = true → s.popRefused n f →
    let order := ([.fl, .pc, .ps, .p2, .ii, .ia, .usp, .sp] : List ProcReg).filter fun p => mask.getLsbD (7 - p.code)
    let popped (p : ProcReg) (old : Word) : Word :=
      if p ∈ order.take n then s.wordAt (s.ssp + BitVec.ofNat 16 (2 * order.idxOf p)) else old
    n < order.length →
    ∃ u, Reads { s with
        fl := u.fl, pc := u.pc, ps := u.ps, p2 := u.p2, ii := u.ii, ia := u.ia, usp := u.usp,
        ssp := s.ssp + BitVec.ofNat 16 (2 * n) } u ∧
      (s.quiet → s.plainFrom s.ssp (2 * n) →
        u.fl = popped .fl s.fl ∧ u.pc = popped .pc (s.pc + 2) ∧ u.ps = popped .ps s.ps ∧ u.p2 = popped .p2 s.p2 ∧
        u.ii = popped .ii s.ii ∧ u.ia = popped .ia s.ia ∧ u.usp = popped .usp s.usp) ∧
      raisesFrom (.bankFault f) s.pc u (exec (.popStatus mask) s)) ∧
  (∀ (mask : BitVec 8) (f : BankFault) (s : State), s.supervisor = false → s.quiet →
    let order := ([.fl, .pc, .usp] : List ProcReg).filter fun p => mask.getLsbD (7 - p.code)
    let value (p : ProcReg) : Word := s.wordAt (s.usp + BitVec.ofNat 16 (2 * order.idxOf p))
    let moved : Word := if mask.getLsbD 1 then value .usp else s.usp + BitVec.ofNat 16 (2 * order.length)
    (∀ n, n < order.length → s.popRefused n f → s.plainFrom s.usp (2 * n) →
      raisesFrom (.bankFault f) s.pc
        { s with
          fl := if .fl ∈ order.take n then value .fl else s.fl
          pc := if .pc ∈ order.take n then value .pc else s.pc + 2
          usp := s.usp + BitVec.ofNat 16 (2 * n) }
        (exec (.popStatus mask) s)) ∧
    (mask.getLsbD 0 = true → s.poppable order.length → s.plainFrom s.usp (2 * order.length) →
      s.checkSized .read .word moved = some f →
      raisesFrom (.bankFault f) s.pc
        { s with
          fl := if mask.getLsbD 7 then value .fl else s.fl
          pc := if mask.getLsbD 6 then value .pc else s.pc + 2
          usp := moved }
        (exec (.popStatus mask) s)))
end

