-- ==== Sys2Proof/Laws/State.lean ====
section
/-! SUPPORT. The small lemmas of the state: what each update leaves in each field, and which derived views an update
does not touch. -/

namespace Sys2Proof.Machine

/-! ## General registers -/

@[simp] theorem reg_setReg_self (s : State) (r : Reg) (v : Word) : (s.setReg r v).reg r = v := by
  simp [State.reg, State.setReg]

theorem reg_setReg_ne (s : State) {r q : Reg} (v : Word) (h : q ≠ r) : (s.setReg r v).reg q = s.reg q := by
  have hne : (r : Nat) ≠ q := fun e => h (Fin.ext e.symm)
  simp [State.reg, State.setReg, Vector.getElem_set_ne, hne]

theorem reg_setReg (s : State) (r q : Reg) (v : Word) : (s.setReg r v).reg q = if q = r then v else s.reg q := by
  split
  · next h => subst h; simp
  · next h => exact reg_setReg_ne s v h

/-! ## `State.setReg` -/

@[simp] theorem regs_setReg (s : State) (r : Reg) (v : Word) : (s.setReg r v).regs = s.regs.set r v := rfl
@[simp] theorem fl_setReg (s : State) (r : Reg) (v : Word) : (s.setReg r v).fl = s.fl := rfl
@[simp] theorem pc_setReg (s : State) (r : Reg) (v : Word) : (s.setReg r v).pc = s.pc := rfl
@[simp] theorem ps_setReg (s : State) (r : Reg) (v : Word) : (s.setReg r v).ps = s.ps := rfl
@[simp] theorem p2_setReg (s : State) (r : Reg) (v : Word) : (s.setReg r v).p2 = s.p2 := rfl
@[simp] theorem ii_setReg (s : State) (r : Reg) (v : Word) : (s.setReg r v).ii = s.ii := rfl
@[simp] theorem ia_setReg (s : State) (r : Reg) (v : Word) : (s.setReg r v).ia = s.ia := rfl
@[simp] theorem usp_setReg (s : State) (r : Reg) (v : Word) : (s.setReg r v).usp = s.usp := rfl
@[simp] theorem ssp_setReg (s : State) (r : Reg) (v : Word) : (s.setReg r v).ssp = s.ssp := rfl
@[simp] theorem mmuU_setReg (s : State) (r : Reg) (v : Word) : (s.setReg r v).mmuU = s.mmuU := rfl
@[simp] theorem mmuS_setReg (s : State) (r : Reg) (v : Word) : (s.setReg r v).mmuS = s.mmuS := rfl
@[simp] theorem mem_setReg (s : State) (r : Reg) (v : Word) : (s.setReg r v).mem = s.mem := rfl
@[simp] theorem halted_setReg (s : State) (r : Reg) (v : Word) : (s.setReg r v).halted = s.halted := rfl
@[simp] theorem rtc_setReg (s : State) (r : Reg) (v : Word) : (s.setReg r v).rtc = s.rtc := rfl
@[simp] theorem tempPs_setReg (s : State) (r : Reg) (v : Word) : (s.setReg r v).tempPs = s.tempPs := rfl
@[simp] theorem lines_setReg (s : State) (r : Reg) (v : Word) : (s.setReg r v).lines = s.lines := rfl
@[simp] theorem devices_setReg (s : State) (r : Reg) (v : Word) : (s.setReg r v).devices = s.devices := rfl
@[simp] theorem platform_setReg (s : State) (r : Reg) (v : Word) : (s.setReg r v).platform = s.platform := rfl
@[simp] theorem inputs_setReg (s : State) (r : Reg) (v : Word) : (s.setReg r v).inputs = s.inputs := rfl
@[simp] theorem bus_setReg (s : State) (r : Reg) (v : Word) : (s.setReg r v).bus = s.bus := rfl
@[simp] theorem freeCount_setReg (s : State) (r : Reg) (v : Word) : (s.setReg r v).freeCount = s.freeCount := rfl

@[simp] theorem supervisor_setReg (s : State) (r : Reg) (v : Word) : (s.setReg r v).supervisor = s.supervisor := rfl
@[simp] theorem mmuOn_setReg (s : State) (r : Reg) (v : Word) : (s.setReg r v).mmuOn = s.mmuOn := rfl
@[simp] theorem sp_setReg (s : State) (r : Reg) (v : Word) : (s.setReg r v).sp = s.sp := rfl
@[simp] theorem mapWord_setReg (s : State) (r : Reg) (v : Word) (k : Fin 4) : (s.setReg r v).mapWord k = s.mapWord k := rfl
@[simp] theorem translate_setReg (s : State) (r : Reg) (v : Word) (x : Word) : (s.setReg r v).translate x = s.translate x := rfl
@[simp] theorem check_setReg (s : State) (r : Reg) (v : Word) (kind : Access) (x : Word) : (s.setReg r v).check kind x = s.check kind x := rfl
@[simp] theorem checkSized_setReg (s : State) (r : Reg) (v : Word) (kind : Access) (sz : Size) (x : Word) : (s.setReg r v).checkSized kind sz x = s.checkSized kind sz x := rfl
@[simp] theorem backing_setReg (s : State) (r : Reg) (v : Word) (pa : PAddr) : (s.setReg r v).backing pa = s.backing pa := rfl
@[simp] theorem flags_setReg (s : State) (r : Reg) (v : Word) : (s.setReg r v).flags = s.flags := rfl

/-! ## `State.setPc` -/

@[simp] theorem regs_setPc (s : State) (v : Word) : (s.setPc v).regs = s.regs := rfl
@[simp] theorem fl_setPc (s : State) (v : Word) : (s.setPc v).fl = s.fl := rfl
@[simp] theorem pc_setPc (s : State) (v : Word) : (s.setPc v).pc = v := rfl
@[simp] theorem ps_setPc (s : State) (v : Word) : (s.setPc v).ps = s.ps := rfl
@[simp] theorem p2_setPc (s : State) (v : Word) : (s.setPc v).p2 = s.p2 := rfl
@[simp] theorem ii_setPc (s : State) (v : Word) : (s.setPc v).ii = s.ii := rfl
@[simp] theorem ia_setPc (s : State) (v : Word) : (s.setPc v).ia = s.ia := rfl
@[simp] theorem usp_setPc (s : State) (v : Word) : (s.setPc v).usp = s.usp := rfl
@[simp] theorem ssp_setPc (s : State) (v : Word) : (s.setPc v).ssp = s.ssp := rfl
@[simp] theorem mmuU_setPc (s : State) (v : Word) : (s.setPc v).mmuU = s.mmuU := rfl
@[simp] theorem mmuS_setPc (s : State) (v : Word) : (s.setPc v).mmuS = s.mmuS := rfl
@[simp] theorem mem_setPc (s : State) (v : Word) : (s.setPc v).mem = s.mem := rfl
@[simp] theorem halted_setPc (s : State) (v : Word) : (s.setPc v).halted = s.halted := rfl
@[simp] theorem rtc_setPc (s : State) (v : Word) : (s.setPc v).rtc = s.rtc := rfl
@[simp] theorem tempPs_setPc (s : State) (v : Word) : (s.setPc v).tempPs = s.tempPs := rfl
@[simp] theorem lines_setPc (s : State) (v : Word) : (s.setPc v).lines = s.lines := rfl
@[simp] theorem devices_setPc (s : State) (v : Word) : (s.setPc v).devices = s.devices := rfl
@[simp] theorem platform_setPc (s : State) (v : Word) : (s.setPc v).platform = s.platform := rfl
@[simp] theorem inputs_setPc (s : State) (v : Word) : (s.setPc v).inputs = s.inputs := rfl
@[simp] theorem bus_setPc (s : State) (v : Word) : (s.setPc v).bus = s.bus := rfl
@[simp] theorem freeCount_setPc (s : State) (v : Word) : (s.setPc v).freeCount = s.freeCount := rfl

@[simp] theorem reg_setPc (s : State) (v : Word) (q : Reg) : (s.setPc v).reg q = s.reg q := rfl
@[simp] theorem supervisor_setPc (s : State) (v : Word) : (s.setPc v).supervisor = s.supervisor := rfl
@[simp] theorem mmuOn_setPc (s : State) (v : Word) : (s.setPc v).mmuOn = s.mmuOn := rfl
@[simp] theorem sp_setPc (s : State) (v : Word) : (s.setPc v).sp = s.sp := rfl
@[simp] theorem mapWord_setPc (s : State) (v : Word) (k : Fin 4) : (s.setPc v).mapWord k = s.mapWord k := rfl
@[simp] theorem translate_setPc (s : State) (v : Word) (x : Word) : (s.setPc v).translate x = s.translate x := rfl
@[simp] theorem check_setPc (s : State) (v : Word) (kind : Access) (x : Word) : (s.setPc v).check kind x = s.check kind x := rfl
@[simp] theorem checkSized_setPc (s : State) (v : Word) (kind : Access) (sz : Size) (x : Word) : (s.setPc v).checkSized kind sz x = s.checkSized kind sz x := rfl
@[simp] theorem backing_setPc (s : State) (v : Word) (pa : PAddr) : (s.setPc v).backing pa = s.backing pa := rfl
@[simp] theorem flags_setPc (s : State) (v : Word) : (s.setPc v).flags = s.flags := rfl

/-! ## `State.setFlags` -/

@[simp] theorem regs_setFlags (s : State) (f : Flags) : (s.setFlags f).regs = s.regs := rfl
@[simp] theorem fl_setFlags (s : State) (f : Flags) : (s.setFlags f).fl = putFlags s.fl f := rfl
@[simp] theorem pc_setFlags (s : State) (f : Flags) : (s.setFlags f).pc = s.pc := rfl
@[simp] theorem ps_setFlags (s : State) (f : Flags) : (s.setFlags f).ps = s.ps := rfl
@[simp] theorem p2_setFlags (s : State) (f : Flags) : (s.setFlags f).p2 = s.p2 := rfl
@[simp] theorem ii_setFlags (s : State) (f : Flags) : (s.setFlags f).ii = s.ii := rfl
@[simp] theorem ia_setFlags (s : State) (f : Flags) : (s.setFlags f).ia = s.ia := rfl
@[simp] theorem usp_setFlags (s : State) (f : Flags) : (s.setFlags f).usp = s.usp := rfl
@[simp] theorem ssp_setFlags (s : State) (f : Flags) : (s.setFlags f).ssp = s.ssp := rfl
@[simp] theorem mmuU_setFlags (s : State) (f : Flags) : (s.setFlags f).mmuU = s.mmuU := rfl
@[simp] theorem mmuS_setFlags (s : State) (f : Flags) : (s.setFlags f).mmuS = s.mmuS := rfl
@[simp] theorem mem_setFlags (s : State) (f : Flags) : (s.setFlags f).mem = s.mem := rfl
@[simp] theorem halted_setFlags (s : State) (f : Flags) : (s.setFlags f).halted = s.halted := rfl
@[simp] theorem rtc_setFlags (s : State) (f : Flags) : (s.setFlags f).rtc = s.rtc := rfl
@[simp] theorem tempPs_setFlags (s : State) (f : Flags) : (s.setFlags f).tempPs = s.tempPs := rfl
@[simp] theorem lines_setFlags (s : State) (f : Flags) : (s.setFlags f).lines = s.lines := rfl
@[simp] theorem devices_setFlags (s : State) (f : Flags) : (s.setFlags f).devices = s.devices := rfl
@[simp] theorem platform_setFlags (s : State) (f : Flags) : (s.setFlags f).platform = s.platform := rfl
@[simp] theorem inputs_setFlags (s : State) (f : Flags) : (s.setFlags f).inputs = s.inputs := rfl
@[simp] theorem bus_setFlags (s : State) (f : Flags) : (s.setFlags f).bus = s.bus := rfl
@[simp] theorem freeCount_setFlags (s : State) (f : Flags) : (s.setFlags f).freeCount = s.freeCount := rfl

@[simp] theorem reg_setFlags (s : State) (f : Flags) (q : Reg) : (s.setFlags f).reg q = s.reg q := rfl
@[simp] theorem supervisor_setFlags (s : State) (f : Flags) : (s.setFlags f).supervisor = s.supervisor := rfl
@[simp] theorem mmuOn_setFlags (s : State) (f : Flags) : (s.setFlags f).mmuOn = s.mmuOn := rfl
@[simp] theorem sp_setFlags (s : State) (f : Flags) : (s.setFlags f).sp = s.sp := rfl
@[simp] theorem mapWord_setFlags (s : State) (f : Flags) (k : Fin 4) : (s.setFlags f).mapWord k = s.mapWord k := rfl
@[simp] theorem translate_setFlags (s : State) (f : Flags) (x : Word) : (s.setFlags f).translate x = s.translate x := rfl
@[simp] theorem check_setFlags (s : State) (f : Flags) (kind : Access) (x : Word) : (s.setFlags f).check kind x = s.check kind x := rfl
@[simp] theorem checkSized_setFlags (s : State) (f : Flags) (kind : Access) (sz : Size) (x : Word) : (s.setFlags f).checkSized kind sz x = s.checkSized kind sz x := rfl
@[simp] theorem backing_setFlags (s : State) (f : Flags) (pa : PAddr) : (s.setFlags f).backing pa = s.backing pa := rfl

/-! ## The current stack pointer -/

@[simp] theorem sp_setSp (s : State) (v : Word) : (s.setSp v).sp = v := by
  cases h : s.supervisor <;> simp [State.setSp, State.sp, h] <;> simp_all [State.supervisor]

@[simp] theorem regs_setSp (s : State) (v : Word) : (s.setSp v).regs = s.regs := by
  unfold State.setSp; split <;> rfl
@[simp] theorem fl_setSp (s : State) (v : Word) : (s.setSp v).fl = s.fl := by
  unfold State.setSp; split <;> rfl
@[simp] theorem pc_setSp (s : State) (v : Word) : (s.setSp v).pc = s.pc := by
  unfold State.setSp; split <;> rfl
@[simp] theorem ps_setSp (s : State) (v : Word) : (s.setSp v).ps = s.ps := by
  unfold State.setSp; split <;> rfl
@[simp] theorem p2_setSp (s : State) (v : Word) : (s.setSp v).p2 = s.p2 := by
  unfold State.setSp; split <;> rfl
@[simp] theorem ii_setSp (s : State) (v : Word) : (s.setSp v).ii = s.ii := by
  unfold State.setSp; split <;> rfl
@[simp] theorem ia_setSp (s : State) (v : Word) : (s.setSp v).ia = s.ia := by
  unfold State.setSp; split <;> rfl
@[simp] theorem mmuU_setSp (s : State) (v : Word) : (s.setSp v).mmuU = s.mmuU := by
  unfold State.setSp; split <;> rfl
@[simp] theorem mmuS_setSp (s : State) (v : Word) : (s.setSp v).mmuS = s.mmuS := by
  unfold State.setSp; split <;> rfl
@[simp] theorem mem_setSp (s : State) (v : Word) : (s.setSp v).mem = s.mem := by
  unfold State.setSp; split <;> rfl
@[simp] theorem halted_setSp (s : State) (v : Word) : (s.setSp v).halted = s.halted := by
  unfold State.setSp; split <;> rfl
@[simp] theorem rtc_setSp (s : State) (v : Word) : (s.setSp v).rtc = s.rtc := by
  unfold State.setSp; split <;> rfl
@[simp] theorem tempPs_setSp (s : State) (v : Word) : (s.setSp v).tempPs = s.tempPs := by
  unfold State.setSp; split <;> rfl
@[simp] theorem lines_setSp (s : State) (v : Word) : (s.setSp v).lines = s.lines := by
  unfold State.setSp; split <;> rfl
@[simp] theorem devices_setSp (s : State) (v : Word) : (s.setSp v).devices = s.devices := by
  unfold State.setSp; split <;> rfl
@[simp] theorem platform_setSp (s : State) (v : Word) : (s.setSp v).platform = s.platform := by
  unfold State.setSp; split <;> rfl
@[simp] theorem inputs_setSp (s : State) (v : Word) : (s.setSp v).inputs = s.inputs := by
  unfold State.setSp; split <;> rfl
@[simp] theorem bus_setSp (s : State) (v : Word) : (s.setSp v).bus = s.bus := by
  unfold State.setSp; split <;> rfl
@[simp] theorem freeCount_setSp (s : State) (v : Word) : (s.setSp v).freeCount = s.freeCount := by
  unfold State.setSp; split <;> rfl

@[simp] theorem supervisor_setSp (s : State) (v : Word) : (s.setSp v).supervisor = s.supervisor := by
  unfold State.setSp; split <;> rfl
@[simp] theorem mmuOn_setSp (s : State) (v : Word) : (s.setSp v).mmuOn = s.mmuOn := by
  unfold State.setSp; split <;> rfl
@[simp] theorem reg_setSp (s : State) (v : Word) (q : Reg) : (s.setSp v).reg q = s.reg q := by
  unfold State.setSp; split <;> rfl
@[simp] theorem mapWord_setSp (s : State) (v : Word) (k : Fin 4) : (s.setSp v).mapWord k = s.mapWord k := by
  unfold State.setSp; split <;> rfl
@[simp] theorem translate_setSp (s : State) (v : Word) (x : Word) : (s.setSp v).translate x = s.translate x := by
  unfold State.setSp; split <;> rfl
@[simp] theorem check_setSp (s : State) (v : Word) (kind : Access) (x : Word) : (s.setSp v).check kind x = s.check kind x := by
  unfold State.setSp; split <;> rfl
@[simp] theorem checkSized_setSp (s : State) (v : Word) (kind : Access) (sz : Size) (x : Word) : (s.setSp v).checkSized kind sz x = s.checkSized kind sz x := by
  unfold State.setSp; split <;> rfl
@[simp] theorem backing_setSp (s : State) (v : Word) (pa : PAddr) : (s.setSp v).backing pa = s.backing pa := by
  unfold State.setSp; split <;> rfl

theorem ssp_setSp_supervisor (s : State) (v : Word) (h : s.supervisor = true) : s.setSp v = { s with ssp := v } := by
  simp [State.setSp, h]

theorem usp_setSp_user (s : State) (v : Word) (h : s.supervisor = false) : s.setSp v = { s with usp := v } := by
  simp [State.setSp, h]

theorem sp_of_supervisor (s : State) (h : s.supervisor = true) : s.sp = s.ssp := by simp [State.sp, h]

theorem sp_of_user (s : State) (h : s.supervisor = false) : s.sp = s.usp := by simp [State.sp, h]

/-! ## Bits -/

theorem getLsbD_putBit (w : Word) (n m : Nat) (b : Bool) (hm : m < 16) :
    (putBit w n b).getLsbD m = if m = n then b else w.getLsbD m := by
  unfold putBit
  by_cases h : m = n
  · subst h; cases b <;> simp [hm]
  · cases b
    · simp [hm, h]
    · simp [hm, h]

theorem putBit_putBit (w : Word) (n : Nat) (b c : Bool) : putBit (putBit w n b) n c = putBit w n c := by
  apply BitVec.eq_of_getLsbD_eq
  intro i hi
  simp only [getLsbD_putBit _ _ _ _ hi]
  split <;> rfl

/-! ## Flags -/

/-- The four flags read back. -/
@[simp] theorem flagsOf_putFlags (fl : Word) (f : Flags) : flagsOf (putFlags fl f) = f := by
  simp only [flagsOf, putFlags, getLsbD_putBit, Nat.reduceLT, Nat.reduceEqDiff, if_true, if_false]

/-- They are the only part of FL that changes (R24). -/
theorem putFlags_other (fl : Word) (f : Flags) (i : Nat) (h : i < 12) :
    (putFlags fl f).getLsbD i = fl.getLsbD i := by
  have h16 : i < 16 := by omega
  simp only [putFlags, getLsbD_putBit _ _ _ _ h16]
  rw [if_neg (by omega), if_neg (by omega), if_neg (by omega), if_neg (by omega)]

/-- FL is what its flags and its other bits say. -/
theorem putFlags_flagsOf (fl : Word) : putFlags fl (flagsOf fl) = fl := by
  apply BitVec.eq_of_getLsbD_eq
  intro i hi
  simp only [putFlags, flagsOf, getLsbD_putBit _ _ _ _ hi]
  split_ifs <;> simp_all

@[simp] theorem flags_setFlags (s : State) (f : Flags) : (s.setFlags f).flags = f := flagsOf_putFlags s.fl f

/-! ## Results -/

@[simp] theorem bind_ok {α β : Type} (v : α) (s : State) (k : α → State → Res β) : (Res.ok v s).bind k = k v s := rfl
@[simp] theorem bind_trap {α β : Type} (t : Interrupt) (s : State) (k : α → State → Res β) :
    (Res.trap t s : Res α).bind k = .trap t s := rfl
@[simp] theorem bind_refuse {α β : Type} (r : Refusal) (k : α → State → Res β) :
    (Res.refuse r : Res α).bind k = .refuse r := rfl

/-- A sequence completes exactly when its parts do. -/
theorem bind_eq_ok {α β : Type} {x : Res α} {k : α → State → Res β} {b : β} {t : State}
    (h : x.bind k = .ok b t) : ∃ v s1, x = .ok v s1 ∧ k v s1 = .ok b t := by
  cases x with
  | ok v s1 => exact ⟨v, s1, rfl, h⟩
  | trap i s1 => simp at h
  | refuse r => simp at h

end Sys2Proof.Machine
end

