-- ==== Sys2Proof/Laws/Memory.lean ====
section
/-! SUPPORT. The laws of memory: read after write, the canonical form, and what physical and logical accesses leave
unchanged. -/

namespace Sys2Proof.Machine

/-! ## The canonical list -/

theorem Mem.wfFrom_mono {m : List Host.Cell} {lo hi : Nat} (h : Mem.wfFrom hi m = true) (hle : lo ≤ hi) :
    Mem.wfFrom lo m = true := by
  cases m with
  | nil => rfl
  | cons c rest =>
    obtain ⟨k, v⟩ := c
    simp only [Mem.wfFrom, Bool.and_eq_true, decide_eq_true_eq] at h ⊢
    exact ⟨⟨⟨le_trans hle h.1.1.1, h.1.1.2⟩, h.1.2⟩, h.2⟩

/-- Below its bound a canonical memory lists nothing. -/
theorem Mem.get_below {m : List Host.Cell} {lo a : Nat} (h : Mem.wfFrom lo m = true) (ha : a < lo) :
    Mem.get m a = Mem.unlisted := by
  induction m generalizing lo with
  | nil => rfl
  | cons c rest ih =>
    obtain ⟨k, v⟩ := c
    simp only [Mem.wfFrom, Bool.and_eq_true, decide_eq_true_eq] at h
    have hk : k ≠ a := by omega
    simp only [Mem.get, hk, if_false]
    exact ih h.2 (by omega)

/-- A write leaves every other address alone. -/
theorem Mem.get_set_ne (m : List Host.Cell) {a b : Nat} (v : Byte) (h : b ≠ a) :
    Mem.get (Mem.set m a v) b = Mem.get m b := by
  induction m with
  | nil => unfold Mem.set; split <;> simp [Mem.get, Ne.symm h]
  | cons c rest ih =>
    obtain ⟨k, w⟩ := c
    unfold Mem.set
    split
    · next hk => subst hk; split <;> simp [Mem.get, Ne.symm h]
    · split
      · split <;> simp [Mem.get, Ne.symm h]
      · simp only [Mem.get]; rw [ih]

/-- A read after a write gives the value written. -/
theorem Mem.get_set_self {m : List Host.Cell} (a : Nat) (v : Byte) (h : Mem.wf m = true) :
    Mem.get (Mem.set m a v) a = v := by
  have key : ∀ (m : List Host.Cell) (lo : Nat), Mem.wfFrom lo m = true → Mem.get (Mem.set m a v) a = v := by
    intro m
    induction m with
    | nil => intro _ _; unfold Mem.set; split <;> simp_all [Mem.get]
    | cons c rest ih =>
      obtain ⟨k, w⟩ := c
      intro lo h
      simp only [Mem.wfFrom, Bool.and_eq_true, decide_eq_true_eq] at h
      unfold Mem.set
      split
      · next hk =>
        subst hk
        split
        · next hv => rw [hv]; exact Mem.get_below h.2 (by omega)
        · simp [Mem.get]
      · next hk =>
        split
        · next hlt =>
          split
          · next hv => rw [hv]; simp only [Mem.get, hk, if_false]; exact Mem.get_below h.2 (by omega)
          · simp [Mem.get]
        · simp only [Mem.get, hk, if_false]; exact ih _ h.2
  exact key m 0 h

/-- A write below the end of the physical space keeps the canonical form. -/
theorem Mem.wf_set {m : List Host.Cell} {a : Nat} (v : Byte) (ha : a < 2 ^ 26) (h : Mem.wf m = true) :
    Mem.wf (Mem.set m a v) = true := by
  have key : ∀ (m : List Host.Cell) (lo : Nat), lo ≤ a → Mem.wfFrom lo m = true →
      Mem.wfFrom lo (Mem.set m a v) = true := by
    intro m
    induction m with
    | nil =>
      intro lo hlo _
      unfold Mem.set
      split
      · rfl
      · next hv => simpa [Mem.wfFrom, hlo, hv] using ha
    | cons c rest ih =>
      obtain ⟨k, w⟩ := c
      intro lo hlo h
      have h' := h
      simp only [Mem.wfFrom, Bool.and_eq_true, decide_eq_true_eq] at h'
      unfold Mem.set
      split
      · next hk =>
        subst hk
        split
        · exact Mem.wfFrom_mono h'.2 (by omega)
        · next hv => simpa [Mem.wfFrom, hv, h'.2] using h'.1.1
      · split
        · next hlt =>
          split
          · exact h
          · next hv =>
            simp only [Mem.wfFrom, Bool.and_eq_true, decide_eq_true_eq]
            exact ⟨⟨⟨hlo, ha⟩, by simp [hv]⟩, ⟨⟨by omega, h'.1.1.2⟩, h'.1.2⟩, h'.2⟩
        · next hlt =>
          simp only [Mem.wfFrom, Bool.and_eq_true, decide_eq_true_eq]
          exact ⟨h'.1, ih (k + 1) (by omega) h'.2⟩
  exact key m 0 (Nat.zero_le a) h

/-! ## What one access may change -/

/-- `t` is `s` but for memory, the schedule of device writes and the count of free values; the canonical form is kept, no
byte changes that is not RAM, and an empty schedule stays empty. -/
structure MemStep (s t : State) : Prop where
  only : t = { s with mem := t.mem, bus := t.bus, freeCount := t.freeCount }
  wf : Mem.wf s.mem = true → Mem.wf t.mem = true
  keeps : ∀ pa : PAddr, s.backing pa ≠ .ram → t.peek pa = s.peek pa
  quiet : s.quiet → t.quiet

theorem MemStep.refl (s : State) : MemStep s s := ⟨rfl, id, fun _ _ => rfl, id⟩

/-- Views that do not look at memory, the schedule or the count. -/
theorem MemStep.backing {s t : State} (h : MemStep s t) (pa : PAddr) : t.backing pa = s.backing pa := by
  rw [h.only]; rfl

theorem MemStep.translate {s t : State} (h : MemStep s t) (a : Word) : t.translate a = s.translate a := by
  rw [h.only]; rfl

theorem MemStep.checkSized {s t : State} (h : MemStep s t) (kind : Access) (sz : Size) (a : Word) :
    t.checkSized kind sz a = s.checkSized kind sz a := by
  rw [h.only]; rfl

theorem MemStep.trans {s t u : State} (h : MemStep s t) (g : MemStep t u) : MemStep s u where
  only := by rw [g.only]; rw [h.only]
  wf := fun w => g.wf (h.wf w)
  keeps := fun pa hp => (g.keeps pa (by rw [h.backing]; exact hp)).trans (h.keeps pa hp)
  quiet := fun q => g.quiet (h.quiet q)

/-- A write changes only the byte written to, and only if RAM stands there (R72 to R75). -/
theorem physWrite_memStep (s : State) (pa : PAddr) (v : Byte) : MemStep s (s.physWrite pa v) := by
  unfold State.physWrite
  split
  · next h =>
    refine ⟨rfl, fun w => Mem.wf_set v pa.isLt w, fun qa hq => ?_, id⟩
    have hne : qa.toNat ≠ pa.toNat := fun e => hq (by rw [BitVec.eq_of_toNat_eq e, h])
    exact Mem.get_set_ne s.mem v hne
  all_goals exact MemStep.refl s

/-- A write to RAM reads back. -/
theorem peek_physWrite_self {s : State} {pa : PAddr} (v : Byte) (hw : Mem.wf s.mem = true)
    (h : s.backing pa = .ram) : (s.physWrite pa v).peek pa = v := by
  simp only [State.physWrite, h, State.peek]
  exact Mem.get_set_self pa.toNat v hw

/-- A write leaves every other byte alone. -/
theorem peek_physWrite_ne (s : State) {pa qa : PAddr} (v : Byte) (h : qa ≠ pa) :
    (s.physWrite pa v).peek qa = s.peek qa := by
  have hne : qa.toNat ≠ pa.toNat := fun e => h (BitVec.eq_of_toNat_eq e)
  unfold State.physWrite
  split <;> simp [State.peek, Mem.get_set_ne _ _ hne]

theorem deviceWrites_memStep (ws : List DeviceWrite) (s : State) : MemStep s (s.deviceWrites ws) := by
  induction ws generalizing s with
  | nil => exact MemStep.refl s
  | cons w rest ih => exact (physWrite_memStep s w.addr w.value).trans (ih _)

theorem busCycle_memStep (s : State) : MemStep s s.busCycle := by
  unfold State.busCycle
  split
  · exact MemStep.refl s
  · next ws rest hb =>
    have h : MemStep s { s with bus := rest } := ⟨rfl, id, fun _ _ => rfl, fun q => by rw [State.quiet, hb] at q; cases q⟩
    exact h.trans (deviceWrites_memStep ws _)

/-- With no device writing in between, the moment before an access changes nothing. -/
theorem busCycle_quiet {s : State} (h : s.quiet) : s.busCycle = s := by
  unfold State.busCycle; rw [show s.bus = [] from h]

theorem physRead_memStep (s : State) (pa : PAddr) : MemStep s (s.physRead pa).2 := by
  unfold State.physRead
  split
  case h_4 => exact ⟨rfl, id, fun _ _ => rfl, id⟩
  all_goals exact MemStep.refl s

/-- A read changes nothing unless it falls in a device bank with side effects (R75). -/
theorem physRead_plain {s : State} {pa : PAddr} (h : s.backing pa ≠ .active) : (s.physRead pa).2 = s := by
  unfold State.physRead
  split
  case h_4 g => exact absurd g h
  all_goals rfl

/-- A read of RAM or ROM gives the byte memory holds. -/
theorem physRead_peek {s : State} {pa : PAddr} (h : s.backing pa = .ram ∨ s.backing pa = .rom) :
    (s.physRead pa).1 = s.peek pa := by
  unfold State.physRead
  rcases h with h | h <;> simp [h, State.peek]

theorem readByte_memStep (s : State) (pa : PAddr) : MemStep s (s.readByte pa).2 :=
  (busCycle_memStep s).trans (physRead_memStep _ pa)

theorem writeByte_memStep (s : State) (pa : PAddr) (v : Byte) : MemStep s (s.writeByte pa v) :=
  (busCycle_memStep s).trans (physWrite_memStep _ pa v)

theorem readPair_memStep (s : State) (al : Bool) (pa0 pa1 : PAddr) : MemStep s (s.readPair al pa0 pa1).2 := by
  unfold State.readPair
  cases al
  · exact (readByte_memStep s pa0).trans (readByte_memStep _ pa1)
  · exact (readByte_memStep s pa0).trans (physRead_memStep _ pa1)

theorem writePair_memStep (s : State) (al : Bool) (pa0 pa1 : PAddr) (v : Word) :
    MemStep s (s.writePair al pa0 pa1 v) := by
  unfold State.writePair
  cases al
  · exact (writeByte_memStep s pa0 _).trans (writeByte_memStep _ pa1 _)
  · exact (writeByte_memStep s pa0 _).trans (physWrite_memStep _ pa1 _)

theorem storeSized_memStep (s : State) (sz : Size) (a v : Word) : MemStep s (s.storeSized sz a v) := by
  cases sz
  · exact writeByte_memStep s _ _
  · exact writePair_memStep s _ _ _ _

/-! ## Physical addresses -/

theorem physAddr_toNat (e a : Word) : (physAddr e a).toNat = e.toNat % 4096 * 16384 + a.toNat % 16384 := by
  show BitVec.toNat (e.extractLsb' 0 12 ++ a.extractLsb' 0 14) = _
  rw [BitVec.toNat_append, ← Nat.shiftLeft_add_eq_or_of_lt (BitVec.isLt _), Nat.shiftLeft_eq]
  simp

/-- Bits 25..22 are the device index of the cache word (R71). -/
theorem physAddr_device (e a : Word) : (physAddr e a).extractLsb' 22 4 = e.extractLsb' 8 4 := by
  apply BitVec.eq_of_toNat_eq
  simp only [BitVec.extractLsb'_toNat, physAddr_toNat, Nat.shiftRight_eq_div_pow]
  omega

/-- Bits 21..14 are its bank index (R71). -/
theorem physAddr_bank (e a : Word) : (physAddr e a).extractLsb' 14 8 = e.extractLsb' 0 8 := by
  apply BitVec.eq_of_toNat_eq
  simp only [BitVec.extractLsb'_toNat, physAddr_toNat, Nat.shiftRight_eq_div_pow]
  omega

/-! ## `MemRead` -/

/-- Everything a read can do: it is refused and changes nothing, or it completes and is a `MemStep`. -/
theorem memRead_cases (sz : Size) (a : Word) (s : State) :
    (∃ f, s.checkSized .read sz a = some f ∧ memRead sz a s = .trap (.bankFault f) s) ∨
    (s.checkSized .read sz a = none ∧ ∃ v t, memRead sz a s = .ok v t ∧ MemStep s t) := by
  unfold memRead
  split
  · next f h => exact .inl ⟨f, h, rfl⟩
  · next h =>
    refine .inr ⟨h, ?_⟩
    cases sz
    · exact ⟨_, _, rfl, readByte_memStep s _⟩
    · exact ⟨_, _, rfl, readPair_memStep s _ _ _⟩

/-- The bytes of an access of a width. -/
def sizeBytes : Size → Nat
  | .byte => 1
  | .word => 2

/-- A read of plain memory with no device writing in between gives the value there and changes nothing. -/
theorem memRead_quiet {sz : Size} {a : Word} {s : State} (hq : s.quiet) (hc : s.checkSized .read sz a = none)
    (hp : s.plainFrom a (sizeBytes sz)) : memRead sz a s = .ok (s.valueAt sz a) s := by
  cases sz with
  | byte =>
    have h0 : s.backing (s.translate a) ≠ .active := by simpa using hp 0 (by decide)
    simp [memRead, hc, State.readByte, busCycle_quiet hq, State.valueAt, State.byteAt, physRead_plain h0]
  | word =>
    have h0 : s.backing (s.translate a) ≠ .active := by simpa using hp 0 (by decide)
    have h1 : s.backing (s.translate (a + 1)) ≠ .active := by simpa using hp 1 (by decide)
    have e1 := physRead_plain h1
    cases h : isAligned a <;>
      simp only [memRead, hc, State.readPair, State.readByte, busCycle_quiet hq, State.valueAt, State.wordAt,
        State.byteAt, physRead_plain h0, e1, h, if_true, Bool.false_eq_true, if_false]

/-! ## `MemWrite` -/

/-- The A flag is no part of what a check or a translation looks at. -/
theorem withoutAccessed_putBit (e : Word) (b : Bool) : withoutAccessed (putBit e 12 b) = withoutAccessed e :=
  putBit_putBit e 12 b false

/-- `t` is `s` but for the A flags of the half of the mode in force (R70). -/
structure TouchStep (s t : State) : Prop where
  only : t = { s with mmuU := t.mmuU, mmuS := t.mmuS }
  accU : t.mmuU.map withoutAccessed = s.mmuU.map withoutAccessed
  accS : t.mmuS.map withoutAccessed = s.mmuS.map withoutAccessed
  user : s.supervisor = false → t.mmuS = s.mmuS
  sup : s.supervisor = true → t.mmuU = s.mmuU

theorem TouchStep.refl (s : State) : TouchStep s s := ⟨rfl, rfl, rfl, fun _ => rfl, fun _ => rfl⟩

theorem TouchStep.trans {s t u : State} (h : TouchStep s t) (g : TouchStep t u) : TouchStep s u where
  only := by rw [g.only]; rw [h.only]
  accU := g.accU.trans h.accU
  accS := g.accS.trans h.accS
  user := fun e => (g.user (by rw [h.only]; exact e)).trans (h.user e)
  sup := fun e => (g.sup (by rw [h.only]; exact e)).trans (h.sup e)

theorem map_withoutAccessed_set (v : Vector Word 4) (k : Fin 4) :
    (v.set k (putBit v[k] 12 true)).map withoutAccessed = v.map withoutAccessed := by
  ext1 i hi
  by_cases h : (k : Nat) = i
  · subst h; simp [withoutAccessed_putBit]
  · simp [Vector.getElem_set_ne, h]

theorem touch_touchStep (s : State) (a : Word) : TouchStep s (s.touch a) := by
  unfold State.touch
  split
  · dsimp only
    split
    · next h => exact ⟨rfl, rfl, map_withoutAccessed_set _ _, fun e => by simp [h] at e, fun _ => rfl⟩
    · next h => exact ⟨rfl, map_withoutAccessed_set _ _, rfl, fun _ => rfl, fun e => absurd e h⟩
  · exact TouchStep.refl s

theorem touchSized_touchStep (s : State) (sz : Size) (a : Word) : TouchStep s (s.touchSized sz a) := by
  cases sz
  · exact touch_touchStep s a
  · exact (touch_touchStep s a).trans (touch_touchStep _ _)

/-- The A flag is not looked at. -/
theorem getLsbD_of_withoutAccessed {e d : Word} (h : withoutAccessed e = withoutAccessed d) {i : Nat} (hi : i < 16)
    (hne : i ≠ 12) : e.getLsbD i = d.getLsbD i := by
  have := congrArg (fun w => w.getLsbD i) h
  simpa [withoutAccessed, getLsbD_putBit _ _ _ _ hi, hne] using this

theorem physAddr_of_withoutAccessed {e d : Word} (h : withoutAccessed e = withoutAccessed d) (a : Word) :
    physAddr e a = physAddr d a := by
  have : e.extractLsb' 0 12 = d.extractLsb' 0 12 := by
    apply BitVec.eq_of_getLsbD_eq
    intro i hi
    simp only [BitVec.getLsbD_extractLsb', Nat.zero_add, hi, decide_true, Bool.true_and]
    exact getLsbD_of_withoutAccessed h (by omega) (by omega)
  simp only [physAddr, this]

theorem getElem_of_map_eq {v w : Vector Word 4} (h : v.map withoutAccessed = w.map withoutAccessed) (k : Fin 4) :
    withoutAccessed v[k] = withoutAccessed w[k] := by
  have := congrArg (fun x : Vector Word 4 => x[k]) h
  simpa using this

theorem TouchStep.mapWord {s t : State} (h : TouchStep s t) (k : Fin 4) :
    withoutAccessed (t.mapWord k) = withoutAccessed (s.mapWord k) := by
  have hu := getElem_of_map_eq h.accU k
  have hs := getElem_of_map_eq h.accS k
  have e1 : t.mmuOn = s.mmuOn := by rw [h.only]; rfl
  have e2 : t.supervisor = s.supervisor := by rw [h.only]; rfl
  simp only [State.mapWord, e1, e2]
  split
  · split
    · exact hs
    · exact hu
  · rfl

theorem TouchStep.translate {s t : State} (h : TouchStep s t) (a : Word) : t.translate a = s.translate a :=
  physAddr_of_withoutAccessed (h.mapWord _) a

theorem TouchStep.check {s t : State} (h : TouchStep s t) (kind : Access) (a : Word) :
    t.check kind a = s.check kind a := by
  have e1 : t.mmuOn = s.mmuOn := by rw [h.only]; rfl
  have e2 : t.supervisor = s.supervisor := by rw [h.only]; rfl
  have hm := h.mapWord (bankOf a)
  simp only [State.check, e1, e2, getLsbD_of_withoutAccessed hm (show 13 < 16 by decide) (by decide),
    getLsbD_of_withoutAccessed hm (show 14 < 16 by decide) (by decide),
    getLsbD_of_withoutAccessed hm (show 15 < 16 by decide) (by decide)]

theorem TouchStep.checkSized {s t : State} (h : TouchStep s t) (kind : Access) (sz : Size) (a : Word) :
    t.checkSized kind sz a = s.checkSized kind sz a := by
  cases sz <;> simp only [State.checkSized, h.check]

theorem TouchStep.backing {s t : State} (h : TouchStep s t) (pa : PAddr) : t.backing pa = s.backing pa := by
  rw [h.only]; rfl

/-- What a completed store may change: memory, the schedule, the count, and the A flags of the half in force. -/
structure StoreStep (s t : State) : Prop where
  only : t = { s with mem := t.mem, bus := t.bus, freeCount := t.freeCount, mmuU := t.mmuU, mmuS := t.mmuS }
  wf : Mem.wf s.mem = true → Mem.wf t.mem = true
  keeps : ∀ pa : PAddr, s.backing pa ≠ .ram → t.peek pa = s.peek pa
  accU : t.mmuU.map withoutAccessed = s.mmuU.map withoutAccessed
  accS : t.mmuS.map withoutAccessed = s.mmuS.map withoutAccessed
  user : s.supervisor = false → t.mmuS = s.mmuS
  sup : s.supervisor = true → t.mmuU = s.mmuU
  quiet : s.quiet → t.quiet

theorem storeStep_of {s t u : State} (h : MemStep s t) (g : TouchStep t u) : StoreStep s u where
  only := by rw [g.only]; rw [h.only]
  wf := fun w => by rw [g.only]; exact h.wf w
  keeps := fun pa hp => by rw [g.only]; exact h.keeps pa hp
  accU := by rw [g.accU]; rw [h.only]
  accS := by rw [g.accS]; rw [h.only]
  user := fun e => by rw [g.user (by rw [h.only]; exact e)]; rw [h.only]
  sup := fun e => by rw [g.sup (by rw [h.only]; exact e)]; rw [h.only]
  quiet := fun q => by rw [g.only]; exact h.quiet q

/-- Everything a write can do: it is refused and changes nothing, or it completes and is a `StoreStep`. -/
theorem memWrite_cases (sz : Size) (a v : Word) (s : State) :
    (∃ f, s.checkSized .write sz a = some f ∧ memWrite sz a v s = .trap (.bankFault f) s) ∨
    (s.checkSized .write sz a = none ∧
      memWrite sz a v s = .ok () ((s.storeSized sz a v).touchSized sz a) ∧
      StoreStep s ((s.storeSized sz a v).touchSized sz a)) := by
  unfold memWrite
  split
  · next f h => exact .inl ⟨f, h, rfl⟩
  · next h => exact .inr ⟨h, rfl, storeStep_of (storeSized_memStep s sz a v) (touchSized_touchStep _ sz a)⟩

/-- The bytes a store moves with no device writing in between. -/
theorem storeSized_quiet {s : State} (sz : Size) (a v : Word) (hq : s.quiet) :
    s.storeSized sz a v =
      match sz with
      | .byte => s.physWrite (s.translate a) (v.extractLsb' 0 8)
      | .word => (s.physWrite (s.translate a) (v.extractLsb' 0 8)).physWrite (s.translate (a + 1)) (v.extractLsb' 8 8) := by
  have hq' : ∀ pa b, (s.physWrite pa b).quiet := fun pa b => by
    unfold State.physWrite State.quiet; split <;> exact hq
  cases sz with
  | byte => simp [State.storeSized, State.writeByte, busCycle_quiet hq]
  | word =>
    cases h : isAligned a <;>
      simp [State.storeSized, State.writePair, State.writeByte, busCycle_quiet hq, busCycle_quiet (hq' _ _), h]

/-- Two neighbouring logical bytes never share a physical byte. -/
theorem translate_succ_ne (s : State) (a : Word) : s.translate (a + 1) ≠ s.translate a := by
  intro h
  have h' := congrArg BitVec.toNat h
  have one : (1 : Word).toNat = 1 := rfl
  simp only [State.translate, physAddr_toNat, BitVec.toNat_add, one] at h'
  omega

end Sys2Proof.Machine
end

