-- ==== Sys2Proof/Laws/PerInstr.lean ====
section
/-! SUPPORT. For every instruction: its encoding is as many words as the length rule reads from its program word
(spec/30_encoding.md R103). One lemma per constructor. -/

namespace Sys2Proof.Laws

/-- A number below 2^16 is its own word. -/
theorem field_ofNat (n lo k : Nat) (h : n < 2 ^ 16) : field (BitVec.ofNat 16 n) lo k = n / 2 ^ lo % 2 ^ k := by
  simp only [field, BitVec.toNat_ofNat, Nat.mod_eq_of_lt h]

/-- Outside the ALU and JMI patterns an instruction is one word long. -/
theorem wordCount_single (high op : Nat) (hh : high < 256) (lo : 0x90 ≤ op) (ho : op < 256) (a : op ≠ 0xBA)
    (b : op ≠ 0xBB) : wordCount (BitVec.ofNat 16 (high * 256 + op)) = 1 := by
  have e : field (BitVec.ofNat 16 (high * 256 + op)) 0 8 = op := by
    rw [field_ofNat _ _ _ (by omega)]; omega
  simp only [wordCount, e]
  rw [if_neg (by omega), if_neg (by omega)]

/-- The fields of an ALU word (R104). -/
theorem wordCount_alu (op : AluOp) (sz : Size) (rx : Reg) (a r : Nat) (ha : a < 16) (hr : r < 8) :
    wordCount (aluWord op sz rx (a, r)) =
      if a = 0 then (if r = 0 then (if op = .sto then 1 else 2) else if r = 1 then 2 else 1)
      else if a = 4 then 2 else 1 := by
  have hsz : sz.code < 2 := by cases sz <;> decide
  have hop : op.code < 18 := by cases op <;> decide
  have hrx := rx.isLt
  have hsto : op = .sto ↔ 17 ≤ op.code := by cases op <;> decide
  have hlt : a * 4096 + r * 512 + sz.code * 256 + op.code * 8 + rx.val < 2 ^ 16 := by omega
  have e0 : field (aluWord op sz rx (a, r)) 0 8 = op.code * 8 + rx.val := by
    unfold aluWord; rw [field_ofNat _ _ _ hlt]; omega
  have e1 : field (aluWord op sz rx (a, r)) 12 4 = a := by unfold aluWord; rw [field_ofNat _ _ _ hlt]; omega
  have e2 : field (aluWord op sz rx (a, r)) 9 3 = r := by unfold aluWord; rw [field_ofNat _ _ _ hlt]; omega
  simp only [wordCount, e0, e1, e2]
  rw [if_pos (by omega)]
  by_cases hs : op = .sto
  · rw [if_pos (show 136 ≤ op.code * 8 + rx.val by have := hsto.mp hs; omega), if_pos hs]
  · rw [if_neg (show ¬ 136 ≤ op.code * 8 + rx.val by have := mt hsto.mpr hs; omega), if_neg hs]

/-- The fields of a JMI word (R106). -/
theorem wordCount_jmi (call far : Bool) (a r : Nat) (ha : a < 16) (hr : r < 8) :
    wordCount (jmiWord call far (a, r)) =
      if a = 0 then (if r = 0 then (if far then 3 else 2) else if r = 1 then 2 else 1)
      else if a = 4 then 2 else 1 := by
  have e : ∀ f c : Nat, f < 2 → (c = 0xBA ∨ c = 0xBB) →
      wordCount (BitVec.ofNat 16 (a * 4096 + r * 512 + f * 256 + c)) =
        if a = 0 then (if r = 0 then (if f = 1 then 3 else 2) else if r = 1 then 2 else 1)
        else if a = 4 then 2 else 1 := by
    intro f c hf hc
    have hlt : a * 4096 + r * 512 + f * 256 + c < 2 ^ 16 := by omega
    have e0 : field (BitVec.ofNat 16 (a * 4096 + r * 512 + f * 256 + c)) 0 8 = c := by
      rw [field_ofNat _ _ _ hlt]; omega
    have e1 : field (BitVec.ofNat 16 (a * 4096 + r * 512 + f * 256 + c)) 12 4 = a := by
      rw [field_ofNat _ _ _ hlt]; omega
    have e2 : field (BitVec.ofNat 16 (a * 4096 + r * 512 + f * 256 + c)) 9 3 = r := by
      rw [field_ofNat _ _ _ hlt]; omega
    have e3 : field (BitVec.ofNat 16 (a * 4096 + r * 512 + f * 256 + c)) 8 1 = f := by
      rw [field_ofNat _ _ _ hlt]; omega
    simp only [wordCount, e0, e1, e2, e3]
    rw [if_neg (by omega), if_pos (by omega)]
  cases call <;> cases far
  · simpa [jmiWord] using e 0 0xBA (by omega) (by omega)
  · simpa [jmiWord] using e 1 0xBA (by omega) (by omega)
  · simpa [jmiWord] using e 0 0xBB (by omega) (by omega)
  · simpa [jmiWord] using e 1 0xBB (by omega) (by omega)

/-- The mode bits of a memory mode are fields of its word, and its operand words are those of its mode (R103). -/
theorem memMode_bits (m : MemMode) : m.modeBits.1 < 16 ∧ m.modeBits.2 < 8 ∧
    m.extra.length + 1 =
      (if m.modeBits.1 = 0 then (if m.modeBits.2 = 0 then 0 else if m.modeBits.2 = 1 then 2 else 1)
        else if m.modeBits.1 = 4 then 2 else 1) := by
  cases m with
  | abs a => exact ⟨by simp [MemMode.modeBits], by simp [MemMode.modeBits], rfl⟩
  | ind r => exact ⟨by simp [MemMode.modeBits], r.isLt, rfl⟩
  | offset r off => exact ⟨by simp [MemMode.modeBits], r.isLt, rfl⟩
  | stack s => exact ⟨by simp [MemMode.modeBits], s.isLt, rfl⟩
  | postInc r => exact ⟨by simp [MemMode.modeBits], r.isLt, rfl⟩
  | preDec r => exact ⟨by simp [MemMode.modeBits], r.isLt, rfl⟩
  | indexed r i =>
    have := i.isLt
    refine ⟨by simp only [MemMode.modeBits]; omega, r.isLt, ?_⟩
    rw [show (MemMode.indexed r i).modeBits = (8 + i.val, r.val) from rfl,
      show (MemMode.indexed r i).extra = [] from rfl]
    rw [if_neg (show ¬ 8 + i.val = 0 by omega), if_neg (show ¬ 8 + i.val = 4 by omega)]
    rfl

/-- The mode bits with row 0, column 0 belong to the Immediate mode alone. -/
theorem memMode_ne_imm (m : MemMode) : ¬ (m.modeBits.1 = 0 ∧ m.modeBits.2 = 0) := by
  cases m <;> simp [MemMode.modeBits]

/-- An instruction of the ALU pattern. -/
theorem length_encodeAlu (op : AluOp) (sz : Size) (rx : Reg) (m : AluOperand) :
    ∃ w rest, encodeAlu op sz rx m = w :: rest ∧ wordCount w = (encodeAlu op sz rx m).length := by
  refine ⟨_, _, rfl, ?_⟩
  simp only [encodeAlu, List.length_cons]
  cases m with
  | imm v =>
    rw [show (AluOperand.imm v).modeBits = (0, 0) from rfl, wordCount_alu _ _ _ _ _ (by decide) (by decide)]
    cases op <;> rfl
  | proc p =>
    have hp : p.code < 8 := by cases p <;> decide
    rw [show (AluOperand.proc p).modeBits = (1, p.code) from rfl, wordCount_alu _ _ _ _ _ (by decide) hp]
    cases op <;> rfl
  | reg r =>
    rw [show (AluOperand.reg r).modeBits = (2, r.val) from rfl, wordCount_alu _ _ _ _ _ (by decide) r.isLt]
    cases op <;> rfl
  | mem mode =>
    obtain ⟨h1, h2, h3⟩ := memMode_bits mode
    have hx : aluExtra op (.mem mode) = mode.extra := by cases op <;> rfl
    rw [hx, h3, show (AluOperand.mem mode).modeBits = (mode.modeBits.1, mode.modeBits.2) from rfl,
      wordCount_alu _ _ _ _ _ h1 h2]
    have := memMode_ne_imm mode
    split
    · split
      · omega
      · rfl
    · rfl

/-- A near jump or call. -/
theorem length_encodeNear (call : Bool) (m : JmpOperand) :
    ∃ w rest, encodeNear call m = w :: rest ∧ wordCount w = (encodeNear call m).length := by
  refine ⟨_, _, rfl, ?_⟩
  simp only [encodeNear, List.length_cons]
  cases m with
  | imm v =>
    rw [show (JmpOperand.imm v).modeBits = (0, 0) from rfl, wordCount_jmi _ _ _ _ (by decide) (by decide)]
    rfl
  | reg r =>
    rw [show (JmpOperand.reg r).modeBits = (2, r.val) from rfl, wordCount_jmi _ _ _ _ (by decide) r.isLt]
    rfl
  | mem mode =>
    obtain ⟨h1, h2, h3⟩ := memMode_bits mode
    rw [show (JmpOperand.mem mode).extra = mode.extra from rfl, h3,
      show (JmpOperand.mem mode).modeBits = (mode.modeBits.1, mode.modeBits.2) from rfl,
      wordCount_jmi _ _ _ _ h1 h2]
    have := memMode_ne_imm mode
    split
    · split
      · omega
      · rfl
    · rfl

/-- A far jump or call. -/
theorem length_encodeFar (call : Bool) (m : FarOperand) :
    ∃ w rest, encodeFar call m = w :: rest ∧ wordCount w = (encodeFar call m).length := by
  refine ⟨_, _, rfl, ?_⟩
  simp only [encodeFar, List.length_cons]
  cases m with
  | imm l u =>
    rw [show (FarOperand.imm l u).modeBits = (0, 0) from rfl, wordCount_jmi _ _ _ _ (by decide) (by decide)]
    rfl
  | reg r =>
    rw [show (FarOperand.reg r).modeBits = (2, r.val) from rfl, wordCount_jmi _ _ _ _ (by decide) r.isLt]
    rfl
  | mem mode =>
    obtain ⟨h1, h2, h3⟩ := memMode_bits mode
    rw [show (FarOperand.mem mode).extra = mode.extra from rfl, h3,
      show (FarOperand.mem mode).modeBits = (mode.modeBits.1, mode.modeBits.2) from rfl,
      wordCount_jmi _ _ _ _ h1 h2]
    have := memMode_ne_imm mode
    split
    · split
      · omega
      · rfl
    · rfl

/-- The high octets of the patterns with a register and a small field. -/
theorem immHigh_lt (rx : Reg) (n : BitVec 4) : immHigh rx n < 256 := by
  have := rx.isLt; have := n.isLt; unfold immHigh; omega

theorem regHigh_lt (rx r : Reg) : regHigh rx r < 256 := by
  have := rx.isLt; have := r.isLt; unfold regHigh; omega

theorem valueHigh_lt (rx : Reg) (v : BitVec 5) : valueHigh rx v < 256 := by
  have := rx.isLt; have := v.isLt; unfold valueHigh; omega

/-- An instruction outside the ALU and JMI patterns. -/
theorem length_wordOf (high op : Nat) (hh : high < 256) (lo : 0x90 ≤ op) (ho : op < 256) (a : op ≠ 0xBA)
    (b : op ≠ 0xBB) : ∃ w rest, wordOf high op = w :: rest ∧ wordCount w = (wordOf high op).length :=
  ⟨_, _, rfl, wordCount_single high op hh lo ho a b⟩

namespace EncodedLength

/-- The encoding is as many words as the length rule reads from the first of them. -/
def Statement (i : Instr) : Prop :=
  i.fieldsOk = true → ∃ w rest, encode i = w :: rest ∧ wordCount w = (encode i).length

theorem nop : Statement .nop := fun _ => ⟨_, _, rfl, by decide⟩

theorem aluImmediate (op : AluOp) (sz : Size) (rx : Reg) (value : Word) : Statement (.aluImmediate op sz rx value) := fun _ => length_encodeAlu _ _ _ _

theorem aluAbsolute (op : AluOp) (sz : Size) (rx : Reg) (addr : Word) : Statement (.aluAbsolute op sz rx addr) := fun _ => length_encodeAlu _ _ _ _

theorem aluProcReg (op : AluOp) (rx : Reg) (p : ProcReg) : Statement (.aluProcReg op rx p) := fun _ => length_encodeAlu _ _ _ _

theorem aluRegister (op : AluOp) (sz : Size) (rx : Reg) (r : Reg) : Statement (.aluRegister op sz rx r) := fun _ => length_encodeAlu _ _ _ _

theorem aluIndirect (op : AluOp) (sz : Size) (rx : Reg) (r : Reg) : Statement (.aluIndirect op sz rx r) := fun _ => length_encodeAlu _ _ _ _

theorem aluIndirectOffset (op : AluOp) (sz : Size) (rx : Reg) (r : Reg) (off : Word) : Statement (.aluIndirectOffset op sz rx r off) := fun _ => length_encodeAlu _ _ _ _

theorem aluStackOffset (op : AluOp) (sz : Size) (rx : Reg) (slot : Fin 8) : Statement (.aluStackOffset op sz rx slot) := fun _ => length_encodeAlu _ _ _ _

theorem aluPostInc (op : AluOp) (sz : Size) (rx : Reg) (r : Reg) : Statement (.aluPostInc op sz rx r) := fun _ => length_encodeAlu _ _ _ _

theorem aluPreDec (op : AluOp) (sz : Size) (rx : Reg) (r : Reg) : Statement (.aluPreDec op sz rx r) := fun _ => length_encodeAlu _ _ _ _

theorem aluIndexed (op : AluOp) (sz : Size) (rx : Reg) (r i : Reg) : Statement (.aluIndexed op sz rx r i) := fun _ => length_encodeAlu _ _ _ _

theorem aluUnassigned (op : AluOp) (sz : Size) (rx : Reg) (r : Reg) : Statement (.aluUnassigned op sz rx r) := fun h => by
  have h2 : 2 ≤ r.val := by simpa [Instr.fieldsOk] using h
  refine ⟨_, _, rfl, ?_⟩
  rw [wordCount_alu _ _ _ _ _ (by decide) r.isLt, if_pos rfl, if_neg (by omega), if_neg (by omega)]
  rfl

theorem cmp (sz : Size) (rx : Reg) (m : AluOperand) : Statement (.cmp sz rx m) := fun _ => length_encodeAlu _ _ _ _

theorem neg (sz : Size) (rx : Reg) (m : AluOperand) : Statement (.neg sz rx m) := fun _ => length_encodeAlu _ _ _ _

theorem add (sz : Size) (rx : Reg) (m : AluOperand) : Statement (.add sz rx m) := fun _ => length_encodeAlu _ _ _ _

theorem sub (sz : Size) (rx : Reg) (m : AluOperand) : Statement (.sub sz rx m) := fun _ => length_encodeAlu _ _ _ _

theorem adc (sz : Size) (rx : Reg) (m : AluOperand) : Statement (.adc sz rx m) := fun _ => length_encodeAlu _ _ _ _

theorem sbc (sz : Size) (rx : Reg) (m : AluOperand) : Statement (.sbc sz rx m) := fun _ => length_encodeAlu _ _ _ _

theorem mul (sz : Size) (rx : Reg) (m : AluOperand) : Statement (.mul sz rx m) := fun _ => length_encodeAlu _ _ _ _

theorem div (sz : Size) (rx : Reg) (m : AluOperand) : Statement (.div sz rx m) := fun _ => length_encodeAlu _ _ _ _

theorem mli (sz : Size) (rx : Reg) (m : AluOperand) : Statement (.mli sz rx m) := fun _ => length_encodeAlu _ _ _ _

theorem dvi (sz : Size) (rx : Reg) (m : AluOperand) : Statement (.dvi sz rx m) := fun _ => length_encodeAlu _ _ _ _

theorem mod (sz : Size) (rx : Reg) (m : AluOperand) : Statement (.mod sz rx m) := fun _ => length_encodeAlu _ _ _ _

theorem mdi (sz : Size) (rx : Reg) (m : AluOperand) : Statement (.mdi sz rx m) := fun _ => length_encodeAlu _ _ _ _

theorem and (sz : Size) (rx : Reg) (m : AluOperand) : Statement (.and sz rx m) := fun _ => length_encodeAlu _ _ _ _

theorem orr (sz : Size) (rx : Reg) (m : AluOperand) : Statement (.orr sz rx m) := fun _ => length_encodeAlu _ _ _ _

theorem eor (sz : Size) (rx : Reg) (m : AluOperand) : Statement (.eor sz rx m) := fun _ => length_encodeAlu _ _ _ _

theorem not (sz : Size) (rx : Reg) (m : AluOperand) : Statement (.not sz rx m) := fun _ => length_encodeAlu _ _ _ _

theorem lod (sz : Size) (rx : Reg) (m : AluOperand) : Statement (.lod sz rx m) := fun _ => length_encodeAlu _ _ _ _

theorem undefStoImmediate (sz : Size) (rx : Reg) : Statement (.undefStoImmediate sz rx) := fun _ => by
  refine ⟨_, _, rfl, ?_⟩
  rw [wordCount_alu _ _ _ _ _ (by decide) (by decide)]
  rfl

theorem undefStoRegister (r : Reg) (sz : Size) (rx : Reg) : Statement (.undefStoRegister r sz rx) := fun _ => by
  refine ⟨_, _, rfl, ?_⟩
  rw [wordCount_alu _ _ _ _ _ (by decide) r.isLt]
  rfl

theorem sto (sz : Size) (rx : Reg) (m : AluOperand) : Statement (.sto sz rx m) := fun _ => length_encodeAlu _ _ _ _

theorem bcc (off : BitVec 8) : Statement (.bcc off) := fun _ => length_wordOf _ _ (off.isLt) (by decide) (by decide) (by decide) (by decide)

theorem bcs (off : BitVec 8) : Statement (.bcs off) := fun _ => length_wordOf _ _ (off.isLt) (by decide) (by decide) (by decide) (by decide)

theorem bne (off : BitVec 8) : Statement (.bne off) := fun _ => length_wordOf _ _ (off.isLt) (by decide) (by decide) (by decide) (by decide)

theorem beq (off : BitVec 8) : Statement (.beq off) := fun _ => length_wordOf _ _ (off.isLt) (by decide) (by decide) (by decide) (by decide)

theorem bpl (off : BitVec 8) : Statement (.bpl off) := fun _ => length_wordOf _ _ (off.isLt) (by decide) (by decide) (by decide) (by decide)

theorem bmi (off : BitVec 8) : Statement (.bmi off) := fun _ => length_wordOf _ _ (off.isLt) (by decide) (by decide) (by decide) (by decide)

theorem bvc (off : BitVec 8) : Statement (.bvc off) := fun _ => length_wordOf _ _ (off.isLt) (by decide) (by decide) (by decide) (by decide)

theorem bvs (off : BitVec 8) : Statement (.bvs off) := fun _ => length_wordOf _ _ (off.isLt) (by decide) (by decide) (by decide) (by decide)

theorem bug (off : BitVec 8) : Statement (.bug off) := fun _ => length_wordOf _ _ (off.isLt) (by decide) (by decide) (by decide) (by decide)

theorem bsg (off : BitVec 8) : Statement (.bsg off) := fun _ => length_wordOf _ _ (off.isLt) (by decide) (by decide) (by decide) (by decide)

theorem baw (off : BitVec 8) : Statement (.baw off) := fun _ => length_wordOf _ _ (off.isLt) (by decide) (by decide) (by decide) (by decide)

theorem undefBranch10 : Statement .undefBranch10 := fun _ => length_wordOf _ _ (by decide) (by decide) (by decide) (by decide) (by decide)

theorem undefBranch11 : Statement .undefBranch11 := fun _ => length_wordOf _ _ (by decide) (by decide) (by decide) (by decide) (by decide)

theorem undefBranch12 : Statement .undefBranch12 := fun _ => length_wordOf _ _ (by decide) (by decide) (by decide) (by decide) (by decide)

theorem undefBranch13 : Statement .undefBranch13 := fun _ => length_wordOf _ _ (by decide) (by decide) (by decide) (by decide) (by decide)

theorem undefBranch14 : Statement .undefBranch14 := fun _ => length_wordOf _ _ (by decide) (by decide) (by decide) (by decide) (by decide)

theorem aslImm (rx : Reg) (count : BitVec 4) : Statement (.aslImm rx count) := fun _ => length_wordOf _ _ (immHigh_lt _ _) (by decide) (by decide) (by decide) (by decide)

theorem aslReg (rx : Reg) (rc : Reg) : Statement (.aslReg rx rc) := fun _ => length_wordOf _ _ (regHigh_lt _ _) (by decide) (by decide) (by decide) (by decide)

theorem lslImm (rx : Reg) (count : BitVec 4) : Statement (.lslImm rx count) := fun _ => length_wordOf _ _ (immHigh_lt _ _) (by decide) (by decide) (by decide) (by decide)

theorem lslReg (rx : Reg) (rc : Reg) : Statement (.lslReg rx rc) := fun _ => length_wordOf _ _ (regHigh_lt _ _) (by decide) (by decide) (by decide) (by decide)

theorem rolImm (rx : Reg) (count : BitVec 4) : Statement (.rolImm rx count) := fun _ => length_wordOf _ _ (immHigh_lt _ _) (by decide) (by decide) (by decide) (by decide)

theorem rolReg (rx : Reg) (rc : Reg) : Statement (.rolReg rx rc) := fun _ => length_wordOf _ _ (regHigh_lt _ _) (by decide) (by decide) (by decide) (by decide)

theorem rnlImm (rx : Reg) (count : BitVec 4) : Statement (.rnlImm rx count) := fun _ => length_wordOf _ _ (immHigh_lt _ _) (by decide) (by decide) (by decide) (by decide)

theorem rnlReg (rx : Reg) (rc : Reg) : Statement (.rnlReg rx rc) := fun _ => length_wordOf _ _ (regHigh_lt _ _) (by decide) (by decide) (by decide) (by decide)

theorem asrImm (rx : Reg) (count : BitVec 4) : Statement (.asrImm rx count) := fun _ => length_wordOf _ _ (immHigh_lt _ _) (by decide) (by decide) (by decide) (by decide)

theorem asrReg (rx : Reg) (rc : Reg) : Statement (.asrReg rx rc) := fun _ => length_wordOf _ _ (regHigh_lt _ _) (by decide) (by decide) (by decide) (by decide)

theorem lsrImm (rx : Reg) (count : BitVec 4) : Statement (.lsrImm rx count) := fun _ => length_wordOf _ _ (immHigh_lt _ _) (by decide) (by decide) (by decide) (by decide)

theorem lsrReg (rx : Reg) (rc : Reg) : Statement (.lsrReg rx rc) := fun _ => length_wordOf _ _ (regHigh_lt _ _) (by decide) (by decide) (by decide) (by decide)

theorem rorImm (rx : Reg) (count : BitVec 4) : Statement (.rorImm rx count) := fun _ => length_wordOf _ _ (immHigh_lt _ _) (by decide) (by decide) (by decide) (by decide)

theorem rorReg (rx : Reg) (rc : Reg) : Statement (.rorReg rx rc) := fun _ => length_wordOf _ _ (regHigh_lt _ _) (by decide) (by decide) (by decide) (by decide)

theorem rnrImm (rx : Reg) (count : BitVec 4) : Statement (.rnrImm rx count) := fun _ => length_wordOf _ _ (immHigh_lt _ _) (by decide) (by decide) (by decide) (by decide)

theorem rnrReg (rx : Reg) (rc : Reg) : Statement (.rnrReg rx rc) := fun _ => length_wordOf _ _ (regHigh_lt _ _) (by decide) (by decide) (by decide) (by decide)

theorem bttImm (rx : Reg) (bit : BitVec 4) : Statement (.bttImm rx bit) := fun _ => length_wordOf _ _ (immHigh_lt _ _) (by decide) (by decide) (by decide) (by decide)

theorem bttReg (rx : Reg) (rb : Reg) : Statement (.bttReg rx rb) := fun _ => length_wordOf _ _ (regHigh_lt _ _) (by decide) (by decide) (by decide) (by decide)

theorem btxImm (rx : Reg) (bit : BitVec 4) : Statement (.btxImm rx bit) := fun _ => length_wordOf _ _ (immHigh_lt _ _) (by decide) (by decide) (by decide) (by decide)

theorem btxReg (rx : Reg) (rb : Reg) : Statement (.btxReg rx rb) := fun _ => length_wordOf _ _ (regHigh_lt _ _) (by decide) (by decide) (by decide) (by decide)

theorem btcImm (rx : Reg) (bit : BitVec 4) : Statement (.btcImm rx bit) := fun _ => length_wordOf _ _ (immHigh_lt _ _) (by decide) (by decide) (by decide) (by decide)

theorem btcReg (rx : Reg) (rb : Reg) : Statement (.btcReg rx rb) := fun _ => length_wordOf _ _ (regHigh_lt _ _) (by decide) (by decide) (by decide) (by decide)

theorem btsImm (rx : Reg) (bit : BitVec 4) : Statement (.btsImm rx bit) := fun _ => length_wordOf _ _ (immHigh_lt _ _) (by decide) (by decide) (by decide) (by decide)

theorem btsReg (rx : Reg) (rb : Reg) : Statement (.btsReg rx rb) := fun _ => length_wordOf _ _ (regHigh_lt _ _) (by decide) (by decide) (by decide) (by decide)

theorem undefAcAd : Statement .undefAcAd := fun _ => length_wordOf _ _ (by decide) (by decide) (by decide) (by decide) (by decide)

theorem sef (mask : BitVec 4) : Statement (.sef mask) := fun _ => length_wordOf _ _ (by have := mask.isLt; omega) (by decide) (by decide) (by decide) (by decide)

theorem clf (mask : BitVec 4) : Statement (.clf mask) := fun _ => length_wordOf _ _ (by have := mask.isLt; omega) (by decide) (by decide) (by decide) (by decide)

theorem pshGeneral (mask : BitVec 8) : Statement (.pshGeneral mask) := fun _ => length_wordOf _ _ (mask.isLt) (by decide) (by decide) (by decide) (by decide)

theorem pshStatus (mask : BitVec 8) : Statement (.pshStatus mask) := fun _ => length_wordOf _ _ (mask.isLt) (by decide) (by decide) (by decide) (by decide)

theorem popGeneral (mask : BitVec 8) : Statement (.popGeneral mask) := fun _ => length_wordOf _ _ (mask.isLt) (by decide) (by decide) (by decide) (by decide)

theorem rts : Statement .rts := fun _ => ⟨_, _, rfl, by decide⟩

theorem popStatus (mask : BitVec 8) : Statement (.popStatus mask) := fun _ => length_wordOf _ _ (mask.isLt) (by decide) (by decide) (by decide) (by decide)

theorem undefB4 : Statement .undefB4 := fun _ => length_wordOf _ _ (by decide) (by decide) (by decide) (by decide) (by decide)

theorem mmr (rv ra : Reg) : Statement (.mmr rv ra) := fun _ => length_wordOf _ _ (by have := rv.isLt; have := ra.isLt; omega) (by decide) (by decide) (by decide) (by decide)

theorem mmw (rv ra : Reg) : Statement (.mmw rv ra) := fun _ => length_wordOf _ _ (by have := rv.isLt; have := ra.isLt; omega) (by decide) (by decide) (by decide) (by decide)

theorem mml (rv : Reg) : Statement (.mml rv) := fun _ => length_wordOf _ _ (by have := rv.isLt; omega) (by decide) (by decide) (by decide) (by decide)

theorem mms (rv : Reg) : Statement (.mms rv) := fun _ => length_wordOf _ _ (by have := rv.isLt; omega) (by decide) (by decide) (by decide) (by decide)

theorem setSmall (rx : Reg) (v : BitVec 5) : Statement (.setSmall rx v) := fun _ => length_wordOf _ _ (valueHigh_lt _ _) (by decide) (by decide) (by decide) (by decide)

theorem setAlt (rx : Reg) (v : BitVec 5) : Statement (.setAlt rx v) := fun _ => length_wordOf _ _ (valueHigh_lt _ _) (by decide) (by decide) (by decide) (by decide)

theorem inc (rx : Reg) : Statement (.inc rx) := fun _ => length_wordOf _ _ (valueHigh_lt _ _) (by decide) (by decide) (by decide) (by decide)

theorem adi (rx : Reg) (v : BitVec 5) : Statement (.adi rx v) := fun _ => length_wordOf _ _ (valueHigh_lt _ _) (by decide) (by decide) (by decide) (by decide)

theorem dec (rx : Reg) : Statement (.dec rx) := fun _ => length_wordOf _ _ (valueHigh_lt _ _) (by decide) (by decide) (by decide) (by decide)

theorem sbi (rx : Reg) (v : BitVec 5) : Statement (.sbi rx v) := fun _ => length_wordOf _ _ (valueHigh_lt _ _) (by decide) (by decide) (by decide) (by decide)

theorem jmiImmediateNear (call : Bool) (target : Word) : Statement (.jmiImmediateNear call target) := fun _ => length_encodeNear _ _

theorem jmiAbsoluteNear (call : Bool) (addr : Word) : Statement (.jmiAbsoluteNear call addr) := fun _ => length_encodeNear _ _

theorem jmiRegisterNear (call : Bool) (r : Reg) : Statement (.jmiRegisterNear call r) := fun _ => length_encodeNear _ _

theorem jmiIndirectNear (call : Bool) (r : Reg) : Statement (.jmiIndirectNear call r) := fun _ => length_encodeNear _ _

theorem jmiIndirectOffsetNear (call : Bool) (r : Reg) (off : Word) : Statement (.jmiIndirectOffsetNear call r off) := fun _ => length_encodeNear _ _

theorem jmiStackOffsetNear (call : Bool) (slot : Fin 8) : Statement (.jmiStackOffsetNear call slot) := fun _ => length_encodeNear _ _

theorem jmiPostIncNear (call : Bool) (r : Reg) : Statement (.jmiPostIncNear call r) := fun _ => length_encodeNear _ _

theorem jmiPreDecNear (call : Bool) (r : Reg) : Statement (.jmiPreDecNear call r) := fun _ => length_encodeNear _ _

theorem jmiIndexedNear (call : Bool) (r i : Reg) : Statement (.jmiIndexedNear call r i) := fun _ => length_encodeNear _ _

theorem jmiImmediateFar (call : Bool) (lower upper : Word) : Statement (.jmiImmediateFar call lower upper) := fun _ => length_encodeFar _ _

theorem jmiAbsoluteFar (call : Bool) (addr : Word) : Statement (.jmiAbsoluteFar call addr) := fun _ => length_encodeFar _ _

theorem jmiRegisterFar (call : Bool) (r : Reg) : Statement (.jmiRegisterFar call r) := fun _ => length_encodeFar _ _

theorem jmiIndirectFar (call : Bool) (r : Reg) : Statement (.jmiIndirectFar call r) := fun _ => length_encodeFar _ _

theorem jmiIndirectOffsetFar (call : Bool) (r : Reg) (off : Word) : Statement (.jmiIndirectOffsetFar call r off) := fun _ => length_encodeFar _ _

theorem jmiStackOffsetFar (call : Bool) (slot : Fin 8) : Statement (.jmiStackOffsetFar call slot) := fun _ => length_encodeFar _ _

theorem jmiPostIncFar (call : Bool) (r : Reg) : Statement (.jmiPostIncFar call r) := fun _ => length_encodeFar _ _

theorem jmiPreDecFar (call : Bool) (r : Reg) : Statement (.jmiPreDecFar call r) := fun _ => length_encodeFar _ _

theorem jmiIndexedFar (call : Bool) (r i : Reg) : Statement (.jmiIndexedFar call r i) := fun _ => length_encodeFar _ _

theorem jmiUnassigned (call far procRow : Bool) (r : Reg) : Statement (.jmiUnassigned call far procRow r) := fun h => by
  refine ⟨_, _, rfl, ?_⟩
  cases procRow with
  | true =>
    rw [wordCount_jmi _ _ _ _ (by decide) r.isLt]
    rfl
  | false =>
    have h2 : 2 ≤ r.val := by simpa [Instr.fieldsOk] using h
    rw [wordCount_jmi _ _ _ _ (by decide) r.isLt, if_pos (by decide), if_neg (by omega), if_neg (by omega)]
    rfl

theorem jmp (m : JmpOperand) : Statement (.jmp m) := fun _ => length_encodeNear _ _

theorem jmpF (m : FarOperand) : Statement (.jmpF m) := fun _ => length_encodeFar _ _

theorem jsr (m : JmpOperand) : Statement (.jsr m) := fun _ => length_encodeNear _ _

theorem jsrF (m : FarOperand) : Statement (.jsrF m) := fun _ => length_encodeFar _ _

theorem hwq00 : Statement .hwq00 := fun _ => length_wordOf _ _ (by decide) (by decide) (by decide) (by decide) (by decide)

theorem hwq01 : Statement .hwq01 := fun _ => length_wordOf _ _ (by decide) (by decide) (by decide) (by decide) (by decide)

theorem hwq02 : Statement .hwq02 := fun _ => length_wordOf _ _ (by decide) (by decide) (by decide) (by decide) (by decide)

theorem hwq80 : Statement .hwq80 := fun _ => length_wordOf _ _ (by decide) (by decide) (by decide) (by decide) (by decide)

theorem hwq81 : Statement .hwq81 := fun _ => length_wordOf _ _ (by decide) (by decide) (by decide) (by decide) (by decide)

theorem hwqUnassigned (index : BitVec 8) : Statement (.hwqUnassigned index) := fun _ => length_wordOf _ _ (index.isLt) (by decide) (by decide) (by decide) (by decide)

theorem slp : Statement .slp := fun _ => length_wordOf _ _ (by decide) (by decide) (by decide) (by decide) (by decide)

theorem swi : Statement .swi := fun _ => length_wordOf _ _ (by decide) (by decide) (by decide) (by decide) (by decide)

theorem rti : Statement .rti := fun _ => length_wordOf _ _ (by decide) (by decide) (by decide) (by decide) (by decide)

theorem undefC0FF : Statement .undefC0FF := fun _ => length_wordOf _ _ (by decide) (by decide) (by decide) (by decide) (by decide)

end EncodedLength

end Sys2Proof.Laws
end

