-- ==== Sys2Proof/Laws/Results.lean ====
section
/-! SUPPORT. What the shared operations leave when they complete, said once in the words of Sys2Proof/Safety.lean:
stores, pushes, pops, operand reads and writes, the fetch. -/

namespace Sys2Proof.Machine

/-! ## Stores -/

theorem or_twoPow_12 (w : Word) : putBit w 12 true = w ||| 0x1000 := by
  simp only [putBit, if_true]; congr 1

/-- `Stores` looks at the old state through memory, the schedule, the mapping and what stands behind an address, and at
the new one through memory, the schedule and the cache. -/
theorem Stores.congr {a : Word} {bs : List Byte} {s t s' t' : State} (h : Stores a bs s t)
    (hm : s'.mem = s.mem) (hb : s'.bus = s.bus) (hp : s'.ps = s.ps) (hu : s'.mmuU = s.mmuU) (hs : s'.mmuS = s.mmuS)
    (hd : s'.devices = s.devices) (hl : s'.platform = s.platform)
    (tm : t'.mem = t.mem) (tb : t'.bus = t.bus) (tu : t'.mmuU = t.mmuU) (ts : t'.mmuS = t.mmuS) :
    Stores a bs s' t' := by
  have e1 : ∀ x, s'.translate x = s.translate x := fun x => by
    simp only [State.translate, State.mapWord, State.mmuOn, State.supervisor, hp, hu, hs]
    rfl
  have e2 : ∀ pa, s'.backing pa = s.backing pa := fun pa => by simp only [State.backing, hd, hl]
  have e3 : s'.mmuOn = s.mmuOn := by simp only [State.mmuOn, hp]
  have e4 : s'.supervisor = s.supervisor := by simp only [State.supervisor, hp]
  have q : s'.quiet → s.quiet := fun g => by rw [State.quiet, ← hb]; exact g
  constructor
  · intro g pa hpa
    simp only [State.peek, tm, hm]
    exact h.others (q g) pa fun k hk => by rw [← e1]; exact hpa k hk
  · intro g w k b hk hr
    simp only [State.peek, tm]
    rw [e1] at hr ⊢
    exact h.stored (q g) (by rw [← hm]; exact w) k b hk (by rw [← e2]; exact hr)
  · intro g; rw [tb, hb]; exact h.schedule (q g)
  · intro k; rw [ts, hs, e3, e4]; exact h.accessedS k
  · intro k; rw [tu, hu, e3, e4]; exact h.accessedU k

/-- Two logical bytes less than a bank apart never share a physical byte. -/
theorem translate_add_ne (s : State) (a : Word) {j k : Nat} (h : j < k) (hk : k < j + 16384) :
    s.translate (a + BitVec.ofNat 16 j) ≠ s.translate (a + BitVec.ofNat 16 k) := by
  intro e
  have e' := congrArg BitVec.toNat e
  simp only [State.translate, physAddr_toNat, BitVec.toNat_add, BitVec.toNat_ofNat] at e'
  omega

/-- The A flags one byte's write sets. -/
theorem touch_accessed (s : State) (a : Word) (k : Fin 4) :
    (s.touch a).mmuS[k] = (if s.mmuOn = true ∧ s.supervisor = true ∧ bankOf a = k then s.mmuS[k] ||| 0x1000
      else s.mmuS[k]) ∧
    (s.touch a).mmuU[k] = (if s.mmuOn = true ∧ s.supervisor = false ∧ bankOf a = k then s.mmuU[k] ||| 0x1000
      else s.mmuU[k]) := by
  unfold State.touch
  cases hm : s.mmuOn
  · simp
  cases hs : s.supervisor
  · by_cases hk : bankOf a = k
    · subst hk; simp [or_twoPow_12]
    · have : (bankOf a : Nat) ≠ (k : Nat) := fun e => hk (Fin.ext e)
      simp [hk, Vector.getElem_set_ne, this]
  · by_cases hk : bankOf a = k
    · subst hk; simp [or_twoPow_12]
    · have : (bankOf a : Nat) ≠ (k : Nat) := fun e => hk (Fin.ext e)
      simp [hk, Vector.getElem_set_ne, this]

/-- Everything a write that passed its checks leaves. -/
theorem memWrite_stores (sz : Size) (a v : Word) (s : State) :
    Stores a ((bytesOfWord v).take (sz.bits / 8)) s ((s.storeSized sz a v).touchSized sz a) := by
  have hts := touchSized_touchStep (s.storeSized sz a v) sz a
  have hms := storeSized_memStep s sz a v
  have hmem : ((s.storeSized sz a v).touchSized sz a).mem = (s.storeSized sz a v).mem := by rw [hts.only]
  have hbus : ((s.storeSized sz a v).touchSized sz a).bus = (s.storeSized sz a v).bus := by rw [hts.only]
  have hS : (s.storeSized sz a v).mmuS = s.mmuS := by rw [hms.only]
  have hU : (s.storeSized sz a v).mmuU = s.mmuU := by rw [hms.only]
  have hon : (s.storeSized sz a v).mmuOn = s.mmuOn := by rw [hms.only]; rfl
  have hsup : (s.storeSized sz a v).supervisor = s.supervisor := by rw [hms.only]; rfl
  have hqb : ∀ (u : State) pa b, (u.physWrite pa b).bus = u.bus := fun u pa b => by
    unfold State.physWrite; split <;> rfl
  have hbk : ∀ (u : State) pa b qa, (u.physWrite pa b).backing qa = u.backing qa := fun u pa b qa =>
    (physWrite_memStep u pa b).backing qa
  have hne := translate_succ_ne s a
  have hpk : ∀ pa, ((s.storeSized sz a v).touchSized sz a).peek pa = (s.storeSized sz a v).peek pa := fun pa => by
    simp only [State.peek, hmem]
  cases sz with
  | byte =>
    have e : (bytesOfWord v).take (Size.byte.bits / 8) = [v.extractLsb' 0 8] := rfl
    rw [e]
    constructor
    · intro q pa hpa
      rw [hpk, storeSized_quiet .byte a v q]
      exact peek_physWrite_ne s _ (by simpa using hpa 0 (by simp))
    · intro q w k b hk hr
      have hk0 : k = 0 := by
        cases k with
        | zero => rfl
        | succ n => simp at hk
      subst hk0
      simp only [List.getElem?_cons_zero, Option.some.injEq] at hk
      subst hk
      simp only [BitVec.add_zero] at hr ⊢
      rw [hpk, storeSized_quiet .byte a v q]
      exact peek_physWrite_self _ w hr
    · intro q
      rw [hbus, storeSized_quiet .byte a v q]
      exact hqb _ _ _
    · intro k
      have := (touch_accessed (s.storeSized .byte a v) a k).1
      simp only [State.touchSized, this, hS, hon, hsup]
      simp
    · intro k
      have := (touch_accessed (s.storeSized .byte a v) a k).2
      simp only [State.touchSized, this, hU, hon, hsup]
      simp
  | word =>
    have e : (bytesOfWord v).take (Size.word.bits / 8) = [v.extractLsb' 0 8, v.extractLsb' 8 8] := rfl
    rw [e]
    have ex : ∀ k : Fin 4, (∃ j < [v.extractLsb' 0 8, v.extractLsb' 8 8].length, bankOf (a + BitVec.ofNat 16 j) = k) ↔
        (bankOf a = k ∨ bankOf (a + 1) = k) := fun k => by
      constructor
      · rintro ⟨j, hj, h⟩
        simp only [List.length_cons, List.length_nil] at hj
        have : j = 0 ∨ j = 1 := by omega
        rcases this with rfl | rfl
        · left; simpa using h
        · right; simpa using h
      · rintro (h | h)
        · exact ⟨0, by simp, by simpa using h⟩
        · exact ⟨1, by simp, by simpa using h⟩
    constructor
    · intro q pa hpa
      have h0 := hpa 0 (by simp)
      have h1 := hpa 1 (by simp)
      simp only [BitVec.add_zero] at h0
      rw [hpk, storeSized_quiet .word a v q]
      exact (peek_physWrite_ne _ _ h1).trans (peek_physWrite_ne s _ h0)
    · intro q w k b hk hr
      have hk1 : k = 0 ∨ k = 1 := by
        rcases k with _ | _ | k
        · exact .inl rfl
        · exact .inr rfl
        · simp at hk
      rw [hpk, storeSized_quiet .word a v q]
      rcases hk1 with rfl | rfl
      · simp only [List.getElem?_cons_zero, Option.some.injEq] at hk
        subst hk
        simp only [BitVec.add_zero] at hr ⊢
        exact (peek_physWrite_ne _ _ hne.symm).trans (peek_physWrite_self _ w hr)
      · simp only [List.getElem?_cons_succ, List.getElem?_cons_zero, Option.some.injEq] at hk
        subst hk
        exact peek_physWrite_self _ ((physWrite_memStep s _ _).wf w) (by rw [hbk]; exact hr)
    · intro q
      rw [hbus, storeSized_quiet .word a v q]
      exact (hqb _ _ _).trans (hqb _ _ _)
    · intro k
      have h1 := (touch_accessed (s.storeSized .word a v) a k).1
      have h2 := (touch_accessed ((s.storeSized .word a v).touch a) (a + 1) k).1
      have g := touch_touchStep (s.storeSized .word a v) a
      have g1 : ((s.storeSized .word a v).touch a).mmuOn = s.mmuOn := by rw [g.only]; exact hon
      have g2 : ((s.storeSized .word a v).touch a).supervisor = s.supervisor := by rw [g.only]; exact hsup
      simp only [ex, State.touchSized, h2, h1, g1, g2, hS, hon, hsup]
      by_cases c0 : bankOf a = k <;> by_cases c1 : bankOf (a + 1) = k <;> cases s.mmuOn <;> cases s.supervisor <;>
        simp [c0, BitVec.or_assoc]
    · intro k
      have h1 := (touch_accessed (s.storeSized .word a v) a k).2
      have h2 := (touch_accessed ((s.storeSized .word a v).touch a) (a + 1) k).2
      have g := touch_touchStep (s.storeSized .word a v) a
      have g1 : ((s.storeSized .word a v).touch a).mmuOn = s.mmuOn := by rw [g.only]; exact hon
      have g2 : ((s.storeSized .word a v).touch a).supervisor = s.supervisor := by rw [g.only]; exact hsup
      simp only [ex, State.touchSized, h2, h1, g1, g2, hU, hon, hsup]
      by_cases c0 : bankOf a = k <;> by_cases c1 : bankOf (a + 1) = k <;> cases s.mmuOn <;> cases s.supervisor <;>
        simp [c0, BitVec.or_assoc]

/-- Slots of the stack, counted from the pointer of before. -/
theorem sub_slot (x : Word) (k : Nat) : x - 2 - BitVec.ofNat 16 (2 * k) = x - BitVec.ofNat 16 (2 * (k + 1)) := by
  apply BitVec.eq_of_toNat_eq
  have h2 : (2 : Word).toNat = 2 := rfl
  simp only [BitVec.toNat_sub, BitVec.toNat_ofNat, h2]; omega

/-- Apart from memory a completed store is a change of A flags. -/
theorem StoreStep.touch {s t : State} (g : StoreStep s t) :
    TouchStep { s with mem := t.mem, bus := t.bus, freeCount := t.freeCount } t :=
  ⟨g.only, g.accU, g.accS, g.user, g.sup⟩

theorem StoreStep.translate {s t : State} (g : StoreStep s t) (a : Word) : t.translate a = s.translate a :=
  g.touch.translate a

theorem StoreStep.checkSized {s t : State} (g : StoreStep s t) (kind : Access) (sz : Size) (a : Word) :
    t.checkSized kind sz a = s.checkSized kind sz a := g.touch.checkSized kind sz a

theorem StoreStep.trans {s t u : State} (h : StoreStep s t) (g : StoreStep t u) : StoreStep s u where
  only := by rw [g.only]; rw [h.only]
  wf := fun w => g.wf (h.wf w)
  keeps := fun pa hp => (g.keeps pa (by rw [h.only]; exact hp)).trans (h.keeps pa hp)
  accU := g.accU.trans h.accU
  accS := g.accS.trans h.accS
  user := fun e => (g.user (by rw [h.only]; exact e)).trans (h.user e)
  sup := fun e => (g.sup (by rw [h.only]; exact e)).trans (h.sup e)
  quiet := fun q => g.quiet (h.quiet q)

/-- A completed store does not look at the stack pointers. -/
theorem StoreStep.setSp {s t : State} (g : StoreStep s t) (v : Word) : StoreStep (s.setSp v) (t.setSp v) where
  only := by
    rw [g.only]
    unfold State.setSp
    cases hs : s.supervisor <;> simp [State.supervisor] at hs ⊢ <;> simp [hs]
  wf := fun w => by simp only [mem_setSp] at w ⊢; exact g.wf w
  keeps := fun pa hp => by
    rw [backing_setSp] at hp
    have := g.keeps pa hp
    simpa only [State.peek, mem_setSp] using this
  accU := by simpa only [mmuU_setSp] using g.accU
  accS := by simpa only [mmuS_setSp] using g.accS
  user := fun e => by rw [supervisor_setSp] at e; simpa only [mmuS_setSp] using g.user e
  sup := fun e => by rw [supervisor_setSp] at e; simpa only [mmuU_setSp] using g.sup e
  quiet := fun q => by simp only [State.quiet, bus_setSp] at q ⊢; exact g.quiet q

theorem setSp_setSp (s : State) (v w : Word) : (s.setSp v).setSp w = s.setSp w := by
  unfold State.setSp
  cases hs : s.supervisor <;> simp [State.supervisor] at hs ⊢ <;> simp [hs]

theorem setSp_sp (s : State) : s.setSp s.sp = s := by
  unfold State.setSp State.sp; split <;> rfl

/-- A store followed by one just below it. -/
theorem Stores.append {a : Word} {lo hi : List Byte} {s t u : State}
    (h1 : Stores (a + BitVec.ofNat 16 lo.length) hi s t) (h2 : Stores a lo t u) (g : StoreStep s t)
    (hl : lo.length + hi.length ≤ 16384) : Stores a (lo ++ hi) s u := by
  have htr : ∀ x, t.translate x = s.translate x := g.translate
  have hbk : ∀ pa, t.backing pa = s.backing pa := fun pa => by rw [g.only]; rfl
  have hon : t.mmuOn = s.mmuOn := by rw [g.only]; rfl
  have hsup : t.supervisor = s.supervisor := by rw [g.only]; rfl
  have hadd : ∀ j, a + BitVec.ofNat 16 lo.length + BitVec.ofNat 16 j = a + BitVec.ofNat 16 (lo.length + j) := fun j => by
    rw [BitVec.add_assoc]; congr 1; exact (BitVec.ofNat_add (lo.length) j).symm
  have qt : s.quiet → t.quiet := fun q => by rw [State.quiet, h1.schedule q]; exact q
  have ex : ∀ k : Fin 4, (∃ j < (lo ++ hi).length, bankOf (a + BitVec.ofNat 16 j) = k) ↔
      ((∃ j < hi.length, bankOf (a + BitVec.ofNat 16 lo.length + BitVec.ofNat 16 j) = k) ∨
        ∃ j < lo.length, bankOf (a + BitVec.ofNat 16 j) = k) := fun k => by
    simp only [hadd, List.length_append]
    constructor
    · rintro ⟨j, hj, h⟩
      by_cases hjl : j < lo.length
      · exact .inr ⟨j, hjl, h⟩
      · exact .inl ⟨j - lo.length, by omega, by rw [show lo.length + (j - lo.length) = j by omega]; exact h⟩
    · rintro (⟨j, hj, h⟩ | ⟨j, hj, h⟩)
      · exact ⟨_, by omega, h⟩
      · exact ⟨j, by omega, h⟩
  constructor
  · intro q pa hpa
    simp only [List.length_append] at hpa
    refine (h2.others (qt q) pa fun k hk => ?_).trans (h1.others q pa fun k hk => ?_)
    · rw [htr]; exact hpa k (by omega)
    · rw [hadd]; exact hpa _ (by omega)
  · intro q w k b hk hr
    by_cases hkl : k < lo.length
    · rw [List.getElem?_append_left hkl] at hk
      rw [← htr] at hr ⊢
      exact h2.stored (qt q) (g.wf w) k b hk (by rw [hbk]; exact hr)
    · rw [List.getElem?_append_right (by omega)] at hk
      have hlen : k - lo.length < hi.length := by
        by_contra hc
        rw [List.getElem?_eq_none (by omega)] at hk
        exact absurd hk (by simp)
      have hj : lo.length + (k - lo.length) = k := by omega
      have e := h1.stored q w (k - lo.length) b hk (by rw [hadd, hj]; exact hr)
      rw [hadd, hj] at e
      rw [← e]
      refine h2.others (qt q) _ fun i hi' => ?_
      rw [htr]
      exact (translate_add_ne s a (by omega) (by omega)).symm
  · intro q; rw [h2.schedule (qt q), h1.schedule q]
  · intro k
    rw [h2.accessedS k, h1.accessedS k, hon, hsup]
    simp only [ex]
    split <;> split <;> rename_i p1 p2
    · rw [if_pos ⟨p1.1, p1.2.1, .inl p2.2.2⟩, BitVec.or_assoc]; rfl
    · rw [if_pos ⟨p1.1, p1.2.1, .inr p1.2.2⟩]
    · rw [if_pos ⟨p2.1, p2.2.1, .inl p2.2.2⟩]
    · rw [if_neg]; rintro ⟨c1, c2, c3 | c3⟩
      · exact p2 ⟨c1, c2, c3⟩
      · exact p1 ⟨c1, c2, c3⟩
  · intro k
    rw [h2.accessedU k, h1.accessedU k, hon, hsup]
    simp only [ex]
    split <;> split <;> rename_i p1 p2
    · rw [if_pos ⟨p1.1, p1.2.1, .inl p2.2.2⟩, BitVec.or_assoc]; rfl
    · rw [if_pos ⟨p1.1, p1.2.1, .inr p1.2.2⟩]
    · rw [if_pos ⟨p2.1, p2.2.1, .inl p2.2.2⟩]
    · rw [if_neg]; rintro ⟨c1, c2, c3 | c3⟩
      · exact p2 ⟨c1, c2, c3⟩
      · exact p1 ⟨c1, c2, c3⟩

/-! ## Pushes -/

/-- A push that is allowed. -/
theorem push_stores (v : Word) (s : State) (h : s.checkSized .write .word (s.sp - 2) = none) :
    ∃ t, push v s = .ok () t ∧ StoreStep (s.setSp (s.sp - 2)) t ∧ Stores (s.sp - 2) (bytesOfWord v) s t := by
  have hs := memWrite_stores .word (s.sp - 2) v (s.setSp (s.sp - 2))
  rcases memWrite_cases .word (s.sp - 2) v (s.setSp (s.sp - 2)) with ⟨f, hf, _⟩ | ⟨_, e, g⟩
  · rw [checkSized_setSp, h] at hf; cases hf
  · refine ⟨_, ?_, g, ?_⟩
    · rw [push, sp_setSp]; exact e
    · exact hs.congr (by simp) (by simp) (by simp) (by simp) (by simp) (by simp) (by simp) rfl rfl rfl rfl

/-- Pushes, all of which are allowed. -/
theorem pushAll_stores (words : List Word) (s : State) (hl : words.length ≤ 8192) (h : s.pushable words.length) :
    ∃ t, pushAll words s = .ok () t ∧ StoreStep (s.setSp (s.sp - BitVec.ofNat 16 (2 * words.length))) t ∧
      Stores (s.sp - BitVec.ofNat 16 (2 * words.length)) (words.reverse.flatMap bytesOfWord) s t := by
  induction words generalizing s with
  | nil =>
    have e : s.sp - BitVec.ofNat 16 (2 * ([] : List Word).length) = s.sp := by simp
    refine ⟨s, rfl, ?_, ?_⟩
    · rw [e, setSp_sp]
      exact ⟨rfl, id, fun _ _ => rfl, rfl, rfl, fun _ => rfl, fun _ => rfl, id⟩
    · constructor <;> simp
  | cons v rest ih =>
    have h0 : s.checkSized .write .word (s.sp - 2) = none := by simpa using h 0 (by simp)
    obtain ⟨t1, e1, g1, st1⟩ := push_stores v s h0
    have sp1 : t1.sp = s.sp - 2 := by
      have : t1.sp = (s.setSp (s.sp - 2)).sp := by rw [g1.only]; rfl
      rw [this, sp_setSp]
    have hp : t1.pushable rest.length := by
      intro k hk
      rw [sp1, sub_slot, g1.checkSized, checkSized_setSp]
      exact h (k + 1) (by simp; omega)
    obtain ⟨t, e2, g2, st2⟩ := ih t1 (by simp at hl; omega) hp
    rw [sp1, sub_slot] at g2 st2
    have g12 := (g1.setSp (s.sp - BitVec.ofNat 16 (2 * (rest.length + 1)))).trans g2
    rw [setSp_setSp] at g12
    refine ⟨t, by rw [pushAll, e1, bind_ok, e2], g12, ?_⟩
    have hlen : (rest.reverse.flatMap bytesOfWord).length = 2 * rest.length := by
      rw [List.length_flatMap]
      simp [bytesOfWord, Nat.mul_comm]
    have eb : s.sp - 2 = s.sp - BitVec.ofNat 16 (2 * (rest.length + 1)) +
        BitVec.ofNat 16 (rest.reverse.flatMap bytesOfWord).length := by
      rw [hlen, ← sub_slot, BitVec.sub_add_cancel]
    have st1' : Stores (s.sp - 2) (List.flatMap bytesOfWord [v]) (s.setSp (s.sp - 2)) t1 := by
      have : List.flatMap bytesOfWord [v] = bytesOfWord v := by simp
      rw [this]
      exact st1.congr (by simp) (by simp) (by simp) (by simp) (by simp) (by simp) (by simp) rfl rfl rfl rfl
    rw [eb] at st1'
    rw [List.reverse_cons, List.flatMap_append]
    have := Stores.append (a := s.sp - BitVec.ofNat 16 (2 * (rest.length + 1))) st1' st2 (by rw [← eb]; exact g1)
      (by simp only [hlen, List.flatMap_cons, List.flatMap_nil, List.append_nil, bytesOfWord, List.length_cons,
            List.length_nil] at hl ⊢; omega)
    exact this.congr (by simp) (by simp) (by simp) (by simp) (by simp) (by simp) (by simp) rfl rfl rfl rfl

/-! ## Registers and memory accesses -/

/-- A state with other registers. -/
def State.outer (s : State) (R : Vector Word 8) (F P U S : Word) : State :=
  { s with regs := R, fl := F, pc := P, usp := U, ssp := S }

/-- A result with its state changed. -/
def Res.mapState {α : Type} (g : State → State) : Res α → Res α
  | .ok v s => .ok v (g s)
  | .trap t s => .trap t (g s)
  | .refuse r => .refuse r

theorem physWrite_outer (s : State) (R : Vector Word 8) (F P U S : Word) (pa : PAddr) (v : Byte) :
    (s.outer R F P U S).physWrite pa v = (s.physWrite pa v).outer R F P U S := by
  show (match s.backing pa with
    | .ram => { s.outer R F P U S with mem := Mem.set s.mem pa.toNat v }
    | .rom | .absent | .active => s.outer R F P U S) = _
  unfold State.physWrite
  cases s.backing pa <;> rfl

theorem deviceWrites_outer (ws : List DeviceWrite) (s : State) (R : Vector Word 8) (F P U S : Word) :
    (s.outer R F P U S).deviceWrites ws = (s.deviceWrites ws).outer R F P U S := by
  induction ws generalizing s with
  | nil => rfl
  | cons w ws ih =>
    show ((s.outer R F P U S).physWrite w.addr w.value).deviceWrites ws = _
    rw [physWrite_outer, ih]; rfl

theorem busCycle_outer (s : State) (R : Vector Word 8) (F P U S : Word) :
    (s.outer R F P U S).busCycle = s.busCycle.outer R F P U S := by
  unfold State.busCycle
  show (match s.bus with
    | [] => s.outer R F P U S
    | ws :: rest => ({ s with bus := rest }.outer R F P U S).deviceWrites ws) = _
  cases s.bus with
  | nil => rfl
  | cons ws rest => exact deviceWrites_outer ws { s with bus := rest } R F P U S

theorem physRead_outer (s : State) (R : Vector Word 8) (F P U S : Word) (pa : PAddr) :
    (s.outer R F P U S).physRead pa = ((s.physRead pa).1, (s.physRead pa).2.outer R F P U S) := by
  show (match s.backing pa with
    | .ram | .rom => (Mem.get s.mem pa.toNat, s.outer R F P U S)
    | .absent => (0xFF, s.outer R F P U S)
    | .active => (Config.deviceByte s.freeCount pa, { s.outer R F P U S with freeCount := s.freeCount + 1 })) = _
  unfold State.physRead
  cases s.backing pa <;> rfl

/-- Reads do not look at the general registers, FL, PC and the stack pointers. -/
theorem memRead_outer (sz : Size) (a : Word) (s : State) (R : Vector Word 8) (F P U S : Word) :
    memRead sz a (s.outer R F P U S) = (memRead sz a s).mapState fun t => t.outer R F P U S := by
  have hc : (s.outer R F P U S).checkSized .read sz a = s.checkSized .read sz a := rfl
  have ht : ∀ x, (s.outer R F P U S).translate x = s.translate x := fun _ => rfl
  unfold memRead
  rw [hc]
  cases s.checkSized .read sz a with
  | some f => rfl
  | none =>
    cases sz with
    | byte => simp only [ht, State.readByte, busCycle_outer, physRead_outer]; rfl
    | word =>
      simp only [ht, State.readPair, State.readByte, busCycle_outer, physRead_outer]
      cases isAligned a <;> simp [Res.mapState]

/-- Writes do not either. -/
theorem memWrite_outer (sz : Size) (a v : Word) (s : State) (R : Vector Word 8) (F P U S : Word) :
    memWrite sz a v (s.outer R F P U S) = (memWrite sz a v s).mapState fun t => t.outer R F P U S := by
  have hc : (s.outer R F P U S).checkSized .write sz a = s.checkSized .write sz a := rfl
  have ht : ∀ x, (s.outer R F P U S).translate x = s.translate x := fun _ => rfl
  have htouch : ∀ (u : State) x, (u.outer R F P U S).touch x = (u.touch x).outer R F P U S := fun u x => by
    unfold State.touch
    show (if u.mmuOn then _ else _) = _
    cases u.mmuOn
    · rfl
    · show (if u.supervisor then _ else _) = _
      simp only [if_true]
      cases u.supervisor <;> rfl
  unfold memWrite
  rw [hc]
  cases s.checkSized .write sz a with
  | some f => rfl
  | none =>
    cases sz with
    | byte =>
      simp only [ht, State.storeSized, State.writeByte, State.touchSized, busCycle_outer, physWrite_outer, htouch,
        Res.mapState]
    | word =>
      simp only [ht, State.storeSized, State.writePair, State.writeByte, State.touchSized, busCycle_outer,
        physWrite_outer, Res.mapState]
      cases isAligned a <;> simp [htouch]

theorem readValue_outer (sz : Size) (a : Word) (s : State) (R : Vector Word 8) (F P U S : Word) :
    readValue sz a (s.outer R F P U S) = readValue sz a s := by
  unfold readValue
  rw [memRead_outer]
  cases memRead sz a s <;> rfl

/-! ## Reads -/

/-- A read that is allowed gives `readValue`; with no device writing, memory is as before. -/
theorem memRead_value {sz : Size} {a : Word} {s : State} (h : s.checkSized .read sz a = none) :
    ∃ t, memRead sz a s = .ok (readValue sz a s) t ∧ MemStep s t ∧ (s.quiet → sameMemory s t) := by
  rcases memRead_cases sz a s with ⟨f, hf, _⟩ | ⟨_, v, t, e, g⟩
  · rw [h] at hf; cases hf
  · refine ⟨t, by rw [readValue, e], g, fun q => ?_⟩
    have hpr : ∀ (u : State) pa, (u.physRead pa).2.mem = u.mem ∧ (u.physRead pa).2.bus = u.bus := fun u pa => by
      unfold State.physRead; split <;> exact ⟨rfl, rfl⟩
    have hq : ∀ (u : State) pa, u.quiet → (u.readByte pa).2.mem = u.mem ∧ (u.readByte pa).2.bus = u.bus :=
      fun u pa hu => by rw [State.readByte, busCycle_quiet hu]; exact hpr u pa
    unfold memRead at e
    rw [h] at e
    cases sz with
    | byte =>
      simp only [Res.ok.injEq] at e
      rw [← e.2]; exact hq s _ q
    | word =>
      simp only [Res.ok.injEq] at e
      rw [← e.2]
      have h0 := hq s (s.translate a) q
      unfold State.readPair
      cases isAligned a
      · have h1 := hq (s.readByte (s.translate a)).2 (s.translate (a + 1)) (by rw [State.quiet, h0.2]; exact q)
        exact ⟨h1.1.trans h0.1, h1.2.trans h0.2⟩
      · have h1 := hpr (s.readByte (s.translate a)).2 (s.translate (a + 1))
        exact ⟨h1.1.trans h0.1, h1.2.trans h0.2⟩

/-- A place in memory that may be read gives its value; the base a mode moves has moved. -/
theorem readPlace_value {sz : Size} {m : MemMode} {s : State}
    (h : s.checkSized .read sz (effectiveAddress m sz.bytes s) = none) :
    ∃ t, readPlace sz m s = .ok (readValue sz (effectiveAddress m sz.bytes s) s) t ∧
      t = { s with regs := movedRegs m sz.bytes s, mem := t.mem, bus := t.bus, freeCount := t.freeCount } ∧
      (s.quiet → sameMemory s t) := by
  obtain ⟨t, e, g, q⟩ := memRead_value h
  have key : ∀ R, memRead sz (effectiveAddress m sz.bytes s) { s with regs := R } =
      .ok (readValue sz (effectiveAddress m sz.bytes s) s) { t with regs := R } := fun R => by
    have := memRead_outer sz (effectiveAddress m sz.bytes s) s R s.fl s.pc s.usp s.ssp
    rw [e] at this
    have e2 : t.outer R s.fl s.pc s.usp s.ssp = { t with regs := R } := by rw [g.only]; rfl
    rw [show ({ s with regs := R } : State) = s.outer R s.fl s.pc s.usp s.ssp from rfl, this]
    simp only [Res.mapState, e2]
  have o := g.only
  unfold readPlace
  cases m with
  | preDec r =>
    refine ⟨{ t with regs := s.regs.set r (s.reg r - sz.bytes) }, ?_, ?_, q⟩
    · have := key (s.regs.set r (s.reg r - sz.bytes))
      simp only [lowerBase, State.setReg]
      rw [this]; rfl
    · rw [o]; rfl
  | postInc r =>
    refine ⟨{ t with regs := s.regs.set r (s.reg r + sz.bytes) }, ?_, ?_, q⟩
    · simp only [lowerBase]
      rw [e, bind_ok]
      simp only [raiseBase, State.setReg, effectiveAddress]
      rw [show t.regs = s.regs by rw [o]]
    · rw [o]; rfl
  | abs x => exact ⟨t, by simp only [lowerBase]; rw [e]; rfl, o, q⟩
  | ind r => exact ⟨t, by simp only [lowerBase]; rw [e]; rfl, o, q⟩
  | offset r x => exact ⟨t, by simp only [lowerBase]; rw [e]; rfl, o, q⟩
  | stack r => exact ⟨t, by simp only [lowerBase]; rw [e]; rfl, o, q⟩
  | indexed r i => exact ⟨t, by simp only [lowerBase]; rw [e]; rfl, o, q⟩

/-- An ALU operand that may be read gives its value. -/
theorem readOperand_value {sz : Size} {m : AluOperand} {s : State} (h : operandReadable sz m s) :
    ∃ t, readOperand sz m s = .ok (operandValue sz m s) t ∧
      t = { s with regs := aluRegs sz m s, mem := t.mem, bus := t.bus, freeCount := t.freeCount } ∧
      (s.quiet ∨ aluInMemory m = false → sameMemory s t) := by
  cases m with
  | imm v => exact ⟨s, rfl, rfl, fun _ => ⟨rfl, rfl⟩⟩
  | reg r => exact ⟨s, rfl, rfl, fun _ => ⟨rfl, rfl⟩⟩
  | proc p =>
    refine ⟨s, ?_, rfl, fun _ => ⟨rfl, rfl⟩⟩
    have hp : procAllowed s p = true := h
    simp only [readOperand, hp, if_true]; rfl
  | mem mode =>
    obtain ⟨t, e, o, q⟩ := readPlace_value (s := s) (m := mode) (sz := sz) h
    refine ⟨t, ?_, o, fun c => q (by simpa [aluInMemory] using c)⟩
    simp only [readOperand, e, bind_ok]; rfl

/-- An operand in memory that may not be read raises BankFault with a PreDec base lowered. -/
theorem readPlace_fault {sz : Size} {m : MemMode} {s : State} {f : BankFault}
    (h : s.checkSized .read sz (effectiveAddress m sz.bytes s) = some f) :
    readPlace sz m s = .trap (.bankFault f) { s with regs := loweredRegs m sz.bytes s } := by
  unfold readPlace
  have key : ∀ R, memRead sz (effectiveAddress m sz.bytes s) { s with regs := R } =
      .trap (.bankFault f) { s with regs := R } := fun R => by
    unfold memRead
    rw [show ({ s with regs := R } : State).checkSized .read sz (effectiveAddress m sz.bytes s) =
      s.checkSized .read sz (effectiveAddress m sz.bytes s) from rfl, h]
  cases m <;> simp only [lowerBase, State.setReg] <;> (rw [key]; rfl)

/-! ## What a read depends on -/

/-- A physical read looks at memory, at what stands behind the address, and at the free value. -/
theorem physRead_congr {s t : State} {pa : PAddr} (hm : t.mem = s.mem) (hf : t.freeCount = s.freeCount)
    (hb : t.backing pa = s.backing pa) : (t.physRead pa).1 = (s.physRead pa).1 := by
  unfold State.physRead
  rw [hb, hm, hf]
  cases s.backing pa <;> rfl

theorem byteAt_congr {s t : State} {a : Word} (hm : t.mem = s.mem) (hf : t.freeCount = s.freeCount)
    (ht : ∀ a, t.translate a = s.translate a) (hb : ∀ pa, t.backing pa = s.backing pa) : t.byteAt a = s.byteAt a := by
  unfold State.byteAt; rw [ht]; exact physRead_congr hm hf (hb _)

theorem wordAt_congr {s t : State} {a : Word} (hm : t.mem = s.mem) (hf : t.freeCount = s.freeCount)
    (ht : ∀ a, t.translate a = s.translate a) (hb : ∀ pa, t.backing pa = s.backing pa) : t.wordAt a = s.wordAt a := by
  unfold State.wordAt; rw [byteAt_congr hm hf ht hb, byteAt_congr hm hf ht hb]

/-- A byte of RAM is the byte memory holds. -/
theorem byteAt_ram {s : State} {a : Word} (h : s.backing (s.translate a) = .ram) :
    s.byteAt a = s.peek (s.translate a) := physRead_peek (.inl h)

theorem wordAt_setSp (s : State) (v a : Word) : (s.setSp v).wordAt a = s.wordAt a :=
  wordAt_congr (by simp) (by simp) (by simp) (by simp)

/-! ## Pops -/

/-- A pop that is allowed. -/
theorem pop_value {s : State} (h : s.checkSized .read .word s.sp = none) :
    ∃ t, pop s = .ok (readValue .word s.sp s) t ∧
      t = { s.setSp (s.sp + 2) with mem := t.mem, bus := t.bus, freeCount := t.freeCount } ∧
      (s.quiet → sameMemory s t) ∧
      (s.quiet → s.plainFrom s.sp 2 → t = s.setSp (s.sp + 2) ∧ readValue .word s.sp s = s.wordAt s.sp) := by
  obtain ⟨t, e, g, q⟩ := memRead_value h
  have hsp : t.sp = s.sp := by rw [g.only]; rfl
  refine ⟨t.setSp (s.sp + 2), by rw [pop, e, bind_ok, hsp], ?_, ?_, ?_⟩
  · have ht : t.supervisor = s.supervisor := by rw [g.only]; rfl
    simp only [mem_setSp, bus_setSp, freeCount_setSp]
    cases hs : s.supervisor
    · rw [usp_setSp_user t _ (ht.trans hs), usp_setSp_user s _ hs, g.only]
    · rw [ssp_setSp_supervisor t _ (ht.trans hs), ssp_setSp_supervisor s _ hs, g.only]
  · intro hq; have := q hq; exact ⟨by simp [this.1], by simp [this.2]⟩
  · intro hq hp
    have := memRead_quiet (sz := .word) hq h (by intro k hk; exact hp k hk)
    rw [e] at this
    injection this with a b
    rw [b]; exact ⟨rfl, a⟩

/-! ## Writes to a place -/

/-- A place in memory that may be written takes the value; the base a mode moves has moved. -/
theorem writePlace_stores {sz : Size} {m : MemMode} {v : Word} {s : State}
    (h : s.checkSized .write sz (effectiveAddress m sz.bytes s) = none) :
    ∃ t, writePlace sz m v s = .ok () t ∧
      t = { s with
        regs := movedRegs m sz.bytes s, mem := t.mem, bus := t.bus, freeCount := t.freeCount, mmuU := t.mmuU,
        mmuS := t.mmuS } ∧
      Stores (effectiveAddress m sz.bytes s) ((bytesOfWord v).take (sz.bits / 8)) s t := by
  have st := memWrite_stores sz (effectiveAddress m sz.bytes s) v s
  rcases memWrite_cases sz (effectiveAddress m sz.bytes s) v s with ⟨f, hf, _⟩ | ⟨_, e, g⟩
  · rw [h] at hf; cases hf
  · generalize hu : (s.storeSized sz (effectiveAddress m sz.bytes s) v).touchSized sz (effectiveAddress m sz.bytes s) = u
      at e g st
    have key : ∀ R, memWrite sz (effectiveAddress m sz.bytes s) v { s with regs := R } =
        .ok () { u with regs := R } := fun R => by
      have := memWrite_outer sz (effectiveAddress m sz.bytes s) v s R s.fl s.pc s.usp s.ssp
      rw [e] at this
      have e2 : u.outer R s.fl s.pc s.usp s.ssp = { u with regs := R } := by rw [g.only]; rfl
      rw [show ({ s with regs := R } : State) = s.outer R s.fl s.pc s.usp s.ssp from rfl, this]
      simp only [Res.mapState, e2]
    have o := g.only
    have st' : ∀ R, Stores (effectiveAddress m sz.bytes s) ((bytesOfWord v).take (sz.bits / 8)) s { u with regs := R } :=
      fun R => st.congr rfl rfl rfl rfl rfl rfl rfl rfl rfl rfl rfl
    unfold writePlace
    cases m with
    | preDec r =>
      refine ⟨{ u with regs := s.regs.set r (s.reg r - sz.bytes) }, ?_, by rw [o]; rfl, st' _⟩
      simp only [lowerBase, State.setReg]
      rw [key]; rfl
    | postInc r =>
      refine ⟨{ u with regs := s.regs.set r (s.reg r + sz.bytes) }, ?_, by rw [o]; rfl, st' _⟩
      simp only [lowerBase]
      rw [e, bind_ok]
      simp only [raiseBase, State.setReg, effectiveAddress]
      rw [show u.regs = s.regs by rw [o]]
    | abs x => exact ⟨u, by simp only [lowerBase]; rw [e]; rfl, o, st⟩
    | ind r => exact ⟨u, by simp only [lowerBase]; rw [e]; rfl, o, st⟩
    | offset r x => exact ⟨u, by simp only [lowerBase]; rw [e]; rfl, o, st⟩
    | stack r => exact ⟨u, by simp only [lowerBase]; rw [e]; rfl, o, st⟩
    | indexed r i => exact ⟨u, by simp only [lowerBase]; rw [e]; rfl, o, st⟩

/-- A write to a place that may not be written raises BankFault with a PreDec base lowered. -/
theorem writePlace_fault {sz : Size} {m : MemMode} {v : Word} {s : State} {f : BankFault}
    (h : s.checkSized .write sz (effectiveAddress m sz.bytes s) = some f) :
    writePlace sz m v s = .trap (.bankFault f) { s with regs := loweredRegs m sz.bytes s } := by
  unfold writePlace
  have key : ∀ R, memWrite sz (effectiveAddress m sz.bytes s) v { s with regs := R } =
      .trap (.bankFault f) { s with regs := R } := fun R => by
    unfold memWrite
    rw [show ({ s with regs := R } : State).checkSized .write sz (effectiveAddress m sz.bytes s) =
      s.checkSized .write sz (effectiveAddress m sz.bytes s) from rfl, h]
  cases m <;> simp only [lowerBase, State.setReg] <;> (rw [key]; rfl)

/-! ## Jump operands -/

/-- A near operand that may be read gives the target. -/
theorem readNear_value {m : JmpOperand} {s : State} (h : nearReadable m s) :
    ∃ t, readNear m s = .ok (nearValue m s) t ∧
      t = { s with regs := nearRegs m s, mem := t.mem, bus := t.bus, freeCount := t.freeCount } ∧
      (s.quiet ∨ nearInMemory m = false → sameMemory s t) := by
  cases m with
  | imm v => exact ⟨s, rfl, rfl, fun _ => ⟨rfl, rfl⟩⟩
  | reg r => exact ⟨s, rfl, rfl, fun _ => ⟨rfl, rfl⟩⟩
  | mem mode =>
    obtain ⟨t, e, o, q⟩ := readPlace_value (s := s) (m := mode) (sz := .word) h
    exact ⟨t, e, o, fun c => q (by simpa [nearInMemory] using c)⟩

/-- Far operands that may be read give the two words, the lower one read first. -/
theorem readFar_value {m : FarOperand} {s : State} (h : farReadable m s) :
    ∃ t, readFar m s = .ok (farValue m s) t ∧
      t = { s with regs := farRegs m s, mem := t.mem, bus := t.bus, freeCount := t.freeCount } ∧
      (s.quiet ∨ farInMemory m = false → sameMemory s t) := by
  cases m with
  | imm v w => exact ⟨s, rfl, rfl, fun _ => ⟨rfl, rfl⟩⟩
  | reg r => exact ⟨s, rfl, rfl, fun _ => ⟨rfl, rfl⟩⟩
  | mem mode =>
    obtain ⟨h1, h2⟩ := h
    obtain ⟨t, e, g, q⟩ := memRead_value h1
    have h2' : t.checkSized .read .word (effectiveAddress mode 4 s + (farOffsets mode).2) = none := by
      rw [g.checkSized]; exact h2
    obtain ⟨u, e', g', q'⟩ := memRead_value h2'
    have hv : farValue (.mem mode) s =
        (readValue .word (effectiveAddress mode 4 s + (farOffsets mode).1) s,
          readValue .word (effectiveAddress mode 4 s + (farOffsets mode).2) t) := by
      simp only [farValue, e]
    have key : ∀ R (x : Word) (a b : State) (v : Word), memRead .word x a = .ok v b → a.fl = b.fl → a.pc = b.pc →
        a.usp = b.usp → a.ssp = b.ssp → memRead .word x { a with regs := R } = .ok v { b with regs := R } :=
      fun R x a b v hr h1 h2 h3 h4 => by
        have := memRead_outer .word x a R a.fl a.pc a.usp a.ssp
        rw [hr] at this
        rw [show ({ a with regs := R } : State) = a.outer R a.fl a.pc a.usp a.ssp from rfl, this]
        simp only [Res.mapState, State.outer, h1, h2, h3, h4]
    have k1 := fun R => key R _ s t _ e (by rw [g.only]) (by rw [g.only]) (by rw [g.only]) (by rw [g.only])
    have k2 := fun R => key R _ t u _ e' (by rw [g'.only]) (by rw [g'.only]) (by rw [g'.only]) (by rw [g'.only])
    have o : u = { s with mem := u.mem, bus := u.bus, freeCount := u.freeCount } := (g.trans g').only
    have qq : s.quiet ∨ farInMemory (.mem mode) = false → sameMemory s u := fun c => by
      have hq : s.quiet := by simpa [farInMemory] using c
      have a := q hq
      have b := q' (by rw [State.quiet, a.2]; exact hq)
      exact ⟨b.1.trans a.1, b.2.trans a.2⟩
    simp only [readFar, readFarPlace, hv]
    cases mode with
    | preDec r =>
      refine ⟨{ u with regs := s.regs.set r (s.reg r - 4) }, ?_, by rw [o]; rfl, qq⟩
      simp only [lowerBase, State.setReg]
      rw [k1, bind_ok, k2]; rfl
    | postInc r =>
      refine ⟨{ u with regs := s.regs.set r (s.reg r + 4) }, ?_, by rw [o]; rfl, qq⟩
      simp only [lowerBase]
      rw [e, bind_ok, e', bind_ok]
      simp only [raiseBase, State.setReg, effectiveAddress]
      rw [show u.regs = s.regs by rw [o]]
    | abs x => exact ⟨u, by simp only [lowerBase]; rw [e, bind_ok, e']; rfl, o, qq⟩
    | ind r => exact ⟨u, by simp only [lowerBase]; rw [e, bind_ok, e']; rfl, o, qq⟩
    | offset r x => exact ⟨u, by simp only [lowerBase]; rw [e, bind_ok, e']; rfl, o, qq⟩
    | stack r => exact ⟨u, by simp only [lowerBase]; rw [e, bind_ok, e']; rfl, o, qq⟩
    | indexed r i => exact ⟨u, by simp only [lowerBase]; rw [e, bind_ok, e']; rfl, o, qq⟩

/-! ## Fetch -/

/-- The fetch of an instruction from plain memory with no device writing gives what the decoder gives on the words
there, and changes nothing. -/
theorem fetch_quiet {s : State} (hq : s.quiet)
    (hc : ∀ k < wordCount (s.wordAt s.pc), s.checkSized .read .word (s.pc + BitVec.ofNat 16 (2 * k)) = none)
    (hp : s.plainFrom s.pc (2 * wordCount (s.wordAt s.pc))) :
    fetch s = .ok (decodeWords (s.wordAt s.pc)
      (if 2 ≤ wordCount (s.wordAt s.pc) then s.wordAt (s.pc + 2) else 0)
      (if wordCount (s.wordAt s.pc) = 3 then s.wordAt (s.pc + 4) else 0)) s := by
  have hw : wordCount (s.wordAt s.pc) = 1 ∨ wordCount (s.wordAt s.pc) = 2 ∨ wordCount (s.wordAt s.pc) = 3 := by
    simp only [wordCount]; split_ifs <;> simp
  have rd : ∀ k < wordCount (s.wordAt s.pc), memRead .word (s.pc + BitVec.ofNat 16 (2 * k)) s =
      .ok (s.wordAt (s.pc + BitVec.ofNat 16 (2 * k))) s := fun k hk =>
    memRead_quiet (sz := .word) hq (hc k hk) fun j hj => by
      have := hp (2 * k + j) (by simp only [sizeBytes] at hj; omega)
      rwa [BitVec.ofNat_add, ← BitVec.add_assoc] at this
  have r0 : memRead .word s.pc s = .ok (s.wordAt s.pc) s := by simpa using rd 0 (by omega)
  unfold fetch fetchOperands
  rw [r0, bind_ok]
  rcases hw with h | h | h
  · rw [h]; rfl
  · have r1 := rd 1 (by omega)
    simp only [Nat.mul_one] at r1
    rw [h]
    simp only [show (BitVec.ofNat 16 2 : Word) = 2 from rfl] at r1
    simp only [r1, bind_ok]; rfl
  · have r1 := rd 1 (by omega)
    have r2 := rd 2 (by omega)
    simp only [Nat.mul_one, Nat.reduceMul, show (BitVec.ofNat 16 2 : Word) = 2 from rfl,
      show (BitVec.ofNat 16 4 : Word) = 4 from rfl] at r1 r2
    rw [h]
    simp only [r1, r2, bind_ok]; rfl

end Sys2Proof.Machine
end

