-- ==== Sys2Proof/Laws/Steps.lean ====
section
/-! SUPPORT. What every part of an instruction keeps: the parameters, the canonical form of memory, the bytes that are
no RAM, an RTC rate that is allowed; and in User mode the supervisor's part of the state. One lemma for each shared
operation; statements over all instructions are assembled from them. -/

namespace Sys2Proof.Machine

/-! ## The relations -/

/-- What every step of the machine keeps while the bus does not change. -/
structure Keeps (s t : State) : Prop where
  platform : t.platform = s.platform
  devices : t.devices = s.devices
  wf : Mem.wf s.mem = true → Mem.wf t.mem = true
  bytes : ∀ pa : PAddr, s.backing pa ≠ .ram → t.peek pa = s.peek pa
  rtc : rtcWf s.rtc s.platform = true → rtcWf t.rtc t.platform = true
  quiet : s.quiet → t.quiet

/-- What a part of an instruction keeps that any mode may run. -/
structure SafeStep (s t : State) : Prop extends Keeps s t where
  user : s.supervisor = false → t.supervisorState = s.supervisorState

/-- The backing of an address depends on the parameters and the devices only. -/
theorem backing_of_eq {s t : State} (hp : t.platform = s.platform) (hd : t.devices = s.devices) (pa : PAddr) :
    t.backing pa = s.backing pa := by
  simp only [State.backing, hp, hd]

theorem Keeps.refl (s : State) : Keeps s s := ⟨rfl, rfl, id, fun _ _ => rfl, id, id⟩

theorem Keeps.trans {s t u : State} (h : Keeps s t) (g : Keeps t u) : Keeps s u where
  platform := g.platform.trans h.platform
  devices := g.devices.trans h.devices
  wf := fun w => g.wf (h.wf w)
  bytes := fun pa hp =>
    (g.bytes pa (by rw [backing_of_eq h.platform h.devices]; exact hp)).trans (h.bytes pa hp)
  rtc := fun w => g.rtc (h.rtc w)
  quiet := fun q => g.quiet (h.quiet q)

theorem SafeStep.refl (s : State) : SafeStep s s := ⟨Keeps.refl s, fun _ => rfl⟩

/-- The mode is a part of the supervisor's state. -/
theorem supervisor_of_supervisorState {s t : State} (h : t.supervisorState = s.supervisorState) :
    t.supervisor = s.supervisor := by
  have : t.ps = s.ps := congrArg SupervisorState.ps h
  simp only [State.supervisor, this]

theorem SafeStep.trans {s t u : State} (h : SafeStep s t) (g : SafeStep t u) : SafeStep s u where
  toKeeps := h.toKeeps.trans g.toKeeps
  user := fun e => (g.user (by rw [supervisor_of_supervisorState (h.user e)]; exact e)).trans (h.user e)

/-- A change of fields that are no part of the supervisor's state, memory or the schedule. -/
theorem safeStep_of_eq {s t : State} (h : t.supervisorState = s.supervisorState) (hm : t.mem = s.mem)
    (hb : t.bus = s.bus) : SafeStep s t where
  platform := congrArg SupervisorState.platform h
  devices := congrArg SupervisorState.devices h
  wf := fun w => by rw [hm]; exact w
  bytes := fun pa _ => by simp only [State.peek, hm]
  rtc := fun w => by
    rw [show t.rtc = s.rtc from congrArg SupervisorState.rtc h,
      show t.platform = s.platform from congrArg SupervisorState.platform h]
    exact w
  quiet := fun q => hb.trans q
  user := fun _ => h

/-! ## Results -/

/-- A property of every state a part of an instruction can leave, completed or not. -/
def Res.All {α : Type} (P : State → Prop) : Res α → Prop
  | .ok _ s => P s
  | .trap _ s => P s
  | .refuse _ => True

theorem Res.All.mono {α : Type} {P Q : State → Prop} {x : Res α} (h : x.All P) (hpq : ∀ t, P t → Q t) : x.All Q := by
  cases x with
  | ok _ _ => exact hpq _ h
  | trap _ _ => exact hpq _ h
  | refuse _ => trivial

theorem Res.All.bind {α β : Type} {s : State} {x : Res α} {k : α → State → Res β} (h : x.All (SafeStep s))
    (hk : ∀ v t, (k v t).All (SafeStep t)) : (x.bind k).All (SafeStep s) := by
  cases x with
  | ok v t => exact (hk v t).mono fun _ g => SafeStep.trans h g
  | trap _ _ => exact h
  | refuse _ => trivial

/-- The same for a part that only a supervisor runs. -/
theorem Res.All.bindKeeps {α β : Type} {s : State} {x : Res α} {k : α → State → Res β} (h : x.All (Keeps s))
    (hk : ∀ v t, (k v t).All (Keeps t)) : (x.bind k).All (Keeps s) := by
  cases x with
  | ok v t => exact (hk v t).mono fun _ g => Keeps.trans h g
  | trap _ _ => exact h
  | refuse _ => trivial

/-! ## Updates -/

theorem setReg_safe (s : State) (r : Reg) (v : Word) : SafeStep s (s.setReg r v) := safeStep_of_eq rfl rfl rfl
theorem setPc_safe (s : State) (v : Word) : SafeStep s (s.setPc v) := safeStep_of_eq rfl rfl rfl
theorem setFlags_safe (s : State) (f : Flags) : SafeStep s (s.setFlags f) := safeStep_of_eq rfl rfl rfl

theorem setSp_safe (s : State) (v : Word) : SafeStep s (s.setSp v) where
  platform := by simp
  devices := by simp
  wf := by simp
  bytes := by simp [State.peek]
  rtc := by simp
  quiet := by simp [State.quiet]
  user := fun e => by rw [usp_setSp_user s v e]; rfl

/-- In User mode a processor register may be written only where the mode may name it (R143). -/
theorem setProc_safe (s : State) (p : ProcReg) (v : Word) (h : procAllowed s p = true) :
    SafeStep s (s.setProc p v) := by
  cases p
  case sp => exact setSp_safe s v
  case fl => exact safeStep_of_eq rfl rfl rfl
  case pc => exact safeStep_of_eq rfl rfl rfl
  case usp => exact safeStep_of_eq rfl rfl rfl
  all_goals
    refine ⟨⟨rfl, rfl, id, fun _ _ => rfl, id, id⟩, fun e => ?_⟩
    simp [procAllowed, supervisorOnly, e] at h

theorem setProc_keeps (s : State) (p : ProcReg) (v : Word) : Keeps s (s.setProc p v) := by
  cases p
  case sp => exact (setSp_safe s v).toKeeps
  all_goals exact ⟨rfl, rfl, id, fun _ _ => rfl, id, id⟩

theorem lowerBase_safe (m : MemMode) (n : Word) (s : State) : SafeStep s (lowerBase m n s) := by
  cases m
  case preDec r => exact setReg_safe s r _
  all_goals exact SafeStep.refl s

theorem raiseBase_safe (m : MemMode) (n a : Word) (s : State) : SafeStep s (raiseBase m n a s) := by
  cases m
  case postInc r => exact setReg_safe s r _
  all_goals exact SafeStep.refl s

/-! ## Memory -/

theorem MemStep.safe {s t : State} (h : MemStep s t) : SafeStep s t where
  platform := by rw [h.only]
  devices := by rw [h.only]
  wf := h.wf
  bytes := h.keeps
  rtc := fun w => by rw [h.only]; exact w
  quiet := h.quiet
  user := fun _ => by rw [h.only]; rfl

theorem StoreStep.safe {s t : State} (h : StoreStep s t) : SafeStep s t where
  platform := by rw [h.only]
  devices := by rw [h.only]
  wf := h.wf
  bytes := h.keeps
  rtc := fun w => by rw [h.only]; exact w
  quiet := h.quiet
  user := fun e => by
    have hs := h.user e
    have hu := h.accU
    rw [h.only]
    simp only [State.supervisorState, hs, hu]

theorem memRead_safe (sz : Size) (a : Word) (s : State) : (memRead sz a s).All (SafeStep s) := by
  rcases memRead_cases sz a s with ⟨f, _, h⟩ | ⟨_, v, t, h, g⟩
  · rw [h]; exact SafeStep.refl s
  · rw [h]; exact g.safe

theorem memWrite_safe (sz : Size) (a v : Word) (s : State) : (memWrite sz a v s).All (SafeStep s) := by
  rcases memWrite_cases sz a v s with ⟨f, _, h⟩ | ⟨_, h, g⟩
  · rw [h]; exact SafeStep.refl s
  · rw [h]; exact g.safe

theorem readPlace_safe (sz : Size) (m : MemMode) (s : State) : (readPlace sz m s).All (SafeStep s) :=
  Res.All.bind ((memRead_safe sz _ _).mono fun _ g => (lowerBase_safe m _ s).trans g)
    fun _ t => raiseBase_safe m _ _ t

theorem writePlace_safe (sz : Size) (m : MemMode) (v : Word) (s : State) : (writePlace sz m v s).All (SafeStep s) :=
  Res.All.bind ((memWrite_safe sz _ v _).mono fun _ g => (lowerBase_safe m _ s).trans g)
    fun _ t => raiseBase_safe m _ _ t

theorem readOperand_safe (sz : Size) (m : AluOperand) (s : State) : (readOperand sz m s).All (SafeStep s) := by
  cases m with
  | imm v => exact SafeStep.refl s
  | proc p =>
    simp only [readOperand]
    split
    · exact SafeStep.refl s
    · exact SafeStep.refl s
  | reg r => exact SafeStep.refl s
  | mem mode => exact Res.All.bind (readPlace_safe sz mode s) fun _ t => SafeStep.refl t

theorem readNear_safe (m : JmpOperand) (s : State) : (readNear m s).All (SafeStep s) := by
  cases m with
  | imm v => exact SafeStep.refl s
  | reg r => exact SafeStep.refl s
  | mem mode => exact readPlace_safe .word mode s

theorem readFar_safe (m : FarOperand) (s : State) : (readFar m s).All (SafeStep s) := by
  cases m with
  | imm l u => exact SafeStep.refl s
  | reg r => exact SafeStep.refl s
  | mem mode =>
    exact Res.All.bind ((memRead_safe .word _ _).mono fun _ g => (lowerBase_safe mode _ s).trans g) fun _ t =>
      Res.All.bind (memRead_safe .word _ t) fun _ u => raiseBase_safe mode _ _ u

/-! ## The stack -/

/-- Everything a push can do: SP is lowered; then the store is refused, or it completes. -/
theorem push_cases (v : Word) (s : State) :
    (∃ f, s.checkSized .write .word (s.sp - 2) = some f ∧
      push v s = .trap (.bankFault f) (s.setSp (s.sp - 2))) ∨
    (s.checkSized .write .word (s.sp - 2) = none ∧ ∃ t, push v s = .ok () t ∧ StoreStep (s.setSp (s.sp - 2)) t) := by
  have h := memWrite_cases .word (s.setSp (s.sp - 2)).sp v (s.setSp (s.sp - 2))
  rw [sp_setSp, checkSized_setSp] at h
  rcases h with ⟨f, hf, hr⟩ | ⟨hn, hr, hs⟩
  · exact .inl ⟨f, hf, by rw [push, sp_setSp]; exact hr⟩
  · exact .inr ⟨hn, _, by rw [push, sp_setSp]; exact hr, hs⟩

/-- Everything a pop can do: the read is refused and nothing changes, or it completes and SP is raised. -/
theorem pop_cases (s : State) :
    (∃ f, s.checkSized .read .word s.sp = some f ∧ pop s = .trap (.bankFault f) s) ∨
    (s.checkSized .read .word s.sp = none ∧
      ∃ v t, pop s = .ok v (t.setSp (s.sp + 2)) ∧ memRead .word s.sp s = .ok v t ∧ MemStep s t) := by
  rcases memRead_cases .word s.sp s with ⟨f, hf, h⟩ | ⟨hn, v, t, h, g⟩
  · exact .inl ⟨f, hf, by rw [pop, h]; rfl⟩
  · refine .inr ⟨hn, v, t, ?_, h, g⟩
    have e : t.sp = s.sp := by rw [g.only]; rfl
    rw [pop, h, bind_ok, e]

theorem push_safe (v : Word) (s : State) : (push v s).All (SafeStep s) :=
  (memWrite_safe .word _ v _).mono fun _ g => (setSp_safe s _).trans g

theorem pop_safe (s : State) : (pop s).All (SafeStep s) :=
  Res.All.bind (memRead_safe .word s.sp s) fun _ t => setSp_safe t _

theorem pushAll_safe (vs : List Word) (s : State) : (pushAll vs s).All (SafeStep s) := by
  induction vs generalizing s with
  | nil => exact SafeStep.refl s
  | cons v rest ih => exact Res.All.bind (push_safe v s) fun _ t => ih t

theorem popRegs_safe (rs : List Reg) (s : State) : (popRegs rs s).All (SafeStep s) := by
  induction rs generalizing s with
  | nil => exact SafeStep.refl s
  | cons r rest ih =>
    exact Res.All.bind (pop_safe s) fun v t => (ih (t.setReg r v)).mono fun _ g => (setReg_safe t r v).trans g

/-! ## Interrupts -/

/-- The saved PS with S set is Supervisor mode, whatever the interrupt (R295 step 2). -/
theorem entryPs_supervisor (i : Interrupt) (ps : Word) : (i.entryPs ps).getLsbD 15 = true := by
  cases i <;> simp only [Interrupt.entryPs, getLsbD_putBit, Nat.reduceLT, Nat.reduceEqDiff, if_true, if_false]

theorem enter_supervisor (i : Interrupt) (s : State) : (s.enter i).supervisor = true := by
  cases i <;> exact entryPs_supervisor _ s.ps

/-- What taking an interrupt leaves: PS as the sequence sets it, two words less on the supervisor stack, PC at the
handler; memory and the A flags of the supervisor half may differ; nothing else does (R295). -/
structure Entered (i : Interrupt) (s t : State) : Prop where
  only : t = { s with
    ps := i.entryPs s.ps, tempPs := s.ps, p2 := (s.enter i).p2, ssp := s.ssp - 4, pc := t.pc, halted := false,
    mem := t.mem, bus := t.bus, freeCount := t.freeCount, mmuS := t.mmuS }
  wf : Mem.wf s.mem = true → Mem.wf t.mem = true
  bytes : ∀ pa : PAddr, s.backing pa ≠ .ram → t.peek pa = s.peek pa
  accS : t.mmuS.map withoutAccessed = s.mmuS.map withoutAccessed
  quiet : s.quiet → t.quiet

theorem backing_enter (s : State) (i : Interrupt) (pa : PAddr) : (s.enter i).backing pa = s.backing pa := by
  cases i <;> rfl

/-- Everything taking an interrupt can do: it enters the handler, or it is stuck. -/
theorem takeInterrupt_cases (i : Interrupt) (savedPc : Word) (s : State) :
    (∃ t, takeInterrupt i savedPc s = .next t ∧ Entered i s t) ∨
    takeInterrupt i savedPc s = .fault .stuckInInterrupt := by
  have sup := enter_supervisor i s
  unfold takeInterrupt interruptFrame
  rcases push_cases (s.enter i).tempPs (s.enter i) with ⟨f, _, h1⟩ | ⟨_, t1, h1, g1⟩
  · rw [h1]; exact .inr rfl
  rw [h1, bind_ok]
  rcases push_cases savedPc t1 with ⟨f, _, h2⟩ | ⟨_, t2, h2, g2⟩
  · rw [h2]; exact .inr rfl
  rw [h2, bind_ok]
  rcases memRead_cases .word (t2.ia + 2 * i.index) t2 with ⟨f, _, h3⟩ | ⟨_, v, t3, h3, g3⟩
  · rw [h3]; exact .inr rfl
  rw [h3]
  refine .inl ⟨_, rfl, ?_⟩
  have e1 : (s.enter i).setSp ((s.enter i).sp - 2) = { s.enter i with ssp := s.ssp - 2 } := by
    rw [ssp_setSp_supervisor _ _ sup, sp_of_supervisor _ sup]; cases i <;> rfl
  rw [e1] at g1
  have sup1 : t1.supervisor = true := by rw [g1.only]; exact sup
  have ssp1 : t1.ssp = s.ssp - 2 := by rw [g1.only]
  have e2 : t1.setSp (t1.sp - 2) = { t1 with ssp := s.ssp - 4 } := by
    rw [ssp_setSp_supervisor _ _ sup1, sp_of_supervisor _ sup1, ssp1]
    have : s.ssp - 2 - 2 = s.ssp - 4 := by bv_omega
    rw [this]
  rw [e2] at g2
  have b1 : ∀ pa, t1.backing pa = s.backing pa := fun pa => by rw [g1.only]; exact backing_enter s i pa
  have b2 : ∀ pa, t2.backing pa = s.backing pa := fun pa => by rw [g2.only]; exact b1 pa
  have m0 : (s.enter i).mem = s.mem := by cases i <;> rfl
  have u1 : t1.mmuU = s.mmuU := (g1.sup (by exact sup)).trans (by cases i <;> rfl)
  have u2 : t2.mmuU = s.mmuU := (g2.sup (by exact sup1)).trans u1
  refine ⟨?_, fun w => ?_, fun pa hp => ?_, ?_, fun q => ?_⟩
  · have o1 := g1.only
    have o2 := g2.only
    have o3 := g3.only
    rw [u1] at o1
    rw [u2] at o2
    rw [o3, o2, o1]
    cases i <;> rfl
  · exact g3.wf (g2.wf (g1.wf (by show Mem.wf (s.enter i).mem = true; rw [m0]; exact w)))
  · have p0 : ({ s.enter i with ssp := s.ssp - 2 } : State).peek pa = s.peek pa := by
      show Mem.get (s.enter i).mem _ = _; rw [m0]; rfl
    have p1 := g1.keeps pa (by show (s.enter i).backing pa ≠ .ram; rw [backing_enter]; exact hp)
    have p2 := g2.keeps pa (by show t1.backing pa ≠ .ram; rw [b1]; exact hp)
    have p3 := g3.keeps pa (by rw [b2]; exact hp)
    exact p3.trans (p2.trans (p1.trans p0))
  · have a3 : t3.mmuS = t2.mmuS := by rw [g3.only]
    show t3.mmuS.map withoutAccessed = _
    rw [a3, g2.accS]
    show t1.mmuS.map withoutAccessed = _
    rw [g1.accS]
    show (s.enter i).mmuS.map withoutAccessed = _
    cases i <;> rfl
  · exact g3.quiet (g2.quiet (g1.quiet (by cases i <;> exact q)))

theorem Entered.supervisor {i : Interrupt} {s t : State} (h : Entered i s t) : t.supervisor = true := by
  rw [h.only]; exact entryPs_supervisor i s.ps

theorem Entered.keeps {i : Interrupt} {s t : State} (h : Entered i s t) : Keeps s t where
  platform := by rw [h.only]
  devices := by rw [h.only]
  wf := h.wf
  bytes := h.bytes
  rtc := fun w => by rw [h.only]; exact w
  quiet := h.quiet

/-! ## One instruction -/

/-- Everything an instruction can do: its body completes; or it raises an interrupt, which is taken or stuck; or it is
refused. -/
theorem runBody_cases (len : Nat) (body : State → Res Unit) (s : State) :
    (∃ t, body (s.setPc (s.pc + BitVec.ofNat 16 (2 * len))) = .ok () t ∧ runBody len body s = .next t) ∨
    (∃ i s1, body (s.setPc (s.pc + BitVec.ofNat 16 (2 * len))) = .trap i s1 ∧
      runBody len body s = takeInterrupt i (i.savedPc s.pc (s.pc + BitVec.ofNat 16 (2 * len))) s1) ∨
    (∃ r, body (s.setPc (s.pc + BitVec.ofNat 16 (2 * len))) = .refuse r ∧ runBody len body s = .refused r) := by
  unfold runBody
  cases h : body (s.setPc (s.pc + BitVec.ofNat 16 (2 * len))) with
  | ok v t => exact .inl ⟨t, rfl, by simp [h]⟩
  | trap i s1 => exact .inr (.inl ⟨i, s1, rfl, by simp [h]⟩)
  | refuse r => exact .inr (.inr ⟨r, rfl, by simp [h]⟩)

/-- A body that keeps makes an instruction that keeps. -/
theorem runBody_keeps {len : Nat} {body : State → Res Unit} (hb : ∀ s, (body s).All (Keeps s)) {s t : State}
    (h : runBody len body s = .next t) : Keeps s t := by
  have k0 := (setPc_safe s (s.pc + BitVec.ofNat 16 (2 * len))).toKeeps
  have hb' := hb (s.setPc (s.pc + BitVec.ofNat 16 (2 * len)))
  rcases runBody_cases len body s with ⟨t', e, h'⟩ | ⟨i, s1, e, h'⟩ | ⟨r, e, h'⟩
  · rw [e] at hb'; rw [h'] at h; cases h; exact k0.trans hb'
  · rw [e] at hb'
    rw [h'] at h
    rcases takeInterrupt_cases i _ s1 with ⟨u, hu, g⟩ | hu
    · rw [hu] at h; cases h; exact (k0.trans hb').trans g.keeps
    · rw [hu] at h; cases h
  · rw [h'] at h; cases h

/-- In User mode an instruction that stays in User mode leaves the supervisor's state alone. -/
theorem runBody_user {len : Nat} {body : State → Res Unit} (hb : ∀ s, (body s).All (SafeStep s)) {s t : State}
    (h : runBody len body s = .next t) (hs : s.supervisor = false) (ht : t.supervisor = false) :
    t.supervisorState = s.supervisorState := by
  have k0 := setPc_safe s (s.pc + BitVec.ofNat 16 (2 * len))
  have hb' := hb (s.setPc (s.pc + BitVec.ofNat 16 (2 * len)))
  rcases runBody_cases len body s with ⟨t', e, h'⟩ | ⟨i, s1, e, h'⟩ | ⟨r, e, h'⟩
  · rw [e] at hb'; rw [h'] at h; cases h; exact (k0.trans hb').user hs
  · rw [h'] at h
    rcases takeInterrupt_cases i _ s1 with ⟨u, hu, g⟩ | hu
    · rw [hu] at h; cases h; rw [g.supervisor] at ht; cases ht
    · rw [hu] at h; cases h
  · rw [h'] at h; cases h

/-- A privileged body need only be safe for a supervisor (R305). -/
theorem privileged_safe {body : State → Res Unit} (hb : ∀ s, (body s).All (Keeps s)) (s : State) :
    (privileged body s).All (SafeStep s) := by
  unfold privileged
  split
  · next h =>
    exact (hb s).mono fun t g => { toKeeps := g, user := fun e => by rw [h] at e; cases e }
  · exact SafeStep.refl s

end Sys2Proof.Machine
end

