-- ==== Sys2Proof/Laws/Refused.lean ====
section
/-! SUPPORT. What is left when the MMU refuses an access in the middle of an instruction (D20): a push or a pop of several,
a word of a far operand, an operand word of the fetch. -/

namespace Sys2Proof.Machine

/-! ## Reads -/

theorem Reads.refl (s : State) : Reads s s := ⟨rfl, fun _ => ⟨rfl, rfl⟩⟩

/-- A refused read changes nothing. -/
theorem memRead_fault {sz : Size} {a : Word} {s : State} {f : BankFault} (h : s.checkSized .read sz a = some f) :
    memRead sz a s = .trap (.bankFault f) s := by
  unfold memRead; rw [h]

/-- An allowed read leaves `Reads`. -/
theorem memRead_reads {sz : Size} {a : Word} {s : State} (h : s.checkSized .read sz a = none) :
    ∃ t, memRead sz a s = .ok (readValue sz a s) t ∧ Reads s t ∧ MemStep s t := by
  obtain ⟨t, e, g, q⟩ := memRead_value h
  exact ⟨t, e, ⟨g.only, q⟩, g⟩

/-- A far operand of which a word is refused: a PreDec base is lowered, nothing else has happened. -/
theorem readFarPlace_fault {m : MemMode} {s : State} {f : BankFault}
    (h : s.checkSized .read .word (effectiveAddress m 4 s + (farOffsets m).1) = some f ∨
      (s.checkSized .read .word (effectiveAddress m 4 s + (farOffsets m).1) = none ∧
        s.checkSized .read .word (effectiveAddress m 4 s + (farOffsets m).2) = some f)) :
    ∃ u, readFarPlace m s = .trap (.bankFault f) u ∧ Reads { s with regs := loweredRegs m 4 s } u := by
  have hb : lowerBase m 4 s = { s with regs := loweredRegs m 4 s } := by cases m <;> rfl
  have hc : ∀ a, ({ s with regs := loweredRegs m 4 s } : State).checkSized .read .word a = s.checkSized .read .word a :=
    fun _ => rfl
  unfold readFarPlace
  simp only [hb]
  rcases h with h | ⟨h1, h2⟩
  · rw [memRead_fault (f := f) (by rw [hc]; exact h)]
    exact ⟨_, rfl, Reads.refl _⟩
  · obtain ⟨t, e, r, g⟩ := memRead_reads ((hc _).trans h1)
    rw [e, bind_ok, memRead_fault (f := f) (by rw [g.checkSized, hc]; exact h2)]
    exact ⟨t, rfl, r⟩

/-! ## Pushes -/

/-- Pushing two lists is pushing one after the other. -/
theorem pushAll_append (a b : List Word) (s : State) :
    pushAll (a ++ b) s = (pushAll a s).bind fun _ t => pushAll b t := by
  induction a generalizing s with
  | nil => rfl
  | cons v rest ih =>
    simp only [List.cons_append, pushAll]
    cases push v s with
    | ok _ t => simp only [bind_ok, ih]
    | trap _ _ => rfl
    | refuse _ => rfl

/-- Pushes of which the one after `n` is refused: those before it stay, and SP is lowered for it as well (D20). -/
theorem pushAll_refused {words : List Word} {s : State} {n : Nat} {f : BankFault} (hl : words.length ≤ 8192)
    (hn : n < words.length) (h : s.pushRefused n f) :
    ∃ u, pushAll words s = .trap (.bankFault f) u ∧
      u = { s.setSp (s.sp - BitVec.ofNat 16 (2 * (n + 1))) with
        mem := u.mem, bus := u.bus, freeCount := u.freeCount, mmuU := u.mmuU, mmuS := u.mmuS } ∧
      Stores (s.sp - BitVec.ofNat 16 (2 * n)) ((words.take n).reverse.flatMap bytesOfWord) s u := by
  have hlen : (words.take n).length = n := by simp; omega
  obtain ⟨t, e, g, st⟩ := pushAll_stores (words.take n) s (by omega) (by rw [hlen]; exact h.1)
  rw [hlen] at g st
  have hsp : t.sp = s.sp - BitVec.ofNat 16 (2 * n) := by
    have : t.sp = (s.setSp (s.sp - BitVec.ofNat 16 (2 * n))).sp := by rw [g.only]; rfl
    rw [this, sp_setSp]
  have hsub : s.sp - BitVec.ofNat 16 (2 * n) - 2 = s.sp - BitVec.ofNat 16 (2 * (n + 1)) := by
    apply BitVec.eq_of_toNat_eq
    have h2 : (2 : Word).toNat = 2 := rfl
    simp only [BitVec.toNat_sub, BitVec.toNat_ofNat, h2]; omega
  rcases push_cases words[n] t with ⟨f', hf, hp⟩ | ⟨hc, _⟩
  · rw [hsp, hsub, g.checkSized, checkSized_setSp, h.2] at hf
    cases hf
    rw [hsp, hsub] at hp
    refine ⟨t.setSp (s.sp - BitVec.ofNat 16 (2 * (n + 1))), ?_, ?_, ?_⟩
    · rw [← List.take_append_drop n words, pushAll_append, e, bind_ok, List.drop_eq_getElem_cons hn, pushAll, hp]; rfl
    · have := (g.setSp (s.sp - BitVec.ofNat 16 (2 * (n + 1)))).only
      rw [setSp_setSp] at this
      exact this
    · exact st.congr rfl rfl rfl rfl rfl rfl rfl (by simp) (by simp) (by simp) (by simp)
  · rw [hsp, hsub, g.checkSized, checkSized_setSp, h.2] at hc; cases hc

/-! ## Pops -/

/-- Pops into general registers of which the one after `n` is refused: the registers before it are loaded, and SP is raised
for those alone (D20). -/
theorem popRegs_refused {rs : List Reg} {s : State} {n : Nat} {f : BankFault} (hd : rs.Nodup) (hn : n < rs.length)
    (h : s.popRefused n f) :
    ∃ u, popRegs rs s = .trap (.bankFault f) u ∧
      Reads { s.setSp (s.sp + BitVec.ofNat 16 (2 * n)) with regs := u.regs } u ∧
      (∀ r, r ∉ rs.take n → u.reg r = s.reg r) ∧
      (s.quiet → s.plainFrom s.sp (2 * n) →
        ∀ k r, (rs.take n)[k]? = some r → u.reg r = s.wordAt (s.sp + BitVec.ofNat 16 (2 * k))) := by
  induction n generalizing rs s with
  | zero =>
    obtain ⟨r, rest, rfl⟩ : ∃ r rest, rs = r :: rest := by
      cases rs with
      | nil => simp at hn
      | cons r rest => exact ⟨r, rest, rfl⟩
    have hc : s.checkSized .read .word s.sp = some f := by simpa using h.2
    refine ⟨s, ?_, ?_, fun _ _ => rfl, ?_⟩
    · rw [popRegs, pop, memRead_fault hc]; rfl
    · have : s.sp + BitVec.ofNat 16 (2 * 0) = s.sp := by simp
      rw [this, setSp_sp]; exact Reads.refl s
    · intro _ _ k r hk; simp at hk
  | succ n ih =>
    obtain ⟨r, rest, rfl⟩ : ∃ r rest, rs = r :: rest := by
      cases rs with
      | nil => simp at hn
      | cons r rest => exact ⟨r, rest, rfl⟩
    have hc : s.checkSized .read .word s.sp = none := by simpa using h.1 0 (by omega)
    obtain ⟨t, e, o, q, w⟩ := pop_value hc
    have hadd : ∀ k, s.sp + 2 + BitVec.ofNat 16 k = s.sp + BitVec.ofNat 16 (k + 2) := fun k => by
      rw [BitVec.add_assoc]; congr 1; rw [BitVec.ofNat_add, BitVec.add_comm]; rfl
    have htsp : t.sp = s.sp + 2 := by
      have : t.sp = (s.setSp (s.sp + 2)).sp := by rw [o]; rfl
      rw [this, sp_setSp]
    have hck : ∀ a, t.checkSized .read .word a = s.checkSized .read .word a := fun a => by
      have : t.checkSized .read .word a = (s.setSp (s.sp + 2)).checkSized .read .word a := by rw [o]; rfl
      rw [this, checkSized_setSp]
    obtain ⟨hr, hrest⟩ := List.nodup_cons.mp hd
    have hp : (t.setReg r (readValue .word s.sp s)).popRefused n f := by
      constructor
      · intro k hk
        show t.checkSized .read .word (t.sp + _) = none
        rw [hck, htsp, hadd]; exact h.1 (k + 1) (by omega)
      · show t.checkSized .read .word (t.sp + _) = some f
        rw [hck, htsp, hadd]; exact h.2
    obtain ⟨u, e', rd, keep, val⟩ := ih (rs := rest) (s := t.setReg r (readValue .word s.sp s)) hrest (by simpa using hn) hp
    have hsp' : (t.setReg r (readValue .word s.sp s)).sp = s.sp + 2 := htsp
    refine ⟨u, by rw [popRegs, e, bind_ok, e'], ⟨?_, ?_⟩, ?_, ?_⟩
    · have ho := rd.only
      rw [hsp', hadd] at ho
      have key : ∀ v, { (t.setReg r (readValue .word s.sp s)).setSp v with
          regs := u.regs, mem := u.mem, bus := u.bus, freeCount := u.freeCount } =
          { s.setSp v with regs := u.regs, mem := u.mem, bus := u.bus, freeCount := u.freeCount } := fun v => by
        rw [o]
        cases hs : s.supervisor <;>
          simp [State.setSp, State.setReg, State.supervisor] at hs ⊢ <;> simp [hs]
      rw [key] at ho
      exact ho
    · intro hq
      have hq' : s.quiet := by simpa [State.quiet] using hq
      have a := q hq'
      have ht : t.bus = [] := by rw [a.2]; exact hq'
      have b := rd.memory (by simpa [State.quiet] using ht)
      exact ⟨by simpa [sameMemory] using b.1.trans (by simpa using a.1),
        by simpa [sameMemory] using b.2.trans (by simpa using a.2)⟩
    · intro x hx
      simp only [List.take_succ_cons, List.mem_cons, not_or] at hx
      have hne : (r : Nat) ≠ (x : Nat) := fun e => hx.1 (Fin.ext e.symm)
      rw [keep x hx.2]
      have h1 : (t.setReg r (readValue .word s.sp s)).reg x = t.reg x := by
        simp [State.reg, State.setReg, Vector.getElem_set_ne, hne]
      have h2 : t.reg x = (s.setSp (s.sp + 2)).reg x := by rw [o]; rfl
      rw [h1, h2, reg_setSp]
    · intro hq hpl
      obtain ⟨ht, hv⟩ := w hq fun k hk => hpl k (by omega)
      have hwa : ∀ a, (t.setReg r (readValue .word s.sp s)).wordAt a = s.wordAt a := fun a => by
        have : (t.setReg r (readValue .word s.sp s)).wordAt a = t.wordAt a :=
          wordAt_congr rfl rfl (fun _ => rfl) fun _ => rfl
        rw [this, ht, wordAt_setSp]
      have qu : (t.setReg r (readValue .word s.sp s)).quiet := by show t.bus = []; rw [ht]; simpa [State.quiet] using hq
      intro k x hk
      cases k with
      | zero =>
        simp only [List.take_succ_cons, List.getElem?_cons_zero, Option.some.injEq] at hk
        subst hk
        rw [keep r fun hm => hr (List.mem_of_mem_take hm)]
        simp [State.reg, State.setReg, hv]
      | succ k =>
        simp only [List.take_succ_cons, List.getElem?_cons_succ] at hk
        rw [val qu (fun j hj => ?_) k x hk, hwa, hsp', hadd]
        · rfl
        · rw [hsp', hadd]
          show t.backing (t.translate _) ≠ .active
          rw [ht, backing_setSp, translate_setSp]
          exact hpl (j + 2) (by omega)

end Sys2Proof.Machine
end

