-- ==== Sys2Proof/Tests/Slice0.lean ====
section
/-! SUPPORT. Tests: ill-formed terms that WellFormed refuses, words written out from spec/30_encoding.md and what they
decode to, single steps with the results of the vectors of spec/96_vectors_alu_shift_bit.md and
spec/97_vectors_control_mmu_interrupt.md (named by their ids), and for each statement that has hypotheses a state and
operands that meet them. -/

namespace Sys2Proof.Tests

open Sys2Proof.Machine

/-! ## WellFormed: each check refuses an ill-formed term -/

theorem test_wf_proc_is_word : (Instr.lod .byte 0 (.proc .fl)).wf = false := by decide
theorem test_wf_sto_proc_is_word : (Instr.sto .byte 0 (.proc .fl)).wf = false := by decide
theorem test_wf_sto_immediate : (Instr.sto .word 0 (.imm 1)).wf = false := by decide
theorem test_wf_sto_register : (Instr.sto .word 0 (.reg 1)).wf = false := by decide
theorem test_wf_alu_unassigned : (Instr.aluUnassigned .add .word 0 1).wf = false := by decide
theorem test_wf_jmi_unassigned : (Instr.jmiUnassigned false true false 1).wf = false := by decide
theorem test_wf_hwq_unassigned : (Instr.hwqUnassigned 0x81).wf = false := by decide
theorem test_wf_alu_mode_row : (Instr.aluRegister .add .word 0 1).wf = false := by decide
theorem test_wf_jump_mode_row : (Instr.jmiRegisterFar true 1).wf = false := by decide
theorem test_wf_lod_is_nop : (Instr.lod .word 0 (.reg 0)).wf = false := by decide
theorem test_wf_adi_is_inc : (Instr.adi 3 0).wf = false := by decide
theorem test_wf_sbi_is_dec : (Instr.sbi 3 0).wf = false := by decide
theorem test_wf_pop_is_rts : (Instr.popStatus 0x40).wf = false := by decide

/-! ## Decoding: words written out from the encoding tables -/

/-- `AAAA rrrE OOOO ORRR`, the eighteen operations (R104, R119), `Rx = R1`, Register mode with `r = R2`. -/
theorem test_decode_alu_operations :
    decodeWords 0b0010010000000001 0 0 = .cmp .word 1 (.reg 2) ∧
    decodeWords 0b0010010000001001 0 0 = .neg .word 1 (.reg 2) ∧
    decodeWords 0b0010010000010001 0 0 = .add .word 1 (.reg 2) ∧
    decodeWords 0b0010010000011001 0 0 = .sub .word 1 (.reg 2) ∧
    decodeWords 0b0010010000100001 0 0 = .adc .word 1 (.reg 2) ∧
    decodeWords 0b0010010000101001 0 0 = .sbc .word 1 (.reg 2) ∧
    decodeWords 0b0010010000110001 0 0 = .mul .word 1 (.reg 2) ∧
    decodeWords 0b0010010000111001 0 0 = .div .word 1 (.reg 2) ∧
    decodeWords 0b0010010001000001 0 0 = .mli .word 1 (.reg 2) ∧
    decodeWords 0b0010010001001001 0 0 = .dvi .word 1 (.reg 2) ∧
    decodeWords 0b0010010001010001 0 0 = .mod .word 1 (.reg 2) ∧
    decodeWords 0b0010010001011001 0 0 = .mdi .word 1 (.reg 2) ∧
    decodeWords 0b0010010001100001 0 0 = .and .word 1 (.reg 2) ∧
    decodeWords 0b0010010001101001 0 0 = .orr .word 1 (.reg 2) ∧
    decodeWords 0b0010010001110001 0 0 = .eor .word 1 (.reg 2) ∧
    decodeWords 0b0010010001111001 0 0 = .not .word 1 (.reg 2) ∧
    decodeWords 0b0010010010000001 0 0 = .lod .word 1 (.reg 2) ∧
    decodeWords 0b0011010010001001 0 0 = .sto .word 1 (.mem (.ind 2)) := by decide

/-- The ten modes of the ALU pattern (R105), and bit 8 for the 8-bit width. -/
theorem test_decode_alu_modes :
    decodeWords 0b0000000110000011 0x1234 0 = .lod .byte 3 (.imm 0x1234) ∧
    decodeWords 0b0000001010000011 0x1234 0 = .lod .word 3 (.mem (.abs 0x1234)) ∧
    decodeWords 0b0001110010000011 0 0 = .lod .word 3 (.proc .usp) ∧
    decodeWords 0b0010111110000011 0 0 = .lod .byte 3 (.reg 7) ∧
    decodeWords 0b0011101010000011 0 0 = .lod .word 3 (.mem (.ind 5)) ∧
    decodeWords 0b0100101010000011 0x1234 0 = .lod .word 3 (.mem (.offset 5 0x1234)) ∧
    decodeWords 0b0101101010000011 0 0 = .lod .word 3 (.mem (.stack 5)) ∧
    decodeWords 0b0110101010000011 0 0 = .lod .word 3 (.mem (.postInc 5)) ∧
    decodeWords 0b0111101010000011 0 0 = .lod .word 3 (.mem (.preDec 5)) ∧
    decodeWords 0b1110101010000011 0 0 = .lod .word 3 (.mem (.indexed 5 6)) := by decide

/-- The processor registers by index (spec/10_state.md R41); bit 8 is ignored (R122). -/
theorem test_decode_processor_registers :
    decodeWords 0b0001000010000000 0 0 = .lod .word 0 (.proc .fl) ∧
    decodeWords 0b0001001010000000 0 0 = .lod .word 0 (.proc .pc) ∧
    decodeWords 0b0001010110000000 0 0 = .lod .word 0 (.proc .ps) ∧
    decodeWords 0b0001011010000000 0 0 = .lod .word 0 (.proc .p2) ∧
    decodeWords 0b0001100010000000 0 0 = .lod .word 0 (.proc .ii) ∧
    decodeWords 0b0001101010000000 0 0 = .lod .word 0 (.proc .ia) ∧
    decodeWords 0b0001111010000000 0 0 = .lod .word 0 (.proc .sp) := by decide

/-- The mode rows of the table stand for the same words (R105, R121). -/
theorem test_encode_alu_mode_rows :
    encode (.aluImmediate .lod .byte 3 0x1234) = [0b0000000110000011, 0x1234] ∧
    encode (.aluAbsolute .lod .word 3 0x1234) = [0b0000001010000011, 0x1234] ∧
    encode (.aluProcReg .lod 3 .usp) = [0b0001110010000011] ∧
    encode (.aluRegister .lod .byte 3 7) = [0b0010111110000011] ∧
    encode (.aluIndirect .lod .word 3 5) = [0b0011101010000011] ∧
    encode (.aluIndirectOffset .lod .word 3 5 0x1234) = [0b0100101010000011, 0x1234] ∧
    encode (.aluStackOffset .lod .word 3 5) = [0b0101101010000011] ∧
    encode (.aluPostInc .lod .word 3 5) = [0b0110101010000011] ∧
    encode (.aluPreDec .lod .word 3 5) = [0b0111101010000011] ∧
    encode (.aluIndexed .lod .word 3 5 6) = [0b1110101010000011] ∧
    decodeWords 0b0000111000010011 0 0 = .aluUnassigned .add .word 3 7 := by decide

/-- NOP is the word of `LOD R0, R0` (R126); STO has no Immediate and no Register form (R120). -/
theorem test_decode_alu_special :
    decodeWords 0b0010000010000000 0 0 = .nop ∧
    decodeWords 0b0000000010001001 0x1234 0 = .undefStoImmediate .word 1 ∧
    decodeWords 0b0010010110001001 0 0 = .undefStoRegister 2 .byte 1 := by decide

/-- `oooo oooo 1001 cccc` (R108, R119). -/
theorem test_decode_branches :
    decodeWords 0b0000010110010000 0 0 = .bcc 5 ∧ decodeWords 0b0000010110010001 0 0 = .bcs 5 ∧
    decodeWords 0b0000010110010010 0 0 = .bne 5 ∧ decodeWords 0b0000010110010011 0 0 = .beq 5 ∧
    decodeWords 0b0000010110010100 0 0 = .bpl 5 ∧ decodeWords 0b0000010110010101 0 0 = .bmi 5 ∧
    decodeWords 0b0000010110010110 0 0 = .bvc 5 ∧ decodeWords 0b0000010110010111 0 0 = .bvs 5 ∧
    decodeWords 0b0000010110011000 0 0 = .bug 5 ∧ decodeWords 0b0000010110011001 0 0 = .bsg 5 ∧
    decodeWords 0b1000000010011111 0 0 = .baw 0x80 ∧ decodeWords 0b0000010110011010 0 0 = .undefBranch10 ∧
    decodeWords 0b0000010110011011 0 0 = .undefBranch11 ∧ decodeWords 0b0000010110011100 0 0 = .undefBranch12 ∧
    decodeWords 0b0000010110011101 0 0 = .undefBranch13 ∧ decodeWords 0b0000010110011110 0 0 = .undefBranch14 := by
  decide

/-- `rrr0 ssss 1010 0Doo` and `rrr1 .sss 1010 0Doo` (R109). -/
theorem test_decode_shifts :
    decodeWords 0b1100011110100000 0 0 = .aslImm 6 7 ∧ decodeWords 0b1101001110100000 0 0 = .aslReg 6 3 ∧
    decodeWords 0b1100011110100001 0 0 = .lslImm 6 7 ∧ decodeWords 0b1101001110100001 0 0 = .lslReg 6 3 ∧
    decodeWords 0b1100011110100010 0 0 = .rolImm 6 7 ∧ decodeWords 0b1101001110100010 0 0 = .rolReg 6 3 ∧
    decodeWords 0b1100011110100011 0 0 = .rnlImm 6 7 ∧ decodeWords 0b1101001110100011 0 0 = .rnlReg 6 3 ∧
    decodeWords 0b1100011110100100 0 0 = .asrImm 6 7 ∧ decodeWords 0b1101001110100100 0 0 = .asrReg 6 3 ∧
    decodeWords 0b1100011110100101 0 0 = .lsrImm 6 7 ∧ decodeWords 0b1101001110100101 0 0 = .lsrReg 6 3 ∧
    decodeWords 0b1100011110100110 0 0 = .rorImm 6 7 ∧ decodeWords 0b1101001110100110 0 0 = .rorReg 6 3 ∧
    decodeWords 0b1100011110100111 0 0 = .rnrImm 6 7 ∧ decodeWords 0b1101101110100111 0 0 = .rnrReg 6 3 := by decide

/-- `rrr0 bbbb 1010 10oo` and `rrr1 .sss 1010 10oo` (R110). -/
theorem test_decode_bit_tests :
    decodeWords 0b0100111110101000 0 0 = .bttImm 2 15 ∧ decodeWords 0b0101001110101000 0 0 = .bttReg 2 3 ∧
    decodeWords 0b0100111110101001 0 0 = .btxImm 2 15 ∧ decodeWords 0b0101001110101001 0 0 = .btxReg 2 3 ∧
    decodeWords 0b0100111110101010 0 0 = .btcImm 2 15 ∧ decodeWords 0b0101001110101010 0 0 = .btcReg 2 3 ∧
    decodeWords 0b0100111110101011 0 0 = .btsImm 2 15 ∧ decodeWords 0b0101101110101011 0 0 = .btsReg 2 3 := by decide

/-- Flags, stack, MMU, immediates (R111, R113 to R117). -/
theorem test_decode_processor_and_stack :
    decodeWords 0b0010000010101110 0 0 = .sef 2 ∧ decodeWords 0b1000111110101111 0 0 = .clf 8 ∧
    decodeWords 0b1000000110110000 0 0 = .pshGeneral 0x81 ∧ decodeWords 0b0100000110110001 0 0 = .pshStatus 0x41 ∧
    decodeWords 0b1000000110110010 0 0 = .popGeneral 0x81 ∧ decodeWords 0b0100000110110011 0 0 = .popStatus 0x41 ∧
    decodeWords 0b0100000010110011 0 0 = .rts ∧
    decodeWords 0b1010110010110101 0 0 = .mmr 5 3 ∧ decodeWords 0b1010110110110101 0 0 = .mmw 5 3 ∧
    decodeWords 0b1010001010110101 0 0 = .mml 5 ∧ decodeWords 0b1010001110110101 0 0 = .mms 5 ∧
    decodeWords 0b0011111110110110 0 0 = .setSmall 1 0x1F ∧ decodeWords 0b0010101010110111 0 0 = .setAlt 1 0x0A ∧
    decodeWords 0b0010000010111000 0 0 = .inc 1 ∧ decodeWords 0b0011111110111000 0 0 = .adi 1 0x1F ∧
    decodeWords 0b0010000010111001 0 0 = .dec 1 ∧ decodeWords 0b0010000110111001 0 0 = .sbi 1 1 := by decide

/-- `AAAA rrrF 1011 101L` (R106, R107). -/
theorem test_decode_jumps :
    decodeWords 0b0000000010111010 0x1234 0 = .jmp (.imm 0x1234) ∧
    decodeWords 0b0000001010111011 0x1234 0 = .jsr (.mem (.abs 0x1234)) ∧
    decodeWords 0b0000000110111010 0xFF06 0x010E = .jmpF (.imm 0xFF06 0x010E) ∧
    decodeWords 0b0010111110111011 0 0 = .jsrF (.reg 7) ∧
    decodeWords 0b0111001010111010 0 0 = .jmp (.mem (.preDec 1)) ∧
    decodeWords 0b0001010010111011 0 0 = .jmiUnassigned true false true 2 ∧
    decodeWords 0b0000010110111010 0 0 = .jmiUnassigned false true false 2 := by decide

/-- The jump mode rows stand for the same words (R107). -/
theorem test_encode_jump_mode_rows :
    encode (.jmiImmediateNear false 0x1234) = [0b0000000010111010, 0x1234] ∧
    encode (.jmiAbsoluteNear true 0x1234) = [0b0000001010111011, 0x1234] ∧
    encode (.jmiRegisterNear false 3) = [0b0010011010111010] ∧
    encode (.jmiIndirectNear false 3) = [0b0011011010111010] ∧
    encode (.jmiIndirectOffsetNear false 3 0x1234) = [0b0100011010111010, 0x1234] ∧
    encode (.jmiStackOffsetNear false 3) = [0b0101011010111010] ∧
    encode (.jmiPostIncNear false 3) = [0b0110011010111010] ∧
    encode (.jmiPreDecNear false 3) = [0b0111011010111010] ∧
    encode (.jmiIndexedNear false 3 4) = [0b1100011010111010] ∧
    encode (.jmiImmediateFar true 0x1234 0x5678) = [0b0000000110111011, 0x1234, 0x5678] ∧
    encode (.jmiAbsoluteFar false 0x1234) = [0b0000001110111010, 0x1234] ∧
    encode (.jmiRegisterFar true 3) = [0b0010011110111011] ∧
    encode (.jmiIndirectFar false 3) = [0b0011011110111010] ∧
    encode (.jmiIndirectOffsetFar false 3 0x1234) = [0b0100011110111010, 0x1234] ∧
    encode (.jmiStackOffsetFar false 3) = [0b0101011110111010] ∧
    encode (.jmiPostIncFar false 3) = [0b0110011110111010] ∧
    encode (.jmiPreDecFar false 3) = [0b0111011110111010] ∧
    encode (.jmiIndexedFar false 3 4) = [0b1100011110111010] := by decide

/-- HWQ, SLP, SWI, RTI and the UNDEFINED opcodes (R112, R118, R120). -/
theorem test_decode_system :
    decodeWords 0b0000000010111100 0 0 = .hwq00 ∧ decodeWords 0b0000000110111100 0 0 = .hwq01 ∧
    decodeWords 0b0000001010111100 0 0 = .hwq02 ∧ decodeWords 0b1000000010111100 0 0 = .hwq80 ∧
    decodeWords 0b1000000110111100 0 0 = .hwq81 ∧ decodeWords 0b0000001110111100 0 0 = .hwqUnassigned 3 ∧
    decodeWords 0b0000000010111101 0 0 = .slp ∧ decodeWords 0b0000000010111110 0 0 = .swi ∧
    decodeWords 0b0000000010111111 0 0 = .rti ∧ decodeWords 0b0001001010101100 0 0 = .undefAcAd ∧
    decodeWords 0b0000000010101101 0 0 = .undefAcAd ∧ decodeWords 0b0000000010110100 0 0 = .undefB4 ∧
    decodeWords 0b0000000011000000 0 0 = .undefC0FF ∧ decodeWords 0b1111111111111111 0 0 = .undefC0FF := by decide

/-- The bytes of an instruction lie low octet first (R101); too few bytes are refused by name. -/
theorem test_decode_bytes :
    decode [0xBA, 0x01, 0x06, 0xFF, 0x0E, 0x01, 0x99] = .ok (.jmpF (.imm 0xFF06 0x010E), [0x99]) ∧
    decode [0x80, 0x00, 0x34] = .error .truncated := by decide

/-! ## Single steps -/

/-- The platform of the vectors: two devices, the third with a RAM bank; a CPU of 1 024 000 Hz. -/
def box : Platform :=
  { ramBanks := 4, romBanks := 1, cpuInfo := ⟨0xC0, 0xC1, 0xC2, 0xC3⟩, cpuFrequency := 1024000, oddPc := .refuse,
    branchBase := .instr, mmuIndexMap := .compact }

/-- The start state of the vectors. -/
def start : State := { State.reset with pc := 0x4010, ssp := 0x8000, usp := 0xC000, platform := box }

/-- With R0 to R3 and FL. -/
def withRegs (r0 r1 r2 r3 fl : Word) (s : State := start) : State := { s with regs := #v[r0, r1, r2, r3, 0, 0, 0, 0], fl := fl }

/-- In User mode. -/
def user : State := { start with ps := 0x0000, usp := 0xBFF0 }

/-- With a word at a physical address. -/
def poke (pa : Nat) (v : Word) (s : State) : State :=
  { s with mem := Mem.set (Mem.set s.mem pa (v.extractLsb' 0 8)) (pa + 1) (v.extractLsb' 8 8) }

/-- With the MMU on, both halves mapping the banks of the fixed map, and the BankFault vector. -/
def mapped (ps : Word) : State :=
  poke 0x20000A 0x0280 { start with ps := ps, mmuU := #v[0x0080, 0x0001, 0x0002, 0x0003], mmuS := #v[0x0080, 0x0001, 0x0002, 0x0003] }

/-- The state after the instruction of some words, when there is one. -/
def ran (w w1 w2 : Word) (s : State) : Option State :=
  match exec (decodeWords w w1 w2) s with
  | .next t => some t
  | _ => none

/-- One register, FL and PC. -/
def look (k : Reg) (r : Option State) : Option (Word × Word × Word) := r.map fun t => (t.reg k, t.fl, t.pc)

theorem test_cmp_A3 : look 1 (ran 0x2401 0 0 (withRegs 0 0x1234 0x1234 0 0x1000)) = some (0x1234, 0xF000, 0x4012) := by decide
theorem test_cmp8_B2 : look 1 (ran 0x2501 0 0 (withRegs 0 0xAA55 0xBB55 0 0)) = some (0xAA55, 0xE000, 0x4012) := by decide
theorem test_neg_A6 : look 1 (ran 0x2409 0 0 (withRegs 0 0 0x8000 0 0)) = some (0x8000, 0x9000, 0x4012) := by decide
theorem test_neg8_B4 : look 1 (ran 0x2509 0 0 (withRegs 0 0xFFFF 0x8001 0 0)) = some (0x00FF, 0x8000, 0x4012) := by decide
theorem test_add_A10 : look 1 (ran 0x2411 0 0 (withRegs 0 0x8000 0x8000 0 0)) = some (0, 0x7000, 0x4012) := by decide
theorem test_add8_B29 : (ran 0x6310 0 0 (poke 0x5000 0x02FF (withRegs 1 0x5000 0 0 0))).map
    (fun t => (t.reg 0, t.reg 1, t.fl)) = some (0, 0x5001, 0x6000) := by decide
theorem test_sub_A13 : look 1 (ran 0x2419 0 0 (withRegs 0 0x8000 1 0 0)) = some (0x7FFF, 0x3000, 0x4012) := by decide
theorem test_sub8_B7 : look 1 (ran 0x2519 0 0 (withRegs 0 0x5500 1 0 0)) = some (0x00FF, 0x8000, 0x4012) := by decide
theorem test_adc_A16 : look 1 (ran 0x2421 0 0 (withRegs 0 1 2 0 0x2000)) = some (4, 0, 0x4012) := by decide
theorem test_sbc_A22 : look 1 (ran 0x2429 0 0 (withRegs 0 0 0 0 0)) = some (0xFFFF, 0x8000, 0x4012) := by decide
theorem test_mul_A24 : (ran 0x2431 0 0 (withRegs 0 0x1234 0x0100 0 0x9000)).map
    (fun t => (t.reg 0, t.reg 1, t.fl)) = some (0x0012, 0x3400, 0x3000) := by decide
theorem test_mul_A55 : look 0 (ran 0x2430 0 0 (withRegs 0x1234 0 0x0100 0 0)) = some (0x3400, 0x2000, 0x4012) := by decide
theorem test_mli_A28 : (ran 0x2441 0 0 (withRegs 0 0xFFFF 2 0 0)).map
    (fun t => (t.reg 0, t.reg 1, t.fl)) = some (0xFFFF, 0xFFFE, 0xA000) := by decide
theorem test_div_A32 : look 1 (ran 0x2439 0 0 (withRegs 0 7 2 0 0xB000)) = some (3, 0x3000, 0x4012) := by decide
theorem test_div_zero_Z6 : (ran 0x6439 0 0 (poke 0x200004 0x0200 (withRegs 0 0x64 0x5000 0 0))).map
    (fun t => (t.reg 1, t.reg 2, t.ssp, t.pc)) = some (0x64, 0x5002, 0x7FFC, 0x0200) := by decide
theorem test_dvi_A37 : look 1 (ran 0x2449 0 0 (withRegs 0 0x8000 0xFFFF 0 0)) = some (0x8000, 0x9000, 0x4012) := by decide
theorem test_dvi_A36 : look 1 (ran 0x2449 0 0 (withRegs 0 7 0xFFFE 0 0)) = some (0xFFFD, 0x8000, 0x4012) := by decide
theorem test_mod_A40 : look 1 (ran 0x2451 0 0 (withRegs 0 0xFFFF 0x10 0 0)) = some (0x000F, 0, 0x4012) := by decide
theorem test_mdi_A42 : look 1 (ran 0x2459 0 0 (withRegs 0 0xFFF9 2 0 0)) = some (0xFFFF, 0x8000, 0x4012) := by decide
theorem test_and_A46 : look 1 (ran 0x2461 0 0 (withRegs 0 0x00FF 0xFF00 0 0x3000)) = some (0, 0x7000, 0x4012) := by decide
theorem test_orr_A48 : look 1 (ran 0x2469 0 0 (withRegs 0 0x8000 1 0 0)) = some (0x8001, 0x8000, 0x4012) := by decide
theorem test_eor_A49 : look 1 (ran 0x2471 0 0 (withRegs 0 0xFFFF 0x0F0F 0 0)) = some (0xF0F0, 0x8000, 0x4012) := by decide
theorem test_not_A51 : look 1 (ran 0x2479 0 0 (withRegs 0 0x1111 0x00FF 0 0)) = some (0xFF00, 0x8000, 0x4012) := by decide
theorem test_lod_M5 : look 0 (ran 0x0280 0x7FFF 0 (poke 0x8000 0x0022 (poke 0x7FFE 0x1100 start))) = some (0x2211, 0, 0x4014) := by
  decide
theorem test_lod_M14 : (ran 0x7280 0 0 (poke 0x5000 0x00BB (withRegs 0 0x5002 0 0 0))).map
    (fun t => (t.reg 0, t.reg 1, t.pc)) = some (0x00BB, 0x5000, 0x4012) := by decide
theorem test_sto_M24 : (ran 0x7489 0 0 (withRegs 0 0x0304 0x5000 0 0)).map
    (fun t => (t.reg 2, t.wordAt 0x4FFE, t.pc)) = some (0x4FFE, 0x0304, 0x4012) := by decide
theorem test_sto_Q14 : (ran 0x1488 0 0 (withRegs 0x2000 0 0 0 0)).map (fun t => (t.ps, t.pc)) = some (0x2000, 0x4012) := by decide
theorem test_undef_sto_M27 : (ran 0x0089 0x1234 0 (poke 0x20000E 0x0300 start)).map
    (fun t => (t.ssp, t.wordAt 0x7FFC, t.pc)) = some (0x7FFC, 0x4010, 0x0300) := by decide
theorem test_undef_sto_M28 : (ran 0x2589 0 0 (poke 0x20000E 0x0300 start)).map
    (fun t => (t.ssp, t.wordAt 0x7FFC, t.pc)) = some (0x7FFC, 0x4010, 0x0300) := by decide

theorem test_asl_H1 : look 0 (ran 0x07A0 0 0 (withRegs 0x01FF 0 0 0 0)) = some (0xFF00, 0xA000, 0x4012) := by decide
theorem test_asl_H28 : look 0 (ran 0x11A0 0 0 (withRegs 0x8001 0x10 0 0 0x2000)) = some (0x8001, 0x8000, 0x4012) := by decide
theorem test_lsl_H5 : look 0 (ran 0x00A1 0 0 (withRegs 0x8001 0 0 0 0)) = some (2, 0x2000, 0x4012) := by decide
theorem test_lsl_H35 : look 1 (ran 0x31A1 0 0 (withRegs 0 3 0 0 0)) = some (0x18, 0, 0x4012) := by decide
theorem test_rol_H8 : look 0 (ran 0x0FA2 0 0 (withRegs 0x1234 0 0 0 0x2000)) = some (0x891A, 0x8000, 0x4012) := by decide
theorem test_rol_H31 : look 0 (ran 0x11A2 0 0 (withRegs 0x8001 0 0 0 0x2000)) = some (0x8001, 0xA000, 0x4012) := by decide
theorem test_rnl_H10 : look 0 (ran 0x03A3 0 0 (withRegs 0x1234 0 0 0 0x2000)) = some (0x2341, 0x2000, 0x4012) := by decide
theorem test_rnl_H33 : look 0 (ran 0x11A3 0 0 (withRegs 0x8001 0 0 0 0)) = some (0x8001, 0x8000, 0x4012) := by decide
theorem test_asr_H14 : look 0 (ran 0x00A4 0 0 (withRegs 0xFFFE 0 0 0 0)) = some (0xFFFF, 0x9000, 0x4012) := by decide
theorem test_asr_H29 : look 0 (ran 0x11A4 0 0 (withRegs 0x8001 0 0 0 0x3000)) = some (0x8001, 0x8000, 0x4012) := by decide
theorem test_lsr_H19 : look 0 (ran 0x00A5 0 0 (withRegs 0x8001 0 0 0 0)) = some (0x4000, 0x2000, 0x4012) := by decide
theorem test_lsr_H30 : look 0 (ran 0x11A5 0 0 (withRegs 0x8001 0xFFF0 0 0 0x2000)) = some (0x8001, 0x8000, 0x4012) := by decide
theorem test_ror_H25 : look 0 (ran 0x03A6 0 0 (withRegs 0x1234 0 0 0 0x2000)) = some (0x9123, 0x8000, 0x4012) := by decide
theorem test_ror_H32 : look 0 (ran 0x11A6 0 0 (withRegs 0 0x20 0 0 0x2000)) = some (0, 0x6000, 0x4012) := by decide
theorem test_rnr_H26 : look 0 (ran 0x03A7 0 0 (withRegs 0x1234 0 0 0 0x2000)) = some (0x4123, 0x2000, 0x4012) := by decide
theorem test_btt_T3 : look 0 (ran 0x0FA8 0 0 (withRegs 0x8000 0 0 0 0x4000)) = some (0x8000, 0, 0x4012) := by decide
theorem test_btt_T12 : look 0 (ran 0x19A8 0 0 (withRegs 0x10 4 0 0 0x4000)) = some (0x10, 0, 0x4012) := by decide
theorem test_btx_T4 : look 0 (ran 0x0FA9 0 0 (withRegs 0 0 0 0 0)) = some (0x8000, 0x6000, 0x4012) := by decide
theorem test_btx_T11 : look 1 (ran 0x31A9 0 0 (withRegs 0 3 0 0 0)) = some (0x0B, 0x6000, 0x4012) := by decide
theorem test_btc_T7 : look 0 (ran 0x00AA 0 0 (withRegs 2 0 0 0 0x2000)) = some (2, 0x4000, 0x4012) := by decide
theorem test_bts_T9 : look 0 (ran 0x04AB 0 0 (withRegs 0x10 0 0 0 0x6000)) = some (0x10, 0, 0x4012) := by decide
theorem test_bts_T10 : look 2 (ran 0x53AB 0 0 (withRegs 0 0 0 0x14 0)) = some (0x10, 0x6000, 0x4012) := by decide

/-- J1 to J26: taken, then not taken. -/
theorem test_branches_J1_J26 :
    ([(0x0590, 0x0000, 0x2000), (0x0591, 0x2000, 0x0000), (0x0592, 0x0000, 0x4000), (0x0593, 0x4000, 0x0000),
      (0x0594, 0x0000, 0x8000), (0x0595, 0x8000, 0x0000), (0x0596, 0x0000, 0x1000), (0x0597, 0x1000, 0x0000),
      (0x0598, 0x2000, 0x6000), (0x0599, 0x8000, 0xC000)] : List (Word × Word × Word)).all
    (fun p => (ran p.1 0 0 { start with fl := p.2.1 }).map State.pc == some 0x401A &&
      (ran p.1 0 0 { start with fl := p.2.2 }).map State.pc == some 0x4012) = true := by decide
theorem test_baw_J27 : (ran 0x809F 0 0 start).map State.pc = some 0x3F10 := by decide
theorem test_baw_J30 : (ran 0x019F 0 0 { start with pc := 0xFFFE, platform := { box with branchBase := .next } }).map State.pc =
    some 0x0002 := by decide
theorem test_undef_branches_JU1_JU5 : ([0x059A, 0x059B, 0x059C, 0x059D, 0x059E] : List Word).all
    (fun w => (ran w 0 0 (poke 0x20000E 0x0300 start)).map (fun t => (t.wordAt 0x7FFC, t.pc)) == some (0x4010, 0x0300)) = true := by
  decide

theorem test_adi_I1 : look 1 (ran 0x3FB8 0 0 (withRegs 0 0x7FF0 0 0 0)) = some (0x8010, 0x9000, 0x4012) := by decide
theorem test_inc_I2 : look 0 (ran 0x00B8 0 0 (withRegs 0xFFFF 0 0 0 0)) = some (0, 0x6000, 0x4012) := by decide
theorem test_sbi_I9 : look 1 (ran 0x3FB9 0 0 (withRegs 0 0x1F 0 0 0)) = some (0xFFFF, 0x8000, 0x4012) := by decide
theorem test_dec_I6 : look 0 (ran 0x00B9 0 0 (withRegs 0x8000 0 0 0 0)) = some (0x7FFF, 0x3000, 0x4012) := by decide
theorem test_set_I11 : look 0 (ran 0x1FB6 0 0 (withRegs 0 0 0 0 0xF000)) = some (0x001F, 0xF000, 0x4012) := by decide
theorem test_set_I13_I14 : look 1 (ran 0x2AB7 0 0 start) = some (0x8000, 0, 0x4012) ∧
    look 1 (ran 0x2BB7 0 0 start) = some (0xFFEB, 0, 0x4012) := by decide

theorem test_jmp_K8 : look 1 (ran 0x72BA 0 0 (poke 0x5000 0x440A (withRegs 0 0x5002 0 0 0))) = some (0x5000, 0, 0x440A) := by decide
theorem test_jsr_K15 : (ran 0x50BB 0 0 (poke 0x7FF0 0x4300 (poke 0x7FEE 0x9999 { start with ssp := 0x7FF0 }))).map
    (fun t => (t.ssp, t.wordAt 0x7FEE, t.pc)) = some (0x7FEE, 0x4012, 0x4300) := by decide
theorem test_rts_K17 : (ran 0x40B3 0 0 (poke 0x7FFE 0x4014 { start with ssp := 0x7FFE })).map
    (fun t => (t.ssp, t.pc)) = some (0x8000, 0x4014) := by decide
theorem test_jmpF_F12 : (ran 0x73BA 0 0 (poke 0x5002 0x4400 (poke 0x5000 0x0305 (withRegs 0 0x5004 0 0 0)))).map
    (fun t => (t.reg 1, t.mmuS[1], t.pc)) = some (0x5000, 0x0305, 0x4400) := by decide
theorem test_jsrF_F14 : (ran 0x01BB 0x8200 0x0105 start).map
    (fun t => (t.ssp, t.wordAt 0x7FFE, t.mmuS[2], t.pc)) = some (0x7FFE, 0x4016, 0x0105, 0x8200) := by decide

theorem test_psh_P3 : (ran 0x81B0 0 0 { start with regs := #v[0x1111, 0, 0, 0, 0, 0, 0, 0x7777] }).map
    (fun t => (t.ssp, t.wordAt 0x7FFE, t.wordAt 0x7FFC)) = some (0x7FFC, 0x1111, 0x7777) := by decide
theorem test_psh_P17 : (ran 0xA0B1 0 0 (poke 0x20000C 0x0300 { user with fl := 0x9000 })).map
    (fun t => (t.usp, t.wordAt 0xBFEE, t.ps, t.pc)) = some (0xBFEE, 0x9000, 0x8000, 0x0300) := by decide
theorem test_pop_P2 : (ran 0x03B2 0 0 (poke 0x7FFC 0x2222 (poke 0x7FFE 0x1111 { start with ssp := 0x7FFC }))).map
    (fun t => (t.reg 0, t.reg 1, t.ssp)) = some (0x1111, 0x2222, 0x8000) := by decide
theorem test_pop_P19 : (ran 0x03B3 0 0 (poke 0xBFF0 0xA000 (poke 0xA000 0x9000 user))).map
    (fun t => (t.usp, t.pc)) = some (0x9000, 0x4012) := by decide

theorem test_sef_X1 : (ran 0x20AE 0 0 { start with fl := 0x0ABC }).map State.fl = some 0x2ABC := by decide
theorem test_clf_X3 : (ran 0x20AF 0 0 { start with fl := 0xFFFF }).map State.fl = some 0xDFFF := by decide
theorem test_nop_X5 : look 0 (ran 0x2080 0 0 (withRegs 0x8000 0 0 0 0x7000)) = some (0x8000, 0xB000, 0x4012) := by decide
theorem test_swi_X7 : (ran 0x00BE 0 0 (poke 0x20001E 0x0200 { start with pc := 0x4100, ps := 0x2000 })).map
    (fun t => (t.ps, t.ssp, t.wordAt 0x7FFE, t.wordAt 0x7FFC, t.pc)) = some (0xA000, 0x7FFC, 0x2000, 0x4102, 0x0200) := by decide
theorem test_rti_X10 : (ran 0x00BF 0 0 (poke 0x7FFC 0x4102 (poke 0x7FFE 0xFFFF { start with ps := 0x8800, ssp := 0x7FFC }))).map
    (fun t => (t.ps, t.ssp, t.pc)) = some (0xF1FF, 0x8000, 0x4102) := by decide
theorem test_slp_X12 : (ran 0x00BD 0 0 { start with pc := 0x4020, ps := 0xA000 }).map (fun t => (t.halted, t.pc)) =
    some (true, 0x4022) := by decide

/-- Devices at the bus indexes 1 and 3; the second exposes RAM and a bank with side effects. -/
def wired : State :=
  { start with devices := #v[none, some ⟨⟨1, 2, 3, 4⟩, []⟩, none,
      some ⟨⟨0x11, 0x12, 0x13, 0x14⟩, [⟨0x0E, .ram⟩, ⟨0x0F, .active⟩]⟩, none, none, none, none, none, none, none, none, none,
      none, none, none] }

theorem test_hwq00_X14 : look 0 (ran 0x00BC 0 0 wired) = some (2, 0, 0x4012) := by decide
theorem test_hwq01_X15_X16 :
    (ran 0x01BC 0 0 (withRegs 3 0 0 0 0 wired)).map (fun t => [t.reg 0, t.reg 1, t.reg 2, t.reg 3]) =
      some [0x11, 0x12, 0x13, 0x14] ∧
    (ran 0x01BC 0 0 (withRegs 2 0x5555 0 0 0 wired)).map (fun t => (t.reg 0, t.reg 1)) = some (0, 0x5555) := by decide
theorem test_hwq02_X19 : (ran 0x02BC 0 0 (withRegs 2 0x1111 0x2222 0 0 wired)).map (fun t => (t.reg 0, t.reg 1, t.pc)) =
    some (2, 0x1111, 0x4012) := by decide
theorem test_hwq81_X22 : (ran 0x81BC 0 0 (withRegs 0xFFFF 0 0 0 0)).map (fun t => (t.reg 0, t.rtc.enabled, t.rtc.rate)) =
    some (0x03E8, true, 1000) := by decide
theorem test_hwq_unassigned_X24_X25 : exec (decodeWords 0x03BC 0 0) start = .refused .unassignedHwqIndex ∧
    (ran 0x03BC 0 0 (poke 0x20000C 0x0300 user)).map State.pc = some 0x0300 := ⟨rfl, by decide⟩
theorem test_mmr_U3 : look 0 (ran 0x04B5 0 0 { withRegs 0 7 0 0 0 with mmuS := #v[0x0080, 0x0001, 0x0002, 0x1003] }) =
    some (0x1003, 0, 0x4012) := by decide
theorem test_mmw_U10 : (ran 0x05B5 0 0 (withRegs 0xF1FF 6 0 0 0)).map (fun t => t.mmuS[2]) = some 0xF1FF := by decide
theorem test_mml_U11 : (ran 0x02B5 0 0 { start with mmuU := #v[0x0080, 0x8001, 0x4002, 0x0003] }).map
    (fun t => [t.ssp, t.wordAt 0x7FFE, t.wordAt 0x7FFC, t.wordAt 0x7FFA, t.wordAt 0x7FF8]) =
      some [0x7FF8, 0x0080, 0x8001, 0x4002, 0x0003] := by decide
theorem test_mms_U14 : (ran 0x03B5 0 0 (poke 0x7FFE 0x0080 (poke 0x7FFC 0x0001 (poke 0x7FFA 0x0002
      (poke 0x7FF8 0x0003 { withRegs 1 0 0 0 0 with ssp := 0x7FF8 }))))).map (fun t => (t.ssp, t.mmuS.toList)) =
    some (0x8000, [0x0080, 0x0001, 0x0002, 0x0003]) := by decide

theorem test_store_W2 : (ran 0x0289 0x8000 0 { withRegs 0 0xBEEF 0 0 0 (mapped 0xC000) with
      mmuS := #v[0x0080, 0x0001, 0x0000, 0x0003] }).map (fun t => (t.mmuS[2], t.peek 0, t.peek 1)) = some (0x1000, 0xEF, 0xBE) := by
  decide
theorem test_fault_W12 : (ran 0x0289 0x8000 0 { withRegs 0 0xBEEF 0 0 0 (mapped 0x4000) with
      mmuU := #v[0x0080, 0x0001, 0x8002, 0x0003] }).map (fun t => (t.ps, t.p2, t.wordAt 0x7FFC, t.pc)) =
    some (0xC600, 0x8000, 0x4010, 0x0280) := by decide
theorem test_fault_W16 : (ran 0x03B0 0 0 { withRegs 0x1111 0x2222 0 0 0 (mapped 0x4000) with
      usp := 0x8002, mmuU := #v[0x0080, 0x2001, 0x0002, 0x0003] }).map (fun t => (t.p2, t.usp, t.mmuU[2], t.peek 0x8000)) =
    some (0x7FFE, 0x7FFE, 0x1002, 0x11) := by decide
theorem test_stuck_W21 : exec (decodeWords 0x0280 0x8000 0) { mapped 0xC000 with
      ssp := 0x9000, mmuS := #v[0x0080, 0x0001, 0x2002, 0x0003] } = .fault .stuckInInterrupt := rfl

/-- A step with lines, and without a program. -/
def stepped (s : State) : Option State :=
  match step s with
  | .next t => some t
  | _ => none

theorem test_clock_N2 : (stepped (poke 0x200002 0x0210 { start with
      ps := 0x2000, rtc := { start.rtc with enabled := true, rate := 1 }, lines := { Lines.quiet with clock := true } })).map
    (fun t => (t.ps, t.wordAt 0x7FFC, t.lines.clock, t.pc)) = some (0xA000, 0x4010, false, 0x0210) := by decide
theorem test_irq_N6 : (stepped (poke 0x200018 0x02C0 { start with ps := 0x2000, lines := { Lines.quiet with irq := 0x0028 } })).map
    (fun t => (t.ps, t.ii, t.wordAt 0x7FFE, t.pc)) = some (0xA800, 3, 0x2000, 0x02C0) := by decide
theorem test_irq_N9 : (stepped (poke 0x200018 0x02C0 { start with
      ps := 0xA000, halted := true, lines := { Lines.quiet with irq := 0x0002 } })).map
    (fun t => (t.ps, t.ii, t.halted, t.pc)) = some (0xA800, 1, false, 0x02C0) := by decide
theorem test_bus_refresh_N7 : (stepped (poke 0x20001A 0x02D0 { start with
      ps := 0x8800, lines := { Lines.quiet with busRefresh := true } })).map (fun t => (t.ps, t.pc)) = some (0x8800, 0x02D0) := by
  decide
theorem test_fetch_O13 : (stepped (poke 0x200000 0x1234 (poke 0xFFFE 0x0080 { start with pc := 0xFFFE }))).map
    (fun t => (t.reg 0, t.pc)) = some (0x1234, 0x0002) := by decide
theorem test_fetch_fault_W19 : (stepped (poke 0x4010 0x2080 { mapped 0x4000 with
      mmuU := #v[0x0080, 0x8001, 0x0002, 0x0003] })).map (fun t => (t.ps, t.p2, t.pc)) = some (0xC400, 0x4010, 0x0280) := by decide
theorem test_withFetchWord : step (State.reset.withFetchWord 16 0x13B6) =
    exec (.setSmall 0 0x13) (State.reset.withFetchWord 16 0x13B6) := rfl

/-! ## Witnesses: states and operands that meet the hypotheses of the statements -/

/-- The state an instruction answers, when it answers one. -/
def after (i : Instr) (s : State) : Option State :=
  match exec i s with
  | .next t => some t
  | _ => none

theorem next_of_after {i : Instr} {s t : State} (h : after i s = some t) : exec i s = .next t := by
  unfold after at h
  split at h
  · rename_i u e
    rw [e, Option.some.inj h]
  · cases h

theorem exec_after {i : Instr} {s : State} (h : (after i s).isSome = true) : exec i s = .next ((after i s).get h) :=
  next_of_after (Option.some_get h).symm

theorem next_of_stepped {s t : State} (h : stepped s = some t) : step s = .next t := by
  unfold stepped at h
  split at h
  · rename_i u e
    rw [e, Option.some.inj h]
  · cases h

theorem step_stepped {s : State} (h : (stepped s).isSome = true) : step s = .next ((stepped s).get h) :=
  next_of_stepped (Option.some_get h).symm

theorem pushable_of {s : State} {n : Nat}
    (h : ∀ k < n, s.checkSized .write .word (s.sp - BitVec.ofNat 16 (2 * (k + 1))) = none) : s.pushable n := h
theorem poppable_of {s : State} {n : Nat}
    (h : ∀ k < n, s.checkSized .read .word (s.sp + BitVec.ofNat 16 (2 * k)) = none) : s.poppable n := h
theorem ramFrom_of {s : State} {a : Word} {n : Nat}
    (h : ∀ k < n, s.backing (s.translate (a + BitVec.ofNat 16 k)) = .ram) : s.ramFrom a n := h
theorem plainFrom_of {s : State} {a : Word} {n : Nat}
    (h : ∀ k < n, s.backing (s.translate (a + BitVec.ofNat 16 k)) ≠ .active) : s.plainFrom a n := h

/-- In User mode with the MMU on; user bank 3 is write-protected, bank 2 faults. -/
def guarded : State := { mapped 0x4000 with mmuU := #v[0x0080, 0x0001, 0x2002, 0x4003], usp := 0x6000 }

theorem witness_DecodeOfEncode : (Instr.jmpF (.imm 0xFF06 0x010E)).wf = true ∧ (Instr.adi 7 0x1F).wf = true := by decide
theorem witness_DecodeGivesWellFormed : decode [0x80, 0x20] = .ok (.nop, []) := by decide
theorem witness_SecondNamesMeanTheSame : (Instr.aluImmediate .sto .byte 1 5).fieldsOk = true ∧
    (Instr.popStatus 0x40).fieldsOk = true := by decide
theorem witness_ReservedEncodings_alu : (field 0x0400 0 8 < 0x90 ∧ field 0x0400 12 4 = 0 ∧ 2 ≤ field 0x0400 9 3) ∧
    (field 0x0F8F 0 8 < 0x90 ∧ field 0x0F8F 12 4 = 0 ∧ 2 ≤ field 0x0F8F 9 3) := by decide
theorem witness_ReservedEncodings_jmi : (field 0x12BA 0 8 = 0xBA ∧ field 0x12BA 12 4 = 1) ∧
    (field 0x05BB 0 8 = 0xBB ∧ field 0x05BB 12 4 = 0 ∧ 2 ≤ field 0x05BB 9 3) := by decide
theorem witness_ReservedEncodings_hwq : field 0x03BC 0 8 = 0xBC ∧ ¬ field 0x03BC 8 8 ∈ [0x00, 0x01, 0x02, 0x80, 0x81] ∧
    field 0xFFBC 0 8 = 0xBC ∧ ¬ field 0xFFBC 8 8 ∈ [0x00, 0x01, 0x02, 0x80, 0x81] ∧ start.supervisor = true := by decide
theorem witness_ReservedEncodings_mmu :
    ((withRegs 0 8 0 0 0).supervisor = true ∧ box.mmuIndexMap = .compact ∧ 8 ≤ ((withRegs 0 8 0 0 0).reg 1).toNat) ∧
    (({ withRegs 0 16 0 0 0 with platform := { box with mmuIndexMap := .wide } } : State).platform.mmuIndexMap = .wide ∧
      16 ≤ ((withRegs 0 16 0 0 0).reg 1).toNat ∧ ((withRegs 0 1 0 0 0).reg 1).toNat % 2 = 1) := by decide
theorem witness_ReservedEncodings_oddPc : ({ start with pc := 0x4011 } : State).pc.toNat % 2 = 1 ∧
    start.platform.oddPc = .refuse := by decide

/-- RESET while halted. -/
def resetting : State := { start with halted := true, lines := { Lines.quiet with reset := true } }

theorem witness_ResetSequence : resetting.sample.busCycle.lines.reset = true ∧ resetting.sample.busCycle.quiet ∧
    resetting.platform.valid = true := ⟨by decide, rfl, by decide⟩
theorem witness_StepKeepsInv : start.Inv ∧ ∃ t, step start = .next t :=
  ⟨⟨by decide, by decide, by decide⟩, _, step_stepped (by decide)⟩
theorem witness_StepKeepsReadOnlyMemory : (∃ t, step start = .next t) ∧ start.sample.backing 0x200000 = .rom ∧
    start.sample.backing 0x10000 = .absent := ⟨⟨_, step_stepped (by decide)⟩, by decide, by decide⟩
theorem witness_UserModeKeepsSupervisorState : ∃ t, exec (.pshGeneral 1) user = .next t ∧ user.supervisor = false ∧
    t.supervisor = false := ⟨_, exec_after (by decide), by decide, by decide⟩
theorem witness_UserModeIsLeftByInterrupt : ∃ t, exec .swi user = .next t ∧ user.supervisor = false ∧ t.supervisor = true :=
  ⟨_, exec_after (by decide), by decide, by decide⟩
theorem witness_UserStoresStayInWritableBanks :
    ∃ t, exec (.sto .word 1 (.mem (.abs 0x5000))) { guarded with regs := #v[0, 0xBEEF, 0, 0, 0, 0, 0, 0] } = .next t ∧
      guarded.supervisor = false ∧ t.supervisor = false ∧ guarded.mmuOn = true ∧ guarded.quiet ∧ t.peek 0x5000 ≠ guarded.peek 0x5000 :=
  ⟨_, exec_after (by decide), by decide, by decide, by decide, rfl, by decide⟩

/-- Operands of each kind: an immediate, a register, processor registers in either mode, memory up to $FFFF, with a
base that moves and with the MMU on. -/
theorem witness_aluReady : aluReady .word 1 (.imm 5) start ∧ aluReady .byte 1 (.reg 1) user ∧
    aluReady .byte 1 (.proc .ps) start ∧ aluReady .word 1 (.proc .usp) user ∧ aluReady .word 1 (.mem (.abs 0xFFFF)) start ∧
    aluReady .word 1 (.mem (.postInc 2)) user ∧ aluReady .byte 1 (.mem (.preDec 2)) guarded :=
  ⟨⟨by decide, trivial⟩, ⟨by decide, trivial⟩, ⟨by decide, (by decide : procAllowed start .ps = true)⟩,
    ⟨by decide, (by decide : procAllowed user .usp = true)⟩,
    ⟨by decide, (by decide : start.checkSized .read .word 0xFFFF = none)⟩,
    ⟨by decide, (by decide : user.checkSized .read .word 0 = none)⟩,
    ⟨by decide, (by decide : guarded.checkSized .read .byte 0xFFFF = none)⟩⟩
theorem witness_SumsAndDifferences : aluReady .word 1 (.reg 2) (withRegs 0 0x7FFF 1 0 0x2000) := ⟨by decide, trivial⟩
theorem witness_CompareFlags : aluReady .byte 1 (.reg 2) (withRegs 0 0x80 0x7F 0 0) := ⟨by decide, trivial⟩
theorem witness_LogicAndLoadResults : aluReady .word 1 (.imm 0x8000) start := ⟨by decide, trivial⟩
theorem witness_Products : aluReady .word 0 (.reg 2) (withRegs 0x1234 0 0x0100 0 0) ∧ operandSize (.reg 2) .word = .word :=
  ⟨⟨by decide, trivial⟩, rfl⟩
theorem witness_Quotients : aluReady .word 1 (.reg 2) (withRegs 0 0x8000 0xFFFF 0 0) ∧
    aluRight .word (.reg 2) (withRegs 0 0x8000 0xFFFF 0 0) ≠ 0 :=
  ⟨⟨by decide, trivial⟩, (by decide : ((withRegs 0 0x8000 0xFFFF 0 0).reg 2).setWidth 16 ≠ 0#16)⟩
theorem witness_DivisionByZeroTraps : aluReady .byte 1 (.reg 2) (withRegs 0 1 0x0100 0 0) ∧
    aluRight .byte (.reg 2) (withRegs 0 1 0x0100 0 0) = 0 :=
  ⟨⟨by decide, trivial⟩, (by decide : ((withRegs 0 1 0x0100 0 0).reg 2).setWidth 8 = 0#8)⟩
theorem witness_StoreToMemory : baseIsRx (.mem (.preDec 2)) 1 = false ∧
    guarded.checkSized .write .word (effectiveAddress (.abs 0x7FFE) Size.word.bytes guarded) = none := by decide
theorem witness_StoreToProcessorRegister : start.supervisor = true ∧ ProcReg.usp ∈ [ProcReg.fl, .pc, .usp, .sp] := by decide
theorem witness_AluModeRowsComplete : aluCompletes .add .word 1 (.reg 2) start ∧ aluCompletes .sto .word 1 (.proc .fl) user ∧
    aluCompletes .sto .byte 1 (.mem (.abs 0x5000)) start ∧ aluCompletes .mul .word 1 (.imm 3) start ∧
    aluCompletes .div .word 1 (.imm 3) start :=
  ⟨⟨by decide, trivial⟩, (by decide : procAllowed user .fl = true),
    ⟨by decide, (by decide : start.checkSized .write .byte 0x5000 = none)⟩, ⟨⟨by decide, trivial⟩, rfl⟩,
    ⟨⟨by decide, trivial⟩, (by decide : (3 : Word).setWidth 16 ≠ 0#16)⟩⟩
theorem witness_OperandInMemory : start.checkSized .read .word 0xFFFF = none ∧ start.quiet ∧ start.plainFrom 0xFFFF 2 :=
  ⟨by decide, rfl, plainFrom_of (by decide)⟩
theorem witness_AccessFaultsTrap : baseIsRx (.mem (.preDec 2)) 1 = false ∧
    { guarded with regs := #v[0, 0, 0x8002, 0, 0, 0, 0, 0] }.checkSized .read .word
      (effectiveAddress (.preDec 2) Size.word.bytes { guarded with regs := #v[0, 0, 0x8002, 0, 0, 0, 0, 0] }) =
        some ⟨0x8000, false, false⟩ ∧
    guarded.checkSized .write .byte 0xC000 = some ⟨0xC000, false, true⟩ ∧
    { guarded with pc := 0x8000 }.fetchable = true ∧
    { guarded with pc := 0x8000 }.checkSized .read .word 0x8000 = some ⟨0x8000, false, false⟩ := by decide
/-- `JMP.F $FF06, $010E` as the last word of a bank, its first or its second operand word in a bank that faults. -/
def straddling (pc : Word) : State :=
  { poke 0x7FFC 0x01BA (poke 0x7FFE 0x01BA guarded) with pc := pc }
theorem witness_AccessFaultsTrap_operandWords :
    ((straddling 0x7FFE).fetchable = true ∧ (straddling 0x7FFE).checkSized .read .word 0x7FFE = none ∧
      2 ≤ wordCount (readValue .word 0x7FFE (straddling 0x7FFE)) ∧
      (straddling 0x7FFE).checkSized .read .word 0x8000 = some ⟨0x8000, false, false⟩) ∧
    ((straddling 0x7FFC).fetchable = true ∧ (straddling 0x7FFC).checkSized .read .word 0x7FFC = none ∧
      wordCount (readValue .word 0x7FFC (straddling 0x7FFC)) = 3 ∧ (straddling 0x7FFC).checkSized .read .word 0x7FFE = none ∧
      (straddling 0x7FFC).checkSized .read .word 0x8000 = some ⟨0x8000, false, false⟩) := by decide
/-- Supervisor bank 2 faults. -/
def walled : State := { mapped 0xC000 with mmuS := #v[0x0080, 0x0001, 0x2002, 0x0003] }
theorem witness_AccessFaultsTrap_jumps :
    guarded.checkSized .read .word (effectiveAddress (.abs 0x7FFF) 2 guarded) = some ⟨0x8000, false, false⟩ ∧
    walled.supervisor = true ∧ walled.checkSized .read .word (0x8000 + 0) = some ⟨0x8000, false, false⟩ ∧
    walled.checkSized .read .word (0x7FFE + 0) = none ∧ walled.checkSized .read .word (0x7FFE + 2) = some ⟨0x8000, false, false⟩ ∧
    interruptible (.bankFault ⟨0x8000, false, false⟩) walled :=
  ⟨by decide, by decide, by decide, by decide, by decide, pushable_of (by decide), by decide⟩

theorem witness_Branches : field 0x0590 0 8 = 0x90 ∧ field 0xFF9F 0 8 = 0x9F := by decide
theorem witness_BranchesAfterCompare : ∃ t, exec (.cmp .word 1 (.reg 2)) (withRegs 0 1 0xFFFF 0 0) = .next t :=
  ⟨_, exec_after (by decide)⟩
theorem witness_BitTests : field 0x53A8 0 8 = 0xA8 ∧ field 0x04AB 0 8 = 0xAB := by decide
theorem witness_FlagInstructions : field 0x20AE 0 8 = 0xAE ∧ field 0xFFAF 0 8 = 0xAF := by decide
theorem witness_AddImmediate : field 0x00B8 0 8 = 0xB8 ∧ field 0xFFB8 0 8 = 0xB8 := by decide

theorem witness_PushGeneral : start.pushable 8 ∧ guarded.pushable 8 := ⟨pushable_of (by decide), pushable_of (by decide)⟩
theorem witness_PopGeneral : start.poppable 8 ∧ start.quiet ∧ start.plainFrom start.sp 16 ∧ guarded.poppable 8 :=
  ⟨poppable_of (by decide), rfl, plainFrom_of (by decide), poppable_of (by decide)⟩
theorem witness_PopUndoesPush : start.pushable 8 ∧ start.quiet ∧ Mem.wf start.mem = true ∧
    start.ramFrom (start.sp - BitVec.ofNat 16 16) 16 :=
  ⟨pushable_of (by decide), rfl, by decide, ramFrom_of (by decide)⟩
theorem witness_PushStatus : start.pushable 8 ∧ user.pushable 4 ∧ (0xFF : BitVec 8) &&& 0x3C ≠ 0 :=
  ⟨pushable_of (by decide), pushable_of (by decide), by decide⟩
theorem witness_PopStatusSupervisor : start.supervisor = true ∧ start.poppable 8 ∧ start.quiet ∧ start.plainFrom start.ssp 16 :=
  ⟨by decide, poppable_of (by decide), rfl, plainFrom_of (by decide)⟩
/-- Every mask: FL, PC and USP are popped from $BFF0 up; SP from there on, or from the word popped for USP. -/
theorem witness_PopStatusUser : user.supervisor = false ∧ user.quiet ∧ user.poppable 3 ∧ user.plainFrom user.usp 6 ∧
    user.checkSized .read .word (user.wordAt 0xBFF0) = none ∧ user.plainFrom (user.wordAt 0xBFF0) 2 ∧
    user.checkSized .read .word 0xBFF6 = none ∧ user.plainFrom 0xBFF6 2 :=
  ⟨by decide, rfl, poppable_of (by decide), plainFrom_of (by decide), by decide, plainFrom_of (by decide), by decide,
    plainFrom_of (by decide)⟩
theorem witness_SubroutineReturns : start.checkSized .read .word start.sp = none ∧ start.plainFrom start.sp 2 ∧
    nearReadable (.mem (.abs 0x5000)) start ∧ start.pushable 1 ∧ start.quiet ∧ Mem.wf start.mem = true ∧
    start.ramFrom (start.sp - 2) 2 :=
  ⟨by decide, plainFrom_of (by decide), (by decide : start.checkSized .read .word 0x5000 = none), pushable_of (by decide), rfl,
    by decide, ramFrom_of (by decide)⟩

theorem witness_NearJumps : nearReadable (.imm 1) start ∧ nearReadable (.mem (.postInc 1)) guarded ∧ guarded.pushable 1 :=
  ⟨trivial, (by decide : guarded.checkSized .read .word 0 = none), pushable_of (by decide)⟩
theorem witness_FarJumps : start.supervisor = true ∧ farReadable (.imm 1 2) start ∧ farReadable (.mem (.preDec 1)) start ∧
    start.pushable 1 :=
  ⟨by decide, trivial, ⟨(by decide : start.checkSized .read .word 0xFFFE = none),
    (by decide : start.checkSized .read .word 0xFFFC = none)⟩, pushable_of (by decide)⟩
theorem witness_JumpModeRowsComplete : start.pushable 1 ∧ nearReadable (.reg 1) start ∧ start.supervisor = true ∧
    farReadable (.reg 7) start := ⟨pushable_of (by decide), trivial, by decide, trivial⟩

/-- The first and the last index under each map. -/
theorem witness_MmuCacheWords : start.supervisor = true ∧ ((withRegs 0 0 0 0 0).reg 1).toNat = 0 + 0 ∧
    ((withRegs 0 7 0 0 0).reg 1).toNat = 4 + 3 ∧ ((withRegs 0 14 0 0 0).reg 1).toNat = 8 + 2 * 3 := by decide
theorem witness_MmuCacheHalves : start.supervisor = true ∧ start.pushable 4 ∧ start.poppable 4 ∧ start.quiet ∧
    start.plainFrom start.ssp 8 :=
  ⟨by decide, pushable_of (by decide), poppable_of (by decide), rfl, plainFrom_of (by decide)⟩
/-- The YCPU itself, a device, an empty slot, an index above 15. -/
theorem witness_BusQueries : wired.supervisor = true ∧ wired.reg 0 = 0 ∧ ((withRegs 3 0 0 0 0 wired).reg 0).toNat = (3 : Fin 16).val ∧
    wired.devices[(3 : Fin 16)] ≠ none ∧ wired.devices[(15 : Fin 16)] = none ∧
    (∀ i : Fin 16, ((withRegs 16 0 0 0 0 wired).reg 0).toNat = i.val → i ≠ 0 ∧ wired.devices[i] = none) := by decide
theorem witness_ClockQueries : start.supervisor = true ∧ (withRegs 0xFFFF 0 0 0 0).supervisor = true := by decide
theorem witness_SleepUntilInterrupt : start.supervisor = true ∧ { start with halted := true }.sample.busCycle.lines.reset = false ∧
    { start with halted := true }.sample.busCycle.halted = true ∧ { start with halted := true }.sample.busCycle.ready = [] := by decide

theorem interruptible_start : interruptible .swi start := ⟨pushable_of (by decide), by decide⟩
/-- An entry that completes, with the MMU off and on, and one that is stuck (W21). -/
theorem witness_InterruptEntry : interruptible .swi start ∧ start.mmuOn = false ∧ interruptible .hwi guarded ∧ guarded.quiet ∧
    ¬ interruptible (.bankFault ⟨0x8000, false, false⟩)
      { mapped 0xC000 with ssp := 0x9000, mmuS := #v[0x0080, 0x0001, 0x2002, 0x0003] } :=
  ⟨interruptible_start, by decide, ⟨pushable_of (by decide), by decide⟩, rfl, fun h =>
    absurd (h.1 0 (by decide)) (by decide)⟩
theorem witness_ReturnFromInterrupt : start.supervisor = true ∧ start.poppable 2 ∧ start.quiet ∧ start.plainFrom start.ssp 4 :=
  ⟨by decide, poppable_of (by decide), rfl, plainFrom_of (by decide)⟩
theorem witness_ReturnUndoesEntry : (∃ t, takeInterrupt .swi 0x4012 start = .next t) ∧ start.quiet ∧ Mem.wf start.mem = true ∧
    (start.enter .swi).ramFrom (start.ssp - 4) 4 := ⟨⟨_, rfl⟩, rfl, by decide, ramFrom_of (by decide)⟩
theorem witness_UndefinedOpcodesTrap : (0x9A ≤ field 0x059A 0 8 ∧ field 0x059A 0 8 ≤ 0x9E) ∧
    0x9A ≤ field 0xFF9E 0 8 ∧ field 0xFF9E 0 8 ≤ 0x9E ∧ interruptible .undefOpcode { start with pc := start.pc + 2 } :=
  ⟨by decide, by decide, by decide, pushable_of (by decide), by decide⟩
theorem witness_PrivilegedInstructionsTrap : user.supervisor = false ∧ ProcReg.ia ∈ [ProcReg.ps, .p2, .ii, .ia] ∧
    interruptible .unprivOpcode { user with pc := user.pc + 2 } :=
  ⟨by decide, by decide, pushable_of (by decide), by decide⟩

theorem witness_UndefinedOpcodesTrap_words : field 0x05AC 0 8 ∈ [0xAC, 0xAD, 0xB4] ∧ 0xC0 ≤ field 0x12C0 0 8 ∧
    0xC0 ≤ field 0x00FF 0 8 ∧ (0x88 ≤ field 0x0188 0 8 ∧ field 0x0188 0 8 ≤ 0x8F ∧ field 0x0188 9 7 = 0) ∧
    (0x88 ≤ field 0x2F8F 0 8 ∧ field 0x2F8F 0 8 ≤ 0x8F ∧ field 0x2F8F 12 4 = 2) := by decide

/-- Devices 3 and 15 assert their IRQ with I = 1 and Q = 0. -/
def asserting : State := { start with ps := 0x2000, lines := { Lines.quiet with irq := 0x8008 } }

theorem witness_HardwareInterrupt : asserting.lines.irq.getLsbD 3 = true ∧
    (∀ j, 1 ≤ j → j < 3 → asserting.lines.irq.getLsbD j = false) ∧ asserting.lines.reset = false ∧ asserting.lines.busy = 0 ∧
    asserting.ready = [.hwi] ∧ interruptible .hwi { asserting with ii := 3 } :=
  ⟨by decide, fun j h1 h2 => by rcases (by omega : j = 1 ∨ j = 2) with rfl | rfl <;> decide, by decide, by decide, by decide,
    pushable_of (by decide), by decide⟩
theorem witness_AsynchronousInterrupts :
    { start with lines := { Lines.quiet with busy := 2 } }.lines.busy ≠ 0 ∧
    ({ start with lines := { Lines.quiet with busRefresh := true, debug := true } } : State).ready = [.busRefresh, .debugQuery] ∧
    start.lines.reset = false := by decide

/-- `LOD R0, $1234` at $400C, the last word of which ends where a bank with side effects could begin. -/
def loading : State := poke 0x400C 0x0080 (poke 0x400E 0x1234 { start with pc := 0x400C })

theorem witness_StepRunsDecoded :
    loading.sample.busCycle = loading ∧ loading.lines.reset = false ∧ loading.lines.busy = 0 ∧ loading.ready = [] ∧
    loading.halted = false ∧ loading.fetchable = true ∧ loading.quiet ∧
    decode ((List.range 6).map fun k => loading.byteAt (loading.pc + BitVec.ofNat 16 k)) = .ok (.lod .word 0 (.imm 0x1234), [0, 0]) ∧
    (∀ k < 2, loading.checkSized .read .word (loading.pc + BitVec.ofNat 16 (2 * k)) = none) ∧ loading.plainFrom loading.pc 4 :=
  ⟨rfl, by decide, by decide, by decide, by decide, by decide, rfl, by decide, by decide, plainFrom_of (by decide)⟩

/-- A change of the bus at a step, and one with an event of a step before still signalled. -/
def attaching : State :=
  { start with inputs := [{ lines := Lines.quiet, devices := some wired.devices, writes := [] }] }
theorem witness_AsynchronousInterrupts_busRefresh : attaching.sample.devices ≠ attaching.devices ∧
    Async.busRefresh ∈ attaching.sample.ready ∧
    (∃ k, 1 ≤ k ∧ k < 16 ∧ asserting.lines.irq.getLsbD k = true ∧ ∀ j, 1 ≤ j → j < k → asserting.lines.irq.getLsbD j = false) ∧
    interruptible .busRefresh { start with lines := { start.lines with busRefresh := false } } :=
  ⟨by decide, by decide, ⟨3, by decide, by decide, by decide, fun j h1 h2 => by
    rcases (by omega : j = 1 ∨ j = 2) with rfl | rfl <;> decide⟩, pushable_of (by decide), by decide⟩

theorem witness_FixedMap : start.mmuOn = false ∧ ∃ t, memWrite .word 0x8000 5 start = .ok () t := ⟨by decide, _, rfl⟩
theorem witness_FixedMap_read : ∃ v t, memRead .word 0xFFFF start = .ok v t := ⟨_, _, rfl⟩
/-- Each check at the first address of a bank it guards. -/
theorem witness_ProtectionChecks : guarded.mmuOn = true ∧ guarded.checkSized .read .byte 0x8000 = some ⟨0x8000, false, false⟩ ∧
    guarded.checkSized .write .word 0xBFFF ≠ none ∧ guarded.checkSized .write .byte 0xC000 = some ⟨0xC000, false, true⟩ ∧
    guarded.checkSized .read .byte 0xFFFF = none ∧
    { guarded with mmuU := #v[0x0080, 0x0001, 0x8002, 0x0003] }.checkSized .write .byte 0x8000 = some ⟨0x8000, true, true⟩ := by
  decide
theorem witness_MemoryReadsBack : (∃ t, memWrite .word 0x7FFF 0xBEEF start = .ok () t) ∧ start.quiet ∧ Mem.wf start.mem = true ∧
    start.ramFrom 0x7FFF 2 ∧
    (∀ k < 2, { mapped 0xC000 with mmuS := #v[0x0080, 0x0001, 0x0002, 0x007F] }.backing
      ({ mapped 0xC000 with mmuS := #v[0x0080, 0x0001, 0x0002, 0x007F] }.translate (0xC000 + BitVec.ofNat 16 k)) = .absent) :=
  ⟨⟨_, rfl⟩, rfl, by decide, ramFrom_of (by decide), by decide⟩

/-! ### Refused pushes and pops -/

theorem pushRefused_of {s : State} {n : Nat} {f : BankFault} (h : s.pushable n)
    (g : s.checkSized .write .word (s.sp - BitVec.ofNat 16 (2 * (n + 1))) = some f) : s.pushRefused n f := ⟨h, g⟩
theorem popRefused_of {s : State} {n : Nat} {f : BankFault} (h : s.poppable n)
    (g : s.checkSized .read .word (s.sp + BitVec.ofNat 16 (2 * n)) = some f) : s.popRefused n f := ⟨h, g⟩

/-- The third push, in either mode, and the first one, are refused; in User mode the interrupt can be taken. -/
theorem witness_StackFaultsTrap_pushes :
    { mapped 0xC000 with ssp := 0x4004, mmuS := #v[0x2080, 0x0001, 0x0002, 0x0003] }.pushRefused 2 ⟨0x3FFE, false, false⟩ ∧
    { mapped 0x4000 with usp := 0x4004, mmuU := #v[0x2080, 0x0001, 0x0002, 0x0003] }.pushRefused 2 ⟨0x3FFE, false, false⟩ ∧
    interruptible (.bankFault ⟨0x3FFE, false, false⟩)
      { mapped 0x4000 with usp := 0x3FFE, mmuU := #v[0x2080, 0x0001, 0x0002, 0x0003] } ∧
    { guarded with usp := 0xC004 }.pushRefused 0 ⟨0xC002, false, true⟩ ∧ nearReadable (.mem (.abs 0x5000)) guarded ∧
    { walled with ssp := 0xC000 }.pushRefused 0 ⟨0xBFFE, false, false⟩ ∧ walled.supervisor = true ∧
    farReadable (.mem (.abs 0x5000)) walled :=
  ⟨pushRefused_of (pushable_of (by decide)) (by decide), pushRefused_of (pushable_of (by decide)) (by decide),
    ⟨pushable_of (by decide), by decide⟩, pushRefused_of (pushable_of (by decide)) (by decide),
    (by decide : guarded.checkSized .read .word 0x5000 = none), pushRefused_of (pushable_of (by decide)) (by decide), by decide,
    ⟨(by decide : walled.checkSized .read .word 0x5000 = none), (by decide : walled.checkSized .read .word 0x5002 = none)⟩⟩

/-- The first and the fourth pop are refused, in either mode; in User mode also the pop of SP after the others. -/
theorem witness_StackFaultsTrap_pops :
    { walled with ssp := 0x7FFA }.popRefused 3 ⟨0x8000, false, false⟩ ∧
    { walled with ssp := 0x8000 }.popRefused 0 ⟨0x8000, false, false⟩ ∧ walled.quiet ∧
    { walled with ssp := 0x7FFA }.plainFrom 0x7FFA 6 ∧
    { guarded with usp := 0x7FFE }.popRefused 1 ⟨0x8000, false, false⟩ ∧ guarded.supervisor = false ∧ guarded.quiet ∧
    { guarded with usp := 0x7FFE }.plainFrom 0x7FFE 2 ∧
    ({ guarded with usp := 0x7FFA }.poppable 3 ∧ { guarded with usp := 0x7FFA }.plainFrom 0x7FFA 6 ∧
      { guarded with usp := 0x7FFA }.checkSized .read .word 0x8000 = some ⟨0x8000, false, false⟩) ∧
    interruptible (.bankFault ⟨0x8000, false, false⟩) { guarded with usp := 0x8000 } :=
  ⟨popRefused_of (poppable_of (by decide)) (by decide), popRefused_of (poppable_of (by decide)) (by decide), rfl,
    plainFrom_of (by decide), popRefused_of (poppable_of (by decide)) (by decide), by decide, rfl, plainFrom_of (by decide),
    ⟨poppable_of (by decide), plainFrom_of (by decide), by decide⟩, pushable_of (by decide), by decide⟩

end Sys2Proof.Tests
end

/-! The memory with the MMU off (spec/20_memory.md R66): the map is fixed, no check refuses, and the cache takes no part.
Each function of the MMU is given its value there once. -/

namespace Sys2Proof.Machine

/-! ## The fixed map -/

/-- The logical bank as a number: which 16 KiB quarter the address lies in (R67). -/
theorem bankOf_val (a : Word) : (bankOf a).val = a.toNat / 0x4000 := by
  show (a.extractLsb' 14 2).toNat = _
  rw [BitVec.extractLsb'_toNat, Nat.shiftRight_eq_div_pow]
  omega

/-- The ROM bank $80 stands first; every other logical bank is the RAM bank of its own number (R66). -/
theorem fixedWord_toNat (k : Fin 4) : (fixedWord k).toNat = if k.val = 0 then 0x80 else k.val := by
  match k with
  | 0 | 1 | 2 | 3 => rfl

/-- The bank that stands behind each quarter of the address space (R66). -/
theorem fixedWord_bankOf_toNat (a : Word) :
    (fixedWord (bankOf a)).toNat =
      if a.toNat < 0x4000 then 0x80 else if a.toNat < 0x8000 then 0x01 else if a.toNat < 0xC000 then 0x02 else 0x03 := by
  rw [fixedWord_toNat, bankOf_val]
  split_ifs <;> omega

/-! ## The MMU's functions while it is off -/

section
variable {s : State} (hoff : s.mmuOn = false)
include hoff

theorem mapWord_mmuOff (k : Fin 4) : s.mapWord k = fixedWord k := by
  simp [State.mapWord, hoff]

theorem translate_mmuOff (a : Word) : s.translate a = physAddr (fixedWord (bankOf a)) a := by
  rw [State.translate, mapWord_mmuOff hoff]

theorem translate_mmuOff_toNat (a : Word) :
    (s.translate a).toNat = (fixedWord (bankOf a)).toNat * 0x4000 + a.toNat % 0x4000 := by
  have hlt : (fixedWord (bankOf a)).toNat < 4096 := by
    rw [fixedWord_bankOf_toNat]; split_ifs <;> decide
  rw [translate_mmuOff hoff, physAddr_toNat, Nat.mod_eq_of_lt hlt]

theorem check_mmuOff (kind : Access) (a : Word) : s.check kind a = none := by
  simp [State.check, hoff]

theorem checkSized_mmuOff (kind : Access) (sz : Size) (a : Word) : s.checkSized kind sz a = none := by
  cases sz with
  | byte => exact check_mmuOff hoff kind a
  | word => simp [State.checkSized, check_mmuOff hoff]

theorem touch_mmuOff (a : Word) : s.touch a = s := by
  simp [State.touch, hoff]

theorem touchSized_mmuOff (sz : Size) (a : Word) : s.touchSized sz a = s := by
  cases sz with
  | byte => exact touch_mmuOff hoff a
  | word => simp [State.touchSized, touch_mmuOff hoff]

end

/-! ## What accesses leave of the cache -/

theorem MemStep.mmuOn {s t : State} (h : MemStep s t) : t.mmuOn = s.mmuOn := by
  rw [h.only]; rfl

theorem MemStep.cache {s t : State} (h : MemStep s t) : t.mmuU = s.mmuU ∧ t.mmuS = s.mmuS := by
  rw [h.only]; exact ⟨rfl, rfl⟩

/-- A read that completed leaves the cache alone, whether the MMU is on or off. -/
theorem memRead_ok_cache {sz : Size} {a v : Word} {s t : State} (h : memRead sz a s = .ok v t) :
    t.mmuU = s.mmuU ∧ t.mmuS = s.mmuS := by
  rcases memRead_cases sz a s with ⟨f, _, htrap⟩ | ⟨_, w, u, hok, hstep⟩
  · rw [htrap] at h; cases h
  · rw [hok] at h; cases h; exact hstep.cache

/-- With the MMU off a write sets no A flag: it is the moving of its bytes. -/
theorem memWrite_mmuOff {s : State} (hoff : s.mmuOn = false) (sz : Size) (a v : Word) :
    memWrite sz a v s = .ok () (s.storeSized sz a v) := by
  have hstep := storeSized_memStep s sz a v
  rw [memWrite, checkSized_mmuOff hoff, touchSized_mmuOff (hstep.mmuOn.trans hoff)]

/-- Settles O57: with the MMU off each function of the MMU is its value under the fixed map, and an access is a
`MemStep`, which leaves the cache alone. -/
theorem fixedMap : Obligations.FixedMap := by
  intro a s hoff
  refine ⟨?_, fun kind sz => checkSized_mmuOff hoff kind sz a, fun e g => ?_, fun _ _ _ => memRead_ok_cache,
    fun sz v t hwrite => ?_⟩
  · rw [translate_mmuOff_toNat hoff, fixedWord_bankOf_toNat]
  · have hoff' : ({ s with mmuU := e, mmuS := g } : State).mmuOn = false := hoff
    rw [translate_mmuOff hoff', translate_mmuOff hoff]
  · rw [memWrite_mmuOff hoff] at hwrite
    cases hwrite
    exact (storeSized_memStep s sz a v).cache

end Sys2Proof.Machine

/-! The immediate instructions (spec/44_immediate.md R225): what a 16-bit sum written to Rx leaves, and that a sum of
words is the sum of the integers they stand for. -/

namespace Sys2Proof.Machine

/-! ## Fields as slices of the word -/

theorem field_eq_extractLsb' (w : Word) (lo n : Nat) : field w lo n = (w.extractLsb' lo n).toNat := by
  rw [field, BitVec.extractLsb'_toNat, Nat.shiftRight_eq_div_pow]

theorem regAt_eq_toFin (w : Word) (lo : Nat) : regAt w lo = (w.extractLsb' lo 3).toFin := by
  rw [regAt, field_eq_extractLsb']
  exact Fin.ofNat_val_eq_self _

/-- The opcode $B8 holds INC and ADI, by the value field (R225). -/
theorem decodeWords_addImmediate {w : Word} (h : field w 0 8 = 0xB8) (w1 w2 : Word) :
    decodeWords w w1 w2 = if w.extractLsb' 8 5 = 0 then .inc (w.extractLsb' 13 3).toFin
      else .adi (w.extractLsb' 13 3).toFin (w.extractLsb' 8 5) := by
  have hv : BitVec.ofNat 5 (field w 8 5) = w.extractLsb' 8 5 := by
    rw [field_eq_extractLsb', BitVec.ofNat_toNat, BitVec.setWidth_eq]
  rw [← regAt_eq_toFin, ← hv, decodeWords, h]
  rfl

/-! ## Sums as integers -/

/-- V of a sum: the exact signed sum does not fit (R144). -/
theorem saddOverflow_eq_not_fitsSigned {w : Nat} (a b : BitVec w) :
    a.saddOverflow b = !fitsSigned w (a.toInt + b.toInt) := by
  rw [BitVec.saddOverflow, fitsSigned, Bool.eq_iff_iff]
  simp only [Bool.or_eq_true, Bool.not_eq_true', decide_eq_true_eq, decide_eq_false_iff_not]
  omega

/-- `AddW` without a carry in, in the operations of the library. -/
theorem addW_noCarry {w : Nat} (a b : BitVec w) :
    addW a b false = (a + b, decide (2 ^ w ≤ a.toNat + b.toNat), a.saddOverflow b) := by
  have hsum : BitVec.ofNat w (a.toNat + b.toNat) = a + b := by
    rw [BitVec.ofNat_add, BitVec.ofNat_toNat, BitVec.ofNat_toNat, BitVec.setWidth_eq, BitVec.setWidth_eq]
  simp only [addW, Bool.toNat_false, Nat.add_zero, hsum, BitVec.saddOverflow_eq]
  rfl

theorem ofInt_toInt_add {w : Nat} (a b : BitVec w) : BitVec.ofInt w (a.toInt + b.toInt) = a + b := by
  rw [BitVec.ofInt_add, BitVec.ofInt_toInt, BitVec.ofInt_toInt]

/-- The flags of a sum are those of the exact signed sum. -/
theorem arith_saddOverflow {w : Nat} (a b : BitVec w) (carry : Bool) :
    Flags.arith (a + b) carry (a.saddOverflow b) = sumFlags w (a.toInt + b.toInt) carry := by
  rw [Flags.arith, sumFlags, ofInt_toInt_add, saddOverflow_eq_not_fitsSigned]

/-! ## A sum or difference written to Rx -/

/-- The state after an instruction of `len` words that writes a sum or difference to Rx and assigns all four flags. -/
def summed (len : Nat) (rx : Reg) (x : Word × Bool × Bool) (s : State) : State :=
  ((s.started len).setReg rx x.1).setFlags (.arith x.1 x.2.1 x.2.2)

theorem setFlags_flagsSet (s : State) (f : Flags) : FlagsSet s (s.setFlags f) f where
  flags := flags_setFlags s f
  rest := by
    apply BitVec.eq_of_getLsbD_eq
    intro i hi
    simp only [BitVec.getLsbD_extractLsb', Nat.zero_add, fl_setFlags, putFlags_other _ _ _ hi]

theorem summed_registerResult (rx : Reg) (x : Word × Bool × Bool) (s : State) :
    RegisterResult s (summed 1 rx x s) (s.regs.set rx x.1) (.arith x.1 x.2.1 x.2.2) where
  only := rfl
  fl :=
    have h := setFlags_flagsSet ((s.started 1).setReg rx x.1) (.arith x.1 x.2.1 x.2.2)
    ⟨h.flags, h.rest⟩

theorem immValue_eq_ofNat (v : BitVec 5) : immValue v = BitVec.ofNat 16 (v.toNat + 1) := by
  rw [immValue, BitVec.ofNat_add, BitVec.ofNat_toNat]
  rfl

theorem exec_inc (rx : Reg) (s : State) :
    exec (.inc rx) s = .next (summed 1 rx (addW (s.reg rx) (BitVec.ofNat 16 1) false) s) := rfl

theorem exec_adi (rx : Reg) (v : BitVec 5) (s : State) :
    exec (.adi rx v) s = .next (summed 1 rx (addW (s.reg rx) (BitVec.ofNat 16 (v.toNat + 1)) false) s) := by
  rw [← immValue_eq_ofNat]
  rfl

theorem exec_add_imm (rx : Reg) (m : Word) (s : State) :
    exec (.add .word rx (.imm m)) s = .next (summed 2 rx (addW (s.reg rx) m false) s) := rfl

theorem summed_addW_registerResult (rx : Reg) (m : Word) (s : State) :
    RegisterResult s (summed 1 rx (addW (s.reg rx) m false) s)
      (s.regs.set rx (BitVec.ofInt 16 ((s.reg rx).toInt + m.toInt)))
      (sumFlags 16 ((s.reg rx).toInt + m.toInt) (decide (2 ^ 16 ≤ (s.reg rx).toNat + m.toNat))) := by
  rw [ofInt_toInt_add, ← arith_saddOverflow, addW_noCarry]
  exact summed_registerResult rx _ s

/-- What ADI and INC do, for a constant `k` (R225): the exact sum, its flags, and the same R0..R7 and FL as
`ADD Rx, k`. -/
theorem addConstant_result {i : Instr} {rx : Reg} {k : Nat} {s : State} (hk : k ≤ 32)
    (hexec : exec i s = .next (summed 1 rx (addW (s.reg rx) (BitVec.ofNat 16 k) false) s)) :
    ∃ t, exec i s = .next t ∧
      RegisterResult s t (s.regs.set rx (BitVec.ofInt 16 ((s.reg rx).toInt + k)))
        (sumFlags 16 ((s.reg rx).toInt + k) (decide (2 ^ 16 ≤ (s.reg rx).toNat + k))) ∧
      ∃ u, exec (.add .word rx (.imm (BitVec.ofNat 16 k))) s = .next u ∧ u.regs = t.regs ∧ u.fl = t.fl := by
  refine ⟨_, hexec, ?_, _, exec_add_imm rx _ s, rfl, rfl⟩
  have hnat : (BitVec.ofNat 16 k).toNat = k := by
    rw [BitVec.toNat_ofNat]; omega
  have hint : (BitVec.ofNat 16 k).toInt = k := by
    rw [BitVec.toInt_eq_toNat_of_lt (by omega), hnat]
  have hresult := summed_addW_registerResult rx (BitVec.ofNat 16 k) s
  rwa [hint, hnat] at hresult

/-- Settles O32: INC and ADI write the sum of Rx and a constant 1..32, by `addConstant_result`. -/
theorem addImmediate : Obligations.AddImmediate := by
  refine ⟨fun w w1 w2 h => decodeWords_addImmediate h w1 w2, fun rx v s => ?_⟩
  rw [List.forall_mem_cons, List.forall_mem_singleton]
  have hv := v.isLt
  exact ⟨addConstant_result (by omega) (exec_inc rx s), addConstant_result (by omega) (exec_adi rx v s)⟩

end Sys2Proof.Machine

/-! The flag instructions SEF and CLF (spec/48_processor.md R260, R261): a mask over N Z C V, widened to its place in FL,
is the bits the one sets and the other clears. -/

namespace Sys2Proof.Machine

/-! ## The words of SEF and CLF -/

theorem ofNat_field_eq_extractLsb' (w : Word) (lo n : Nat) : BitVec.ofNat n (field w lo n) = w.extractLsb' lo n := by
  rw [field_eq_extractLsb', BitVec.ofNat_toNat, BitVec.setWidth_eq]

/-- The opcode $AE is SEF of the mask in bits 15..12; bits 11..8 are not looked at (R111). -/
theorem decodeWords_sef {w : Word} (h : field w 0 8 = 0xAE) (w1 w2 : Word) :
    decodeWords w w1 w2 = .sef (w.extractLsb' 12 4) := by
  rw [← ofNat_field_eq_extractLsb', decodeWords, h]
  rfl

/-- The opcode $AF is CLF of the mask in bits 15..12; bits 11..8 are not looked at (R111). -/
theorem decodeWords_clf {w : Word} (h : field w 0 8 = 0xAF) (w1 w2 : Word) :
    decodeWords w w1 w2 = .clf (w.extractLsb' 12 4) := by
  rw [← ofNat_field_eq_extractLsb', decodeWords, h]
  rfl

/-! ## The mask in FL -/

/-- Bit `j` of the mask stands at the position of flag `j`. -/
theorem getLsbD_flagMask_flag (mask : BitVec 4) (j : Nat) : (flagMask mask).getLsbD (12 + j) = mask.getLsbD j := by
  rw [flagMask, BitVec.getLsbD_append, if_neg (by omega), Nat.add_sub_cancel_left]

/-- The mask has no bit below the flags. -/
theorem extractLsb'_flagMask (mask : BitVec 4) : (flagMask mask).extractLsb' 0 12 = 0#12 := by
  rw [flagMask, BitVec.extractLsb'_append_eq_right]
  rfl

section
variable (fl : Word) (mask : BitVec 4)

theorem getLsbD_or_flagMask (j : Nat) :
    (fl ||| flagMask mask).getLsbD (12 + j) = (fl.getLsbD (12 + j) || mask.getLsbD j) := by
  rw [BitVec.getLsbD_or, getLsbD_flagMask_flag]

theorem getLsbD_and_not_flagMask {j : Nat} (hj : j < 4) :
    (fl &&& ~~~flagMask mask).getLsbD (12 + j) = (fl.getLsbD (12 + j) && !mask.getLsbD j) := by
  have hbit : 12 + j < 16 := by omega
  rw [BitVec.getLsbD_and, BitVec.getLsbD_not, getLsbD_flagMask_flag, decide_eq_true hbit, Bool.true_and]

theorem extractLsb'_or_flagMask : (fl ||| flagMask mask).extractLsb' 0 12 = fl.extractLsb' 0 12 := by
  rw [BitVec.extractLsb'_or, extractLsb'_flagMask, BitVec.or_zero]

theorem extractLsb'_and_not_flagMask : (fl &&& ~~~flagMask mask).extractLsb' 0 12 = fl.extractLsb' 0 12 := by
  rw [BitVec.extractLsb'_and, BitVec.extractLsb'_not_of_lt (by decide), extractLsb'_flagMask, BitVec.not_zero,
    BitVec.and_allOnes]

end

/-! ## What SEF and CLF do -/

theorem exec_sef (mask : BitVec 4) (s : State) :
    exec (.sef mask) s = .next { s with pc := s.pc + 2, fl := s.fl ||| flagMask mask } := rfl

theorem exec_clf (mask : BitVec 4) (s : State) :
    exec (.clf mask) s = .next { s with pc := s.pc + 2, fl := s.fl &&& ~~~flagMask mask } := rfl

/-- Settles O31: SEF and CLF change FL alone, by the mask in its place (`exec_sef`, `exec_clf`), which has the mask's bits
at the flags and none below them. -/
theorem flagInstructions : Obligations.FlagInstructions := by
  refine ⟨fun w w1 w2 h => decodeWords_sef h w1 w2, fun w w1 w2 h => decodeWords_clf h w1 w2, fun mask s => ?_⟩
  exact ⟨_, _, exec_sef mask s, exec_clf mask s, rfl, rfl,
    fun j _ => getLsbD_or_flagMask s.fl mask j, fun _ hj => getLsbD_and_not_flagMask s.fl mask hj,
    extractLsb'_or_flagMask s.fl mask, extractLsb'_and_not_flagMask s.fl mask⟩

end Sys2Proof.Machine

/-! What an instruction may do, said once for all of them: its parts keep the parameters, the canonical form of
memory, the bytes that are no RAM and an RTC rate that is allowed; in User mode they keep the supervisor's part of the
state as well, and store only through cache words without P, S and W. The statements over all instructions and over
steps are read off the one lemma `exec_next_cases`. -/

namespace Sys2Proof.Machine

/-! ## The relations -/

/-- What a part of any instruction keeps, in either mode. HWQ $81 sets a rate the RTC can give only where the CPU
frequency is one the spec allows (R267), so the rate is kept under that premise. -/
structure Preserves (s t : State) : Prop where
  platform : t.platform = s.platform
  devices : t.devices = s.devices
  wf : Mem.wf s.mem = true → Mem.wf t.mem = true
  bytes : ∀ pa : PAddr, s.backing pa ≠ .ram → t.peek pa = s.peek pa
  rtc : s.platform.valid = true → rtcWf s.rtc s.platform = true → rtcWf t.rtc t.platform = true
  quiet : s.quiet → t.quiet

theorem Keeps.preserves {s t : State} (h : Keeps s t) : Preserves s t :=
  ⟨h.platform, h.devices, h.wf, h.bytes, fun _ => h.rtc, h.quiet⟩

theorem Preserves.trans {s t u : State} (h : Preserves s t) (g : Preserves t u) : Preserves s u where
  platform := g.platform.trans h.platform
  devices := g.devices.trans h.devices
  wf := fun w => g.wf (h.wf w)
  bytes := fun pa hp =>
    (g.bytes pa (by rw [backing_of_eq h.platform h.devices]; exact hp)).trans (h.bytes pa hp)
  rtc := fun hv w => g.rtc (by rw [h.platform]; exact hv) (h.rtc hv w)
  quiet := fun q => g.quiet (h.quiet q)

/-- A user program may store to a physical byte: a word of the user half maps its bank, without P, S and W (R68). -/
def State.userWritable (s : State) (pa : PAddr) : Prop :=
  ∃ k : Fin 4, s.mmuU[k].extractLsb' 0 12 = pa.extractLsb' 14 12 ∧ s.mmuU[k].extractLsb' 13 3 = 0

/-- What a part of an instruction keeps that User mode may run. -/
structure Confined (s t : State) : Prop extends Preserves s t where
  user : s.supervisor = false → t.supervisorState = s.supervisorState
  stores : s.supervisor = false → s.mmuOn = true → s.quiet → ∀ pa : PAddr, t.peek pa ≠ s.peek pa → s.userWritable pa

/-- Fields of a cache word that do not hold its A flag. -/
theorem extractLsb'_of_withoutAccessed {e d : Word} (h : withoutAccessed e = withoutAccessed d) {lo n : Nat}
    (hlo : lo + n ≤ 12 ∨ (12 < lo ∧ lo + n ≤ 16)) : e.extractLsb' lo n = d.extractLsb' lo n := by
  apply BitVec.eq_of_getLsbD_eq
  intro i hi
  simp only [BitVec.getLsbD_extractLsb', hi, decide_true, Bool.true_and]
  exact getLsbD_of_withoutAccessed h (by omega) (by omega)

theorem userWritable_of_supervisorState {s t : State} (h : t.supervisorState = s.supervisorState) {pa : PAddr}
    (hw : t.userWritable pa) : s.userWritable pa := by
  obtain ⟨k, hbank, hflags⟩ := hw
  have hk := getElem_of_map_eq (congrArg SupervisorState.mmuU h) k
  refine ⟨k, ?_, ?_⟩
  · rw [← hbank, extractLsb'_of_withoutAccessed hk (by decide)]
  · rw [← hflags, extractLsb'_of_withoutAccessed hk (by decide)]

theorem mmuOn_of_supervisorState {s t : State} (h : t.supervisorState = s.supervisorState) : t.mmuOn = s.mmuOn := by
  have hps : t.ps = s.ps := congrArg SupervisorState.ps h
  simp only [State.mmuOn, hps]

theorem Confined.trans {s t u : State} (h : Confined s t) (g : Confined t u) : Confined s u where
  toPreserves := h.toPreserves.trans g.toPreserves
  user := fun e => (g.user (by rw [supervisor_of_supervisorState (h.user e)]; exact e)).trans (h.user e)
  stores := fun e hm q pa hne => by
    by_cases hst : t.peek pa = s.peek pa
    · have hsup := h.user e
      rw [← hst] at hne
      refine userWritable_of_supervisorState hsup (g.stores ?_ ?_ (h.quiet q) pa hne)
      · rw [supervisor_of_supervisorState hsup, e]
      · rw [mmuOn_of_supervisorState hsup, hm]
    · exact h.stores e hm q pa hst

/-- What changes no byte while the schedule is empty is confined. -/
theorem SafeStep.confined {s t : State} (h : SafeStep s t) (hm : s.quiet → t.mem = s.mem) : Confined s t where
  toPreserves := h.toKeeps.preserves
  user := h.user
  stores := fun _ _ q pa hne => absurd (by rw [State.peek, hm q, State.peek]) hne

theorem Confined.refl (s : State) : Confined s s := (SafeStep.refl s).confined fun _ => rfl

/-- A supervisor is not confined. -/
theorem Preserves.confined {s t : State} (h : Preserves s t) (hs : s.supervisor = true) : Confined s t where
  toPreserves := h
  user := fun e => by rw [hs] at e; cases e
  stores := fun e => by rw [hs] at e; cases e

/-! ## Results -/

/-- The interrupts that the parts of an instruction raise: all of them save `pc0` (R296). -/
def Interrupt.isError : Interrupt → Bool
  | .divideByZero | .bankFault _ | .unprivOpcode | .undefOpcode => true
  | _ => false

theorem savedPc_of_isError {i : Interrupt} (h : i.isError = true) (pc0 pcn : Word) : i.savedPc pc0 pcn = pc0 := by
  cases i with
  | swi => cases h
  | _ => rfl

/-- However a part of an instruction ends, `R` holds of the state before and the one it leaves; an interrupt it raises
is an error. -/
def Res.Ends {α : Type} (R : State → State → Prop) (s : State) : Res α → Prop
  | .ok _ t => R s t
  | .trap i t => R s t ∧ i.isError = true
  | .refuse _ => True

theorem Res.Ends.mono {α : Type} {R Q : State → State → Prop} {s t : State} {x : Res α} (h : x.Ends R t)
    (hrq : ∀ u, R t u → Q s u) : x.Ends Q s := by
  cases x with
  | ok _ _ => exact hrq _ h
  | trap _ _ => exact ⟨hrq _ h.1, h.2⟩
  | refuse _ => trivial

/-- A sequence ends as its parts do, when the relation is transitive. -/
theorem Res.Ends.bind {α β : Type} {R : State → State → Prop} (htrans : ∀ {s t u}, R s t → R t u → R s u) {s : State}
    {x : Res α} {k : α → State → Res β} (h : x.Ends R s) (hk : ∀ v t, (k v t).Ends R t) : (x.bind k).Ends R s := by
  cases x with
  | ok v t => exact (hk v t).mono fun _ g => htrans h g
  | trap _ _ => exact h
  | refuse _ => trivial

theorem Res.Ends.bindConfined {α β : Type} {s : State} {x : Res α} {k : α → State → Res β} (h : x.Ends Confined s)
    (hk : ∀ v t, (k v t).Ends Confined t) : (x.bind k).Ends Confined s :=
  Res.Ends.bind (R := Confined) (fun h g => h.trans g) h hk

theorem Res.Ends.bindPreserves {α β : Type} {s : State} {x : Res α} {k : α → State → Res β} (h : x.Ends Preserves s)
    (hk : ∀ v t, (k v t).Ends Preserves t) : (x.bind k).Ends Preserves s :=
  Res.Ends.bind (R := Preserves) (fun h g => h.trans g) h hk

theorem Res.Ends.preserves {α : Type} {s : State} {x : Res α} (h : x.Ends Confined s) : x.Ends Preserves s :=
  h.mono fun _ g => g.toPreserves

/-! ## Registers -/

theorem setReg_confined (s : State) (r : Reg) (v : Word) : Confined s (s.setReg r v) :=
  (setReg_safe s r v).confined fun _ => rfl

theorem setPc_confined (s : State) (v : Word) : Confined s (s.setPc v) := (setPc_safe s v).confined fun _ => rfl

theorem setFlags_confined (s : State) (f : Flags) : Confined s (s.setFlags f) :=
  (setFlags_safe s f).confined fun _ => rfl

theorem setSp_confined (s : State) (v : Word) : Confined s (s.setSp v) :=
  (setSp_safe s v).confined fun _ => mem_setSp s v

theorem setProc_confined (s : State) (p : ProcReg) (v : Word) (h : procAllowed s p = true) :
    Confined s (s.setProc p v) :=
  (setProc_safe s p v h).confined fun _ => by
    cases p
    case sp => exact mem_setSp s v
    all_goals rfl

theorem setProc_preserves (s : State) (p : ProcReg) (v : Word) : Preserves s (s.setProc p v) :=
  (setProc_keeps s p v).preserves

/-- The result of an ALU, shift or bit instruction: Rx and FL. -/
theorem setResult_confined (s : State) (rx : Reg) (v : Word) (f : Flags) : Confined s ((s.setReg rx v).setFlags f) :=
  (setReg_confined s rx v).trans (setFlags_confined _ f)

theorem lowerBase_confined (m : MemMode) (n : Word) (s : State) : Confined s (lowerBase m n s) :=
  (lowerBase_safe m n s).confined fun _ => by cases m <;> rfl

theorem raiseBase_confined (m : MemMode) (n a : Word) (s : State) : Confined s (raiseBase m n a s) :=
  (raiseBase_safe m n a s).confined fun _ => by cases m <;> rfl

/-! ## Memory -/

theorem memRead_ends (sz : Size) (a : Word) (s : State) : (memRead sz a s).Ends Confined s := by
  cases h : s.checkSized .read sz a with
  | some f => rw [memRead_fault h]; exact ⟨Confined.refl s, rfl⟩
  | none =>
    obtain ⟨t, e, g, q⟩ := memRead_value h
    rw [e]
    exact g.safe.confined fun hq => (q hq).1

/-- A user store that passed the checks of a byte goes to a bank it may write. -/
theorem userWritable_of_check {s : State} {a : Word} (hs : s.supervisor = false) (hm : s.mmuOn = true)
    (hc : s.check .write a = none) : s.userWritable (s.translate a) := by
  have hmap : s.mapWord (bankOf a) = s.mmuU[bankOf a] := by simp [State.mapWord, hm, hs]
  refine ⟨bankOf a, ?_, ?_⟩
  · apply BitVec.eq_of_toNat_eq
    simp only [State.translate, hmap, BitVec.extractLsb'_toNat, physAddr_toNat, Nat.shiftRight_eq_div_pow]
    omega
  · have hbits : (s.mmuU[bankOf a]).getLsbD 13 = false ∧ (s.mmuU[bankOf a]).getLsbD 15 = false ∧
        (s.mmuU[bankOf a]).getLsbD 14 = false := by
      simp only [State.check, hm, hs, hmap, if_true] at hc
      split_ifs at hc with h13 h15 h14
      simp_all
    obtain ⟨hp, hS, hw⟩ := hbits
    apply BitVec.eq_of_getLsbD_eq
    intro i hi
    have hi3 : i = 0 ∨ i = 1 ∨ i = 2 := by omega
    rcases hi3 with rfl | rfl | rfl <;> simpa [BitVec.getLsbD_extractLsb']

/-- A store that passed its checks passed those of each byte it moves. -/
theorem check_of_checkSized {s : State} {kind : Access} {sz : Size} {a : Word} (h : s.checkSized kind sz a = none)
    {k : Nat} (hk : k < sizeBytes sz) : s.check kind (a + BitVec.ofNat 16 k) = none := by
  cases sz with
  | byte =>
    have h0 : k = 0 := by simp only [sizeBytes] at hk; omega
    subst h0
    rw [BitVec.add_zero]
    exact h
  | word =>
    have hboth : s.check kind a = none ∧ s.check kind (a + 1) = none := by
      simpa [State.checkSized, Option.or_eq_none_iff] using h
    have h01 : k = 0 ∨ k = 1 := by simp only [sizeBytes] at hk; omega
    rcases h01 with rfl | rfl
    · simpa using hboth.1
    · exact hboth.2

theorem length_take_bytesOfWord (sz : Size) (v : Word) :
    ((bytesOfWord v).take (sz.bits / 8)).length = sizeBytes sz := by
  cases sz <;> rfl

theorem memWrite_ends (sz : Size) (a v : Word) (s : State) : (memWrite sz a v s).Ends Confined s := by
  rcases memWrite_cases sz a v s with ⟨f, _, h⟩ | ⟨hc, h, g⟩
  · rw [h]; exact ⟨Confined.refl s, rfl⟩
  · rw [h]
    refine ⟨g.safe.toKeeps.preserves, g.safe.user, fun hs hm hq pa hne => ?_⟩
    by_contra hw
    refine hne ((memWrite_stores sz a v s).others hq pa fun k hk hpa => hw ?_)
    rw [length_take_bytesOfWord] at hk
    rw [hpa]
    exact userWritable_of_check hs hm (check_of_checkSized hc hk)

theorem readPlace_ends (sz : Size) (m : MemMode) (s : State) : (readPlace sz m s).Ends Confined s :=
  .bindConfined ((memRead_ends sz _ _).mono fun _ g => (lowerBase_confined m _ s).trans g)
    fun _ t => raiseBase_confined m _ _ t

theorem writePlace_ends (sz : Size) (m : MemMode) (v : Word) (s : State) : (writePlace sz m v s).Ends Confined s :=
  .bindConfined ((memWrite_ends sz _ v _).mono fun _ g => (lowerBase_confined m _ s).trans g)
    fun _ t => raiseBase_confined m _ _ t

theorem readOperand_ends (sz : Size) (m : AluOperand) (s : State) : (readOperand sz m s).Ends Confined s := by
  cases m with
  | imm v => exact Confined.refl s
  | proc p =>
    simp only [readOperand]
    split
    · exact Confined.refl s
    · exact ⟨Confined.refl s, rfl⟩
  | reg r => exact Confined.refl s
  | mem mode => exact .bindConfined (readPlace_ends sz mode s) fun _ t => Confined.refl t

theorem readNear_ends (m : JmpOperand) (s : State) : (readNear m s).Ends Confined s := by
  cases m with
  | imm v => exact Confined.refl s
  | reg r => exact Confined.refl s
  | mem mode => exact readPlace_ends .word mode s

theorem readFar_ends (m : FarOperand) (s : State) : (readFar m s).Ends Confined s := by
  cases m with
  | imm l u => exact Confined.refl s
  | reg r => exact Confined.refl s
  | mem mode =>
    exact .bindConfined ((memRead_ends .word _ _).mono fun _ g => (lowerBase_confined mode _ s).trans g)
      fun _ t => .bindConfined (memRead_ends .word _ t) fun _ u => raiseBase_confined mode _ _ u

/-! ## The stack -/

theorem push_ends (v : Word) (s : State) : (push v s).Ends Confined s :=
  (memWrite_ends .word _ v _).mono fun _ g => (setSp_confined s _).trans g

theorem pop_ends (s : State) : (pop s).Ends Confined s :=
  .bindConfined (memRead_ends .word s.sp s) fun _ t => setSp_confined t _

theorem pushAll_ends (vs : List Word) (s : State) : (pushAll vs s).Ends Confined s := by
  induction vs generalizing s with
  | nil => exact Confined.refl s
  | cons v rest ih => exact .bindConfined (push_ends v s) fun _ t => ih t

theorem popRegs_ends (rs : List Reg) (s : State) : (popRegs rs s).Ends Confined s := by
  induction rs generalizing s with
  | nil => exact Confined.refl s
  | cons r rest ih =>
    exact .bindConfined (pop_ends s) fun v t => (ih (t.setReg r v)).mono fun _ g => (setReg_confined t r v).trans g

theorem commitPs_preserves (held : Option Word) (s : State) : Preserves s (commitPs held s) := by
  cases held with
  | none => exact (Keeps.refl s).preserves
  | some v => exact (setProc_keeps s .ps v).preserves

/-- Pops into processor registers, as a supervisor may do them. -/
theorem popProcs_ends_preserves (ps : List ProcReg) (held : Option Word) (s : State) :
    (popProcs ps held s).Ends Preserves s := by
  induction ps generalizing held s with
  | nil => exact commitPs_preserves held s
  | cons p rest ih =>
    have hpop := (pop_ends s).preserves
    rw [popProcs]
    cases h : pop s with
    | ok v t =>
      rw [h] at hpop
      dsimp only
      split
      · exact (ih (some v) t).mono fun _ g => hpop.trans g
      · exact (ih held _).mono fun _ g => (hpop.trans (setProc_preserves t p v)).trans g
    | trap i t => rw [h] at hpop; exact ⟨hpop.1.trans (commitPs_preserves held t), hpop.2⟩
    | refuse r => trivial

/-- Pops into processor registers that any mode may name. -/
theorem popProcs_ends_confined (ps : List ProcReg) (hps : ∀ p ∈ ps, supervisorOnly p = false) (s : State) :
    (popProcs ps none s).Ends Confined s := by
  induction ps generalizing s with
  | nil => exact Confined.refl s
  | cons p rest ih =>
    have hp : supervisorOnly p = false := hps p (List.mem_cons_self ..)
    have hne : p ≠ .ps := fun e => by rw [e] at hp; cases hp
    have hpop := pop_ends s
    rw [popProcs]
    cases h : pop s with
    | ok v t =>
      rw [h] at hpop
      simp only [if_neg hne]
      have hset := setProc_confined t p v (by rw [procAllowed, hp, Bool.not_false, Bool.or_true])
      exact (ih (fun q hq => hps q (List.mem_cons_of_mem _ hq)) _).mono fun _ g => (hpop.trans hset).trans g
    | trap i t => rw [h] at hpop; exact hpop
    | refuse r => trivial

theorem afterTransfers_ends (forbidden : Bool) (s : State) : (afterTransfers forbidden s).Ends Confined s := by
  cases forbidden
  · exact Confined.refl s
  · exact ⟨Confined.refl s, rfl⟩

theorem pushStatusBody_ends (mask : BitVec 8) (s : State) : (pushStatusBody mask s).Ends Confined s :=
  .bindConfined (pushAll_ends _ s) fun _ t => afterTransfers_ends _ t

theorem popStatusBody_ends (mask : BitVec 8) (s : State) : (popStatusBody mask s).Ends Confined s := by
  refine .bindConfined ?_ fun _ t => afterTransfers_ends _ t
  cases hs : s.supervisor with
  | true => exact (popProcs_ends_preserves _ none s).mono fun _ g => g.confined hs
  | false =>
    refine popProcs_ends_confined _ (fun p hp => ?_) s
    have hmem := (List.mem_filter.mp hp).2
    rw [procAllowed, hs, Bool.false_or, Bool.and_eq_true, Bool.not_eq_true'] at hmem
    exact hmem.2

/-! ## The ALU -/

theorem withOperand_ends {sz : Size} {rx : Reg} {m : AluOperand}
    {k : (a v : BitVec (operandSize m sz).bits) → State → Res Unit} (hk : ∀ a v s, (k a v s).Ends Confined s)
      (s : State) :
    (withOperand sz rx m k s).Ends Confined s := by
  unfold withOperand
  split
  · trivial
  · exact .bindConfined (readOperand_ends _ m s) fun v t => hk _ v t

theorem withFactors_ends {sz : Size} {rx : Reg} {m : AluOperand} {k : (a v : Word) → State → Res Unit}
    (hk : ∀ a v s, (k a v s).Ends Confined s) (s : State) : (withFactors sz rx m k s).Ends Confined s := by
  unfold withFactors
  split
  · trivial
  split
  · trivial
  · exact .bindConfined (readOperand_ends _ m s) fun v t => hk _ v t

theorem unlessZero_ends {w : Nat} {m : BitVec w} {k : State → Res Unit} (hk : ∀ s, (k s).Ends Confined s) (s : State) :
    (unlessZero m k s).Ends Confined s := by
  unfold unlessZero
  split
  · exact ⟨Confined.refl s, rfl⟩
  · exact hk s

theorem setProduct_ends (rx : Reg) (p : BitVec 32) (n : Bool) (s : State) : (setProduct rx p n s).Ends Confined s :=
  (setReg_confined s 0 _).trans (setResult_confined _ rx _ _)

theorem stoBody_ends (sz : Size) (rx : Reg) (m : AluOperand) (s : State) : (stoBody sz rx m s).Ends Confined s := by
  unfold stoBody
  split
  · exact ⟨Confined.refl s, rfl⟩
  · exact ⟨Confined.refl s, rfl⟩
  · split
    · next h => exact setProc_confined s _ _ h
    · exact ⟨Confined.refl s, rfl⟩
  · split
    · trivial
    · exact writePlace_ends ..

theorem aluBody_ends (op : AluOp) (sz : Size) (rx : Reg) (m : AluOperand) (s : State) :
    (aluBody op sz rx m s).Ends Confined s := by
  cases op with
  | cmp => unfold aluBody cmpBody; exact withOperand_ends (fun _ _ t => by exact setFlags_confined t _) s
  | neg | add | sub | adc | sbc | and | orr | eor | not | lod =>
    simp only [aluBody, negBody, addBody, subBody, adcBody, sbcBody, andBody, orrBody, eorBody, notBody, lodBody]
    exact withOperand_ends (fun _ _ t => by exact setResult_confined t rx _ _) s
  | div | dvi | mod | mdi =>
    simp only [aluBody, divBody, dviBody, modBody, mdiBody]
    exact withOperand_ends (fun _ _ => unlessZero_ends fun t => by exact setResult_confined t rx _ _) s
  | mul | mli =>
    simp only [aluBody, mulBody, mliBody]
    exact withFactors_ends (fun _ _ t => setProduct_ends rx _ _ t) s
  | sto => exact stoBody_ends sz rx m s

/-! ## Jumps and the privileged instructions -/

theorem callNear_ends (m : JmpOperand) (s : State) : (callNear m s).Ends Confined s :=
  .bindConfined (readNear_ends m s) fun _ t =>
    .bindConfined (push_ends _ t) fun _ u => setPc_confined u _

theorem jumpNear_ends (m : JmpOperand) (s : State) : (jumpNear m s).Ends Confined s :=
  .bindConfined (readNear_ends m s) fun _ t => setPc_confined t _

/-- A privileged body need only do what a supervisor may (R305). -/
theorem privileged_ends {body : State → Res Unit} (hb : ∀ s, (body s).Ends Preserves s) (s : State) :
    (privileged body s).Ends Confined s := by
  unfold privileged
  split
  · next hs => exact (hb s).mono fun _ g => g.confined hs
  · exact ⟨Confined.refl s, rfl⟩

theorem farSwitch_preserves (s : State) (lower upper pc : Word) : Preserves s ((farSwitch lower upper s).setPc pc) :=
  Keeps.preserves ⟨rfl, rfl, id, fun _ _ => rfl, id, id⟩

theorem jumpFar_ends (m : FarOperand) (s : State) : (jumpFar m s).Ends Confined s :=
  privileged_ends (fun t => .bindPreserves (readFar_ends m t).preserves fun _ u => by exact farSwitch_preserves u ..) s

theorem callFar_ends (m : FarOperand) (s : State) : (callFar m s).Ends Confined s :=
  privileged_ends (fun t => .bindPreserves (readFar_ends m t).preserves fun _ u =>
    .bindPreserves (push_ends _ u).preserves fun _ v => by exact farSwitch_preserves v ..) s

theorem returnFromInterrupt_ends (s : State) : (returnFromInterrupt s).Ends Preserves s :=
  .bindPreserves (pop_ends s).preserves fun _ t =>
    .bindPreserves (pop_ends t).preserves fun _ _ => Keeps.preserves ⟨rfl, rfl, id, fun _ _ => rfl, id, id⟩

theorem setMmuHalf_preserves (s : State) (sup : Bool) (half : Vector Word 4) : Preserves s (s.setMmuHalf sup half) := by
  cases sup <;> exact Keeps.preserves ⟨rfl, rfl, id, fun _ _ => rfl, id, id⟩

theorem mmrBody_ends (rv ra : Reg) (s : State) : (mmrBody rv ra s).Ends Preserves s := by
  unfold mmrBody
  split
  · exact (setReg_confined s rv _).toPreserves
  · trivial

theorem mmwBody_ends (rv ra : Reg) (s : State) : (mmwBody rv ra s).Ends Preserves s := by
  unfold mmwBody
  split
  · exact setMmuHalf_preserves s _ _
  · trivial

theorem mmsBody_ends (rv : Reg) (s : State) : (mmsBody rv s).Ends Preserves s :=
  .bindPreserves (pop_ends s).preserves fun _ t =>
    .bindPreserves (pop_ends t).preserves fun _ u =>
      .bindPreserves (pop_ends u).preserves fun _ v =>
        .bindPreserves (pop_ends v).preserves fun _ w => setMmuHalf_preserves w _ _

theorem setFour_confined (a b c d : Word) (s : State) : Confined s (setFour a b c d s) :=
  (((setReg_confined s 0 a).trans (setReg_confined _ 1 b)).trans (setReg_confined _ 2 c)).trans (setReg_confined _ 3 d)

theorem queryBody_ends (s : State) : (queryBody s).Ends Preserves s := by
  unfold queryBody
  split
  · exact (setFour_confined _ _ _ _ s).toPreserves
  split
  · exact (setFour_confined _ _ _ _ s).toPreserves
  · exact (setReg_confined s 0 0).toPreserves

/-- Drawing a free value changes the count alone. -/
theorem freeCount_preserves (s : State) (n : Nat) : Preserves s { s with freeCount := n } :=
  Keeps.preserves ⟨rfl, rfl, id, fun _ _ => rfl, id, id⟩

theorem applyReply_preserves (r : Reply) (s : State) : Preserves s (applyReply r s) := by
  cases r with
  | ack r1 r2 writes =>
    exact (deviceWrites_memStep writes s).safe.toKeeps.preserves.trans
      (((setReg_confined _ 0 _).trans (setReg_confined _ 1 r1)).trans (setReg_confined _ 2 r2)).toPreserves
  | wait => exact (setReg_confined s 0 _).toPreserves
  | error => exact (setReg_confined s 0 _).toPreserves

theorem messageBody_ends (s : State) : (messageBody s).Ends Preserves s := by
  unfold messageBody
  split
  · exact (Keeps.refl s).preserves
  · exact (freeCount_preserves s _).trans (applyReply_preserves _ _)

theorem clockReadBody_ends (s : State) : (clockReadBody s).Ends Preserves s :=
  have htime : Preserves s { s with
      rtc := { s.rtc with time := Config.rtcNow s.freeCount s.rtc.time }, freeCount := s.freeCount + 1 } :=
    Keeps.preserves ⟨rfl, rfl, id, fun _ _ => rfl, id, id⟩
  htime.trans (setFour_confined _ _ _ _ _).toPreserves

/-- The capped rate is one the RTC can give, and not 0 where the CPU has 1024 Hz (R267). -/
theorem cappedRate_toNat (p : Platform) (hz : Word) :
    (cappedRate p hz).toNat = min hz.toNat (p.cpuFrequency / 1024) := by
  have hlt := hz.isLt
  rw [cappedRate, BitVec.toNat_ofNat, Nat.mod_eq_of_lt (by omega)]

theorem clockSetBody_ends (s : State) : (clockSetBody s).Ends Preserves s := by
  refine ⟨rfl, rfl, id, fun _ _ => rfl, fun hv _ => ?_, id⟩
  have hf : 1024 ≤ s.platform.cpuFrequency := by
    simp only [Platform.valid, decide_eq_true_eq] at hv
    omega
  by_cases hz : s.reg 0 = 0
  · simp [rtcWf, State.setReg, hz]
  · have hpos : 0 < (s.reg 0).toNat := Nat.pos_of_ne_zero fun e => hz (BitVec.eq_of_toNat_eq e)
    have hrate := cappedRate_toNat s.platform (s.reg 0)
    simp only [rtcWf, State.setReg, if_neg hz, hrate, Bool.and_eq_true, Bool.or_eq_true, decide_eq_true_eq]
    omega

/-! ## All instructions -/

theorem shiftBody_ends (f : Word → Nat → Flags → Shifted) (rx : Reg) (count : State → Nat) (s : State) :
    (shiftBody f rx count s).Ends Confined s := setResult_confined s rx _ _

theorem replaceBit_ends (rx : Reg) (b : Nat) (new carry : Bool) (s : State) :
    (replaceBit rx b new carry s).Ends Confined s := setResult_confined s rx _ _

theorem testBit_ends (rx : Reg) (b : Nat) (s : State) : (testBit rx b s).Ends Confined s := setFlags_confined s _

theorem rtsBody_ends (s : State) : ((pop s).bind fun v s1 => .ok () (s1.setPc v)).Ends Confined s :=
  .bindConfined (pop_ends s) fun v t => setPc_confined t v

theorem setFl_confined (s : State) (v : Word) : Confined s { s with fl := v } :=
  (setProc_safe s .fl v (by simp [procAllowed, supervisorOnly])).confined fun _ => rfl

theorem halt_preserves (s : State) : Preserves s { s with halted := true } :=
  Keeps.preserves ⟨rfl, rfl, id, fun _ _ => rfl, id, id⟩

/-- A branch may change PC alone. -/
theorem branchBody_ends (cond : Flags → Bool) (target : Word) (t : State) :
    (Res.ok () (if cond t.flags then t.setPc target else t)).Ends Confined t := by
  show Confined t (if cond t.flags then t.setPc target else t)
  split
  · exact setPc_confined t target
  · exact Confined.refl t

/-- `r` is a refusal, or what `runBody` makes of a body that ends as the parts of an instruction do. -/
def RunsBody (s : State) (r : Result) : Prop :=
  (∃ x, r = .refused x) ∨ ∃ len body, r = runBody len body s ∧ ∀ u, (body u).Ends Confined u

theorem RunsBody.of_ends {len : Nat} {body : State → Res Unit} (h : ∀ u, (body u).Ends Confined u) (s : State) :
    RunsBody s (runBody len body s) := .inr ⟨len, body, rfl, h⟩

theorem runAlu_runsBody (op : AluOp) (sz : Size) (rx : Reg) (m : AluOperand) (s : State) :
    RunsBody s (runAlu op sz rx m s) := .of_ends (aluBody_ends op sz rx m) s

theorem runNear_runsBody (call : Bool) (m : JmpOperand) (s : State) : RunsBody s (runNear call m s) := by
  cases call
  · exact .of_ends (jumpNear_ends m) s
  · exact .of_ends (callNear_ends m) s

theorem runFar_runsBody (call : Bool) (m : FarOperand) (s : State) : RunsBody s (runFar call m s) := by
  cases call
  · exact .of_ends (jumpFar_ends m) s
  · exact .of_ends (callFar_ends m) s

theorem runBranch_runsBody (cond : Flags → Bool) (off : BitVec 8) (s : State) : RunsBody s (runBranch cond off s) :=
  .of_ends (branchBody_ends cond _) s

theorem undefined_runsBody (s : State) : RunsBody s (runBody 1 undefinedBody s) :=
  .of_ends (body := undefinedBody) (fun u => ⟨Confined.refl u, rfl⟩) s

theorem privileged_runsBody {body : State → Res Unit} (hb : ∀ u, (body u).Ends Preserves u) (s : State) :
    RunsBody s (runBody 1 (privileged body) s) := .of_ends (privileged_ends hb) s

theorem exec_runsBody (i : Instr) (s : State) (hi : i ≠ .swi) : RunsBody s (exec i s) := by
  cases i with
  | swi => exact absurd rfl hi
  | aluUnassigned | jmiUnassigned => exact .inl ⟨_, rfl⟩
  | nop => exact runAlu_runsBody .lod .word 0 (.reg 0) s
  | aluImmediate op | aluAbsolute op | aluProcReg op | aluRegister op | aluIndirect op | aluIndirectOffset op
  | aluStackOffset op | aluPostInc op | aluPreDec op | aluIndexed op => exact runAlu_runsBody op _ _ _ s
  | cmp sz rx m => exact runAlu_runsBody .cmp sz rx m s
  | neg sz rx m => exact runAlu_runsBody .neg sz rx m s
  | add sz rx m => exact runAlu_runsBody .add sz rx m s
  | sub sz rx m => exact runAlu_runsBody .sub sz rx m s
  | adc sz rx m => exact runAlu_runsBody .adc sz rx m s
  | sbc sz rx m => exact runAlu_runsBody .sbc sz rx m s
  | mul sz rx m => exact runAlu_runsBody .mul sz rx m s
  | div sz rx m => exact runAlu_runsBody .div sz rx m s
  | mli sz rx m => exact runAlu_runsBody .mli sz rx m s
  | dvi sz rx m => exact runAlu_runsBody .dvi sz rx m s
  | mod sz rx m => exact runAlu_runsBody .mod sz rx m s
  | mdi sz rx m => exact runAlu_runsBody .mdi sz rx m s
  | and sz rx m => exact runAlu_runsBody .and sz rx m s
  | orr sz rx m => exact runAlu_runsBody .orr sz rx m s
  | eor sz rx m => exact runAlu_runsBody .eor sz rx m s
  | not sz rx m => exact runAlu_runsBody .not sz rx m s
  | lod sz rx m => exact runAlu_runsBody .lod sz rx m s
  | sto sz rx m => exact runAlu_runsBody .sto sz rx m s
  | undefStoImmediate | undefStoRegister | undefBranch10 | undefBranch11 | undefBranch12 | undefBranch13 | undefBranch14
  | undefAcAd | undefB4 | undefC0FF => exact undefined_runsBody s
  | bcc | bcs | bne | beq | bpl | bmi | bvc | bvs | bug | bsg | baw =>
    simp only [exec, execBcc, execBcs, execBne, execBeq, execBpl, execBmi, execBvc, execBvs, execBug, execBsg, execBaw]
    exact runBranch_runsBody _ _ s
  | aslImm rx | aslReg rx | lslImm rx | lslReg rx | rolImm rx | rolReg rx | rnlImm rx | rnlReg rx
  | asrImm rx | asrReg rx | lsrImm rx | lsrReg rx | rorImm rx | rorReg rx | rnrImm rx | rnrReg rx =>
    simp only [exec, execAslImm, execAslReg, execLslImm, execLslReg, execRolImm, execRolReg, execRnlImm, execRnlReg,
      execAsrImm, execAsrReg, execLsrImm, execLsrReg, execRorImm, execRorReg, execRnrImm, execRnrReg]
    exact .of_ends (shiftBody_ends _ rx _) s
  | bttImm rx bit => exact .of_ends (testBit_ends rx bit.toNat) s
  | bttReg rx rb => exact .of_ends (fun u => testBit_ends rx (regBit u rb) u) s
  | btxImm rx | btxReg rx | btcImm rx | btcReg rx | btsImm rx | btsReg rx =>
    exact .of_ends (fun u => replaceBit_ends rx _ _ _ u) s
  | sef | clf =>
    simp only [exec, execSef, execClf]
    exact .of_ends (fun u => by exact setFl_confined u _) s
  | pshGeneral => exact .of_ends (fun u => pushAll_ends _ u) s
  | pshStatus mask => exact .of_ends (pushStatusBody_ends mask) s
  | popGeneral => exact .of_ends (fun u => popRegs_ends _ u) s
  | popStatus mask => exact .of_ends (popStatusBody_ends mask) s
  | rts => exact .of_ends rtsBody_ends s
  | mmr rv ra => exact privileged_runsBody (mmrBody_ends rv ra) s
  | mmw rv ra => exact privileged_runsBody (mmwBody_ends rv ra) s
  | mml => exact privileged_runsBody (fun u => (pushAll_ends _ u).preserves) s
  | mms rv => exact privileged_runsBody (mmsBody_ends rv) s
  | setSmall rx | setAlt rx =>
    simp only [exec, execSetSmall, execSetAlt]
    exact .of_ends (fun u => by exact setReg_confined u rx _) s
  | inc rx | adi rx | dec rx | sbi rx =>
    simp only [exec, execInc, execAdi, execDec, execSbi]
    exact .of_ends (fun u => by exact setResult_confined u rx _ _) s
  | jmiImmediateNear call | jmiAbsoluteNear call | jmiRegisterNear call | jmiIndirectNear call
  | jmiIndirectOffsetNear call | jmiStackOffsetNear call | jmiPostIncNear call | jmiPreDecNear call
  | jmiIndexedNear call => exact runNear_runsBody call _ s
  | jmiImmediateFar call | jmiAbsoluteFar call | jmiRegisterFar call | jmiIndirectFar call
  | jmiIndirectOffsetFar call | jmiStackOffsetFar call | jmiPostIncFar call | jmiPreDecFar call
  | jmiIndexedFar call => exact runFar_runsBody call _ s
  | jmp m => exact runNear_runsBody false m s
  | jsr m => exact runNear_runsBody true m s
  | jmpF m => exact runFar_runsBody false m s
  | jsrF m => exact runFar_runsBody true m s
  | hwq00 => exact .inr ⟨1, _, rfl, privileged_ends fun u => (setReg_confined u 0 _).toPreserves⟩
  | hwq01 => exact privileged_runsBody queryBody_ends s
  | hwq02 => exact privileged_runsBody messageBody_ends s
  | hwq80 => exact privileged_runsBody clockReadBody_ends s
  | hwq81 => exact privileged_runsBody clockSetBody_ends s
  | hwqUnassigned => exact .inr ⟨1, _, rfl, privileged_ends fun _ => trivial⟩
  | slp => exact .inr ⟨1, _, rfl, privileged_ends halt_preserves⟩
  | rti => exact privileged_runsBody returnFromInterrupt_ends s

/-- Everything an instruction that answers a next state has done: it has completed; or it has left the state `u` and
raised an interrupt, an error or SWI's own, which was taken with the saved PC of R296. -/
theorem exec_next_cases {i : Instr} {s t : State} (h : exec i s = .next t) :
    Confined s t ∨ ∃ (e : Interrupt) (u : State), Confined s u ∧ (e.isError = true ∨ e = .swi) ∧
      takeInterrupt e (if e = .swi then s.pc + 2 else s.pc) u = .next t := by
  by_cases hi : i = .swi
  · subst hi
    exact .inr ⟨.swi, _, setPc_confined s (s.pc + 2), .inr rfl, h⟩
  rcases exec_runsBody i s hi with ⟨x, hx⟩ | ⟨len, body, hrun, hends⟩
  · rw [hx] at h; cases h
  rw [hrun] at h
  have hpc := setPc_confined s (s.pc + BitVec.ofNat 16 (2 * len))
  have hb := hends (s.setPc (s.pc + BitVec.ofNat 16 (2 * len)))
  rcases runBody_cases len body s with ⟨t', hok, hr⟩ | ⟨e, u, htrap, hr⟩ | ⟨r, _, hr⟩
  · rw [hok] at hb
    rw [hr] at h
    cases h
    exact .inl (hpc.trans hb)
  · rw [htrap] at hb
    rw [hr] at h
    have hne : e ≠ .swi := fun he => by rw [he] at hb; cases hb.2
    rw [savedPc_of_isError hb.2] at h
    exact .inr ⟨e, u, hpc.trans hb.1, .inl hb.2, by rw [if_neg hne]; exact h⟩
  · rw [hr] at h; cases h

theorem takeInterrupt_next_entered {e : Interrupt} {pc : Word} {u t : State} (h : takeInterrupt e pc u = .next t) :
    Entered e u t := by
  rcases takeInterrupt_cases e pc u with ⟨t', ht, g⟩ | hf
  · rw [ht] at h; cases h; exact g
  · rw [hf] at h; cases h

theorem exec_preserves {i : Instr} {s t : State} (h : exec i s = .next t) : Preserves s t := by
  rcases exec_next_cases h with g | ⟨e, u, g, _, ht⟩
  · exact g.toPreserves
  · exact g.toPreserves.trans (takeInterrupt_next_entered ht).keeps.preserves

/-- An instruction that starts and ends in User mode has taken no interrupt. -/
theorem exec_user_confined {i : Instr} {s t : State} (h : exec i s = .next t) (ht : t.supervisor = false) :
    Confined s t := by
  rcases exec_next_cases h with g | ⟨e, u, _, _, htake⟩
  · exact g
  · rw [(takeInterrupt_next_entered htake).supervisor] at ht; cases ht

/-- Settles O11: no interrupt was taken, and what is left of an instruction is `Confined`. -/
theorem userModeKeepsSupervisorState : Obligations.UserModeKeepsSupervisorState :=
  fun _ _ _ h hs ht => (exec_user_confined h ht).user hs

/-- Settles O13: no interrupt was taken, and what is left of an instruction is `Confined`. -/
theorem userStoresStayInWritableBanks : Obligations.UserStoresStayInWritableBanks :=
  fun _ _ _ h hs ht hm hq => (exec_user_confined h ht).stores hs hm hq

/-! ## Steps -/

/-- Disabling the CLOCK interrupt leaves its rate. -/
theorem rtcWf_disabled {r : Rtc} {p : Platform} (h : rtcWf r p = true) :
    rtcWf { r with enabled := false } p = true := by
  rw [rtcWf, Bool.and_eq_true] at h
  simpa [rtcWf] using h.2

theorem resetSequence_preserves {s t : State} (h : resetSequence s = .next t) : Preserves s t := by
  have hread :=
    (memRead_ends .word 0 { s with rtc := { s.rtc with enabled := false }, ps := 0x8000, ia := 0 }).preserves
  have hstart : Preserves s { s with rtc := { s.rtc with enabled := false }, ps := 0x8000, ia := 0 } :=
    Keeps.preserves ⟨rfl, rfl, id, fun _ _ => rfl, rtcWf_disabled, id⟩
  unfold resetSequence at h
  dsimp only at h
  split at h
  · next vector s2 hok =>
    rw [hok] at hread
    cases h
    exact (hstart.trans hread).trans (Keeps.preserves ⟨rfl, rfl, id, fun _ _ => rfl, id, id⟩)
  · cases h
  · cases h

theorem chooseAsync_preserves {s t : State} {e : Async} (h : chooseAsync s = some (e, t)) : Preserves s t := by
  unfold chooseAsync at h
  split at h
  · cases h
  · cases h; exact (Keeps.refl s).preserves
  · cases h; exact freeCount_preserves s _

theorem takeInterrupt_preserves {i : Interrupt} {pc : Word} {s u t : State} (h : takeInterrupt i pc u = .next t)
    (hu : Keeps s u) : Preserves s t := (hu.trans (takeInterrupt_next_entered h).keeps).preserves

theorem takeAsync_preserves {e : Async} {s t : State} (h : takeAsync e s = .next t) : Preserves s t := by
  cases e <;> exact takeInterrupt_preserves h ⟨rfl, rfl, id, fun _ _ => rfl, id, id⟩

theorem fetchOperands_ends (w pc0 : Word) (s : State) : (fetchOperands w pc0 s).Ends Confined s := by
  unfold fetchOperands
  split
  · exact .bindConfined (memRead_ends .word _ s) fun _ t => Confined.refl t
  · exact .bindConfined (memRead_ends .word _ s) fun _ t =>
      .bindConfined (memRead_ends .word _ t) fun _ u => Confined.refl u
  · exact Confined.refl s

theorem fetch_ends (s : State) : (fetch s).Ends Confined s :=
  .bindConfined (memRead_ends .word s.pc s) fun w t =>
    .bindConfined (fetchOperands_ends w s.pc t) fun _ u => Confined.refl u

theorem fetchAndExec_preserves {s t : State} (h : fetchAndExec s = .next t) : Preserves s t := by
  have hfetch := (fetch_ends s).preserves
  unfold fetchAndExec at h
  split at h
  · split at h
    · next i s1 hok => rw [hok] at hfetch; exact hfetch.trans (exec_preserves h)
    · next e s1 htrap =>
      rw [htrap] at hfetch
      exact hfetch.1.trans (takeInterrupt_next_entered h).keeps.preserves
    · cases h
  · cases h

/-- What a step keeps once the inputs are sampled. -/
theorem stepSampled_preserves {s t : State} (h : stepSampled s = .next t) : Preserves s t := by
  unfold stepSampled at h
  split at h
  · exact resetSequence_preserves h
  split at h
  · cases h; exact (Keeps.refl s).preserves
  split at h
  · next e s1 hchoose => exact (chooseAsync_preserves hchoose).trans (takeAsync_preserves h)
  split at h
  · cases h; exact (Keeps.refl s).preserves
  · exact fetchAndExec_preserves h

/-- What a step keeps of the state in which the inputs are sampled. -/
theorem step_preserves {s t : State} (h : step s = .next t) : Preserves s.sample t :=
  (busCycle_memStep s.sample).safe.toKeeps.preserves.trans (stepSampled_preserves h)

section
variable (s : State)

theorem sample_mem : s.sample.mem = s.mem := by unfold State.sample; split <;> rfl

theorem sample_platform : s.sample.platform = s.platform := by unfold State.sample; split <;> rfl

theorem sample_rtc : s.sample.rtc = s.rtc := by unfold State.sample; split <;> rfl

end

theorem sample_inv {s : State} (h : s.Inv) : s.sample.Inv where
  mem := by rw [sample_mem]; exact h.mem
  platform := by rw [sample_platform]; exact h.platform
  rtc := by rw [sample_rtc, sample_platform]; exact h.rtc

/-- Settles O9: sampling keeps the invariant, and so does what follows it. -/
theorem stepKeepsInv : Obligations.StepKeepsInv := fun s t hinv h => by
  have hs := sample_inv hinv
  have g := step_preserves h
  exact ⟨g.wf hs.mem, by rw [g.platform]; exact hs.platform, g.rtc hs.platform hs.rtc⟩

/-- Settles O10: sampling leaves memory and the parameters alone, and what follows it keeps the bytes that are no RAM.
-/
theorem stepKeepsReadOnlyMemory : Obligations.StepKeepsReadOnlyMemory := fun s t h => by
  have g := step_preserves h
  refine ⟨g.platform.trans (sample_platform s), fun pa hpa => ?_, backing_of_eq g.platform g.devices⟩
  rw [g.bytes pa hpa, State.peek, sample_mem, State.peek]

end Sys2Proof.Machine

/-! Taking an interrupt (spec/60_exceptions.md R295, R303): the sequence as two pushes and a read, what it leaves, and
when it is stuck. `takeInterrupt_raisesFrom` says it once; `runBody_trap` carries it to the instructions that raise
one. -/

namespace Sys2Proof.Machine

/-! ## Reads before and after stores -/

theorem Reads.trans {s t u : State} (h : Reads s t) (g : Reads t u) : Reads s u where
  only := by rw [g.only]; rw [h.only]
  memory := fun q =>
    have hst := h.memory q
    have htu := g.memory (hst.2.trans q)
    ⟨htu.1.trans hst.1, htu.2.trans hst.2⟩

/-- Reads that follow a store leave what it stored. -/
theorem Stores.reads {a : Word} {bs : List Byte} {s t u : State} (h : Stores a bs s t) (g : Reads t u) :
    Stores a bs s u where
  others := fun q pa hpa => by
    rw [State.peek, (g.memory ((h.schedule q).trans q)).1]; exact h.others q pa hpa
  stored := fun q w k b hk hr => by
    rw [State.peek, (g.memory ((h.schedule q).trans q)).1]; exact h.stored q w k b hk hr
  schedule := fun q => (g.memory ((h.schedule q).trans q)).2.trans (h.schedule q)
  accessedS := fun k => by rw [g.only]; exact h.accessedS k
  accessedU := fun k => by rw [g.only]; exact h.accessedU k

/-! ## Which pushes completed -/

/-- Pushes that completed were allowed. -/
theorem pushable_of_pushAll_ok {words : List Word} {s t : State} (h : pushAll words s = .ok () t) :
    s.pushable words.length := by
  induction words generalizing s with
  | nil => intro k hk; cases hk
  | cons v rest ih =>
    obtain ⟨_, t1, hpush, hrest⟩ := bind_eq_ok h
    rcases push_cases v s with ⟨f, _, htrap⟩ | ⟨hc, t1', hok, g⟩
    · rw [htrap] at hpush; cases hpush
    rw [hok] at hpush
    cases hpush
    have hsp : t1.sp = s.sp - 2 := by
      have : t1.sp = (s.setSp (s.sp - 2)).sp := by rw [g.only]; rfl
      rw [this, sp_setSp]
    intro k hk
    cases k with
    | zero => exact hc
    | succ k =>
      have hk' := ih hrest k (by simpa using hk)
      rwa [hsp, sub_slot, g.checkSized, checkSized_setSp] at hk'

/-! ## The sequence -/

theorem bind_assoc {α β γ : Type} (x : Res α) (f : α → State → Res β) (g : β → State → Res γ) :
    (x.bind f).bind g = x.bind fun v s => (f v s).bind g := by
  cases x <;> rfl

theorem interruptFrame_eq_pushAll (i : Interrupt) (savedPc : Word) (s : State) :
    interruptFrame i savedPc s =
      (pushAll [s.tempPs, savedPc] s).bind fun _ t => memRead .word (t.ia + 2 * i.index) t := by
  simp only [interruptFrame, pushAll, bind_assoc, bind_ok]

theorem sp_enter (i : Interrupt) (s : State) : (s.enter i).sp = s.ssp := by
  rw [sp_of_supervisor _ (enter_supervisor i s)]
  cases i <;> rfl

theorem tempPs_enter (i : Interrupt) (s : State) : (s.enter i).tempPs = s.ps := by cases i <;> rfl

theorem ia_enter (i : Interrupt) (s : State) : (s.enter i).ia = s.ia := by cases i <;> rfl

theorem bus_enter (i : Interrupt) (s : State) : (s.enter i).bus = s.bus := by cases i <;> rfl

theorem mem_enter (i : Interrupt) (s : State) : (s.enter i).mem = s.mem := by cases i <;> rfl

theorem p2_enter (i : Interrupt) (s : State) : (s.enter i).p2 = entryP2 i s.p2 := by cases i <;> rfl

/-- PS after the entry, bit by bit and as a mask (R295). -/
theorem entryPs_eq_entryStatus (i : Interrupt) (ps : Word) : i.entryPs ps = entryStatus i ps := by
  have hbit : ∀ j < 16, (i.entryPs ps).getLsbD j = (entryStatus i ps).getLsbD j := fun j hj => by
    cases i with
    | hwi =>
      simp only [Interrupt.entryPs, entryStatus, getLsbD_putBit _ _ _ _ hj, BitVec.getLsbD_or]
      interval_cases j <;> simp
    | bankFault f =>
      obtain ⟨a, u, w⟩ := f
      simp only [Interrupt.entryPs, entryStatus, getLsbD_putBit _ _ _ _ hj, BitVec.getLsbD_or, BitVec.getLsbD_and]
      interval_cases j <;> cases u <;> cases w <;> simp
    | _ =>
      simp only [Interrupt.entryPs, entryStatus, getLsbD_putBit _ _ _ _ hj, BitVec.getLsbD_or]
      interval_cases j <;> simp
  exact BitVec.eq_of_getLsbD_eq hbit

theorem wordAt_resume (s : State) (pc a : Word) :
    ({ s with pc := pc, halted := false } : State).wordAt a = s.wordAt a :=
  wordAt_congr rfl rfl (fun _ => rfl) fun _ => rfl

/-- The sequence whose accesses are allowed enters the handler. -/
theorem takeInterrupt_entered {i : Interrupt} {s : State} (savedPc : Word) (h : interruptible i s) :
    ∃ t, takeInterrupt i savedPc s = .next t ∧ EnteredHandler i savedPc s t := by
  obtain ⟨hpush, hvector⟩ := h
  obtain ⟨t, hok, g, hst⟩ := pushAll_stores [(s.enter i).tempPs, savedPc] (s.enter i) (by simp) hpush
  have hia : t.ia = s.ia := by rw [g.only, ia_setSp, ia_enter]
  have hcheck : t.checkSized .read .word (s.ia + 2 * i.index) = none := by
    rw [g.checkSized, checkSized_setSp]; exact hvector
  obtain ⟨u, hread, hreads, hmem⟩ := memRead_reads hcheck
  have hframe : interruptFrame i savedPc (s.enter i) = .ok (readValue .word (s.ia + 2 * i.index) t) u := by
    rw [interruptFrame_eq_pushAll, hok, bind_ok, hia, hread]
  have htake : takeInterrupt i savedPc s =
      .next { u with pc := readValue .word (s.ia + 2 * i.index) t, halted := false } := by
    rw [takeInterrupt, hframe]
  refine ⟨_, htake, ?_, ?_, fun q hplain => ?_⟩
  · have he := (takeInterrupt_next_entered htake).only
    rw [entryPs_eq_entryStatus, p2_enter] at he
    exact he
  · have hbytes : [(s.enter i).tempPs, savedPc].reverse.flatMap bytesOfWord =
    bytesOfWord savedPc ++ bytesOfWord s.ps := by
      rw [tempPs_enter]; rfl
    rw [hbytes, sp_enter] at hst
    exact (hst.reads hreads).congr rfl rfl rfl rfl rfl rfl rfl rfl rfl rfl rfl
  · have hq : t.quiet := g.quiet (by rw [State.quiet, bus_setSp, bus_enter]; exact q)
    have hplain' : t.plainFrom (s.ia + 2 * i.index) (sizeBytes .word) := fun k hk => by
      rw [g.translate, translate_setSp, show t.backing _ = (s.enter i).backing _ by rw [g.only]; exact backing_setSp ..]
      exact hplain k hk
    have hquiet := memRead_quiet hq hcheck hplain'
    rw [hread] at hquiet
    obtain ⟨hvalue, hstate⟩ := Res.ok.inj hquiet
    subst hstate
    rw [wordAt_resume]
    exact hvalue

theorem interruptible_of_next {i : Interrupt} {savedPc : Word} {s t : State} (h : takeInterrupt i savedPc s = .next t) :
    interruptible i s := by
  unfold takeInterrupt at h
  split at h
  · next vector u hok =>
    rw [interruptFrame_eq_pushAll] at hok
    obtain ⟨_, t1, hpush, hread⟩ := bind_eq_ok hok
    have hp := pushable_of_pushAll_ok hpush
    refine ⟨hp, ?_⟩
    obtain ⟨t1', hok', g, _⟩ := pushAll_stores _ _ (by simp) hp
    rw [hpush] at hok'
    cases hok'
    have hia : t1.ia = s.ia := by rw [g.only, ia_setSp, ia_enter]
    rcases memRead_cases .word (t1.ia + 2 * i.index) t1 with ⟨f, _, htrap⟩ | ⟨hc, _⟩
    · rw [htrap] at hread; cases hread
    · rwa [hia, g.checkSized, checkSized_setSp] at hc
  · cases h
  · cases h

/-- Taking an interrupt enters its handler, or is stuck exactly when an access of its own is refused (R303). -/
theorem takeInterrupt_raisesFrom (i : Interrupt) (savedPc : Word) (s : State) :
    raisesFrom i savedPc s (takeInterrupt i savedPc s) := by
  refine ⟨takeInterrupt_entered savedPc, fun hnot => ?_⟩
  rcases takeInterrupt_cases i savedPc s with ⟨t, ht, _⟩ | hf
  · exact absurd (interruptible_of_next ht) hnot
  · exact hf

theorem takeInterrupt_next_enteredHandler {i : Interrupt} {savedPc : Word} {s t : State}
    (h : takeInterrupt i savedPc s = .next t) : EnteredHandler i savedPc s t := by
  obtain ⟨t', ht, g⟩ := takeInterrupt_entered savedPc (interruptible_of_next h)
  rw [ht] at h
  cases h
  exact g

/-! ## Instructions that raise an interrupt -/

/-- An instruction whose body raises an interrupt takes it, with the saved PC of R296. -/
theorem runBody_trap {len : Nat} {body : State → Res Unit} {s u : State} {i : Interrupt}
    (h : body (s.started len) = .trap i u) :
    raisesFrom i (i.savedPc s.pc (s.pc + BitVec.ofNat 16 (2 * len))) u (runBody len body s) := by
  have hrun : runBody len body s = takeInterrupt i (i.savedPc s.pc (s.pc + BitVec.ofNat 16 (2 * len))) u := by
    rcases runBody_cases len body s with ⟨t, hok, _⟩ | ⟨j, v, htrap, hr⟩ | ⟨r, href, _⟩
    · rw [show body (s.setPc _) = _ from h] at hok; cases hok
    · rw [show body (s.setPc _) = _ from h] at htrap; cases htrap; exact hr
    · rw [show body (s.setPc _) = _ from h] at href; cases href
  rw [hrun]
  exact takeInterrupt_raisesFrom ..

/-- An error an instruction raises saves `pc0`. -/
theorem runBody_error {len : Nat} {body : State → Res Unit} {s u : State} {i : Interrupt} (hi : i.isError = true)
    (h : body (s.started len) = .trap i u) : raisesFrom i s.pc u (runBody len body s) := by
  have htrap := runBody_trap h
  rwa [savedPc_of_isError hi] at htrap

theorem runBody_ok {len : Nat} {body : State → Res Unit} {s t : State} (h : body (s.started len) = .ok () t) :
    runBody len body s = .next t := by
  unfold runBody
  dsimp only
  rw [show body (s.setPc (s.pc + BitVec.ofNat 16 (2 * len))) = .ok () t from h]

theorem exec_swi_raisesFrom (s : State) : raisesFrom .swi (s.pc + 2) { s with pc := s.pc + 2 } (exec .swi s) :=
  runBody_trap (i := .swi) (body := fun t => .trap .swi t) (len := 1) rfl

theorem mmuOn_entryPs (i : Interrupt) (ps : Word) : (i.entryPs ps).getLsbD 14 = ps.getLsbD 14 := by
  cases i <;> simp only [Interrupt.entryPs, getLsbD_putBit, Nat.reduceLT, Nat.reduceEqDiff, if_false]

theorem mmuOn_enter (i : Interrupt) (s : State) : (s.enter i).mmuOn = s.mmuOn := by
  cases i <;> exact mmuOn_entryPs _ s.ps

/-- With the MMU off the sequence has nothing that refuses it. -/
theorem interruptible_mmuOff (i : Interrupt) {s : State} (hoff : s.mmuOn = false) : interruptible i s :=
  have hoff' : (s.enter i).mmuOn = false := (mmuOn_enter i s).trans hoff
  ⟨fun _ _ => checkSized_mmuOff hoff' .., checkSized_mmuOff hoff' ..⟩

/-- Settles O49: `takeInterrupt_raisesFrom`, and with the MMU off no access is refused; SWI raises its interrupt and has
done nothing before. -/
theorem interruptEntry : Obligations.InterruptEntry :=
  ⟨fun i savedPc s => ⟨takeInterrupt_raisesFrom i savedPc s, interruptible_mmuOff i⟩, exec_swi_raisesFrom⟩

/-- Settles O12: an instruction that completes stays in User mode, so it has raised one of its interrupts, and the state
it left is confined. -/
theorem userModeIsLeftByInterrupt : Obligations.UserModeIsLeftByInterrupt := by
  intro i s t h hs ht
  rcases exec_next_cases h with g | ⟨e, u, g, he, htake⟩
  · rw [supervisor_of_supervisorState (g.user hs), hs] at ht; cases ht
  · refine ⟨e, u, g.user hs, g.quiet, g.wf, g.bytes, ?_, takeInterrupt_next_enteredHandler htake⟩
    rcases he with he | he
    · cases e <;> simp_all [Interrupt.isError]
    · simp [he]

end Sys2Proof.Machine

/-! The encoding (spec/30_encoding.md): what the decoder reads back from the words of each pattern, so that the words of
an instruction decode to its first name; and what the decoder gives on any words. -/

namespace Sys2Proof

open Sys2Proof.Laws Sys2Proof.Machine

/-! ## Codes and fields -/

theorem AluOp.ofCode_code (op : AluOp) : AluOp.ofCode op.code = op := by cases op <;> rfl

theorem ProcReg.ofCode_code (p : ProcReg) : ProcReg.ofCode p.code = p := by cases p <;> rfl

theorem AluOp.code_lt (op : AluOp) : op.code < 18 := by cases op <;> decide

theorem ProcReg.code_lt (p : ProcReg) : p.code < 8 := by cases p <;> decide

theorem Size.code_lt (sz : Size) : sz.code < 2 := by cases sz <;> decide

theorem sizeAt_of_field {w : Word} {sz : Size} (h : field w 8 1 = sz.code) : sizeAt w = sz := by
  rw [sizeAt, h]
  cases sz <;> rfl

theorem regAt_of_field {w : Word} {lo : Nat} {r : Reg} (h : field w lo 3 = r.val) : regAt w lo = r := by
  rw [regAt, h]
  exact Fin.ofNat_val_eq_self r

theorem field_lt (w : Word) (lo n : Nat) : field w lo n < 2 ^ n := Nat.mod_lt _ (by positivity)

/-- The low bits of a field are a field. -/
theorem field_mod (w : Word) (lo : Nat) {n k : Nat} (h : n ≤ k) : field w lo k % 2 ^ n = field w lo n :=
  Nat.mod_mod_of_dvd _ (pow_dvd_pow 2 h)

/-! ## Memory modes -/

theorem MemMode.modeBits_lt (m : MemMode) : m.modeBits.1 < 16 ∧ m.modeBits.2 < 8 :=
  ⟨(memMode_bits m).1, (memMode_bits m).2.1⟩

/-- The Absolute mode shares its row with the Immediate mode; every other mode has a row of its own from 3 up. -/
theorem MemMode.modeBits_cases (m : MemMode) : (∃ a, m = .abs a) ∨ 3 ≤ m.modeBits.1 := by
  cases m with
  | abs a => exact .inl ⟨a, rfl⟩
  | indexed r i => exact .inr (by simp only [MemMode.modeBits]; omega)
  | _ => exact .inr (by simp [MemMode.modeBits])

/-- The rows from 3 up name a mode with a base register, which is read back. -/
theorem memModeAt_modeBits {w w1 : Word} {m : MemMode} (ha : field w 12 4 = m.modeBits.1)
    (hr : field w 9 3 = m.modeBits.2) (hm : 3 ≤ m.modeBits.1) (hw1 : w1 = m.extra.getD 0 0) : memModeAt w w1 = m := by
  unfold memModeAt
  rw [ha]
  cases m with
  | abs a => exact absurd hm (by simp [MemMode.modeBits])
  | indexed r i =>
    have hi : field w 12 3 = i.val := by
      rw [← field_mod w 12 (by decide : 3 ≤ 4), ha]
      have := i.isLt
      simp only [MemMode.modeBits]
      omega
    rw [regAt_of_field hr, regAt_of_field hi]
    simp only [MemMode.modeBits]
    split
    · omega
    · omega
    · omega
    · omega
    · omega
    · rfl
  | offset r off => rw [regAt_of_field hr, hw1]; rfl
  | ind r | stack r | postInc r | preDec r => rw [regAt_of_field hr]; rfl

/-! ## The ALU pattern -/

/-- An ALU word is below opcode $90, and its fields are read back (R104). -/
theorem fields_aluWord (op : AluOp) (sz : Size) (rx : Reg) {a r : Nat} (ha : a < 16) (hr : r < 8) :
    field (aluWord op sz rx (a, r)) 0 8 < 0x90 ∧ AluOp.ofCode (field (aluWord op sz rx (a, r)) 3 5) = op ∧
      sizeAt (aluWord op sz rx (a, r)) = sz ∧ regAt (aluWord op sz rx (a, r)) 0 = rx ∧
      field (aluWord op sz rx (a, r)) 12 4 = a ∧ field (aluWord op sz rx (a, r)) 9 3 = r := by
  have hop := op.code_lt
  have hsz := sz.code_lt
  have hrx := rx.isLt
  have hlt : a * 4096 + r * 512 + sz.code * 256 + op.code * 8 + rx.val < 2 ^ 16 := by omega
  have hfield : ∀ lo k, field (aluWord op sz rx (a, r)) lo k =
      (a * 4096 + r * 512 + sz.code * 256 + op.code * 8 + rx.val) / 2 ^ lo % 2 ^ k := fun lo k => field_ofNat _ lo k hlt
  have hcode : field (aluWord op sz rx (a, r)) 3 5 = op.code := by rw [hfield]; omega
  refine ⟨by rw [hfield]; omega, ?_, sizeAt_of_field (by rw [hfield]; omega), regAt_of_field (by rw [hfield]; omega),
    by rw [hfield]; omega, by rw [hfield]; omega⟩
  rw [hcode, AluOp.ofCode_code]

section
variable {w : Word} (w1 w2 : Word)

theorem decodeWords_of_lt (h : field w 0 8 < 0x90) : decodeWords w w1 w2 = decodeAlu w w1 := by
  rw [decodeWords]
  exact if_pos h

theorem decodeAlu_imm (ha : field w 12 4 = 0) (hr : field w 9 3 = 0) :
    decodeAlu w w1 = aluInstr (AluOp.ofCode (field w 3 5)) (sizeAt w) (regAt w 0) (.imm w1) := by
  simp only [decodeAlu, ha, hr]

theorem decodeAlu_abs (ha : field w 12 4 = 0) (hr : field w 9 3 = 1) :
    decodeAlu w w1 = aluInstr (AluOp.ofCode (field w 3 5)) (sizeAt w) (regAt w 0) (.mem (.abs w1)) := by
  simp only [decodeAlu, ha, hr]

/-- The unassigned modes of the ALU pattern (R121). -/
theorem decodeAlu_unassigned (ha : field w 12 4 = 0) (hr : 2 ≤ field w 9 3) :
    decodeAlu w w1 = .aluUnassigned (AluOp.ofCode (field w 3 5)) (sizeAt w) (regAt w 0) (regAt w 9) := by
  simp only [decodeAlu, ha]
  split
  · omega
  · omega
  · rfl

theorem decodeAlu_proc (ha : field w 12 4 = 1) :
    decodeAlu w w1 =
      aluInstr (AluOp.ofCode (field w 3 5)) .word (regAt w 0) (.proc (ProcReg.ofCode (field w 9 3))) := by
  simp only [decodeAlu, ha]

theorem decodeAlu_reg (ha : field w 12 4 = 2) :
    decodeAlu w w1 = aluInstr (AluOp.ofCode (field w 3 5)) (sizeAt w) (regAt w 0) (.reg (regAt w 9)) := by
  simp only [decodeAlu, ha]

theorem decodeAlu_mem (ha : 3 ≤ field w 12 4) :
    decodeAlu w w1 = aluInstr (AluOp.ofCode (field w 3 5)) (sizeAt w) (regAt w 0) (.mem (memModeAt w w1)) := by
  unfold decodeAlu
  dsimp only
  split
  · omega
  · omega
  · omega
  · rfl

end

/-- The words of the ALU pattern are read back. -/
theorem decodeWords_encodeAlu (op : AluOp) (sz : Size) (rx : Reg) (m : AluOperand) (hm : m.fits sz = true) (w2 : Word) :
    decodeWords (aluWord op sz rx m.modeBits) ((aluExtra op m).getD 0 0) w2 = aluInstr op sz rx m := by
  cases m with
  | imm v =>
    obtain ⟨hlt, hop, hsz, hrx, ha, hr⟩ := fields_aluWord op sz rx (a := 0) (r := 0) (by decide) (by decide)
    rw [AluOperand.modeBits, decodeWords_of_lt _ _ hlt, decodeAlu_imm _ ha hr, hop, hsz, hrx]
    cases op <;> rfl
  | proc p =>
    obtain rfl : sz = .word := by simpa [AluOperand.fits] using hm
    obtain ⟨hlt, hop, _, hrx, ha, hr⟩ := fields_aluWord op .word rx (a := 1) (by decide) p.code_lt
    rw [AluOperand.modeBits, decodeWords_of_lt _ _ hlt, decodeAlu_proc _ ha, hop, hrx, hr, ProcReg.ofCode_code]
  | reg r =>
    obtain ⟨hlt, hop, hsz, hrx, ha, hr⟩ := fields_aluWord op sz rx (a := 2) (by decide) r.isLt
    rw [AluOperand.modeBits, decodeWords_of_lt _ _ hlt, decodeAlu_reg _ ha, hop, hsz, hrx, regAt_of_field hr]
  | mem mode =>
    obtain ⟨hlt, hop, hsz, hrx, ha, hr⟩ := fields_aluWord op sz rx mode.modeBits_lt.1 mode.modeBits_lt.2
    have hextra : aluExtra op (.mem mode) = mode.extra := by cases op <;> rfl
    rw [AluOperand.modeBits, decodeWords_of_lt _ _ hlt, hextra]
    rcases mode.modeBits_cases with ⟨x, rfl⟩ | h3
    · rw [decodeAlu_abs _ ha hr, hop, hsz, hrx]
      rfl
    · rw [decodeAlu_mem _ (ha.symm ▸ h3), hop, hsz, hrx, memModeAt_modeBits ha hr h3 rfl]

/-- The words of an unassigned mode are read back (R121). -/
theorem decodeWords_aluUnassigned (op : AluOp) (sz : Size) (rx r : Reg) (h : 2 ≤ r.val) (w1 w2 : Word) :
    decodeWords (aluWord op sz rx (0, r.val)) w1 w2 = .aluUnassigned op sz rx r := by
  obtain ⟨hlt, hop, hsz, hrx, ha, hr⟩ := fields_aluWord op sz rx (a := 0) (by decide) r.isLt
  rw [decodeWords_of_lt _ _ hlt, decodeAlu_unassigned _ ha (hr.symm ▸ h), hop, hsz, hrx, regAt_of_field hr]

/-! ## The JMI pattern -/

/-- A JMI word has opcode $BA or $BB, and its fields are read back (R106). -/
theorem fields_jmiWord (call far : Bool) {a r : Nat} (ha : a < 16) (hr : r < 8) :
    field (jmiWord call far (a, r)) 0 8 = (if call then 0xBB else 0xBA) ∧
      field (jmiWord call far (a, r)) 8 1 = (if far then 1 else 0) ∧
      field (jmiWord call far (a, r)) 12 4 = a ∧ field (jmiWord call far (a, r)) 9 3 = r := by
  have hlt : a * 4096 + r * 512 + (if far then 256 else 0) + (if call then 0xBB else 0xBA) < 2 ^ 16 := by
    split <;> split <;> omega
  have hfield : ∀ lo k, field (jmiWord call far (a, r)) lo k =
      (a * 4096 + r * 512 + (if far then 256 else 0) + (if call then 0xBB else 0xBA)) / 2 ^ lo % 2 ^ k :=
    fun lo k => field_ofNat _ lo k hlt
  simp only [hfield]
  split <;> split <;> omega

/-- The opcodes of jumps and calls (R106, R119). -/
theorem decodeWords_jmi {w : Word} {call : Bool} (h : field w 0 8 = if call then 0xBB else 0xBA) (w1 w2 : Word) :
    decodeWords w w1 w2 = decodeJmi call w w1 w2 := by
  rw [decodeWords, h]
  cases call <;> rfl

/-- A near jump or call by its operand. -/
def nearInstr (call : Bool) (m : JmpOperand) : Instr := if call then .jsr m else .jmp m

/-- A far jump or call by its operand. -/
def farInstr (call : Bool) (m : FarOperand) : Instr := if call then .jsrF m else .jmpF m

section
variable {w : Word} (call : Bool) (w1 w2 : Word)

theorem decodeJmi_near (h : field w 8 1 = 0) : decodeJmi call w w1 w2 = decodeJmiNear call w w1 := by
  rw [decodeJmi, h]; rfl

theorem decodeJmi_far (h : field w 8 1 = 1) : decodeJmi call w w1 w2 = decodeJmiFar call w w1 w2 := by
  rw [decodeJmi, h]; rfl

theorem decodeJmiNear_imm (ha : field w 12 4 = 0) (hr : field w 9 3 = 0) :
    decodeJmiNear call w w1 = nearInstr call (.imm w1) := by
  simp only [decodeJmiNear, ha, hr, nearInstr]

theorem decodeJmiNear_abs (ha : field w 12 4 = 0) (hr : field w 9 3 = 1) :
    decodeJmiNear call w w1 = nearInstr call (.mem (.abs w1)) := by
  simp only [decodeJmiNear, ha, hr, nearInstr]

theorem decodeJmiNear_reg (ha : field w 12 4 = 2) : decodeJmiNear call w w1 = nearInstr call (.reg (regAt w 9)) := by
  simp only [decodeJmiNear, ha, nearInstr]

theorem decodeJmiNear_mem (ha : 3 ≤ field w 12 4) :
    decodeJmiNear call w w1 = nearInstr call (.mem (memModeAt w w1)) := by
  unfold decodeJmiNear
  dsimp only
  split
  · omega
  · omega
  · omega
  · rfl

theorem decodeJmiFar_imm (ha : field w 12 4 = 0) (hr : field w 9 3 = 0) :
    decodeJmiFar call w w1 w2 = farInstr call (.imm w1 w2) := by
  simp only [decodeJmiFar, ha, hr, farInstr]

theorem decodeJmiFar_abs (ha : field w 12 4 = 0) (hr : field w 9 3 = 1) :
    decodeJmiFar call w w1 w2 = farInstr call (.mem (.abs w1)) := by
  simp only [decodeJmiFar, ha, hr, farInstr]

theorem decodeJmiFar_reg (ha : field w 12 4 = 2) : decodeJmiFar call w w1 w2 = farInstr call (.reg (regAt w 9)) := by
  simp only [decodeJmiFar, ha, farInstr]

theorem decodeJmiFar_mem (ha : 3 ≤ field w 12 4) :
    decodeJmiFar call w w1 w2 = farInstr call (.mem (memModeAt w w1)) := by
  unfold decodeJmiFar
  dsimp only
  split
  · omega
  · omega
  · omega
  · rfl

/-- Row 1 of the JMI pattern is unassigned, near and far (R121). -/
theorem decodeJmi_procRow (ha : field w 12 4 = 1) :
    decodeJmi call w w1 w2 = .jmiUnassigned call (decide (field w 8 1 = 1)) true (regAt w 9) := by
  rw [decodeJmi]
  split
  · next hf => simp only [decodeJmiFar, ha, hf, decide_true]
  · next hf => simp only [decodeJmiNear, ha, hf, decide_false]

/-- So is row 0 from column 2 up. -/
theorem decodeJmi_unassigned (ha : field w 12 4 = 0) (hr : 2 ≤ field w 9 3) :
    decodeJmi call w w1 w2 = .jmiUnassigned call (decide (field w 8 1 = 1)) false (regAt w 9) := by
  rw [decodeJmi]
  split
  · next hf =>
    simp only [decodeJmiFar, ha, hf, decide_true]
    split
    · omega
    · omega
    · rfl
  · next hf =>
    simp only [decodeJmiNear, ha, hf, decide_false]
    split
    · omega
    · omega
    · rfl

end

/-- The words of a near jump or call are read back. -/
theorem decodeWords_encodeNear (call : Bool) (m : JmpOperand) (w2 : Word) :
    decodeWords (jmiWord call false m.modeBits) (m.extra.getD 0 0) w2 = nearInstr call m := by
  cases m with
  | imm v =>
    obtain ⟨hop, hf, ha, hr⟩ := fields_jmiWord call false (a := 0) (r := 0) (by decide) (by decide)
    rw [JmpOperand.modeBits, decodeWords_jmi hop, decodeJmi_near _ _ _ hf, decodeJmiNear_imm _ _ ha hr]
    rfl
  | reg r =>
    obtain ⟨hop, hf, ha, hr⟩ := fields_jmiWord call false (a := 2) (by decide) r.isLt
    rw [JmpOperand.modeBits, decodeWords_jmi hop, decodeJmi_near _ _ _ hf, decodeJmiNear_reg _ _ ha, regAt_of_field hr]
  | mem mode =>
    obtain ⟨hop, hf, ha, hr⟩ := fields_jmiWord call false mode.modeBits_lt.1 mode.modeBits_lt.2
    rw [JmpOperand.modeBits, JmpOperand.extra, decodeWords_jmi hop, decodeJmi_near _ _ _ hf]
    rcases mode.modeBits_cases with ⟨x, rfl⟩ | h3
    · rw [decodeJmiNear_abs _ _ ha hr]
      rfl
    · rw [decodeJmiNear_mem _ _ (ha.symm ▸ h3), memModeAt_modeBits ha hr h3 rfl]

/-- The words of a far jump or call are read back. -/
theorem decodeWords_encodeFar (call : Bool) (m : FarOperand) :
    decodeWords (jmiWord call true m.modeBits) (m.extra.getD 0 0) (m.extra.getD 1 0) = farInstr call m := by
  cases m with
  | imm v u =>
    obtain ⟨hop, hf, ha, hr⟩ := fields_jmiWord call true (a := 0) (r := 0) (by decide) (by decide)
    rw [FarOperand.modeBits, decodeWords_jmi hop, decodeJmi_far _ _ _ hf, decodeJmiFar_imm _ _ _ ha hr]
    rfl
  | reg r =>
    obtain ⟨hop, hf, ha, hr⟩ := fields_jmiWord call true (a := 2) (by decide) r.isLt
    rw [FarOperand.modeBits, decodeWords_jmi hop, decodeJmi_far _ _ _ hf, decodeJmiFar_reg _ _ _ ha, regAt_of_field hr]
  | mem mode =>
    obtain ⟨hop, hf, ha, hr⟩ := fields_jmiWord call true mode.modeBits_lt.1 mode.modeBits_lt.2
    rw [FarOperand.modeBits, FarOperand.extra, decodeWords_jmi hop, decodeJmi_far _ _ _ hf]
    rcases mode.modeBits_cases with ⟨x, rfl⟩ | h3
    · rw [decodeJmiFar_abs _ _ _ ha hr]
      rfl
    · rw [decodeJmiFar_mem _ _ _ (ha.symm ▸ h3), memModeAt_modeBits ha hr h3 rfl]

/-- The words of an unassigned jump mode are read back (R121). -/
theorem decodeWords_jmiUnassigned (call far procRow : Bool) (r : Reg) (h : procRow = true ∨ 2 ≤ r.val) (w1 w2 : Word) :
    decodeWords (jmiWord call far (if procRow then 1 else 0, r.val)) w1 w2 = .jmiUnassigned call far procRow r := by
  obtain ⟨hop, hf, ha, hr⟩ := fields_jmiWord call far (a := if procRow then 1 else 0) (by split <;> decide) r.isLt
  have hfar : decide (field (jmiWord call far (if procRow then 1 else 0, r.val)) 8 1 = 1) = far := by
    rw [hf]; cases far <;> rfl
  rw [decodeWords_jmi hop]
  cases procRow with
  | true => rw [decodeJmi_procRow _ _ _ ha, hfar, regAt_of_field hr]
  | false => rw [decodeJmi_unassigned _ _ _ ha (by rw [hr]; simpa using h), hfar, regAt_of_field hr]

/-! ## The patterns of one word -/

/-- The opcode of a one-word instruction, and the fields of its high octet. -/
theorem fields_wordOf {high op : Nat} (hh : high < 256) (ho : op < 256) :
    field (BitVec.ofNat 16 (high * 256 + op)) 0 8 = op ∧
      ∀ lo k, field (BitVec.ofNat 16 (high * 256 + op)) (8 + lo) k = high / 2 ^ lo % 2 ^ k := by
  have hfield : ∀ lo k, field (BitVec.ofNat 16 (high * 256 + op)) lo k = (high * 256 + op) / 2 ^ lo % 2 ^ k :=
    fun lo k => field_ofNat _ lo k (by omega)
  refine ⟨by rw [hfield]; omega, fun lo k => ?_⟩
  have hoctet : (high * 256 + op) / 2 ^ 8 = high := by omega
  rw [hfield, pow_add, ← Nat.div_div_eq_div_mul, hoctet]

/-- The patterns whose high octet is one field. -/
theorem decodeWords_octet {op : Nat} {f : BitVec 8 → Instr} (ho : op < 256)
    (hf : ∀ w, field w 0 8 = op → decodeWords w 0 0 = f (BitVec.ofNat 8 (field w 8 8))) (b : BitVec 8) :
    decodeWords (BitVec.ofNat 16 (b.toNat * 256 + op)) 0 0 = f b := by
  obtain ⟨hop, hhigh⟩ := fields_wordOf b.isLt ho
  rw [hf _ hop, hhigh 0 8, pow_zero, Nat.div_one, Nat.mod_eq_of_lt b.isLt, BitVec.ofNat_toNat, BitVec.setWidth_eq]

/-- The immediate form of shifts and bit tests (R109, R110). -/
theorem decodeWords_immHigh {op : Nat} {imm : Reg → BitVec 4 → Instr} {reg : Reg → Reg → Instr} (ho : op < 256)
    (hf : ∀ w, field w 0 8 = op → decodeWords w 0 0 = decodeShift imm reg w) (rx : Reg) (n : BitVec 4) :
    decodeWords (BitVec.ofNat 16 (immHigh rx n * 256 + op)) 0 0 = imm rx n := by
  obtain ⟨hop, hhigh⟩ := fields_wordOf (immHigh_lt rx n) ho
  have hrx := rx.isLt
  have hn := n.isLt
  have hbit : field (BitVec.ofNat 16 (immHigh rx n * 256 + op)) 12 1 = 0 := by
    rw [hhigh 4 1, immHigh]; omega
  have hreg : regAt (BitVec.ofNat 16 (immHigh rx n * 256 + op)) 13 = rx :=
    regAt_of_field (by rw [hhigh 5 3, immHigh]; omega)
  have hcount : field (BitVec.ofNat 16 (immHigh rx n * 256 + op)) 8 4 = n.toNat := by
    rw [hhigh 0 4, immHigh]; omega
  rw [hf _ hop, decodeShift, hbit, if_neg (by decide), hreg, hcount, BitVec.ofNat_toNat, BitVec.setWidth_eq]

/-- The register form of shifts and bit tests (R109, R110). -/
theorem decodeWords_regHigh {op : Nat} {imm : Reg → BitVec 4 → Instr} {reg : Reg → Reg → Instr} (ho : op < 256)
    (hf : ∀ w, field w 0 8 = op → decodeWords w 0 0 = decodeShift imm reg w) (rx r : Reg) :
    decodeWords (BitVec.ofNat 16 (regHigh rx r * 256 + op)) 0 0 = reg rx r := by
  obtain ⟨hop, hhigh⟩ := fields_wordOf (regHigh_lt rx r) ho
  have hrx := rx.isLt
  have hr := r.isLt
  have hbit : field (BitVec.ofNat 16 (regHigh rx r * 256 + op)) 12 1 = 1 := by
    rw [hhigh 4 1, regHigh]; omega
  have hreg : regAt (BitVec.ofNat 16 (regHigh rx r * 256 + op)) 13 = rx :=
    regAt_of_field (by rw [hhigh 5 3, regHigh]; omega)
  have hcount : regAt (BitVec.ofNat 16 (regHigh rx r * 256 + op)) 8 = r :=
    regAt_of_field (by rw [hhigh 0 3, regHigh]; omega)
  rw [hf _ hop, decodeShift, hbit, if_pos rfl, hreg, hcount]

/-- The patterns of a register and a five-bit value (R113, R115). -/
theorem decodeWords_valueHigh {op : Nat} {f : Reg → BitVec 5 → Instr} (ho : op < 256)
    (hf : ∀ w, field w 0 8 = op → decodeWords w 0 0 = f (regAt w 13) (BitVec.ofNat 5 (field w 8 5))) (rx : Reg)
    (v : BitVec 5) : decodeWords (BitVec.ofNat 16 (valueHigh rx v * 256 + op)) 0 0 = f rx v := by
  obtain ⟨hop, hhigh⟩ := fields_wordOf (valueHigh_lt rx v) ho
  have hrx := rx.isLt
  have hv := v.isLt
  have hreg : regAt (BitVec.ofNat 16 (valueHigh rx v * 256 + op)) 13 = rx :=
    regAt_of_field (by rw [hhigh 5 3, valueHigh]; omega)
  have hvalue : field (BitVec.ofNat 16 (valueHigh rx v * 256 + op)) 8 5 = v.toNat := by
    rw [hhigh 0 5, valueHigh]; omega
  rw [hf _ hop, hreg, hvalue, BitVec.ofNat_toNat, BitVec.setWidth_eq]

/-- SEF and CLF (R111). -/
theorem decodeWords_maskHigh {op : Nat} {f : BitVec 4 → Instr} (ho : op < 256)
    (hf : ∀ w, field w 0 8 = op → decodeWords w 0 0 = f (BitVec.ofNat 4 (field w 12 4))) (mask : BitVec 4) :
    decodeWords (BitVec.ofNat 16 (mask.toNat * 16 * 256 + op)) 0 0 = f mask := by
  have hmask := mask.isLt
  obtain ⟨hop, hhigh⟩ := fields_wordOf (high := mask.toNat * 16) (by omega) ho
  have hfield : field (BitVec.ofNat 16 (mask.toNat * 16 * 256 + op)) 12 4 = mask.toNat := by
    rw [hhigh 4 4]; omega
  rw [hf _ hop, hfield, BitVec.ofNat_toNat, BitVec.setWidth_eq]

/-- The MMU instructions (R114). -/
theorem decodeWords_mmuHigh (rv ra : Reg) (k : Fin 4) :
    decodeWords (BitVec.ofNat 16 ((rv.val * 32 + ra.val * 4 + k.val) * 256 + 0xB5)) 0 0 =
      match k with
      | 0 => .mmr rv ra
      | 1 => .mmw rv ra
      | 2 => .mml rv
      | 3 => .mms rv := by
  have hk := k.isLt
  have hrv := rv.isLt
  have hra := ra.isLt
  obtain ⟨hop, hhigh⟩ := fields_wordOf (high := rv.val * 32 + ra.val * 4 + k.val) (op := 0xB5) (by omega) (by decide)
  generalize BitVec.ofNat 16 ((rv.val * 32 + ra.val * 4 + k.val) * 256 + 0xB5) = w at hop hhigh
  have hreg : regAt w 13 = rv := regAt_of_field (by rw [hhigh 5 3]; omega)
  have haddr : regAt w 10 = ra := regAt_of_field (by rw [hhigh 2 3]; omega)
  have hkind : field w 8 2 = k.val := by rw [hhigh 0 2]; omega
  have hdecode : decodeWords w 0 0 = decodeMmu w := by rw [decodeWords, hop]; rfl
  rw [hdecode, decodeMmu, hkind, hreg, haddr]
  match k with
  | 0 | 1 | 2 | 3 => rfl

/-- HWQ with an unassigned index (R121). -/
theorem decodeHwq_unassigned {w : Word} (h : hwqIndexUnassigned (BitVec.ofNat 8 (field w 8 8)) = true) :
    decodeHwq w = .hwqUnassigned (BitVec.ofNat 8 (field w 8 8)) := by
  generalize hn : field w 8 8 = n at h
  unfold decodeHwq
  rw [hn]
  split
  case h_6 => rfl
  all_goals exact absurd h (by decide)

theorem decodeWords_hwq {w : Word} (h : field w 0 8 = 0xBC) (w1 w2 : Word) : decodeWords w w1 w2 = decodeHwq w := by
  rw [decodeWords, h]; rfl

theorem decodeWords_hwqUnassigned {index : BitVec 8} (h : hwqIndexUnassigned index = true) :
    decodeWords (BitVec.ofNat 16 (index.toNat * 256 + 0xBC)) 0 0 = .hwqUnassigned index := by
  obtain ⟨hop, hhigh⟩ := fields_wordOf (op := 0xBC) index.isLt (by decide)
  have hindex : BitVec.ofNat 8 (field (BitVec.ofNat 16 (index.toNat * 256 + 0xBC)) 8 8) = index := by
    rw [hhigh 0 8, pow_zero, Nat.div_one, Nat.mod_eq_of_lt index.isLt, BitVec.ofNat_toNat, BitVec.setWidth_eq]
  rw [decodeWords_hwq hop, decodeHwq_unassigned (hindex.symm ▸ h), hindex]

/-! ## Every instruction -/

/-- The decoder reads `words` as the instruction `i`. -/
def ReadsBack (words : List Word) (i : Instr) : Prop :=
  decodeWords (words.getD 0 0) (words.getD 1 0) (words.getD 2 0) = i

theorem readsBack_encodeAlu (op : AluOp) (sz : Size) (rx : Reg) (m : AluOperand) (hm : m.fits sz = true) :
    ReadsBack (encodeAlu op sz rx m) (aluInstr op sz rx m) := decodeWords_encodeAlu op sz rx m hm _

theorem readsBack_encodeNear (call : Bool) (m : JmpOperand) : ReadsBack (encodeNear call m) (nearInstr call m) :=
  decodeWords_encodeNear call m _

theorem readsBack_encodeFar (call : Bool) (m : FarOperand) : ReadsBack (encodeFar call m) (farInstr call m) :=
  decodeWords_encodeFar call m

/-- STO with a mode it has is no UNDEFINED form. -/
theorem aluInstr_sto (sz : Size) (rx : Reg) {m : AluOperand} (h : m.storable = true) :
    aluInstr .sto sz rx m = .sto sz rx m := by
  cases m with
  | imm | reg => cases h
  | proc | mem => rfl

/-- The words of an instruction decode to its first name. -/
theorem readsBack_encode (i : Instr) (h : i.fieldsOk = true) : ReadsBack (encode i) i.primary := by
  cases i with
  | nop | rts | undefBranch10 | undefBranch11 | undefBranch12 | undefBranch13 | undefBranch14 | undefAcAd | undefB4
  | undefC0FF | hwq00 | hwq01 | hwq02 | hwq80 | hwq81 | slp | swi | rti => unfold ReadsBack; decide
  | aluImmediate op | aluAbsolute op | aluProcReg op | aluRegister op | aluIndirect op | aluIndirectOffset op
  | aluStackOffset op | aluPostInc op | aluPreDec op | aluIndexed op => exact readsBack_encodeAlu op _ _ _ rfl
  | aluUnassigned op sz rx r => exact decodeWords_aluUnassigned op sz rx r (of_decide_eq_true h) _ _
  | cmp sz rx m => exact readsBack_encodeAlu .cmp sz rx m h
  | neg sz rx m => exact readsBack_encodeAlu .neg sz rx m h
  | add sz rx m => exact readsBack_encodeAlu .add sz rx m h
  | sub sz rx m => exact readsBack_encodeAlu .sub sz rx m h
  | adc sz rx m => exact readsBack_encodeAlu .adc sz rx m h
  | sbc sz rx m => exact readsBack_encodeAlu .sbc sz rx m h
  | mul sz rx m => exact readsBack_encodeAlu .mul sz rx m h
  | div sz rx m => exact readsBack_encodeAlu .div sz rx m h
  | mli sz rx m => exact readsBack_encodeAlu .mli sz rx m h
  | dvi sz rx m => exact readsBack_encodeAlu .dvi sz rx m h
  | mod sz rx m => exact readsBack_encodeAlu .mod sz rx m h
  | mdi sz rx m => exact readsBack_encodeAlu .mdi sz rx m h
  | and sz rx m => exact readsBack_encodeAlu .and sz rx m h
  | orr sz rx m => exact readsBack_encodeAlu .orr sz rx m h
  | eor sz rx m => exact readsBack_encodeAlu .eor sz rx m h
  | not sz rx m => exact readsBack_encodeAlu .not sz rx m h
  | lod sz rx m => exact readsBack_encodeAlu .lod sz rx m h
  | sto sz rx m =>
    obtain ⟨hfits, hstorable⟩ := Bool.and_eq_true_iff.mp h
    have hback := readsBack_encodeAlu .sto sz rx m hfits
    rwa [aluInstr_sto sz rx hstorable] at hback
  | undefStoImmediate sz rx => exact decodeWords_encodeAlu .sto sz rx (.imm 0) rfl 0
  | undefStoRegister r sz rx => exact decodeWords_encodeAlu .sto sz rx (.reg r) rfl 0
  | bcc b | bcs b | bne b | beq b | bpl b | bmi b | bvc b | bvs b | bug b | bsg b | baw b | pshGeneral b | pshStatus b
  | popGeneral b => exact decodeWords_octet (by decide) (fun w hop => by rw [decodeWords, hop]; rfl) b
  | popStatus mask =>
    exact decodeWords_octet (f := fun b => if b = 0x40 then .rts else .popStatus b) (by decide)
      (fun w hop => by rw [decodeWords, hop]; rfl) mask
  | aslImm rx n | lslImm rx n | rolImm rx n | rnlImm rx n | asrImm rx n | lsrImm rx n | rorImm rx n | rnrImm rx n
  | bttImm rx n | btxImm rx n | btcImm rx n | btsImm rx n =>
    exact decodeWords_immHigh (by decide) (fun w hop => by rw [decodeWords, hop]; rfl) rx n
  | aslReg rx r | lslReg rx r | rolReg rx r | rnlReg rx r | asrReg rx r | lsrReg rx r | rorReg rx r | rnrReg rx r
  | bttReg rx r | btxReg rx r | btcReg rx r | btsReg rx r =>
    exact decodeWords_regHigh (by decide) (fun w hop => by rw [decodeWords, hop]; rfl) rx r
  | sef mask | clf mask => exact decodeWords_maskHigh (by decide) (fun w hop => by rw [decodeWords, hop]; rfl) mask
  | mmr rv ra => exact decodeWords_mmuHigh rv ra 0
  | mmw rv ra => exact decodeWords_mmuHigh rv ra 1
  | mml rv => exact decodeWords_mmuHigh rv 0 2
  | mms rv => exact decodeWords_mmuHigh rv 0 3
  | setSmall rx v | setAlt rx v =>
    exact decodeWords_valueHigh (by decide) (fun w hop => by rw [decodeWords, hop]; rfl) rx v
  | inc rx =>
    exact decodeWords_valueHigh (f := fun r v => if v = 0 then .inc r else .adi r v) (by decide)
      (fun w hop => by rw [decodeWords, hop]; rfl) rx 0
  | adi rx v =>
    exact decodeWords_valueHigh (f := fun r v => if v = 0 then .inc r else .adi r v) (by decide)
      (fun w hop => by rw [decodeWords, hop]; rfl) rx v
  | dec rx =>
    exact decodeWords_valueHigh (f := fun r v => if v = 0 then .dec r else .sbi r v) (by decide)
      (fun w hop => by rw [decodeWords, hop]; rfl) rx 0
  | sbi rx v =>
    exact decodeWords_valueHigh (f := fun r v => if v = 0 then .dec r else .sbi r v) (by decide)
      (fun w hop => by rw [decodeWords, hop]; rfl) rx v
  | jmiImmediateNear call | jmiAbsoluteNear call | jmiRegisterNear call | jmiIndirectNear call
  | jmiIndirectOffsetNear call | jmiStackOffsetNear call | jmiPostIncNear call | jmiPreDecNear call
  | jmiIndexedNear call => exact readsBack_encodeNear call _
  | jmiImmediateFar call | jmiAbsoluteFar call | jmiRegisterFar call | jmiIndirectFar call
  | jmiIndirectOffsetFar call | jmiStackOffsetFar call | jmiPostIncFar call | jmiPreDecFar call
  | jmiIndexedFar call => exact readsBack_encodeFar call _
  | jmiUnassigned call far procRow r =>
    exact decodeWords_jmiUnassigned call far procRow r (by simpa [Instr.fieldsOk] using h) _ _
  | jmp m => exact readsBack_encodeNear false m
  | jsr m => exact readsBack_encodeNear true m
  | jmpF m => exact readsBack_encodeFar false m
  | jsrF m => exact readsBack_encodeFar true m
  | hwqUnassigned index => exact decodeWords_hwqUnassigned h

/-! ## Well-formed instructions -/

/-- `LOD R0, R0` at 16 bits is NOP (R126). -/
theorem aluInstr_lod_reg (sz : Size) (rx r : Reg) :
    aluInstr .lod sz rx (.reg r) = if sz = .word ∧ rx = 0 ∧ r = 0 then .nop else .lod sz rx (.reg r) := rfl

theorem primary_adi (rx : Reg) (v : BitVec 5) : (Instr.adi rx v).primary = if v = 0 then .inc rx else .adi rx v := rfl

theorem primary_sbi (rx : Reg) (v : BitVec 5) : (Instr.sbi rx v).primary = if v = 0 then .dec rx else .sbi rx v := rfl

theorem primary_popStatus (mask : BitVec 8) :
    (Instr.popStatus mask).primary = if mask = 0x40 then .rts else .popStatus mask := rfl

/-- The first name of an ALU instruction's words is well-formed. -/
theorem wf_aluInstr (op : AluOp) (sz : Size) (rx : Reg) (m : AluOperand) (hm : m.fits sz = true) :
    (aluInstr op sz rx m).wf = true := by
  cases op with
  | lod =>
    cases m with
    | reg r =>
      rw [aluInstr_lod_reg]
      split
      · rfl
      · simp only [Instr.wf, Instr.fieldsOk, Instr.isPrimary, AluOperand.fits, Bool.true_and, Bool.not_eq_true',
          Bool.and_eq_false_iff, beq_eq_false_iff_ne, ne_eq, AluOperand.reg.injEq]
        tauto
    | imm v => simp [aluInstr, AluOp.plain, Instr.wf, Instr.fieldsOk, Instr.isPrimary, hm]
    | proc p => simp [aluInstr, AluOp.plain, Instr.wf, Instr.fieldsOk, Instr.isPrimary, hm]
    | mem mode => simp [aluInstr, AluOp.plain, Instr.wf, Instr.fieldsOk, Instr.isPrimary, hm]
  | sto =>
    cases m with
    | imm | reg => rfl
    | proc p => simpa [aluInstr, AluOp.plain, Instr.wf, Instr.fieldsOk, Instr.isPrimary, AluOperand.storable] using hm
    | mem mode => rfl
  | _ => simpa [aluInstr, AluOp.plain, Instr.wf, Instr.fieldsOk, Instr.isPrimary] using hm

/-- It has the words of the ALU pattern. -/
theorem encode_aluInstr (op : AluOp) (sz : Size) (rx : Reg) (m : AluOperand) :
    encode (aluInstr op sz rx m) = encodeAlu op sz rx m := by
  cases op with
  | lod =>
    cases m with
    | reg r =>
      rw [aluInstr_lod_reg]
      split
      · next h => obtain ⟨rfl, rfl, rfl⟩ := h; rfl
      · rfl
    | imm | proc | mem => rfl
  | sto => cases m <;> rfl
  | _ => rfl

theorem wf_nearInstr (call : Bool) (m : JmpOperand) : (nearInstr call m).wf = true := by cases call <;> rfl

theorem wf_farInstr (call : Bool) (m : FarOperand) : (farInstr call m).wf = true := by cases call <;> rfl

theorem encode_nearInstr (call : Bool) (m : JmpOperand) : encode (nearInstr call m) = encodeNear call m := by
  cases call <;> rfl

theorem encode_farInstr (call : Bool) (m : FarOperand) : encode (farInstr call m) = encodeFar call m := by
  cases call <;> rfl

/-- The first name is well-formed. -/
theorem wf_primary {i : Instr} (h : i.fieldsOk = true) : i.primary.wf = true := by
  cases i with
  | aluImmediate op | aluAbsolute op | aluProcReg op | aluRegister op | aluIndirect op | aluIndirectOffset op
  | aluStackOffset op | aluPostInc op | aluPreDec op | aluIndexed op => exact wf_aluInstr op _ _ _ rfl
  | lod sz rx m => exact wf_aluInstr .lod sz rx m h
  | jmiImmediateNear call | jmiAbsoluteNear call | jmiRegisterNear call | jmiIndirectNear call
  | jmiIndirectOffsetNear call | jmiStackOffsetNear call | jmiPostIncNear call | jmiPreDecNear call
  | jmiIndexedNear call => exact wf_nearInstr call _
  | jmiImmediateFar call | jmiAbsoluteFar call | jmiRegisterFar call | jmiIndirectFar call
  | jmiIndirectOffsetFar call | jmiStackOffsetFar call | jmiPostIncFar call | jmiPreDecFar call
  | jmiIndexedFar call => exact wf_farInstr call _
  | adi rx v =>
    rw [primary_adi]
    split
    · rfl
    · next hv => simpa [Instr.wf, Instr.fieldsOk, Instr.isPrimary] using hv
  | sbi rx v =>
    rw [primary_sbi]
    split
    · rfl
    · next hv => simpa [Instr.wf, Instr.fieldsOk, Instr.isPrimary] using hv
  | popStatus mask =>
    rw [primary_popStatus]
    split
    · rfl
    · next hv => simpa [Instr.wf, Instr.fieldsOk, Instr.isPrimary] using hv
  | _ => exact Bool.and_eq_true_iff.mpr ⟨h, rfl⟩

/-- The first name has the words of the second. -/
theorem encode_primary (i : Instr) : encode i.primary = encode i := by
  cases i with
  | aluImmediate op | aluAbsolute op | aluProcReg op | aluRegister op | aluIndirect op | aluIndirectOffset op
  | aluStackOffset op | aluPostInc op | aluPreDec op | aluIndexed op => exact encode_aluInstr op _ _ _
  | lod sz rx m => exact encode_aluInstr .lod sz rx m
  | jmiImmediateNear call | jmiAbsoluteNear call | jmiRegisterNear call | jmiIndirectNear call
  | jmiIndirectOffsetNear call | jmiStackOffsetNear call | jmiPostIncNear call | jmiPreDecNear call
  | jmiIndexedNear call => exact encode_nearInstr call _
  | jmiImmediateFar call | jmiAbsoluteFar call | jmiRegisterFar call | jmiIndirectFar call
  | jmiIndirectOffsetFar call | jmiStackOffsetFar call | jmiPostIncFar call | jmiPreDecFar call
  | jmiIndexedFar call => exact encode_farInstr call _
  | adi rx v =>
    rw [primary_adi]
    split
    · next hv => rw [hv]; rfl
    · rfl
  | sbi rx v =>
    rw [primary_sbi]
    split
    · next hv => rw [hv]; rfl
    · rfl
  | popStatus mask =>
    rw [primary_popStatus]
    split
    · next hv => rw [hv]; rfl
    · rfl
  | _ => rfl

/-- A well-formed instruction bears its first name. -/
theorem primary_of_wf {i : Instr} (h : i.wf = true) : i.primary = i := by
  obtain ⟨_, hprimary⟩ := Bool.and_eq_true_iff.mp h
  cases i with
  | lod sz rx m =>
    cases m with
    | reg r =>
      simp only [Instr.isPrimary, Bool.not_eq_true', Bool.and_eq_false_iff, beq_eq_false_iff_ne] at hprimary
      exact if_neg (by rintro ⟨rfl, rfl, rfl⟩; simp at hprimary)
    | imm | proc | mem => rfl
  | adi rx v => exact if_neg (by simpa [Instr.isPrimary] using hprimary)
  | sbi rx v => exact if_neg (by simpa [Instr.isPrimary] using hprimary)
  | popStatus mask => exact if_neg (by simpa [Instr.isPrimary] using hprimary)
  | aluImmediate | aluAbsolute | aluProcReg | aluRegister | aluIndirect | aluIndirectOffset | aluStackOffset
  | aluPostInc | aluPreDec | aluIndexed | jmiImmediateNear | jmiAbsoluteNear | jmiRegisterNear | jmiIndirectNear
  | jmiIndirectOffsetNear | jmiStackOffsetNear | jmiPostIncNear | jmiPreDecNear | jmiIndexedNear | jmiImmediateFar
  | jmiAbsoluteFar | jmiRegisterFar | jmiIndirectFar | jmiIndirectOffsetFar | jmiStackOffsetFar | jmiPostIncFar
  | jmiPreDecFar | jmiIndexedFar => cases hprimary
  | _ => rfl

/-! ## What the decoder gives on any words -/

/-- `i` is well-formed and as long as the program word `w` says. -/
structure DecodedFrom (w : Word) (i : Instr) : Prop where
  wf : i.wf = true
  length : (encode i).length = wordCount w

theorem length_encodeAlu_mem (op : AluOp) (sz : Size) (rx : Reg) (m : MemMode) :
    (encodeAlu op sz rx (.mem m)).length = 1 + m.extra.length := by
  have hextra : aluExtra op (.mem m) = m.extra := by cases op <;> rfl
  rw [encodeAlu, hextra, List.length_cons, Nat.add_comm]

/-- STO alone has no operand word in the Immediate mode (R120). -/
theorem length_encodeAlu_imm (op : AluOp) (sz : Size) (rx : Reg) (v : Word) :
    (encodeAlu op sz rx (.imm v)).length = if op = .sto then 1 else 2 := by
  cases op <;> rfl

/-- Of the modes read from the rows from 3 up, Offset alone has an operand word. -/
theorem length_extra_memModeAt {w : Word} (h : 3 ≤ field w 12 4) (w1 : Word) :
    1 + (memModeAt w w1).extra.length = if field w 12 4 = 4 then 2 else 1 := by
  have hlt := field_lt w 12 4
  generalize hn : field w 12 4 = n at h hlt
  unfold memModeAt
  rw [hn]
  interval_cases n <;> rfl

/-- Below opcode $90 the operation is STO exactly from $88 up (R119). -/
theorem ofCode_eq_sto_iff {w : Word} (h : field w 0 8 < 0x90) :
    AluOp.ofCode (field w 3 5) = .sto ↔ 0x88 ≤ field w 0 8 := by
  have hcode : field w 3 5 = field w 0 8 / 8 := by
    simp only [field]; omega
  rw [hcode]
  generalize field w 0 8 = n at h
  have hn : n / 8 < 18 := by omega
  have hsto : 0x88 ≤ n ↔ n / 8 = 17 := by omega
  rw [hsto]
  generalize n / 8 = k at hn
  interval_cases k <;> decide

theorem wordCount_of_lt {w : Word} (h : field w 0 8 < 0x90) :
    wordCount w = if field w 12 4 = 0 then
        (if field w 9 3 = 0 then (if 0x88 ≤ field w 0 8 then 1 else 2) else if field w 9 3 = 1 then 2 else 1)
      else if field w 12 4 = 4 then 2 else 1 := by
  rw [wordCount]
  exact if_pos h

theorem wordCount_jmiOpcode {w : Word} {call : Bool} (h : field w 0 8 = if call then 0xBB else 0xBA) :
    wordCount w = if field w 12 4 = 0 then
        (if field w 9 3 = 0 then (if field w 8 1 = 1 then 3 else 2) else if field w 9 3 = 1 then 2 else 1)
      else if field w 12 4 = 4 then 2 else 1 := by
  rw [wordCount, h]
  cases call <;> rfl

theorem regAt_val (w : Word) (lo : Nat) : (regAt w lo).val = field w lo 3 :=
  Nat.mod_eq_of_lt (field_lt w lo 3)

theorem decodedFrom_aluInstr {w : Word} {op : AluOp} {sz : Size} {rx : Reg} {m : AluOperand} (hm : m.fits sz = true)
    (hl : (encodeAlu op sz rx m).length = wordCount w) : DecodedFrom w (aluInstr op sz rx m) :=
  ⟨wf_aluInstr op sz rx m hm, by rw [encode_aluInstr, hl]⟩

theorem decodeAlu_decodedFrom {w : Word} (h : field w 0 8 < 0x90) (w1 : Word) : DecodedFrom w (decodeAlu w w1) := by
  have hcount := wordCount_of_lt h
  have hrow : field w 12 4 = 0 ∨ field w 12 4 = 1 ∨ field w 12 4 = 2 ∨ 3 ≤ field w 12 4 := by omega
  rcases hrow with ha | ha | ha | ha
  · have hcol : field w 9 3 = 0 ∨ field w 9 3 = 1 ∨ 2 ≤ field w 9 3 := by omega
    rcases hcol with hr | hr | hr
    · rw [decodeAlu_imm w1 ha hr]
      refine decodedFrom_aluInstr rfl ?_
      rw [hcount, if_pos ha, if_pos hr]
      simp only [length_encodeAlu_imm, ofCode_eq_sto_iff h]
    · rw [decodeAlu_abs w1 ha hr]
      refine decodedFrom_aluInstr rfl ?_
      rw [hcount, if_pos ha, if_neg (by omega), if_pos hr, length_encodeAlu_mem]
      rfl
    · rw [decodeAlu_unassigned w1 ha hr]
      refine ⟨?_, ?_⟩
      · simpa [Instr.wf, Instr.fieldsOk, Instr.isPrimary, regAt_val] using hr
      · rw [hcount, if_pos ha, if_neg (by omega), if_neg (by omega)]
        rfl
  · rw [decodeAlu_proc w1 ha]
    refine decodedFrom_aluInstr rfl ?_
    rw [hcount, if_neg (by omega), if_neg (by omega)]
    generalize AluOp.ofCode (field w 3 5) = op
    cases op <;> rfl
  · rw [decodeAlu_reg w1 ha]
    refine decodedFrom_aluInstr rfl ?_
    rw [hcount, if_neg (by omega), if_neg (by omega)]
    generalize AluOp.ofCode (field w 3 5) = op
    cases op <;> rfl
  · rw [decodeAlu_mem w1 ha]
    refine decodedFrom_aluInstr rfl ?_
    rw [hcount, if_neg (by omega), length_encodeAlu_mem, length_extra_memModeAt ha]

theorem decodeJmi_decodedFrom {w : Word} {call : Bool} (h : field w 0 8 = if call then 0xBB else 0xBA) (w1 w2 : Word) :
    DecodedFrom w (decodeJmi call w w1 w2) := by
  have hcount := wordCount_jmiOpcode h
  have hrow : field w 12 4 = 0 ∨ field w 12 4 = 1 ∨ field w 12 4 = 2 ∨ 3 ≤ field w 12 4 := by omega
  have hfar : field w 8 1 = 0 ∨ field w 8 1 = 1 := by have := field_lt w 8 1; omega
  have near : ∀ m, (encodeNear call m).length = wordCount w → DecodedFrom w (nearInstr call m) := fun m hl =>
    ⟨wf_nearInstr call m, by rw [encode_nearInstr, hl]⟩
  have far : ∀ m, (encodeFar call m).length = wordCount w → DecodedFrom w (farInstr call m) := fun m hl =>
    ⟨wf_farInstr call m, by rw [encode_farInstr, hl]⟩
  rcases hrow with ha | ha | ha | ha
  · have hcol : field w 9 3 = 0 ∨ field w 9 3 = 1 ∨ 2 ≤ field w 9 3 := by omega
    rcases hcol with hr | hr | hr
    · rw [if_pos ha, if_pos hr] at hcount
      rcases hfar with hf | hf
      · rw [decodeJmi_near _ _ _ hf, decodeJmiNear_imm _ _ ha hr]
        exact near _ (by rw [hcount, if_neg (by omega)]; rfl)
      · rw [decodeJmi_far _ _ _ hf, decodeJmiFar_imm _ _ _ ha hr]
        exact far _ (by rw [hcount, if_pos hf]; rfl)
    · rw [if_pos ha, if_neg (by omega), if_pos hr] at hcount
      rcases hfar with hf | hf
      · rw [decodeJmi_near _ _ _ hf, decodeJmiNear_abs _ _ ha hr]
        exact near _ hcount.symm
      · rw [decodeJmi_far _ _ _ hf, decodeJmiFar_abs _ _ _ ha hr]
        exact far _ hcount.symm
    · rw [decodeJmi_unassigned _ _ _ ha hr]
      refine ⟨?_, ?_⟩
      · simpa [Instr.wf, Instr.fieldsOk, Instr.isPrimary, regAt_val] using hr
      · rw [hcount, if_pos ha, if_neg (by omega), if_neg (by omega)]
        rfl
  · rw [decodeJmi_procRow _ _ _ ha]
    refine ⟨rfl, ?_⟩
    rw [hcount, if_neg (by omega), if_neg (by omega)]
    rfl
  · rw [if_neg (by omega), if_neg (by omega)] at hcount
    rcases hfar with hf | hf
    · rw [decodeJmi_near _ _ _ hf, decodeJmiNear_reg _ _ ha]
      exact near _ hcount.symm
    · rw [decodeJmi_far _ _ _ hf, decodeJmiFar_reg _ _ _ ha]
      exact far _ hcount.symm
  · rw [if_neg (by omega), ← length_extra_memModeAt ha w1, Nat.add_comm] at hcount
    rcases hfar with hf | hf
    · rw [decodeJmi_near _ _ _ hf, decodeJmiNear_mem _ _ ha]
      exact near _ hcount.symm
    · rw [decodeJmi_far _ _ _ hf, decodeJmiFar_mem _ _ _ ha]
      exact far _ hcount.symm

/-- A well-formed instruction of one word. -/
def Instr.isSingle (i : Instr) : Bool := i.wf && (encode i).length == 1

theorem isSingle_decodeShift {imm : Reg → BitVec 4 → Instr} {reg : Reg → Reg → Instr}
    (himm : ∀ rx n, (imm rx n).isSingle = true) (hreg : ∀ rx r, (reg rx r).isSingle = true) (w : Word) :
    (decodeShift imm reg w).isSingle = true := by
  unfold decodeShift
  split
  · exact hreg _ _
  · exact himm _ _

theorem isSingle_decodeMmu (w : Word) : (decodeMmu w).isSingle = true := by
  unfold decodeMmu
  split <;> rfl

theorem hwqIndexUnassigned_of_not_mem {n : Nat} (hlt : n < 2 ^ 8) (h : n ∉ [0x00, 0x01, 0x02, 0x80, 0x81]) :
    hwqIndexUnassigned (BitVec.ofNat 8 n) = true := by
  simp only [List.mem_cons, List.not_mem_nil, or_false, not_or] at h
  obtain ⟨h0, h1, h2, h80, h81⟩ := h
  simp only [hwqIndexUnassigned, Bool.not_eq_true', Bool.or_eq_false_iff, beq_eq_false_iff_ne, ne_eq,
    ← BitVec.toNat_inj, BitVec.toNat_ofNat, Nat.mod_eq_of_lt hlt]
  exact ⟨⟨⟨⟨h0, h1⟩, h2⟩, h80⟩, h81⟩

theorem isSingle_decodeHwq (w : Word) : (decodeHwq w).isSingle = true := by
  have hlt := field_lt w 8 8
  generalize hn : field w 8 8 = n at hlt
  unfold decodeHwq
  rw [hn]
  split
  case h_6 h0 h1 h2 h80 h81 =>
    have hun : hwqIndexUnassigned (BitVec.ofNat 8 n) = true :=
      hwqIndexUnassigned_of_not_mem hlt (by
        simp only [List.mem_cons, List.not_mem_nil, or_false, not_or]
        exact ⟨h0, h1, h2, h80, h81⟩)
    rw [Instr.isSingle, Instr.wf, Instr.fieldsOk, hun]
    rfl
  all_goals rfl

theorem isSingle_adi (rx : Reg) (v : BitVec 5) : (if v = 0 then Instr.inc rx else .adi rx v).isSingle = true := by
  rw [Instr.isSingle, ← primary_adi, wf_primary rfl, encode_primary]; rfl

theorem isSingle_sbi (rx : Reg) (v : BitVec 5) : (if v = 0 then Instr.dec rx else .sbi rx v).isSingle = true := by
  rw [Instr.isSingle, ← primary_sbi, wf_primary rfl, encode_primary]; rfl

theorem isSingle_popStatus (mask : BitVec 8) :
    (if mask = 0x40 then Instr.rts else .popStatus mask).isSingle = true := by
  rw [Instr.isSingle, ← primary_popStatus, wf_primary rfl, encode_primary]; rfl

/-- Outside the ALU and JMI patterns the decoder gives well-formed instructions of one word. -/
theorem isSingle_decodeWords {w : Word} (hlo : 0x90 ≤ field w 0 8) (hjmp : field w 0 8 ≠ 0xBA)
    (hcall : field w 0 8 ≠ 0xBB) (w1 w2 : Word) : (decodeWords w w1 w2).isSingle = true := by
  unfold decodeWords
  dsimp only
  rw [if_neg (by omega)]
  split
  · rfl
  generalize hop : field w 0 8 = op at hjmp hcall
  split
  case h_17 | h_18 | h_19 | h_20 | h_21 | h_22 | h_23 | h_24 | h_25 | h_26 | h_27 | h_28 =>
    exact isSingle_decodeShift (fun _ _ => rfl) (fun _ _ => rfl) w
  case h_34 => exact isSingle_popStatus _
  case h_36 => exact isSingle_decodeMmu w
  case h_39 => exact isSingle_adi _ _
  case h_40 => exact isSingle_sbi _ _
  case h_41 => exact absurd rfl hjmp
  case h_42 => exact absurd rfl hcall
  case h_43 => exact isSingle_decodeHwq w
  all_goals rfl

theorem decodeWords_decodedFrom (w w1 w2 : Word) : DecodedFrom w (decodeWords w w1 w2) := by
  by_cases hlt : field w 0 8 < 0x90
  · rw [decodeWords_of_lt _ _ hlt]; exact decodeAlu_decodedFrom hlt w1
  by_cases hjmp : field w 0 8 = 0xBA
  · rw [decodeWords_jmi (call := false) hjmp]; exact decodeJmi_decodedFrom hjmp w1 w2
  by_cases hcall : field w 0 8 = 0xBB
  · rw [decodeWords_jmi (call := true) hcall]; exact decodeJmi_decodedFrom hcall w1 w2
  have hsingle := isSingle_decodeWords (by omega) hjmp hcall w1 w2
  simp only [Instr.isSingle, Bool.and_eq_true, beq_iff_eq] at hsingle
  refine ⟨hsingle.1, hsingle.2.trans ?_⟩
  rw [wordCount, if_neg hlt, if_neg (by omega)]

/-! ## Bytes -/

theorem wordOfBytes_bytes (w : Word) : wordOfBytes (w.extractLsb' 0 8) (w.extractLsb' 8 8) = w := by
  apply BitVec.eq_of_getLsbD_eq
  intro i hi
  simp only [wordOfBytes, BitVec.getLsbD_append, BitVec.getLsbD_extractLsb']
  split
  · next h => simp [h]
  · next h =>
    have h8 : i - 8 < 8 := by omega
    have hadd : 8 + (i - 8) = i := by omega
    simp [h8, hadd]

theorem wordCount_cases (w : Word) : wordCount w = 1 ∨ wordCount w = 2 ∨ wordCount w = 3 := by
  simp only [wordCount]
  split_ifs <;> simp

/-- The bytes of one to three words, as many as the first of them says, decode to what the words do. -/
theorem decode_flatMap_bytesOfWord {ws : List Word} (h : ws.length = wordCount (ws.getD 0 0)) (rest : List Byte) :
    decode (ws.flatMap bytesOfWord ++ rest) = .ok (decodeWords (ws.getD 0 0) (ws.getD 1 0) (ws.getD 2 0), rest) := by
  match ws with
  | [] => exact absurd h (by decide)
  | [w] =>
    have hw : wordCount w = 1 := h.symm
    simp [bytesOfWord, decode, wordOfBytes_bytes, hw]
  | [w, w1] =>
    have hw : wordCount w = 2 := h.symm
    simp [bytesOfWord, decode, wordOfBytes_bytes, hw]
  | [w, w1, w2] =>
    have hw : wordCount w = 3 := h.symm
    simp [bytesOfWord, decode, wordOfBytes_bytes, hw]
  | w :: w1 :: w2 :: w3 :: more =>
    have hw := wordCount_cases w
    simp only [List.length_cons, List.getD_cons_zero] at h
    omega

/-- The bytes of an instruction decode to its first name. -/
theorem decode_encodeBytes {i : Instr} (h : i.fieldsOk = true) (rest : List Byte) :
    decode (encodeBytes i ++ rest) = .ok (i.primary, rest) := by
  have hback := readsBack_encode i h
  have hlength := (decodeWords_decodedFrom ((encode i).getD 0 0) ((encode i).getD 1 0) ((encode i).getD 2 0)).length
  rw [show decodeWords _ _ _ = i.primary from hback, encode_primary] at hlength
  rw [encodeBytes, decode_flatMap_bytesOfWord hlength, show decodeWords _ _ _ = i.primary from hback]

/-- Settles O1: the bytes decode to the first name, which a well-formed instruction bears. -/
theorem decodeOfEncode : Obligations.DecodeOfEncode := fun i rest h => by
  rw [decode_encodeBytes (Bool.and_eq_true_iff.mp h).1, primary_of_wf h]

/-- Settles O2: each branch of `decode` takes the words that `wordCount` says, and what `decodeWords` gives on them is
well-formed and of that length. -/
theorem decodeGivesWellFormed : Obligations.DecodeGivesWellFormed := fun bytes i rest h => by
  unfold decode at h
  split at h
  · next b0 b1 more =>
    have hd := fun w1 w2 => decodeWords_decodedFrom (wordOfBytes b0 b1) w1 w2
    dsimp only at h
    split at h
    · next b2 b3 more' hw =>
      cases h
      exact ⟨(hd _ _).wf, [b0, b1, b2, b3], rfl, by rw [(hd _ _).length, hw]; rfl⟩
    · next b2 b3 b4 b5 more' hw =>
      cases h
      exact ⟨(hd _ _).wf, [b0, b1, b2, b3, b4, b5], rfl, by rw [(hd _ _).length, hw]; rfl⟩
    · next hw =>
      cases h
      exact ⟨(hd _ _).wf, [b0, b1], rfl, by rw [(hd _ _).length, hw]; rfl⟩
    · cases h
  · cases h

end Sys2Proof

/-! Names, refusals and traps: a second name of an instruction means what the first does (log 18); the encodings a model
must refuse (R121, U4 to U6, U12); the UNDEFINED and the privileged ones (R120, R305). -/

namespace Sys2Proof.Machine

/-! ## The ALU pattern by its operation -/

/-- The instruction of an operation runs the operation. -/
theorem exec_plain (op : AluOp) (sz : Size) (rx : Reg) (m : AluOperand) (s : State) :
    exec (op.plain sz rx m) s = runAlu op sz rx m s := by
  cases op <;> rfl

theorem runBody_refuse {len : Nat} {body : State → Res Unit} {s : State} {r : Refusal}
    (h : body (s.started len) = .refuse r) : runBody len body s = .refused r := by
  rcases runBody_cases len body s with ⟨t, hok, _⟩ | ⟨i, u, htrap, _⟩ | ⟨r', href, hr⟩
  · rw [show body (s.setPc _) = _ from h] at hok; cases hok
  · rw [show body (s.setPc _) = _ from h] at htrap; cases htrap
  · rw [show body (s.setPc _) = _ from h] at href; cases href; exact hr

/-! ## Second names -/

theorem enter_setPc (i : Interrupt) (s : State) (x : Word) : (s.setPc x).enter i = (s.enter i).setPc x := by
  cases i <;> rfl

theorem memRead_setPc (sz : Size) (a : Word) (s : State) (x : Word) :
    memRead sz a (s.setPc x) = (memRead sz a s).mapState fun t => t.setPc x := by
  have houter := memRead_outer sz a s s.regs s.fl x s.usp s.ssp
  rw [show s.setPc x = s.outer s.regs s.fl x s.usp s.ssp from rfl, houter]
  rcases memRead_cases sz a s with ⟨f, _, h⟩ | ⟨_, v, t, h, g⟩
  · rw [h]; rfl
  · have ht : t.outer s.regs s.fl x s.usp s.ssp = t.setPc x := by rw [g.only]; rfl
    simp only [h, Res.mapState, ht]

theorem setSp_setPc (s : State) (v x : Word) : (s.setPc x).setSp v = (s.setSp v).setPc x := by
  unfold State.setSp
  rw [supervisor_setPc]
  split <;> rfl

theorem push_setPc (v : Word) (s : State) (x : Word) : push v (s.setPc x) = (push v s).mapState fun t => t.setPc x := by
  have houter := memWrite_outer .word (s.setSp (s.sp - 2)).sp v (s.setSp (s.sp - 2)) s.regs s.fl x
    (s.setSp (s.sp - 2)).usp (s.setSp (s.sp - 2)).ssp
  have hsp : (s.setPc x).setSp ((s.setPc x).sp - 2) =
      (s.setSp (s.sp - 2)).outer s.regs s.fl x (s.setSp (s.sp - 2)).usp (s.setSp (s.sp - 2)).ssp := by
    rw [sp_setPc, setSp_setPc]
    simp only [State.outer, State.setPc, ← regs_setSp s (s.sp - 2), ← fl_setSp s (s.sp - 2)]
  have hwrite : push v (s.setPc x) = _ := (congrArg (fun t : State => memWrite .word t.sp v t) hsp).trans houter
  rw [hwrite, push]
  rcases memWrite_cases .word (s.setSp (s.sp - 2)).sp v (s.setSp (s.sp - 2)) with ⟨f, _, h⟩ | ⟨_, h, g⟩
  · simp only [h, Res.mapState, Res.trap.injEq, true_and]
    simp only [State.outer, State.setPc, regs_setSp, fl_setSp]
  · simp only [h, Res.mapState, Res.ok.injEq, true_and]
    rw [g.only]
    simp only [State.outer, State.setPc, regs_setSp, fl_setSp]

/-- The interrupt sequence does not look at PC: the saved PC is an argument, and the handler's replaces it. -/
theorem takeInterrupt_setPc (i : Interrupt) (savedPc : Word) (s : State) (x : Word) :
    takeInterrupt i savedPc (s.setPc x) = takeInterrupt i savedPc s := by
  unfold takeInterrupt interruptFrame
  rw [enter_setPc, tempPs_setPc, push_setPc]
  cases push (s.enter i).tempPs (s.enter i) with
  | ok _ t =>
    simp only [Res.mapState, bind_ok, push_setPc]
    cases push savedPc t with
    | ok _ u =>
      simp only [Res.mapState, bind_ok, memRead_setPc, ia_setPc]
      cases memRead .word (u.ia + 2 * i.index) u <;> rfl
    | trap | refuse => rfl
  | trap | refuse => rfl

/-- An UNDEFINED encoding does the same whatever its length is taken to be. -/
theorem runBody_undefined (len len' : Nat) (s : State) : runBody len undefinedBody s = runBody len' undefinedBody s :=
  (takeInterrupt_setPc .undefOpcode s.pc s _).trans (takeInterrupt_setPc .undefOpcode s.pc s _).symm

/-- The first name of an ALU instruction runs its operation. -/
theorem exec_aluInstr (op : AluOp) (sz : Size) (rx : Reg) (m : AluOperand) (s : State) :
    exec (aluInstr op sz rx m) s = runAlu op sz rx m s := by
  cases op with
  | lod =>
    cases m with
    | reg r =>
      rw [aluInstr_lod_reg]
      split
      · next h => obtain ⟨rfl, rfl, rfl⟩ := h; rfl
      · rfl
    | imm | proc | mem => rfl
  | sto =>
    cases m with
    | imm v => exact runBody_undefined 1 (aluWords (.imm v)) s
    | reg | proc | mem => rfl
  | _ => rfl

theorem exec_nearInstr (call : Bool) (m : JmpOperand) (s : State) : exec (nearInstr call m) s = runNear call m s := by
  cases call <;> rfl

theorem exec_farInstr (call : Bool) (m : FarOperand) (s : State) : exec (farInstr call m) s = runFar call m s := by
  cases call <;> rfl

/-- `POP PC` names PC alone, which either mode may. -/
theorem popStatusBody_pc (s : State) :
    popStatusBody 0x40 s = (pop s).bind fun v s1 => .ok () (s1.setPc v) := by
  have hmask : maskProcs 0x40 s = [.pc] := by
    cases hs : s.supervisor <;> (simp [maskProcs, procAllowed, hs]; decide)
  have hnames : namesForbidden 0x40 s = false := by
    cases hs : s.supervisor with
    | true => simp [namesForbidden, procAllowed, hs]
    | false => simp only [namesForbidden, procAllowed, hs]; decide
  rw [popStatusBody, hmask, hnames, popProcs]
  cases pop s <;> rfl

/-- The first name means what the second does. -/
theorem exec_primary (i : Instr) (s : State) : exec i.primary s = exec i s := by
  cases i with
  | aluImmediate op | aluAbsolute op | aluProcReg op | aluRegister op | aluIndirect op | aluIndirectOffset op
  | aluStackOffset op | aluPostInc op | aluPreDec op | aluIndexed op => exact exec_aluInstr op _ _ _ s
  | lod sz rx m => exact exec_aluInstr .lod sz rx m s
  | jmiImmediateNear call | jmiAbsoluteNear call | jmiRegisterNear call | jmiIndirectNear call
  | jmiIndirectOffsetNear call | jmiStackOffsetNear call | jmiPostIncNear call | jmiPreDecNear call
  | jmiIndexedNear call => exact exec_nearInstr call _ s
  | jmiImmediateFar call | jmiAbsoluteFar call | jmiRegisterFar call | jmiIndirectFar call
  | jmiIndirectOffsetFar call | jmiStackOffsetFar call | jmiPostIncFar call | jmiPreDecFar call
  | jmiIndexedFar call => exact exec_farInstr call _ s
  | adi rx v =>
    rw [primary_adi]
    split
    · next hv => rw [hv]; rfl
    · rfl
  | sbi rx v =>
    rw [primary_sbi]
    split
    · next hv => rw [hv]; rfl
    · rfl
  | popStatus mask =>
    rw [primary_popStatus]
    split
    · next hv =>
      rw [hv]
      show execRts s = execPopStatus 0x40 s
      rw [execRts, execPopStatus, show popStatusBody 0x40 = _ from funext popStatusBody_pc]
    · rfl
  | _ => rfl

/-- Settles O3: the first name is well-formed, has the words (`encode_primary`) and the meaning (`exec_primary`). -/
theorem secondNamesMeanTheSame : Obligations.SecondNamesMeanTheSame :=
  fun i h => ⟨wf_primary h, encode_primary i, exec_primary i⟩

/-- Settles O4: each word is evaluated. -/
theorem specWordsDecode : Obligations.SpecWordsDecode := by
  unfold Obligations.SpecWordsDecode
  decide

/-! ## Refusals -/

/-- The ALU operations refuse a moved base that is Rx (R140, U4); a product looks at its width first. -/
theorem aluBody_baseIsRx {op : AluOp} {sz : Size} {rx : Reg} {mode : MemMode} (hbase : baseIsRx (.mem mode) rx = true)
    (hsz : sz = .word ∨ (op ≠ .mul ∧ op ≠ .mli)) (s : State) :
    aluBody op sz rx (.mem mode) s = .refuse .baseIsRx := by
  have hfactors : sz = .word → ∀ k, withFactors sz rx (.mem mode) k s = .refuse .baseIsRx := fun hw k => by
    rw [withFactors, show operandSize (.mem mode) sz = sz from rfl, hw, if_neg (by decide), if_pos hbase]
  cases op with
  | mul => simp only [aluBody, mulBody, hfactors (hsz.resolve_right fun h => h.1 rfl)]
  | mli => simp only [aluBody, mliBody, hfactors (hsz.resolve_right fun h => h.2 rfl)]
  | sto => exact if_pos hbase
  | _ => exact if_pos hbase

/-- There is no 8-bit product (R142, U5). -/
theorem withFactors_byte {m : AluOperand} (hm : ∀ p, m ≠ .proc p) (rx : Reg) (k : (a v : Word) → State → Res Unit)
    (s : State) : withFactors .byte rx m k s = .refuse .byteMultiply := by
  have hsize : operandSize m .byte = .byte := by
    cases m with
    | proc p => exact absurd rfl (hm p)
    | _ => rfl
  rw [withFactors, if_pos hsize]

/-- The indexes that name no cache word (R269, D23, U6). -/
theorem mmuIndex_eq_none {map : MmuIndexMap} {i : Word}
    (h : (map = .compact ∧ 8 ≤ i.toNat) ∨ (map = .wide ∧ (16 ≤ i.toNat ∨ i.toNat % 2 = 1))) :
    mmuIndex map i = none := by
  rcases h with ⟨rfl, h⟩ | ⟨rfl, h⟩
  · exact if_neg (by omega)
  · exact if_neg (by omega)

/-- A privileged instruction in Supervisor mode runs its body. -/
theorem privileged_supervisor {body : State → Res Unit} {s : State} (h : s.supervisor = true) :
    privileged body s = body s := if_pos h

theorem isAligned_eq_decide (a : Word) : isAligned a = decide (a.toNat % 2 = 0) := by
  rw [isAligned, BitVec.getLsbD, Nat.testBit_zero, ← decide_not]
  congr 1
  exact propext (by omega)

/-- The words of R121. -/
theorem exec_unassignedWords :
    (∀ (w w1 w2 : Word) (s : State), field w 0 8 < 0x90 → field w 12 4 = 0 → 2 ≤ field w 9 3 →
      (∃ op sz rx r, decodeWords w w1 w2 = .aluUnassigned op sz rx r) ∧
      exec (decodeWords w w1 w2) s = .refused .unassignedAluMode) ∧
    (∀ (w w1 w2 : Word) (s : State), field w 0 8 = 0xBA ∨ field w 0 8 = 0xBB →
      field w 12 4 = 1 ∨ (field w 12 4 = 0 ∧ 2 ≤ field w 9 3) →
      (∃ call far procRow r, decodeWords w w1 w2 = .jmiUnassigned call far procRow r) ∧
      exec (decodeWords w w1 w2) s = .refused .unassignedJumpMode) ∧
    (∀ (w w1 w2 : Word) (s : State), field w 0 8 = 0xBC → ¬ field w 8 8 ∈ [0x00, 0x01, 0x02, 0x80, 0x81] →
      s.supervisor = true →
      (∃ index, decodeWords w w1 w2 = .hwqUnassigned index) ∧
      exec (decodeWords w w1 w2) s = .refused .unassignedHwqIndex) := by
  refine ⟨fun w w1 w2 s hlt ha hr => ?_, fun w w1 w2 s hop hmode => ?_, fun w w1 w2 s hop hindex hs => ?_⟩
  · rw [decodeWords_of_lt w1 w2 hlt, decodeAlu_unassigned w1 ha hr]
    exact ⟨⟨_, _, _, _, rfl⟩, rfl⟩
  · obtain ⟨call, hcall⟩ : ∃ call, field w 0 8 = if call then 0xBB else 0xBA :=
      hop.elim (fun h => ⟨false, h⟩) fun h => ⟨true, h⟩
    rw [decodeWords_jmi hcall]
    rcases hmode with ha | ⟨ha, hr⟩
    · rw [decodeJmi_procRow call w1 w2 ha]
      exact ⟨⟨_, _, _, _, rfl⟩, rfl⟩
    · rw [decodeJmi_unassigned call w1 w2 ha hr]
      exact ⟨⟨_, _, _, _, rfl⟩, rfl⟩
  · rw [decodeWords_hwq hop, decodeHwq_unassigned (hwqIndexUnassigned_of_not_mem (field_lt w 8 8) hindex)]
    exact ⟨⟨_, rfl⟩, runBody_refuse (privileged_supervisor hs)⟩

/-- Settles O5: the words of R121, and the forms of U4, U5, U6 and U12, each by the lemma about its check. -/
theorem reservedEncodingsAreRefused : Obligations.ReservedEncodingsAreRefused := by
  refine ⟨exec_unassignedWords, fun op sz rx s hsz => ?_, fun rx m s hm => ?_, fun rv ra s hs hindex => ?_,
    fun s hodd hpolicy => ?_⟩
  · rw [exec_plain, exec_plain]
    have hmoved : ∀ mode, baseIsRx (.mem mode) rx = true →
        runAlu op sz rx (.mem mode) s = .refused .baseIsRx := fun mode h => runBody_refuse (aluBody_baseIsRx h hsz _)
    exact ⟨hmoved (.postInc rx) (beq_self_eq_true rx), hmoved (.preDec rx) (beq_self_eq_true rx)⟩
  · exact ⟨runBody_refuse (withFactors_byte hm rx _ _), runBody_refuse (withFactors_byte hm rx _ _)⟩
  · have hnone := mmuIndex_eq_none hindex
    have hmmr : mmrBody rv ra (s.started 1) = .refuse .mmuIndexNamesNothing := by
      rw [mmrBody, show mmuIndex (s.started 1).platform.mmuIndexMap ((s.started 1).reg ra) = none from hnone]
    have hmmw : mmwBody rv ra (s.started 1) = .refuse .mmuIndexNamesNothing := by
      rw [mmwBody, show mmuIndex (s.started 1).platform.mmuIndexMap ((s.started 1).reg ra) = none from hnone]
    have hstarted : (s.started 1).supervisor = true := hs
    exact ⟨runBody_refuse ((privileged_supervisor hstarted).trans hmmr),
      runBody_refuse ((privileged_supervisor hstarted).trans hmmw)⟩
  · have hfetch : s.fetchable = false := by
      rw [State.fetchable, isAligned_eq_decide, hpolicy, hodd]
      rfl
    rw [fetchAndExec, hfetch]
    rfl

/-! ## UNDEFINED encodings -/

theorem undefined_raises (s : State) :
    raisesFrom .undefOpcode s.pc { s with pc := s.pc + 2 } (runBody 1 undefinedBody s) :=
  runBody_error (i := .undefOpcode) rfl rfl

/-- The UNDEFINED branches (R222). -/
theorem decodeWords_undefBranch {w : Word} (hlo : 0x9A ≤ field w 0 8) (hhi : field w 0 8 ≤ 0x9E) (w1 w2 : Word)
    (s : State) :
    exec (decodeWords w w1 w2) s = runBody 1 undefinedBody s := by
  rw [decodeWords]
  generalize field w 0 8 = op at hlo hhi
  interval_cases op <;> rfl

/-- The UNDEFINED opcodes outside the branches (R120). -/
theorem decodeWords_undefOpcode {w : Word} (h : field w 0 8 ∈ [0xAC, 0xAD, 0xB4] ∨ 0xC0 ≤ field w 0 8) (w1 w2 : Word)
    (s : State) : exec (decodeWords w w1 w2) s = runBody 1 undefinedBody s := by
  rcases h with h | h
  · rw [List.mem_cons, List.mem_cons, List.mem_singleton] at h
    rcases h with h | h | h <;> (rw [decodeWords, h]; rfl)
  · have hundef : decodeWords w w1 w2 = .undefC0FF := by
      rw [decodeWords, if_neg (by omega), if_pos h]
    rw [hundef]
    rfl

/-- STO with the Immediate or the Register mode (R120). -/
theorem decodeWords_undefSto {w : Word} (hlo : 0x88 ≤ field w 0 8) (hhi : field w 0 8 ≤ 0x8F)
    (h : field w 9 7 = 0 ∨ field w 12 4 = 2) (w1 w2 : Word) (s : State) :
    exec (decodeWords w w1 w2) s = runBody 1 undefinedBody s := by
  have hlt : field w 0 8 < 0x90 := by omega
  have hsto := (ofCode_eq_sto_iff hlt).mpr hlo
  rw [decodeWords_of_lt w1 w2 hlt]
  rcases h with h | h
  · have ha : field w 12 4 = 0 := by simp only [field] at h ⊢; omega
    have hr : field w 9 3 = 0 := by simp only [field] at h ⊢; omega
    rw [decodeAlu_imm w1 ha hr, hsto]
    rfl
  · rw [decodeAlu_reg w1 h, hsto]
    rfl

/-- Settles O52: every one of these encodings runs `undefinedBody`. -/
theorem undefinedOpcodesTrap : Obligations.UndefinedOpcodesTrap := by
  refine ⟨fun sz rx r s i hi => ?_, fun w w1 w2 s hlo hhi => ?_, fun w w1 w2 s h => ?_, fun w w1 w2 s hlo hhi h => ?_⟩
  · have hexec : exec i s = runBody 1 undefinedBody s := by
      simp only [List.mem_cons, List.not_mem_nil, or_false] at hi
      rcases hi with rfl | rfl | rfl | rfl | rfl | rfl | rfl | rfl | rfl | rfl <;> rfl
    rw [hexec]
    exact undefined_raises s
  · rw [decodeWords_undefBranch hlo hhi]; exact undefined_raises s
  · rw [decodeWords_undefOpcode h]; exact undefined_raises s
  · rw [decodeWords_undefSto hlo hhi h]; exact undefined_raises s

/-! ## Privileged instructions -/

/-- A privileged instruction in User mode (R305). -/
theorem privileged_raises {s : State} (hs : s.supervisor = false) (len : Nat) (body : State → Res Unit) :
    raisesFrom .unprivOpcode s.pc (s.started len) (runBody len (privileged body) s) :=
  runBody_error (i := .unprivOpcode) rfl (if_neg (by rw [State.started, supervisor_setPc, hs]; decide))

/-- An ALU instruction that names a processor register of the supervisor in User mode (R143). -/
theorem aluBody_unprivileged {p : ProcReg} {s : State} (hs : s.supervisor = false) (hp : supervisorOnly p = true)
    (op : AluOp) (sz : Size) (rx : Reg) : aluBody op sz rx (.proc p) s = .trap .unprivOpcode s := by
  have hdenied : procAllowed s p = false := by rw [procAllowed, hs, hp]; rfl
  have hread : ∀ z, readOperand z (.proc p) s = .trap .unprivOpcode s := fun z => by
    rw [readOperand, hdenied, if_neg (by decide)]
  cases op with
  | sto => exact if_neg (by rw [hdenied]; decide)
  | mul | mli =>
    simp only [aluBody, mulBody, mliBody, withFactors, operandSize, hread, bind_trap]
    rfl
  | _ => exact congrArg (fun x => Res.bind x _) (hread .word)

theorem length_encode_plain_proc (op : AluOp) (sz : Size) (rx : Reg) (p : ProcReg) :
    (encode (op.plain sz rx (.proc p))).length = 1 := by
  cases op <;> rfl

/-- Settles O53: each instruction of the list checks the mode before anything else, in `privileged` or at its operand.
-/
theorem privilegedInstructionsTrap : Obligations.PrivilegedInstructionsTrap := by
  intro rv ra index m op sz p s hs hp i hi
  have hfar : farWords m = (encode (.jmpF m)).length := Nat.add_comm ..
  have hplain : raisesFrom .unprivOpcode s.pc (s.started 1) (exec (op.plain sz rv (.proc p)) s) := by
    rw [exec_plain]
    refine runBody_error (i := .unprivOpcode) rfl (aluBody_unprivileged (s := s.started 1) hs ?_ op sz rv)
    simp only [List.mem_cons, List.not_mem_nil, or_false] at hp
    rcases hp with rfl | rfl | rfl | rfl <;> rfl
  have hjump : raisesFrom .unprivOpcode s.pc (s.started (encode (.jmpF m)).length) (exec (.jmpF m) s) := by
    rw [← hfar]; exact privileged_raises (len := farWords m) hs _
  have hcall : raisesFrom .unprivOpcode s.pc (s.started (encode (.jsrF m)).length) (exec (.jsrF m) s) := by
    have hlength : (encode (.jsrF m)).length = farWords m := (Nat.add_comm ..).symm
    rw [hlength]; exact privileged_raises (len := farWords m) hs _
  rw [← length_encode_plain_proc op sz rv p] at hplain
  simp only [List.mem_cons, List.not_mem_nil, or_false] at hi
  rcases hi with rfl | rfl | rfl | rfl | rfl | rfl | rfl | rfl | rfl | rfl | rfl | rfl | rfl | rfl | rfl
  case inr.inr.inr.inr.inr.inr.inr.inr.inr.inr.inr.inr.inl => exact hjump
  case inr.inr.inr.inr.inr.inr.inr.inr.inr.inr.inr.inr.inr.inl => exact hcall
  case inr.inr.inr.inr.inr.inr.inr.inr.inr.inr.inr.inr.inr.inr => exact hplain
  all_goals exact privileged_raises hs 1 _

end Sys2Proof.Machine

/-! The ALU instructions (spec/40_alu.md): what reading an operand leaves, said once; then each result in the integers
it stands for, and the accesses that are refused. -/

namespace Sys2Proof.Machine

/-! ## Arithmetic at a width -/

theorem ofInt_toInt_carry {w : Nat} (a b : BitVec w) (c : Nat) :
    BitVec.ofInt w (a.toInt + b.toInt + c) = BitVec.ofNat w (a.toNat + b.toNat + c) := by
  rw [BitVec.ofInt_add, BitVec.ofInt_add, BitVec.ofInt_toInt, BitVec.ofInt_toInt, BitVec.ofInt_natCast,
    BitVec.ofNat_add,
    BitVec.ofNat_add, BitVec.ofNat_toNat, BitVec.ofNat_toNat, BitVec.setWidth_eq, BitVec.setWidth_eq]

theorem bits_cases (sz : Size) : sz.bits = 8 ∨ sz.bits = 16 := by
  cases sz <;> decide

/-- V of `AddW`: the exact signed sum, the carry in included, does not fit (R144). -/
theorem addW_overflow {w : Nat} (hw : w = 8 ∨ w = 16) (a b : BitVec w) (cin : Bool) :
    (addW a b cin).2.2 = !fitsSigned w (a.toInt + b.toInt + cin.toNat) := by
  have ha := a.isLt
  have hb := b.isLt
  have hc : cin.toNat ≤ 1 := Bool.toNat_le cin
  simp only [addW, fitsSigned, BitVec.msb_eq_decide, BitVec.toInt_eq_toNat_cond, BitVec.toNat_ofNat]
  rw [Bool.eq_iff_iff]
  simp only [Bool.and_eq_true, beq_iff_eq, bne_iff_ne, ne_eq, decide_eq_decide, Bool.not_eq_true',
    decide_eq_false_iff_not]
  rcases hw with rfl | rfl <;> omega

/-- `AddW` in integers (R144). -/
theorem addW_eq (sz : Size) (a b : BitVec sz.bits) (cin : Bool) :
    addW a b cin = (BitVec.ofInt sz.bits (a.toInt + b.toInt + cin.toNat),
      decide (2 ^ sz.bits ≤ a.toNat + b.toNat + cin.toNat), !fitsSigned sz.bits (a.toInt + b.toInt + cin.toNat)) := by
  rw [← addW_overflow (bits_cases sz), ofInt_toInt_carry]
  rfl

theorem toInt_complement (sz : Size) (a : BitVec sz.bits) : (~~~a).toInt = -a.toInt - 1 := by
  have ha := a.isLt
  simp only [BitVec.toInt_eq_toNat_cond, BitVec.toNat_not]
  cases sz <;> simp only [Size.bits] at ha ⊢ <;> omega

/-- `SubW` in integers: the borrow is what the carry in lacks (R144). -/
theorem subW_eq (sz : Size) (a b : BitVec sz.bits) (cin : Bool) :
    subW a b cin = (BitVec.ofInt sz.bits (a.toInt - b.toInt - (1 - cin.toNat)),
      decide (b.toNat + (1 - cin.toNat) ≤ a.toNat), !fitsSigned sz.bits (a.toInt - b.toInt - (1 - cin.toNat))) := by
  have hb := b.isLt
  have hc : cin.toNat ≤ 1 := Bool.toNat_le cin
  have hint : a.toInt + (~~~b).toInt + cin.toNat = a.toInt - b.toInt - (1 - cin.toNat) := by
    rw [toInt_complement]; omega
  have hcarry : 2 ^ sz.bits ≤ a.toNat + (~~~b).toNat + cin.toNat ↔ b.toNat + (1 - cin.toNat) ≤ a.toNat := by
    rw [BitVec.toNat_not]; omega
  rw [subW, addW_eq, hint]
  simp only [hcarry]

/-- The one quotient that does not fit (R154, D7). -/
theorem divSigned_overflow (sz : Size) {a v : BitVec sz.bits} (hv : v ≠ 0) :
    (a == BitVec.intMin _ && v == BitVec.allOnes _) = !fitsSigned sz.bits (a.toInt.tdiv v.toInt) := by
  by_cases h : a = BitVec.intMin _ ∧ v = BitVec.allOnes _
  · obtain ⟨rfl, rfl⟩ := h
    cases sz <;> decide
  · have hne : a ≠ BitVec.intMin _ ∨ v ≠ -1#sz.bits := by
      rw [BitVec.neg_one_eq_allOnes]; exact not_and_or.mp h
    have hfits : fitsSigned sz.bits (a.toInt.tdiv v.toInt) = true := by
      rw [← BitVec.toInt_sdiv_of_ne_or_ne a v hne]
      exact decide_eq_true ⟨BitVec.le_toInt _, BitVec.toInt_lt⟩
    rw [hfits, Bool.not_true, Bool.and_eq_false_iff, beq_eq_false_iff_ne, beq_eq_false_iff_ne]
    exact not_and_or.mp h

/-- The remainder of the division toward zero (R156). -/
theorem modSigned_eq {w : Nat} (a v : BitVec w) : modSigned a v = BitVec.ofInt w (a.toInt.tmod v.toInt) := by
  rw [modSigned, Int.tmod_def, Int.mul_comm v.toInt]

theorem msb_modSigned {w : Nat} (a v : BitVec w) :
    (modSigned a v).msb = decide (a.toInt.tmod v.toInt < 0) := by
  rw [modSigned_eq, ← BitVec.toInt_srem, BitVec.ofInt_toInt, BitVec.msb_eq_toInt]

/-- The signed product of two words fits in 32 bits, so N of MLI is its sign (R153). -/
theorem msb_mulSigned (a v : Word) : (mulSigned a v).msb = decide (a.toInt * v.toInt < 0) := by
  have hlo := BitVec.le_toInt_mul_toInt (x := a) (y := v)
  have hhi := BitVec.toInt_mul_toInt_le (x := a) (y := v)
  rw [mulSigned, BitVec.msb_eq_toInt, BitVec.toInt_ofInt_eq_self (by decide) (by omega) (by omega)]

/-! ## Reading an operand -/

/-- What reading the operand `m` leaves of the state in which an instruction began: PC is `pcn`, the operand's base has
moved, memory is as before unless a device wrote. -/
structure OperandRead (sz : Size) (m : AluOperand) (s u : State) : Prop where
  only : u = { s with
    pc := s.pc + BitVec.ofNat 16 (2 * aluWords m), regs := aluRegs sz m s, mem := u.mem, bus := u.bus,
    freeCount := u.freeCount }
  memory : s.quiet ∨ aluInMemory m = false → u.mem = s.mem ∧ u.bus = s.bus

theorem OperandRead.flags {sz : Size} {m : AluOperand} {s u : State} (h : OperandRead sz m s u) :
    u.flags = s.flags := by
  rw [h.only]; rfl

/-- R0..R7 and FL written after the operand was read. -/
theorem OperandRead.result {sz : Size} {m : AluOperand} {s u : State} (h : OperandRead sz m s u) (regs : Vector Word 8)
    (f : Flags) : AluResult m s (({ u with regs := regs } : State).setFlags f) regs f where
  only := by rw [h.only]; rfl
  fl :=
    have hset := setFlags_flagsSet ({ u with regs := regs } : State) f
    ⟨hset.flags, hset.rest.trans (by rw [h.only])⟩
  memory := h.memory

/-- The same where Rx alone is written. -/
theorem OperandRead.setReg_result {sz : Size} {m : AluOperand} {s u : State} (h : OperandRead sz m s u) (rx : Reg)
    (x : Word) (f : Flags) : AluResult m s ((u.setReg rx x).setFlags f) ((aluRegs sz m s).set rx x) f := by
  have hregs : u.regs = aluRegs sz m s := by rw [h.only]
  rw [← hregs]
  exact h.result _ f

/-- The operation's width changes neither which base an operand moves nor by how much. -/
theorem aluRegs_operandSize (sz : Size) (m : AluOperand) (s : State) :
    aluRegs (operandSize m sz) m s = aluRegs sz m s := by
  cases m <;> rfl

/-- An operand that may be read gives its value; unless Rx is the base it moves, Rx is as before. -/
theorem readOperand_ready {sz : Size} {rx : Reg} {m : AluOperand} {s : State} (h : aluReady sz rx m s) :
    ∃ u, OperandRead sz m s u ∧ u.reg rx = s.reg rx ∧
      readOperand (operandSize m sz) m (s.started (aluWords m)) = .ok (aluRight sz m s) u := by
  obtain ⟨hbase, hread⟩ := h
  have hread' : operandReadable (operandSize m sz) m (s.started (aluWords m)) := by cases m <;> exact hread
  obtain ⟨u, hval, hu, hmem⟩ := readOperand_value hread'
  have hregs : aluRegs (operandSize m sz) m (s.started (aluWords m)) = aluRegs sz m s :=
    (aluRegs_operandSize sz m _).trans (by cases m <;> rfl)
  rw [hregs] at hu
  refine ⟨u, ⟨hu, hmem⟩, ?_, hval⟩
  have hreg : u.reg rx = (aluRegs sz m s)[rx] := by rw [hu]; rfl
  rw [hreg]
  cases m with
  | mem mode =>
    cases mode with
    | postInc r | preDec r =>
      have hne : (r : Nat) ≠ rx := fun e => by simp [baseIsRx, Fin.ext e] at hbase
      exact Vector.getElem_set_ne r.isLt rx.isLt hne
    | _ => rfl
  | _ => rfl

/-- An operation that reads its operand goes on with Rx and its value, at its width. -/
theorem withOperand_ready {sz : Size} {rx : Reg} {m : AluOperand} {s : State} (h : aluReady sz rx m s) :
    ∃ u, OperandRead sz m s u ∧
      ∀ k, withOperand sz rx m k (s.started (aluWords m)) = k (aluLeft sz rx m s) (aluRight sz m s) u := by
  obtain ⟨u, hu, hrx, hval⟩ := readOperand_ready h
  refine ⟨u, hu, fun k => ?_⟩
  rw [withOperand, if_neg (by rw [h.1]; decide), hval, bind_ok, hrx]
  rfl

/-- A 16-bit product goes on with its two factors. -/
theorem withFactors_ready {sz : Size} {rx : Reg} {m : AluOperand} {s : State} (h : aluReady sz rx m s)
    (hsz : operandSize m sz = .word) :
    ∃ u, OperandRead sz m s u ∧
      ∀ k, withFactors sz rx m k (s.started (aluWords m)) =
        k (s.reg rx) (operandValue .word m (s.started (aluWords m))) u := by
  obtain ⟨u, hu, hrx, hval⟩ := readOperand_ready h
  rw [aluRight, hsz] at hval
  refine ⟨u, hu, fun k => ?_⟩
  rw [withFactors, if_neg (by rw [hsz]; decide), if_neg (by rw [h.1]; decide), hval, bind_ok, hrx]

theorem unlessZero_ne {w : Nat} {v : BitVec w} (hv : v ≠ 0) (k : State → Res Unit) : unlessZero v k = k :=
  funext fun _ => if_neg hv

/-! ## Results -/

theorem setArith_eq {w : Nat} (rx : Reg) {x : BitVec w × Bool × Bool} {r : Int} {c : Bool}
    (hx : x = (BitVec.ofInt w r, c, !fitsSigned w r)) (s : State) :
    setArith rx x s = .ok () ((s.setReg rx ((BitVec.ofInt w r).setWidth 16)).setFlags (sumFlags w r c)) := by
  rw [hx]; rfl

/-- Settles O14: `AddW` and `SubW` are the exact sums and differences of `addW_eq` and `subW_eq`. -/
theorem sumsAndDifferences : Obligations.SumsAndDifferences := by
  intro sz rx m s h
  obtain ⟨u, hu, hk⟩ := withOperand_ready h
  intro w a v c
  have hresult : ∀ {r : Int} {carry : Bool} {x : BitVec w × Bool × Bool} {body : State → Res Unit},
      x = (BitVec.ofInt w r, carry, !fitsSigned w r) → body (s.started (aluWords m)) = setArith rx x u →
      ∃ t, runBody (aluWords m) body s = .next t ∧
        AluResult m s t ((aluRegs sz m s).set rx ((BitVec.ofInt w r).setWidth 16)) (sumFlags w r carry) :=
    fun hx hbody => ⟨_, runBody_ok (hbody.trans (setArith_eq rx hx u)), hu.setReg_result rx _ _⟩
  have hflag : u.flags.c.toNat = c := congrArg (fun f : Flags => f.c.toNat) hu.flags
  rw [List.forall_mem_cons, List.forall_mem_cons, List.forall_mem_cons, List.forall_mem_singleton]
  refine ⟨hresult ?_ (hk _), hresult ?_ (hk _), hresult ?_ (hk _), hresult ?_ (hk _)⟩
  · rw [addW_eq]; simp only [Bool.toNat_false, Nat.add_zero, Int.natCast_zero, Int.add_zero]; rfl
  · rw [subW_eq]; simp [a, v, w]
  · rw [addW_eq, hflag]
  · rw [subW_eq, hflag]

/-- Settles O15: the operand is read, then FL alone is written. -/
theorem compareFlags : Obligations.CompareFlags := by
  intro sz rx m s h
  obtain ⟨u, hu, hk⟩ := withOperand_ready h
  refine ⟨_, runBody_ok (hk _), ?_⟩
  have hregs : ({ u with regs := aluRegs sz m s } : State) = u := by rw [hu.only]
  have hresult := hu.result (aluRegs sz m s) (u.flags.compare (aluLeft sz rx m s) (aluRight sz m s))
  rw [hregs, hu.flags] at hresult
  rw [hu.flags]
  simpa only [Flags.compare, beq_eq_decide] using hresult

/-- A logical operation writes Rx, N and Z. -/
theorem setLogic_eq {w : Nat} (rx : Reg) (r : BitVec w) (s : State) :
    setLogic rx r s = .ok () ((s.setReg rx (r.setWidth 16)).setFlags
      { n := r.msb, z := decide (r = 0), c := s.flags.c, v := s.flags.v }) := by
  rw [setLogic, setResult, Flags.setNZ, beq_eq_decide]
  rfl

theorem beq_intMin (sz : Size) (v : BitVec sz.bits) :
    (v == BitVec.intMin _) = decide (v.toNat = 2 ^ (sz.bits - 1)) := by
  rw [beq_eq_decide, decide_eq_decide, ← BitVec.toNat_inj, BitVec.toNat_intMin]
  cases sz <;> rfl

/-- Settles O16: NEG assigns V beside what the logical operations do (`setLogic_eq`); NOP is evaluated. -/
theorem logicAndLoadResults : Obligations.LogicAndLoadResults := by
  refine ⟨fun sz rx m s h => ?_, fun s => ?_⟩
  · obtain ⟨u, hu, hk⟩ := withOperand_ready h
    intro w a v
    have hresult : ∀ {r : BitVec w} {o : Bool} {body : State → Res Unit},
        body (s.started (aluWords m)) = .ok () ((u.setReg rx (r.setWidth 16)).setFlags
          { n := r.msb, z := decide (r = 0), c := u.flags.c, v := o }) →
        ∃ t, runBody (aluWords m) body s = .next t ∧
          AluResult m s t ((aluRegs sz m s).set rx (r.setWidth 16))
            { n := r.msb, z := decide (r = 0), c := s.flags.c, v := o } :=
      fun hbody => ⟨_, runBody_ok hbody, by rw [hu.flags]; exact hu.setReg_result rx _ _⟩
    have hlogic : ∀ {r : BitVec w} {body : State → Res Unit}, body (s.started (aluWords m)) = setLogic rx r u →
        ∃ t, runBody (aluWords m) body s = .next t ∧
          AluResult m s t ((aluRegs sz m s).set rx (r.setWidth 16))
            { n := r.msb, z := decide (r = 0), c := s.flags.c, v := s.flags.v } := fun {r body} hbody => by
      rw [setLogic_eq, hu.flags] at hbody
      exact hresult (by rw [hbody, hu.flags])
    simp only [List.forall_mem_cons, List.not_mem_nil, false_imp_iff, implies_true, and_true]
    refine ⟨hresult ((hk _).trans ?_), hlogic (hk _), hlogic (hk _), hlogic (hk _), hlogic (hk _), hlogic (hk _)⟩
    rw [beq_intMin]
    simp only [setResult, Flags.setNZ, beq_eq_decide]
    rfl
  · have hregs : s.regs.set 0 ((s.reg 0).setWidth 16) = s.regs := by
      rw [BitVec.setWidth_eq]; exact Vector.set_getElem_self _
    have hexec : exec .nop s = .next (({ s.started 1 with regs := s.regs } : State).setFlags
        { n := (s.reg 0).msb, z := decide (s.reg 0 = 0), c := s.flags.c, v := s.flags.v }) := by
      rw [← hregs]; exact runBody_ok (setLogic_eq 0 (s.reg 0) (s.started 1))
    have hset := setFlags_flagsSet (s.started 1)
      { n := (s.reg 0).msb, z := decide (s.reg 0 = 0), c := s.flags.c, v := s.flags.v }
    exact ⟨_, hexec, rfl, hset.flags, hset.rest⟩

/-- Settles O17: both products write R0, then Rx; N of the signed one is the sign of the exact product. -/
theorem products : Obligations.Products := by
  intro sz rx m s h hsz
  obtain ⟨u, hu, hk⟩ := withFactors_ready h hsz
  intro a v
  have hresult : ∀ {p : BitVec 32} {n : Bool} {body : State → Res Unit},
      body (s.started (aluWords m)) = setProduct rx p n u →
      ∃ t, runBody (aluWords m) body s = .next t ∧
        AluResult m s t (((aluRegs sz m s).set 0 (p.extractLsb' 16 16)).set rx (p.extractLsb' 0 16))
          { n := n, z := decide (p = 0), c := decide (p.extractLsb' 16 16 ≠ 0), v := s.flags.v } :=
        fun {p n _} hbody => by
    have hflags : u.flags.product n p =
        { n := n, z := decide (p = 0), c := decide (p.extractLsb' 16 16 ≠ 0), v := s.flags.v } := by
      rw [Flags.product, hu.flags, beq_eq_decide, bne, beq_eq_decide, decide_not]
    have hregs : u.regs = aluRegs sz m s := by rw [hu.only]
    refine ⟨_, runBody_ok (hbody.trans rfl), ?_⟩
    rw [hflags, ← hregs]
    exact hu.result _ _
  rw [List.forall_mem_cons, List.forall_mem_singleton]
  exact ⟨hresult (hk _), hresult ((hk _).trans (congrArg (fun n => setProduct rx _ n u) (msb_mulSigned a v)))⟩

/-- Settles O18: the divisor is not 0, and the four write Rx, N, Z and, DVI alone, V. -/
theorem quotients : Obligations.Quotients := by
  intro sz rx m s h hv
  obtain ⟨u, hu, hk⟩ := withOperand_ready h
  intro w a v
  have hresult : ∀ {q : BitVec w} {n o : Bool} {k body : State → Res Unit},
      body (s.started (aluWords m)) = unlessZero v k u →
      k u = setResult rx q { n := n, z := decide (q = 0), c := u.flags.c, v := o } u →
      ∃ t, runBody (aluWords m) body s = .next t ∧
        AluResult m s t ((aluRegs sz m s).set rx (q.setWidth 16))
          { n := n, z := decide (q = 0), c := s.flags.c, v := o } := fun hbody hresult => by
    rw [unlessZero_ne hv, hresult] at hbody
    exact ⟨_, runBody_ok hbody, by rw [hu.flags]; exact hu.setReg_result rx _ _⟩
  simp only [List.forall_mem_cons, List.not_mem_nil, false_imp_iff, implies_true, and_true]
  refine ⟨hresult (hk _) ?_, hresult (hk _) ?_, hresult (hk _) ?_, hresult (hk _) ?_⟩
  · simp only [beq_eq_decide, hu.flags]; rfl
  · simp only [setLogic, Flags.setNZ, beq_eq_decide, hu.flags]; rfl
  · have hoverflow := divSigned_overflow (operandSize m sz) (a := aluLeft sz rx m s) hv
    simp only [Flags.setNZ, hoverflow]
    simp only [beq_eq_decide]
    rfl
  · have hmsb := msb_modSigned (aluLeft sz rx m s) (aluRight sz m s)
    simp only [setLogic, Flags.setNZ, beq_eq_decide, hu.flags, hmsb]
    simp only [modSigned_eq]; rfl

/-- Settles O19: the state the operand's read left is the one DivideByZero is raised in. -/
theorem divisionByZeroTraps : Obligations.DivisionByZeroTraps := by
  intro sz rx m s h hv
  obtain ⟨u, hu, hk⟩ := withOperand_ready h
  have hzero : ∀ k, unlessZero (aluRight sz m s) k u = .trap .divideByZero u := fun k => if_pos hv
  refine ⟨u, ⟨?_, ⟨hu.flags, by rw [hu.only]⟩, hu.memory⟩, ?_⟩
  · have hfl : u.fl = s.fl := by rw [hu.only]
    rw [hfl]; exact hu.only
  · simp only [List.forall_mem_cons, List.not_mem_nil, false_imp_iff, implies_true, and_true]
    have hraise : ∀ {body : State → Res Unit} {k}, body (s.started (aluWords m)) = unlessZero (aluRight sz m s) k u →
        raisesFrom .divideByZero s.pc u (runBody (aluWords m) body s) :=
      fun hbody => runBody_error (i := .divideByZero) rfl (hbody.trans (hzero _))
    exact ⟨hraise (hk _), hraise (hk _), hraise (hk _), hraise (hk _)⟩

/-! ## STO -/

/-- Settles O20: a write to the place the mode names, `writePlace_stores`. -/
theorem storeToMemory : Obligations.StoreToMemory := by
  intro sz rx mode s hbase hcheck
  obtain ⟨t, hwrite, ht, hstores⟩ :=
    writePlace_stores (v := s.reg rx) (s := s.started (aluWords (.mem mode))) (m := mode) hcheck
  have hbody : stoBody sz rx (.mem mode) (s.started (aluWords (.mem mode))) = .ok () t :=
    (if_neg (by rw [hbase]; decide)).trans hwrite
  exact ⟨t, runBody_ok hbody, ht, hstores.congr rfl rfl rfl rfl rfl rfl rfl rfl rfl rfl rfl⟩

/-- STO to a processor register the mode may name. -/
theorem exec_sto_proc {rx : Reg} {p : ProcReg} {s : State} (h : procAllowed s p = true) :
    exec (.sto .word rx (.proc p)) s = .next ((s.started 1).setProc p (s.reg rx)) :=
  runBody_ok (if_pos h)

/-- Settles O21: `exec_sto_proc`, register by register. -/
theorem storeToProcessorRegister : Obligations.StoreToProcessorRegister := by
  intro rx p s h
  have hallowed : procAllowed s p = true := by
    rw [procAllowed]
    rcases h with h | h
    · rw [h]; rfl
    · simp only [List.mem_cons, List.not_mem_nil, or_false] at h
      rcases h with rfl | rfl | rfl | rfl <;> exact Bool.or_true _
  rw [exec_sto_proc hallowed]
  cases p with
  | sp =>
    show Host.Outcome.next ((s.started 1).setSp (s.reg rx)) = _
    rw [State.setSp]
    cases hs : s.supervisor <;> rw [State.started, supervisor_setPc, hs] <;> rfl
  | _ => rfl

/-! ## The mode rows -/

theorem withOperand_completes {sz : Size} {rx : Reg} {m : AluOperand} {s : State} (h : aluReady sz rx m s)
    {k : (a v : BitVec (operandSize m sz).bits) → State → Res Unit}
    (hk : ∀ u, ∃ t, k (aluLeft sz rx m s) (aluRight sz m s) u = .ok () t) :
    ∃ t, withOperand sz rx m k (s.started (aluWords m)) = .ok () t := by
  obtain ⟨u, -, hbody⟩ := withOperand_ready h
  rw [hbody]
  exact hk u

theorem withFactors_completes {sz : Size} {rx : Reg} {m : AluOperand} {s : State} (h : aluReady sz rx m s)
    (hsz : operandSize m sz = .word) {k : (a v : Word) → State → Res Unit} (hk : ∀ a v u, ∃ t, k a v u = .ok () t) :
    ∃ t, withFactors sz rx m k (s.started (aluWords m)) = .ok () t := by
  obtain ⟨u, -, hbody⟩ := withFactors_ready h hsz
  rw [hbody]
  exact hk _ _ u

/-- An operation of the ALU pattern completes under its condition. -/
theorem aluBody_completes {op : AluOp} {sz : Size} {rx : Reg} {m : AluOperand} {s : State}
    (h : aluCompletes op sz rx m s) : ∃ t, aluBody op sz rx m (s.started (aluWords m)) = .ok () t := by
  cases op with
  | sto =>
    cases m with
    | imm | reg => exact h.elim
    | proc p => exact ⟨_, if_pos h⟩
    | mem mode =>
      obtain ⟨t, hwrite, -⟩ :=
        writePlace_stores (v := s.reg rx) (s := s.started (aluWords (.mem mode))) (m := mode) h.2
      exact ⟨t, (if_neg (by rw [h.1]; decide)).trans hwrite⟩
  | mul | mli =>
    simp only [aluBody, mulBody, mliBody]
    exact withFactors_completes h.1 h.2 fun _ _ _ => ⟨_, rfl⟩
  | div | dvi | mod | mdi =>
    simp only [aluBody, divBody, dviBody, modBody, mdiBody]
    exact withOperand_completes h.1 fun u => ⟨_, if_neg h.2⟩
  | _ =>
    simp only [aluBody, cmpBody, negBody, addBody, subBody, adcBody, sbcBody, andBody, orrBody, eorBody,
      notBody, lodBody]
    exact withOperand_completes h fun _ => ⟨_, rfl⟩

/-- Settles O22: a mode row runs the operation (`runAlu`) with the row's operand, as the instruction does. -/
theorem aluModeRowsComplete : Obligations.AluModeRowsComplete := by
  intro op sz rx r i x p slot s q hq hcompletes
  have hexec : exec q.1 s = runAlu op q.2.1 rx q.2.2 s := by
    simp only [List.mem_cons, List.not_mem_nil, or_false] at hq
    rcases hq with rfl | rfl | rfl | rfl | rfl | rfl | rfl | rfl | rfl | rfl <;> rfl
  obtain ⟨t, ht⟩ := aluBody_completes hcompletes
  exact ⟨t, hexec.trans (runBody_ok ht), (exec_plain ..).trans (runBody_ok ht)⟩

/-! ## Operands in memory -/

theorem valueAt_congr {s t : State} {sz : Size} {a : Word} (hm : t.mem = s.mem) (hf : t.freeCount = s.freeCount)
    (ht : ∀ a, t.translate a = s.translate a) (hb : ∀ pa, t.backing pa = s.backing pa) :
    t.valueAt sz a = s.valueAt sz a := by
  cases sz with
  | byte => simp only [State.valueAt, byteAt_congr hm hf ht hb]
  | word => simp only [State.valueAt, wordAt_congr hm hf ht hb]

/-- A place in plain memory with no device writing: the value there, and only the base has moved. -/
theorem readPlace_quiet {sz : Size} {m : MemMode} {s : State} (hq : s.quiet)
    (hc : s.checkSized .read sz (effectiveAddress m sz.bytes s) = none)
    (hp : s.plainFrom (effectiveAddress m sz.bytes s) (sizeBytes sz)) :
    readPlace sz m s =
      .ok (s.valueAt sz (effectiveAddress m sz.bytes s)) { s with regs := movedRegs m sz.bytes s } := by
  have hread : ∀ R, memRead sz (effectiveAddress m sz.bytes s) { s with regs := R } =
      .ok (s.valueAt sz (effectiveAddress m sz.bytes s)) { s with regs := R } := fun R => by
    have hval : ({ s with regs := R } : State).valueAt sz (effectiveAddress m sz.bytes s) =
        s.valueAt sz (effectiveAddress m sz.bytes s) := valueAt_congr rfl rfl (fun _ => rfl) fun _ => rfl
    rw [← hval]
    exact memRead_quiet hq hc hp
  rw [readPlace]
  cases m with
  | preDec r => exact congrArg (fun x => Res.bind x _) (hread _)
  | postInc r => exact congrArg (fun x => Res.bind x _) (hread s.regs)
  | _ => exact congrArg (fun x => Res.bind x _) (hread s.regs)

/-- Settles O23: the mode's address is `effectiveAddress`, and `readPlace_quiet` gives what stands there. -/
theorem operandInMemory : Obligations.OperandInMemory := by
  intro sz mode s a hc hq hp
  have ha : a = effectiveAddress mode sz.bytes s := by
    cases mode with
    | stack slot => exact congrArg (s.sp + ·) (BitVec.ofNat_mul 2 slot.val)
    | preDec r => cases sz <;> rfl
    | _ => rfl
  have hbytes : sz.bits / 8 = sizeBytes sz := by cases sz <;> rfl
  rw [ha] at hc
  rw [ha, hbytes] at hp
  rw [readOperand, readPlace_quiet hq hc hp, bind_ok, ha]
  cases sz <;> rfl

/-! ## Refused accesses -/

/-- An operand whose place the MMU refuses: a PreDec base is lowered (R140, D20). -/
theorem aluBody_fault {op : AluOp} {sz : Size} {rx : Reg} {mode : MemMode} {f : BankFault} {s : State}
    (hbase : baseIsRx (.mem mode) rx = false) (hsz : sz = .word ∨ (op ≠ .mul ∧ op ≠ .mli))
    (hcheck : s.checkSized (if op = .sto then .write else .read) sz (effectiveAddress mode sz.bytes s) = some f) :
    aluBody op sz rx (.mem mode) s = .trap (.bankFault f) { s with regs := loweredRegs mode sz.bytes s } := by
  have hnot : ¬ baseIsRx (.mem mode) rx = true := by rw [hbase]; decide
  have hread : op ≠ .sto → readOperand sz (.mem mode) s =
      .trap (.bankFault f) { s with regs := loweredRegs mode sz.bytes s } := fun hop => by
    rw [if_neg hop] at hcheck
    rw [readOperand, readPlace_fault hcheck, bind_trap]
  have hfactors : op ≠ .sto → sz = .word → ∀ k, withFactors sz rx (.mem mode) k s =
      .trap (.bankFault f) { s with regs := loweredRegs mode sz.bytes s } := fun hop hw k => by
    subst hw
    rw [withFactors, if_neg (by exact fun h => nomatch h), if_neg hnot, hread hop, bind_trap]
  have hoperand : op ≠ .sto → ∀ k, withOperand sz rx (.mem mode) k s =
      .trap (.bankFault f) { s with regs := loweredRegs mode sz.bytes s } := fun hop k =>
    (if_neg hnot).trans (congrArg (fun x => Res.bind x _) (hread hop))
  cases op with
  | sto => exact (if_neg hnot).trans (writePlace_fault hcheck)
  | mul => simp only [aluBody, mulBody, hfactors (by decide) (hsz.resolve_right fun h => h.1 rfl)]
  | mli => simp only [aluBody, mliBody, hfactors (by decide) (hsz.resolve_right fun h => h.2 rfl)]
  | _ =>
    simp only [aluBody, cmpBody, negBody, addBody, subBody, adcBody, sbcBody, divBody, dviBody, modBody, mdiBody,
      andBody, orrBody, eorBody, notBody, lodBody]
    exact hoperand (by decide) _

/-- A fetch that raises a BankFault saves `pc0` (R296). -/
theorem fetchAndExec_fault {s u : State} {f : BankFault} (hfetchable : s.fetchable = true)
    (h : fetch s = .trap (.bankFault f) u) : raisesFrom (.bankFault f) s.pc u (fetchAndExec s) := by
  rw [fetchAndExec, if_pos hfetchable, h]
  exact takeInterrupt_raisesFrom ..

/-- A refused operand word of the fetch (R77). -/
theorem fetchOperands_fault {w pc0 : Word} {f : BankFault} {s : State}
    (h : (2 ≤ wordCount w ∧ s.checkSized .read .word (pc0 + 2) = some f) ∨
      (wordCount w = 3 ∧ s.checkSized .read .word (pc0 + 2) = none ∧ s.checkSized .read .word (pc0 + 4) = some f)) :
    ∃ u, Reads s u ∧ fetchOperands w pc0 s = .trap (.bankFault f) u := by
  rw [fetchOperands]
  rcases h with ⟨hcount, hfault⟩ | ⟨hcount, hfirst, hfault⟩
  · have hcount' : wordCount w = 2 ∨ wordCount w = 3 := by
      have := wordCount_cases w; omega
    rcases hcount' with h | h <;>
      (rw [h]; exact ⟨s, Reads.refl s, by simp only [memRead_fault hfault, bind_trap]⟩)
  · obtain ⟨t, hread, hreads, hstep⟩ := memRead_reads hfirst
    rw [hcount]
    refine ⟨t, hreads, ?_⟩
    simp only [hread, bind_ok, memRead_fault ((hstep.checkSized ..).trans hfault), bind_trap]

/-- A near jump or call whose operand may not be read. -/
theorem readNear_fault {mode : MemMode} {f : BankFault} {s : State}
    (h : s.checkSized .read .word (effectiveAddress mode 2 s) = some f) :
    readNear (.mem mode) s = .trap (.bankFault f) { s with regs := loweredRegs mode 2 s } :=
      readPlace_fault (sz := .word) h

theorem nearWords_eq (mode : MemMode) (call : Bool) :
    nearWords (.mem mode) = (encode (if call then .jsr (.mem mode) else .jmp (.mem mode))).length := by
  cases call <;> exact Nat.add_comm ..

theorem farWords_eq (mode : MemMode) (call : Bool) :
    farWords (.mem mode) = (encode (if call then .jsrF (.mem mode) else .jmpF (.mem mode))).length := by
  cases call <;> exact Nat.add_comm ..

/-- Settles O24: each refused access raises its BankFault before anything but a PreDec base has changed. -/
theorem accessFaultsTrap : Obligations.AccessFaultsTrap := by
  refine ⟨fun op sz rx mode f s hbase hsz hcheck => ?_, fun s f hfetchable hcheck => ?_,
    fun s f hfetchable hcheck hfault => ?_, fun mode f s hcheck i hi => ?_,
    fun mode f s hs hcheck i hi => ?_⟩
  · rw [exec_plain]
    exact runBody_error (i := .bankFault f) rfl
      (aluBody_fault (s := s.started (aluWords (.mem mode))) hbase hsz hcheck)
  · exact fetchAndExec_fault hfetchable (by rw [fetch, memRead_fault hcheck, bind_trap])
  · obtain ⟨t, hread, hreads, hstep⟩ := memRead_reads hcheck
    simp only [← hstep.checkSized] at hfault
    obtain ⟨u, hreads', hoperands⟩ := fetchOperands_fault hfault
    refine ⟨u, hreads.trans hreads', fetchAndExec_fault hfetchable ?_⟩
    rw [fetch, hread, bind_ok, hoperands, bind_trap]
  · have hraise : ∀ body : State → Res Unit, (∃ k, ∀ t, body t = (readNear (.mem mode) t).bind k) →
        raisesFrom (.bankFault f) s.pc
          { s.started (nearWords (.mem mode)) with regs := loweredRegs mode 2 s }
            (runBody (nearWords (.mem mode)) body s) :=
      fun body ⟨k, hbody⟩ => runBody_error (i := .bankFault f) rfl (by
        rw [hbody, readNear_fault (s := s.started (nearWords (.mem mode))) hcheck, bind_trap]
        rfl)
    simp only [List.mem_cons, List.not_mem_nil, or_false] at hi
    rcases hi with rfl | rfl
    · rw [show (encode (.jmp (.mem mode))).length = _ from (nearWords_eq mode false).symm]
      exact hraise _ ⟨_, fun _ => rfl⟩
    · rw [show (encode (.jsr (.mem mode))).length = _ from (nearWords_eq mode true).symm]
      exact hraise _ ⟨_, fun _ => rfl⟩
  · obtain ⟨u, hread, hreads⟩ := readFarPlace_fault (s := s.started (farWords (.mem mode))) hcheck
    have hraise : ∀ body : State → Res Unit, (∃ k, ∀ t, body t = (readFar (.mem mode) t).bind k) →
        raisesFrom (.bankFault f) s.pc u (runBody (farWords (.mem mode)) (privileged body) s) :=
      fun body ⟨k, hbody⟩ => runBody_error (i := .bankFault f) rfl (by
        rw [privileged_supervisor (s := s.started (farWords (.mem mode))) hs, hbody, readFar, hread, bind_trap])
    simp only [List.mem_cons, List.not_mem_nil, or_false] at hi
    rcases hi with rfl | rfl
    · rw [show (encode (.jmpF (.mem mode))).length = _ from (farWords_eq mode false).symm]
      exact ⟨u, hreads, hraise _ ⟨_, fun _ => rfl⟩⟩
    · rw [show (encode (.jsrF (.mem mode))).length = _ from (farWords_eq mode true).symm]
      exact ⟨u, hreads, hraise _ ⟨_, fun _ => rfl⟩⟩

end Sys2Proof.Machine

/-! Branches, shifts, bit tests and the immediate instructions (spec/41_shift.md to spec/44_immediate.md):
instructions of one word that change R0..R7, FL or PC alone. -/

namespace Sys2Proof.Machine

/-! ## Branches -/

theorem branchTarget_eq (base : BranchBase) (pc0 : Word) (off : BitVec 8) :
    branchTarget base pc0 off =
      (match base with | .instr => pc0 | .next => pc0 + 2) + BitVec.ofInt 16 (2 * off.toInt) := by
  have hoffset : BitVec.ofInt 16 (2 * off.toInt) = 2 * off.signExtend 16 := BitVec.ofInt_mul 2 off.toInt
  rw [hoffset]
  rfl

theorem runBranch_eq (cond : Flags → Bool) (off : BitVec 8) (s : State) :
    runBranch cond off s = .next { s with
      pc := if cond s.flags then branchTarget s.platform.branchBase s.pc off else s.pc + 2 } := by
  have hbody : (if cond (s.started 1).flags then (s.started 1).setPc (branchTarget s.platform.branchBase s.pc off)
      else s.started 1) =
      { s with pc := if cond s.flags then branchTarget s.platform.branchBase s.pc off else s.pc + 2 } := by
    rw [State.started, flags_setPc]
    split <;> rfl
  exact runBody_ok (congrArg (Res.ok ()) hbody)

/-- What the branches do, condition by condition. -/
theorem exec_branches (off : BitVec 8) (s : State) :
    ∀ p ∈ ([(.bcc off, !s.flags.c), (.bcs off, s.flags.c), (.bne off, !s.flags.z), (.beq off, s.flags.z),
        (.bpl off, !s.flags.n), (.bmi off, s.flags.n), (.bvc off, !s.flags.v), (.bvs off, s.flags.v),
        (.bug off, s.flags.c && !s.flags.z), (.bsg off, s.flags.n && !s.flags.z), (.baw off, true)] :
        List (Instr × Bool)),
      exec p.1 s = .next { s with
        pc := if p.2 then (match s.platform.branchBase with | .instr => s.pc | .next => s.pc + 2) +
          BitVec.ofInt 16 (2 * off.toInt) else s.pc + 2 } := by
  simp only [← branchTarget_eq, List.forall_mem_cons, List.not_mem_nil, false_imp_iff, implies_true, and_true]
  exact ⟨runBranch_eq (fun f => !f.c) off s, runBranch_eq (fun f => f.c) off s, runBranch_eq (fun f => !f.z) off s,
    runBranch_eq (fun f => f.z) off s, runBranch_eq (fun f => !f.n) off s, runBranch_eq (fun f => f.n) off s,
    runBranch_eq (fun f => !f.v) off s, runBranch_eq (fun f => f.v) off s, runBranch_eq (fun f => f.c && !f.z) off s,
    runBranch_eq (fun f => f.n && !f.z) off s, runBranch_eq (fun _ => true) off s⟩

/-- Settles O25: the opcode names the branch and its high octet is the offset; `runBranch_eq` gives the effect. -/
theorem branches : Obligations.Branches := by
  refine ⟨fun w w1 w2 p hp hop => ?_, exec_branches⟩
  rw [← ofNat_field_eq_extractLsb', decodeWords]
  simp only [List.mem_cons, List.not_mem_nil, or_false] at hp
  rcases hp with rfl | rfl | rfl | rfl | rfl | rfl | rfl | rfl | rfl | rfl | rfl <;> (rw [hop]; rfl)

/-- CMP of two registers changes FL and PC alone. -/
theorem exec_cmp_reg (rx r : Reg) (s : State) :
    exec (.cmp .word rx (.reg r)) s =
      .next ((s.started 1).setFlags (s.flags.compare (s.reg rx) (s.reg r))) := by
  have hbody : cmpBody .word rx (.reg r) (s.started 1) =
      .ok () ((s.started 1).setFlags (s.flags.compare ((s.reg rx).setWidth 16) ((s.reg r).setWidth 16))) := rfl
  rw [BitVec.setWidth_eq, BitVec.setWidth_eq] at hbody
  exact runBody_ok hbody

/-- A branch in the state a compare of two registers left. -/
theorem runBranch_compared {cond : Flags → Bool} {c : Bool} {f : Flags} (hc : cond f = c) (off : BitVec 8) (s : State) :
    runBranch cond off ((s.started 1).setFlags f) = .next { s with
      pc := if c then
          (match s.platform.branchBase with | .instr => s.pc + 2 | .next => s.pc + 4) + BitVec.ofInt 16 (2 * off.toInt)
        else s.pc + 4
      fl := ((s.started 1).setFlags f).fl } := by
  have hpc : s.pc + 2 + 2 = s.pc + 4 := BitVec.add_assoc ..
  have hflags : ((s.started 1).setFlags f).flags = f := (setFlags_flagsSet (s.started 1) f).flags
  rw [runBranch_eq, hflags, hc, branchTarget_eq, ← hpc]
  rfl

/-- Settles O26: the flags CMP leaves are the comparisons, and each branch looks at those its second name speaks of. -/
theorem branchesAfterCompare : Obligations.BranchesAfterCompare := by
  intro rx r off s t hcmp
  rw [exec_cmp_reg] at hcmp
  obtain rfl := Host.Outcome.next.inj hcmp
  have hint : (s.reg rx).toInt = (s.reg r).toInt ↔ s.reg rx = s.reg r := BitVec.toInt_inj
  have hnat : (s.reg rx).toNat = (s.reg r).toNat ↔ s.reg rx = s.reg r := BitVec.toNat_inj
  have hcompare : s.flags.compare (s.reg rx) (s.reg r) =
      { n := decide ((s.reg r).toInt ≤ (s.reg rx).toInt), z := decide (s.reg rx = s.reg r),
        c := decide ((s.reg r).toNat ≤ (s.reg rx).toNat), v := s.flags.v } := by
    rw [Flags.compare, beq_eq_decide]
  rw [hcompare]
  simp only [List.forall_mem_cons, List.not_mem_nil, false_imp_iff, implies_true, and_true]
  refine ⟨runBranch_compared (cond := fun f => !f.c) ?_ off s, runBranch_compared (cond := fun f => f.c) rfl off s,
    runBranch_compared (cond := fun f => !f.z) ?_ off s, runBranch_compared (cond := fun f => f.z) rfl off s,
    runBranch_compared (cond := fun f => !f.n) ?_ off s, runBranch_compared (cond := fun f => f.n) rfl off s,
    runBranch_compared (cond := fun f => f.c && !f.z) ?_ off s,
    runBranch_compared (cond := fun f => f.n && !f.z) ?_ off s⟩
  · simp only [← decide_not, Nat.not_le]
  · simp only [← decide_not, ne_eq]
  · simp only [← decide_not, Int.not_le]
  · simp only [← decide_not, ← Bool.decide_and, ← hnat, decide_eq_decide]
    omega
  · simp only [← decide_not, ← Bool.decide_and, ← hint, decide_eq_decide]
    omega

/-! ## One-word instructions on registers -/

theorem exec_shift (f : Word → Nat → Flags → Shifted) (rx : Reg) (count : State → Nat) (s : State) :
    ∃ t, runBody 1 (shiftBody f rx count) s = .next t ∧
      RegisterResult s t (s.regs.set rx (f (s.reg rx) (count (s.started 1)) s.flags).value)
        (.arith (f (s.reg rx) (count (s.started 1)) s.flags).value (f (s.reg rx) (count (s.started 1)) s.flags).carry
          (f (s.reg rx) (count (s.started 1)) s.flags).overflow) :=
  ⟨_, rfl, summed_registerResult rx (_, _, _) s⟩

theorem and_fifteen_toNat (w : Word) : (w &&& 0x000F).toNat = w.toNat % 16 := by
  rw [BitVec.toNat_and]
  exact Nat.and_two_pow_sub_one_eq_mod w.toNat 4

/-! ## Shifts -/

theorem ofNat_mul_twoPow (v : Word) (x : Nat) : BitVec.ofNat 16 (v.toNat * 2 ^ x) = v <<< x := by
  apply BitVec.eq_of_toNat_eq
  rw [BitVec.toNat_ofNat, BitVec.toNat_shiftLeft, Nat.shiftLeft_eq]

theorem two_pow_le_mul {x : Nat} (hx : x ≤ 16) (n : Nat) : 2 ^ 16 ≤ n * 2 ^ x ↔ 2 ^ (16 - x) ≤ n := by
  have hsplit : 2 ^ 16 = 2 ^ (16 - x) * 2 ^ x := by rw [← Nat.pow_add, Nat.sub_add_cancel hx]
  rw [hsplit]
  exact Nat.mul_le_mul_right_iff (Nat.two_pow_pos x)


theorem immCount_eq (n : BitVec 4) : immCount n = n.toNat + 1 := rfl

theorem regCount_eq (s : State) (r : Reg) : regCount s r = (s.reg r).toNat % 16 := and_fifteen_toNat _

theorem immCount_le (n : BitVec 4) : n.toNat + 1 ≤ 16 := n.isLt

theorem regCount_le (w : Word) : w.toNat % 16 ≤ 16 := by omega

/-- A shift instruction whose operation, at its count, has the value and the flags that are asked for. -/
theorem shift_result {f : Word → Nat → Flags → Shifted} {rx : Reg} {count : State → Nat} {s : State} {x : Nat}
    {r : Word}
    {c v : Bool} (hcount : count (s.started 1) = x) (hf : f (s.reg rx) x s.flags = ⟨r, c, v⟩) :
    ∃ t, runBody 1 (shiftBody f rx count) s = .next t ∧
      RegisterResult s t (s.regs.set rx r) { n := r.msb, z := decide (r = 0), c := c, v := v } := by
  obtain ⟨t, ht, hresult⟩ := exec_shift f rx count s
  rw [hcount, hf, Flags.arith, beq_eq_decide] at hresult
  exact ⟨t, ht, hresult⟩

/-- The form with a count in the instruction. -/
theorem immShift_result (f : Word → Nat → Flags → Shifted) {rx : Reg} {n : BitVec 4} {s : State} {r : Word} {c v : Bool}
    (hf : f (s.reg rx) (n.toNat + 1) s.flags = ⟨r, c, v⟩) :
    ∃ t, runBody 1 (shiftBody f rx fun _ => immCount n) s = .next t ∧
      RegisterResult s t (s.regs.set rx r) { n := r.msb, z := decide (r = 0), c := c, v := v } :=
  shift_result (immCount_eq n) hf

/-- The form with a count in a register, read before the shift (D10). -/
theorem regShift_result (f : Word → Nat → Flags → Shifted) {rx rc : Reg} {s : State} {r : Word} {c v : Bool}
    (hf : f (s.reg rx) ((s.reg rc).toNat % 16) s.flags = ⟨r, c, v⟩) :
    ∃ t, runBody 1 (shiftBody f rx fun t => regCount t rc) s = .next t ∧
      RegisterResult s t (s.regs.set rx r) { n := r.msb, z := decide (r = 0), c := c, v := v } :=
  shift_result (regCount_eq (s.started 1) rc) hf

theorem shiftLeft_eq (v : Word) {x : Nat} (hx : x ≤ 16) (f : Flags) :
    shiftLeft v x f = ⟨v <<< x, decide (2 ^ (16 - x) ≤ v.toNat), f.v⟩ := by
  rw [shiftLeft, ofNat_mul_twoPow]
  simp only [two_pow_le_mul hx]

/-- Settles O27: ASL and LSL run `shiftLeft`, which multiplies by a power of two. -/
theorem shiftsLeft : Obligations.ShiftsLeft := by
  intro rx rc n s v c
  simp only [List.forall_mem_cons, List.not_mem_nil, false_imp_iff, implies_true, and_true]
  have himm := shiftLeft_eq v (immCount_le n) s.flags
  have hreg := shiftLeft_eq v (regCount_le (s.reg rc)) s.flags
  exact ⟨immShift_result shiftLeft himm, regShift_result shiftLeft hreg, immShift_result shiftLeft himm,
    regShift_result shiftLeft hreg⟩

theorem shiftRightSigned_eq (v : Word) (x : Nat) (f : Flags) :
    shiftRightSigned v x f = ⟨BitVec.ofInt 16 (v.toInt / 2 ^ x), decide (v.toNat % 2 ^ x ≠ 0),
      decide (v.toInt ≠ -1 ∧ v.toInt / 2 ^ x = -1)⟩ := by
  have hdiv : v.toInt >>> x = v.toInt / 2 ^ x := by rw [Int.shiftRight_eq_div_pow]; norm_cast
  have hvalue : v.sshiftRight x = BitVec.ofInt 16 (v.toInt / 2 ^ x) := by rw [BitVec.sshiftRight, hdiv]
  have hminus : ∀ w : Word, w = 0xFFFF ↔ w.toInt = -1 := fun w => BitVec.toInt_inj.symm
  have hlost : (v != 0xFFFF && v.sshiftRight x == 0xFFFF) = decide (v.toInt ≠ -1 ∧ v.toInt / 2 ^ x = -1) := by
    rw [bne, beq_eq_decide, beq_eq_decide, ← decide_not, ← Bool.decide_and, decide_eq_decide, hminus, hminus,
      BitVec.toInt_sshiftRight, hdiv]
  rw [shiftRightSigned, losesOne, ← hlost, ← hvalue]

theorem shiftRightPlain_eq (v : Word) (x : Nat) (f : Flags) :
    shiftRightPlain v x f = ⟨v >>> x, decide (v.toNat % 2 ^ x ≠ 0), f.v⟩ := by
  have hvalue : BitVec.ofNat 16 (v.toNat / 2 ^ x) = v >>> x := by
    rw [← Nat.shiftRight_eq_div_pow, ← BitVec.toNat_ushiftRight, BitVec.ofNat_toNat, BitVec.setWidth_eq]
  rw [shiftRightPlain, hvalue, losesOne]

/-- Settles O28: ASR and LSR divide by a power of two, rounding down. -/
theorem shiftsRight : Obligations.ShiftsRight := by
  intro rx rc n s v c
  simp only [List.forall_mem_cons, List.not_mem_nil, false_imp_iff, implies_true, and_true]
  exact ⟨⟨immShift_result shiftRightSigned (shiftRightSigned_eq v _ _),
      regShift_result shiftRightSigned (shiftRightSigned_eq v _ _)⟩,
    immShift_result shiftRightPlain (shiftRightPlain_eq v _ _),
    regShift_result shiftRightPlain (shiftRightPlain_eq v _ _)⟩

/-! ## Rotations -/

/-- Where each bit of a rotation comes from. -/
theorem getLsbD_rotateLeft_mod {w : Nat} (v : BitVec w) {x j : Nat} (hx : x ≤ w) (hj : j < w) :
    (v.rotateLeft x).getLsbD j = v.getLsbD ((j + (w - x)) % w) := by
  rw [BitVec.getLsbD_rotateLeft, decide_eq_true hj, Bool.true_and]
  rcases Nat.lt_or_eq_of_le hx with hlt | rfl
  · rw [Nat.mod_eq_of_lt hlt]
    by_cases hjx : j < x
    · rw [decide_eq_true hjx, cond_true, Nat.mod_eq_of_lt (by omega), Nat.add_comm]
    · rw [decide_eq_false hjx, cond_false, Nat.mod_eq_sub_mod (by omega), Nat.mod_eq_of_lt (by omega)]
      congr 1; omega
  · rw [Nat.mod_self, Nat.sub_self, Nat.add_zero, Nat.mod_eq_of_lt hj]
    rfl

theorem getLsbD_rotateRight_mod {w : Nat} (v : BitVec w) {x j : Nat} (hx : x ≤ w) (hj : j < w) :
    (v.rotateRight x).getLsbD j = v.getLsbD ((j + x) % w) := by
  rw [BitVec.getLsbD_rotateRight, decide_eq_true hj, Bool.true_and]
  rcases Nat.lt_or_eq_of_le hx with hlt | rfl
  · rw [Nat.mod_eq_of_lt hlt]
    by_cases hjx : j < w - x
    · rw [decide_eq_true hjx, cond_true, Nat.mod_eq_of_lt (by omega), Nat.add_comm]
    · rw [decide_eq_false hjx, cond_false, Nat.mod_eq_sub_mod (by omega), Nat.mod_eq_of_lt (by omega)]
      congr 1; omega
  · rw [Nat.mod_self, Nat.add_mod_right, Nat.mod_eq_of_lt hj, Nat.sub_zero, decide_eq_true hj, cond_true, Nat.zero_add]

/-- Bit 16 of C ++ Rx is C. -/
theorem getLsbD_carry (c : Bool) (v : Word) : (BitVec.ofBool c ++ v).getLsbD 16 = c := by
  rw [BitVec.getLsbD_append, if_neg (by decide)]
  cases c <;> rfl

theorem rotateLeftCarry_carry (v : Word) {x : Nat} (hx : x ≤ 16) (f : Flags) :
    (rotateLeftCarry v x f).carry = (BitVec.ofBool f.c ++ v).getLsbD ((16 + (17 - x)) % 17) := by
  rw [rotateLeftCarry]
  split
  · next h => rw [h]; exact (getLsbD_carry f.c v).symm
  · exact getLsbD_rotateLeft_mod (w := 17) _ (by omega) (by omega)

theorem rotateRightCarry_carry (v : Word) {x : Nat} (hx : x ≤ 16) (f : Flags) :
    (rotateRightCarry v x f).carry = (BitVec.ofBool f.c ++ v).getLsbD ((16 + x) % 17) := by
  rw [rotateRightCarry]
  split
  · next h => rw [h]; exact (getLsbD_carry f.c v).symm
  · exact getLsbD_rotateRight_mod (w := 17) _ (by omega) (by omega)

/-- The bits of a rotation's result, where the bits rotated are those of a wider word. -/
theorem getLsbD_extractLsb'_zero {w : Nat} (t : BitVec w) {j : Nat} (hj : j < 16) :
    (t.extractLsb' 0 16).getLsbD j = t.getLsbD j := by
  rw [BitVec.getLsbD_extractLsb', Nat.zero_add, decide_eq_true hj, Bool.true_and]

/-- A rotation whose result has the bits and whose C is the one that is asked for. -/
structure RotatesTo (f : Word → Nat → Flags → Shifted) (v : Word) (x : Nat) (fl : Flags) (bit : Nat → Bool) (c : Bool) :
    Prop where
  bits : ∀ j < 16, (f v x fl).value.getLsbD j = bit j
  carry : (f v x fl).carry = c
  overflow : (f v x fl).overflow = fl.v

theorem RotatesTo.shifted {f : Word → Nat → Flags → Shifted} {v : Word} {x : Nat} {fl : Flags} {bit : Nat → Bool}
    {c : Bool} (h : RotatesTo f v x fl bit c) : f v x fl = ⟨(f v x fl).value, c, fl.v⟩ := by
  rw [← h.carry, ← h.overflow]

theorem immRotate_result (f : Word → Nat → Flags → Shifted) {rx : Reg} {n : BitVec 4} {s : State} {bit : Nat → Bool}
    {c : Bool} (h : RotatesTo f (s.reg rx) (n.toNat + 1) s.flags bit c) :
    ∃ (r : Word) (t : State), (∀ j < 16, r.getLsbD j = bit j) ∧
      runBody 1 (shiftBody f rx fun _ => immCount n) s = .next t ∧
      RegisterResult s t (s.regs.set rx r) { n := r.msb, z := decide (r = 0), c := c, v := s.flags.v } :=
  have ⟨t, ht⟩ := immShift_result f h.shifted
  ⟨_, t, h.bits, ht⟩

theorem regRotate_result (f : Word → Nat → Flags → Shifted) {rx rc : Reg} {s : State} {bit : Nat → Bool} {c : Bool}
    (h : RotatesTo f (s.reg rx) ((s.reg rc).toNat % 16) s.flags bit c) :
    ∃ (r : Word) (t : State), (∀ j < 16, r.getLsbD j = bit j) ∧
      runBody 1 (shiftBody f rx fun t => regCount t rc) s = .next t ∧
      RegisterResult s t (s.regs.set rx r) { n := r.msb, z := decide (r = 0), c := c, v := s.flags.v } :=
  have ⟨t, ht⟩ := regShift_result f h.shifted
  ⟨_, t, h.bits, ht⟩

theorem rotateLeftCarry_rotatesTo (v : Word) {x : Nat} (hx : x ≤ 16) (f : Flags) :
    RotatesTo rotateLeftCarry v x f (fun j => (BitVec.ofBool f.c ++ v).getLsbD ((j + (17 - x)) % 17))
      ((BitVec.ofBool f.c ++ v).getLsbD ((16 + (17 - x)) % 17)) :=
  ⟨fun _ hj => (getLsbD_extractLsb'_zero _ hj).trans (getLsbD_rotateLeft_mod (w := 17) _ (by omega) (by omega)),
    rotateLeftCarry_carry v hx f, rfl⟩

theorem rotateRightCarry_rotatesTo (v : Word) {x : Nat} (hx : x ≤ 16) (f : Flags) :
    RotatesTo rotateRightCarry v x f (fun j => (BitVec.ofBool f.c ++ v).getLsbD ((j + x) % 17))
      ((BitVec.ofBool f.c ++ v).getLsbD ((16 + x) % 17)) :=
  ⟨fun _ hj => (getLsbD_extractLsb'_zero _ hj).trans (getLsbD_rotateRight_mod (w := 17) _ (by omega) (by omega)),
    rotateRightCarry_carry v hx f, rfl⟩

theorem rotateLeftPlain_rotatesTo (v : Word) {x : Nat} (hx : x ≤ 16) (f : Flags) :
    RotatesTo rotateLeftPlain v x f (fun j => v.getLsbD ((j + (16 - x)) % 16)) f.c :=
  ⟨fun _ hj => getLsbD_rotateLeft_mod v hx hj, rfl, rfl⟩

theorem rotateRightPlain_rotatesTo (v : Word) {x : Nat} (hx : x ≤ 16) (f : Flags) :
    RotatesTo rotateRightPlain v x f (fun j => v.getLsbD ((j + x) % 16)) f.c :=
  ⟨fun _ hj => getLsbD_rotateRight_mod v hx hj, rfl, rfl⟩

/-- Settles O29: the four are rotations of 17 or 16 bits (`getLsbD_rotateLeft_mod`, `getLsbD_rotateRight_mod`). -/
theorem rotates : Obligations.Rotates := by
  refine ⟨fun rx rc n s => ?_, fun rx rc n s => ?_⟩ <;>
    simp only [List.forall_mem_cons, List.not_mem_nil, false_imp_iff, implies_true, and_true]
  · exact ⟨immRotate_result rotateLeftCarry (rotateLeftCarry_rotatesTo _ (immCount_le n) _),
      regRotate_result rotateLeftCarry (rotateLeftCarry_rotatesTo _ (regCount_le _) _),
      immRotate_result rotateRightCarry (rotateRightCarry_rotatesTo _ (immCount_le n) _),
      regRotate_result rotateRightCarry (rotateRightCarry_rotatesTo _ (regCount_le _) _)⟩
  · exact ⟨immRotate_result rotateLeftPlain (rotateLeftPlain_rotatesTo _ (immCount_le n) _),
      regRotate_result rotateLeftPlain (rotateLeftPlain_rotatesTo _ (regCount_le _) _),
      immRotate_result rotateRightPlain (rotateRightPlain_rotatesTo _ (immCount_le n) _),
      regRotate_result rotateRightPlain (rotateRightPlain_rotatesTo _ (regCount_le _) _)⟩

/-! ## Bit tests -/

theorem field_one_eq_one (w : Word) (n : Nat) : field w n 1 = 1 ↔ w.getLsbD n = true := by
  rw [field, BitVec.getLsbD, Nat.testBit_eq_decide_div_mod_eq, decide_eq_true_iff, Nat.pow_one]

theorem decodeShift_eq (imm : Reg → BitVec 4 → Instr) (reg : Reg → Reg → Instr) (w : Word) :
    decodeShift imm reg w =
      if w.getLsbD 12 then reg (w.extractLsb' 13 3).toFin (w.extractLsb' 8 3).toFin
      else imm (w.extractLsb' 13 3).toFin (w.extractLsb' 8 4) := by
  rw [decodeShift, ← regAt_eq_toFin, ← regAt_eq_toFin, ← ofNat_field_eq_extractLsb']
  simp only [field_one_eq_one]

/-- A bit test that writes Rx, Z and C. -/
theorem replaceBit_result (rx : Reg) (b : Nat) (new carry : Bool) (s : State) :
    ∃ (r : Word) (t : State), (∀ j < 16, r.getLsbD j = if j = b then new else (s.reg rx).getLsbD j) ∧
      replaceBit rx b new carry (s.started 1) = .ok () t ∧
      RegisterResult s t (s.regs.set rx r) { s.flags with z := !(s.reg rx).getLsbD b, c := carry } := by
  refine ⟨putBit (s.reg rx) b new, _, fun j hj => getLsbD_putBit _ _ _ _ hj, rfl, rfl, ?_⟩
  have hset := setFlags_flagsSet ((s.started 1).setReg rx (putBit (s.reg rx) b new))
    { s.flags with z := !(s.reg rx).getLsbD b, c := carry }
  exact ⟨hset.flags, hset.rest⟩

/-- A one-word instruction whose body completes. -/
theorem exists_runBody {body : State → Res Unit} {s : State} {p : Word → Prop} {q : Word → State → Prop}
    (h : ∃ (r : Word) (t : State), p r ∧ body (s.started 1) = .ok () t ∧ q r t) :
    ∃ (r : Word) (t : State), p r ∧ runBody 1 body s = .next t ∧ q r t := by
  obtain ⟨r, t, hp, hbody, hq⟩ := h
  exact ⟨r, t, hp, runBody_ok hbody, hq⟩

theorem testBit_result (rx : Reg) (b : Nat) (s : State) :
    ∃ t, testBit rx b (s.started 1) = .ok () t ∧
      RegisterResult s t s.regs { s.flags with z := !(s.reg rx).getLsbD b } := by
  have hset := setFlags_flagsSet (s.started 1) { s.flags with z := !(s.reg rx).getLsbD b }
  exact ⟨_, rfl, rfl, hset.flags, hset.rest⟩

/-- Settles O30: both forms run the same operation on a bit number, the register form on the low four bits of its
register before the change. -/
theorem bitTests : Obligations.BitTests := by
  refine ⟨fun w w1 w2 p hp hop => ?_, fun rx rb bit s imm => ?_⟩
  · simp only [List.mem_cons, List.not_mem_nil, or_false] at hp
    rcases hp with rfl | rfl | rfl | rfl <;>
      (rw [decodeWords, hop]; exact decodeShift_eq _ _ w)
  · have hnumber : regBit (s.started 1) rb = (s.reg rb).toNat % 16 := and_fifteen_toNat _
    simp only [List.forall_mem_cons, List.not_mem_nil, false_imp_iff, implies_true, and_true]
    cases imm with
    | true =>
      obtain ⟨t, hbody, hresult⟩ := testBit_result rx bit.toNat s
      exact ⟨⟨t, runBody_ok hbody, hresult⟩, exists_runBody (replaceBit_result rx _ _ _ s),
        exists_runBody (replaceBit_result rx _ _ _ s), exists_runBody (replaceBit_result rx _ _ _ s)⟩
    | false =>
      simp only [Bool.false_eq_true, if_false, ← hnumber]
      obtain ⟨t, hbody, hresult⟩ := testBit_result rx (regBit (s.started 1) rb) s
      exact ⟨⟨t, runBody_ok hbody, hresult⟩, exists_runBody (replaceBit_result rx _ _ _ s),
        exists_runBody (replaceBit_result rx _ _ _ s), exists_runBody (replaceBit_result rx _ _ _ s)⟩

/-! ## SBI, DEC and SET -/

/-- What SBI and DEC do, for a constant `k` (R226). -/
theorem subConstant_result {i : Instr} {rx : Reg} {k : Nat} {s : State} (hk : k ≤ 32)
    (hexec : exec i s = .next (summed 1 rx (subW (s.reg rx) (BitVec.ofNat 16 k) true) s)) :
    ∃ t, exec i s = .next t ∧
      RegisterResult s t (s.regs.set rx (BitVec.ofInt 16 ((s.reg rx).toInt - k)))
        (sumFlags 16 ((s.reg rx).toInt - k) (decide (k ≤ (s.reg rx).toNat))) := by
  refine ⟨_, hexec, ?_⟩
  have hnat : (BitVec.ofNat 16 k).toNat = k := by
    rw [BitVec.toNat_ofNat]; omega
  have hint : (BitVec.ofNat 16 k).toInt = k := by
    rw [BitVec.toInt_eq_toNat_of_lt (by omega), hnat]
  have hsub : subW (s.reg rx) (BitVec.ofNat 16 k) true = (BitVec.ofInt 16 ((s.reg rx).toInt - k),
      decide (k ≤ (s.reg rx).toNat), !fitsSigned 16 ((s.reg rx).toInt - k)) := by
    refine (subW_eq .word (s.reg rx) (BitVec.ofNat 16 k) true).trans ?_
    simp only [Size.bits, Bool.toNat_true, Nat.sub_self, Nat.add_zero, hnat, hint, Int.natCast_one, Int.sub_self,
      Int.sub_zero]
  have hresult := summed_registerResult rx (subW (s.reg rx) (BitVec.ofNat 16 k) true) s
  rw [hsub] at hresult ⊢
  exact hresult

theorem altConstant_eq (v : BitVec 5) : altConstant v =
    if v.toNat ≤ 0x0A then BitVec.ofNat 16 (2 ^ (5 + v.toNat)) else BitVec.ofNat 16 (0xFFE0 + v.toNat) := by
  rw [altConstant, BitVec.ofNat_add, BitVec.ofNat_toNat]
  rfl

/-- Settles O33: SBI and DEC write the difference of Rx and a constant 1..32, SET its constant. -/
theorem subtractAndSetImmediate : Obligations.SubtractAndSetImmediate := by
  refine ⟨fun rx v s => ?_, fun rx v s => ⟨?_, ?_⟩⟩
  · rw [List.forall_mem_cons, List.forall_mem_singleton]
    have hv := v.isLt
    refine ⟨subConstant_result (k := 1) (by decide) rfl, subConstant_result (k := v.toNat + 1) (by omega) ?_⟩
    rw [← immValue_eq_ofNat]
    rfl
  · rw [BitVec.ofNat_toNat]; rfl
  · rw [← altConstant_eq]; rfl

end Sys2Proof.Machine

/-! Memory: translation and protection with the MMU on (spec/20_memory.md R67 to R69), and what is read back from where
it was stored (R61, R72, R74). -/

namespace Sys2Proof.Machine

/-! ## Translation and checks -/

theorem mapWord_mmuOn {s : State} (h : s.mmuOn = true) (k : Fin 4) :
    s.mapWord k = if s.supervisor then s.mmuS[k] else s.mmuU[k] := by
  rw [State.mapWord, if_pos h]

theorem check_mmuOn {s : State} (h : s.mmuOn = true) (kind : Access) (a : Word) :
    s.check kind a =
      if (s.mapWord (bankOf a)).getLsbD 13 then some ⟨a, false, false⟩
      else if s.supervisor = false ∧ (s.mapWord (bankOf a)).getLsbD 15 = true then
        some ⟨a, true, decide (kind = .write)⟩
      else if kind = .write ∧ (s.mapWord (bankOf a)).getLsbD 14 = true then some ⟨a, false, true⟩
      else none := by
  rw [State.check, if_pos h]
  simp only [Bool.and_eq_true, Bool.not_eq_true', beq_iff_eq]
  simp only [beq_eq_decide]

theorem memWrite_fault {sz : Size} {a v : Word} {s : State} {f : BankFault} (h : s.checkSized .write sz a = some f) :
    memWrite sz a v s = .trap (.bankFault f) s := by
  rw [memWrite, h]

/-- Settles O58: the definitions of translation and checks, with the MMU on. -/
theorem protectionChecks : Obligations.ProtectionChecks := by
  intro a s h
  have hmap := mapWord_mmuOn h (bankOf a)
  refine ⟨?_, fun kind => ?_, fun kind => ?_, fun _ _ => memRead_fault, fun _ _ _ => memWrite_fault⟩
  · rw [State.translate, physAddr_toNat, hmap]
    rfl
  · rw [State.checkSized, check_mmuOn h, hmap]
    rfl
  · simp only [State.checkSized]
    cases s.check kind a <;> rfl

/-- What may be written may be read: only W tells the two apart (R68). -/
theorem check_read_of_write {s : State} {a : Word} (h : s.check .write a = none) : s.check .read a = none := by
  cases hm : s.mmuOn with
  | false => exact check_mmuOff hm _ _
  | true =>
    rw [check_mmuOn hm] at h ⊢
    split at h
    · cases h
    · next hp =>
      split at h
      · cases h
      · next hs => rw [if_neg hp, if_neg hs, if_neg (fun hw => nomatch hw.1)]

theorem checkSized_word_eq_none {kind : Access} {s : State} {a : Word} :
    s.checkSized kind .word a = none ↔ s.check kind a = none ∧ s.check kind (a + 1) = none := by
  rw [State.checkSized, Option.or_eq_none_iff]

theorem checkSized_read_of_write {s : State} {a : Word} (h : s.checkSized .write .word a = none) :
    s.checkSized .read .word a = none := by
  rw [checkSized_word_eq_none] at h ⊢
  exact ⟨check_read_of_write h.1, check_read_of_write h.2⟩

/-! ## What a store leaves of the mapping -/

/-- Cache words that differ in their A flag alone translate and protect alike. -/
theorem mapWord_withoutAccessed {s t : State} (hps : t.ps = s.ps)
    (hU : ∀ k : Fin 4, withoutAccessed t.mmuU[k] = withoutAccessed s.mmuU[k])
    (hS : ∀ k : Fin 4, withoutAccessed t.mmuS[k] = withoutAccessed s.mmuS[k]) (k : Fin 4) :
    withoutAccessed (t.mapWord k) = withoutAccessed (s.mapWord k) := by
  have hon : t.mmuOn = s.mmuOn := by rw [State.mmuOn, hps]; rfl
  have hsup : t.supervisor = s.supervisor := by rw [State.supervisor, hps]; rfl
  simp only [State.mapWord, hon, hsup]
  split
  · split
    · exact hS k
    · exact hU k
  · rfl

theorem withoutAccessed_or (e : Word) : withoutAccessed (e ||| 0x1000) = withoutAccessed e := by
  rw [← or_twoPow_12, withoutAccessed_putBit]

theorem Stores.mapWord {a : Word} {bytes : List Byte} {s t : State} (h : Stores a bytes s t) (hps : t.ps = s.ps)
    (k : Fin 4) : withoutAccessed (t.mapWord k) = withoutAccessed (s.mapWord k) := by
  refine mapWord_withoutAccessed hps (fun k => ?_) (fun k => ?_) k
  · rw [h.accessedU k]
    split
    · exact withoutAccessed_or _
    · rfl
  · rw [h.accessedS k]
    split
    · exact withoutAccessed_or _
    · rfl

theorem Stores.translate {a : Word} {bytes : List Byte} {s t : State} (h : Stores a bytes s t) (hps : t.ps = s.ps)
    (x : Word) : t.translate x = s.translate x := physAddr_of_withoutAccessed (h.mapWord hps _) x

theorem Stores.check {a : Word} {bytes : List Byte} {s t : State} (h : Stores a bytes s t) (hps : t.ps = s.ps)
    (kind : Access) (x : Word) : t.check kind x = s.check kind x := by
  have hm := h.mapWord hps (bankOf x)
  have hbit : ∀ i, i < 16 → i ≠ 12 → (t.mapWord (bankOf x)).getLsbD i = (s.mapWord (bankOf x)).getLsbD i :=
    fun i => getLsbD_of_withoutAccessed hm
  have hon : t.mmuOn = s.mmuOn := by rw [State.mmuOn, hps]; rfl
  have hsup : t.supervisor = s.supervisor := by rw [State.supervisor, hps]; rfl
  simp only [State.check, hon, hsup, hbit 13 (by decide) (by decide), hbit 14 (by decide) (by decide),
    hbit 15 (by decide) (by decide)]

theorem Stores.checkSized {a : Word} {bytes : List Byte} {s t : State} (h : Stores a bytes s t) (hps : t.ps = s.ps)
    (kind : Access) (sz : Size) (x : Word) : t.checkSized kind sz x = s.checkSized kind sz x := by
  cases sz <;> simp only [State.checkSized, h.check hps]

theorem Stores.quiet {a : Word} {bytes : List Byte} {s t : State} (h : Stores a bytes s t) (hq : s.quiet) : t.quiet :=
  (h.schedule hq).trans hq

/-- Bytes stored to RAM read back. -/
theorem Stores.byteAt {a : Word} {bytes : List Byte} {s t : State} (h : Stores a bytes s t) (hps : t.ps = s.ps)
    (hbacking : ∀ pa, t.backing pa = s.backing pa) (hq : s.quiet) (hwf : Mem.wf s.mem = true) {k : Nat} {b : Byte}
    (hb : bytes[k]? = some b) (hram : s.backing (s.translate (a + BitVec.ofNat 16 k)) = .ram) :
    t.byteAt (a + BitVec.ofNat 16 k) = b := by
  rw [byteAt_ram (by rw [h.translate hps, hbacking]; exact hram), h.translate hps]
  exact h.stored hq hwf k b hb hram

theorem add_ofNat_succ (a : Word) (k : Nat) : a + BitVec.ofNat 16 k + 1 = a + BitVec.ofNat 16 (k + 1) := by
  rw [BitVec.ofNat_add, BitVec.add_assoc]
  rfl

theorem append_extractLsb' (v : Word) : v.extractLsb' 8 8 ++ v.extractLsb' 0 8 = v := wordOfBytes_bytes v

/-- The two bytes of each word. -/
theorem getElem?_flatMap_bytesOfWord {ws : List Word} {k : Nat} {w : Word} (h : ws[k]? = some w) :
    (ws.flatMap bytesOfWord)[2 * k]? = some (w.extractLsb' 0 8) ∧
      (ws.flatMap bytesOfWord)[2 * k + 1]? = some (w.extractLsb' 8 8) := by
  induction ws generalizing k with
  | nil => cases h
  | cons v rest ih =>
    cases k with
    | zero =>
      rw [List.getElem?_cons_zero] at h
      cases h
      exact ⟨rfl, rfl⟩
    | succ k => exact ih h

/-- Words stored to RAM read back. -/
theorem Stores.wordAt {a : Word} {ws : List Word} {s t : State} (h : Stores a (ws.flatMap bytesOfWord) s t)
    (hps : t.ps = s.ps) (hbacking : ∀ pa, t.backing pa = s.backing pa) (hq : s.quiet) (hwf : Mem.wf s.mem = true)
    (hram : s.ramFrom a (2 * ws.length)) {k : Nat} {w : Word} (hw : ws[k]? = some w) :
    t.wordAt (a + BitVec.ofNat 16 (2 * k)) = w := by
  have hk : k < ws.length := (List.getElem?_eq_some_iff.mp hw).1
  obtain ⟨hlo, hhi⟩ := getElem?_flatMap_bytesOfWord hw
  rw [State.wordAt, add_ofNat_succ, h.byteAt hps hbacking hq hwf hlo (hram _ (by omega)),
    h.byteAt hps hbacking hq hwf hhi (hram _ (by omega)), append_extractLsb']

/-! ## Writes draw no free value -/

theorem physWrite_freeCount (s : State) (pa : PAddr) (v : Byte) : (s.physWrite pa v).freeCount = s.freeCount := by
  unfold State.physWrite
  split <;> rfl

theorem deviceWrites_freeCount (ws : List DeviceWrite) (s : State) : (s.deviceWrites ws).freeCount = s.freeCount := by
  induction ws generalizing s with
  | nil => rfl
  | cons w rest ih => exact (ih _).trans (physWrite_freeCount s _ _)

theorem writeByte_freeCount (s : State) (pa : PAddr) (v : Byte) : (s.writeByte pa v).freeCount = s.freeCount := by
  rw [State.writeByte, physWrite_freeCount, State.busCycle]
  split
  · rfl
  · exact deviceWrites_freeCount ..

theorem storeSized_freeCount (sz : Size) (a v : Word) (s : State) : (s.storeSized sz a v).freeCount = s.freeCount := by
  cases sz with
  | byte => exact writeByte_freeCount ..
  | word =>
    simp only [State.storeSized, State.writePair]
    split
    · rw [physWrite_freeCount, writeByte_freeCount]
    · rw [writeByte_freeCount, writeByte_freeCount]

theorem memWrite_freeCount {sz : Size} {a v : Word} {s t : State} (h : memWrite sz a v s = .ok () t) :
    t.freeCount = s.freeCount := by
  rcases memWrite_cases sz a v s with ⟨f, _, htrap⟩ | ⟨_, hok, _⟩
  · rw [htrap] at h; cases h
  · rw [hok] at h
    cases h
    rw [(touchSized_touchStep (s.storeSized sz a v) sz a).only]
    exact storeSized_freeCount ..

theorem push_freeCount {v : Word} {s t : State} (h : push v s = .ok () t) : t.freeCount = s.freeCount :=
  (memWrite_freeCount h).trans (freeCount_setSp ..)

theorem pushAll_freeCount {words : List Word} {s t : State} (h : pushAll words s = .ok () t) :
    t.freeCount = s.freeCount := by
  induction words generalizing s with
  | nil => cases h; rfl
  | cons v rest ih =>
    obtain ⟨_, u, hu, hrest⟩ := bind_eq_ok h
    exact (ih hrest).trans (push_freeCount hu)

/-! ## Reading back -/

/-- A completed write. -/
theorem memWrite_ok {sz : Size} {a v : Word} {s t : State} (h : memWrite sz a v s = .ok () t) :
    s.checkSized .write sz a = none ∧ StoreStep s t ∧ Stores a ((bytesOfWord v).take (sz.bits / 8)) s t := by
  rcases memWrite_cases sz a v s with ⟨f, _, htrap⟩ | ⟨hc, hok, hstep⟩
  · rw [htrap] at h; cases h
  · rw [hok] at h
    cases h
    exact ⟨hc, hstep, memWrite_stores sz a v s⟩

theorem setWidth_low (v : Word) : (v.extractLsb' 0 8).setWidth 16 = v &&& 0x00FF := by
  apply BitVec.eq_of_toNat_eq
  rw [BitVec.toNat_setWidth, BitVec.extractLsb'_toNat, BitVec.toNat_and,
    show (0x00FF : Word).toNat = 2 ^ 8 - 1 from rfl,
    Nat.and_two_pow_sub_one_eq_mod]
  omega

theorem setWidth_high (v : Word) : (v.extractLsb' 8 8).setWidth 16 = v >>> 8 := by
  apply BitVec.eq_of_toNat_eq
  rw [BitVec.toNat_setWidth, BitVec.extractLsb'_toNat, BitVec.toNat_ushiftRight, Nat.shiftRight_eq_div_pow]
  omega

theorem byteAt_absent {s : State} {a : Word} (h : s.backing (s.translate a) = .absent) : s.byteAt a = 0xFF := by
  rw [State.byteAt, State.physRead, h]

theorem physWrite_absent {s : State} {pa : PAddr} (h : s.backing pa = .absent) (v : Byte) : s.physWrite pa v = s := by
  rw [State.physWrite, h]

/-- Settles O59: a store to RAM reads back byte by byte (`Stores.byteAt`); absent memory is evaluated. -/
theorem memoryReadsBack : Obligations.MemoryReadsBack := by
  refine ⟨fun a v s t hwrite hq hwf hram => ?_, fun a v s hq habsent => ⟨fun hc => ?_, fun t hwrite => ?_⟩⟩
  · obtain ⟨hc, hstep, hstores⟩ := memWrite_ok hwrite
    have hps : t.ps = s.ps := by rw [hstep.only]
    have hbacking : ∀ pa, t.backing pa = s.backing pa := fun pa => by rw [hstep.only]; rfl
    have hbyte : ∀ {k : Nat} {b : Byte}, k < 2 → ((bytesOfWord v).take (Size.word.bits / 8))[k]? = some b →
        t.byteAt (a + BitVec.ofNat 16 k) = b := fun hk hb =>
      hstores.byteAt hps hbacking hq hwf hb (hram _ hk)
    have hlo : t.byteAt a = v.extractLsb' 0 8 := by simpa using hbyte (k := 0) (by decide) rfl
    have hhi : t.byteAt (a + 1) = v.extractLsb' 8 8 := hbyte (k := 1) (by decide) rfl
    have hplain : t.plainFrom a 2 := fun k hk => by
      rw [hstores.translate hps, hbacking, hram k hk]; decide
    have hread := checkSized_read_of_write hc
    rw [← hstores.checkSized hps] at hread
    obtain ⟨hfirst, hsecond⟩ := checkSized_word_eq_none.mp hread
    have hq' := hstores.quiet hq
    refine ⟨?_, ?_, ?_⟩
    · rw [memRead_quiet hq' hread hplain, State.valueAt, State.wordAt, hlo, hhi, append_extractLsb']
    · rw [memRead_quiet (sz := .byte) hq' hfirst fun k hk => hplain k (Nat.lt_succ_of_lt hk), State.valueAt, hlo,
        setWidth_low]
    · rw [memRead_quiet (sz := .byte) hq' hsecond fun k hk => ?_, State.valueAt, hhi, setWidth_high]
      obtain rfl : k = 0 := by simp only [sizeBytes] at hk; omega
      simpa using hplain 1 (by decide)
  · have hplain : s.plainFrom a 2 := fun k hk => by rw [habsent k hk]; decide
    have h0 : s.byteAt a = 0xFF := byteAt_absent (by simpa using habsent 0 (by decide))
    have h1 : s.byteAt (a + 1) = 0xFF := byteAt_absent (habsent 1 (by decide))
    rw [memRead_quiet hq hc hplain, State.valueAt, State.wordAt, h0, h1]
    rfl
  · rcases memWrite_cases .word a v s with ⟨f, _, htrap⟩ | ⟨_, hok, _⟩
    · rw [htrap] at hwrite; cases hwrite
    · rw [hok] at hwrite
      cases hwrite
      have h0 : s.backing (s.translate a) = .absent := by simpa using habsent 0 (by decide)
      have h1 : s.backing (s.translate (a + 1)) = .absent := habsent 1 (by decide)
      rw [(touchSized_touchStep (s.storeSized .word a v) .word a).only, storeSized_quiet .word a v hq,
        physWrite_absent h0, physWrite_absent h1]

end Sys2Proof.Machine

/-! The stack (spec/47_stack.md): what a sequence of pushes or pops leaves; PSH and POP of general registers, PSH of
processor registers, RTS, RTI and the transfers of an MMU cache half. -/

namespace Sys2Proof.Machine

/-! ## Pushes -/

/-- Pushes by an instruction of `len` words, all of which are allowed. -/
theorem pushAll_pushed {words : List Word} {s : State} (hl : words.length ≤ 8192) (h : s.pushable words.length)
    (len : Nat) : ∃ t, pushAll words (s.started len) = .ok () t ∧ Pushed len words s t := by
  obtain ⟨t, ht, hstep, hstores⟩ := pushAll_stores words (s.started len) hl h
  exact ⟨t, ht, hstep.only, hstores.congr rfl rfl rfl rfl rfl rfl rfl rfl rfl rfl rfl⟩

/-- Pushes of which one is refused. -/
theorem pushAll_pushFaulted {words : List Word} {s : State} {n : Nat} {f : BankFault} (hl : words.length ≤ 8192)
    (hn : n < words.length) (h : s.pushRefused n f) (len : Nat) :
    ∃ u, pushAll words (s.started len) = .trap (.bankFault f) u ∧ PushFaulted len (words.take n) s u := by
  obtain ⟨u, hu, honly, hstores⟩ := pushAll_refused (s := s.started len) hl hn h
  have hlength : (words.take n).length = n := List.length_take_of_le (Nat.le_of_lt hn)
  refine ⟨u, hu, ?_, ?_⟩
  · rw [hlength]; exact honly
  · rw [hlength]; exact hstores.congr rfl rfl rfl rfl rfl rfl rfl rfl rfl rfl rfl

theorem Pushed.ps {len : Nat} {words : List Word} {s t : State} (h : Pushed len words s t) : t.ps = s.ps := by
  rw [h.only]; exact ps_setSp ..

theorem Pushed.sp {len : Nat} {words : List Word} {s t : State} (h : Pushed len words s t) :
    t.sp = s.sp - BitVec.ofNat 16 (2 * words.length) := by
  have hsp : t.sp = ((s.started len).setSp (s.sp - BitVec.ofNat 16 (2 * words.length))).sp := by rw [h.only]; rfl
  rw [hsp, sp_setSp]

theorem Pushed.regs {len : Nat} {words : List Word} {s t : State} (h : Pushed len words s t) : t.regs = s.regs := by
  rw [h.only]; exact regs_setSp ..

theorem Pushed.pc {len : Nat} {words : List Word} {s t : State} (h : Pushed len words s t) :
    t.pc = s.pc + BitVec.ofNat 16 (2 * len) := by
  rw [h.only]; exact pc_setSp ..

theorem Pushed.backing {len : Nat} {words : List Word} {s t : State} (h : Pushed len words s t) (pa : PAddr) :
    t.backing pa = s.backing pa := by
  refine backing_of_eq ?_ ?_ pa
  · rw [h.only]; exact platform_setSp ..
  · rw [h.only]; exact devices_setSp ..

/-- The words pushed to RAM, the last one lowest. -/
theorem Pushed.wordAt {len : Nat} {words : List Word} {s t : State} (h : Pushed len words s t) (hq : s.quiet)
    (hwf : Mem.wf s.mem = true)
    (hram : s.ramFrom (s.sp - BitVec.ofNat 16 (2 * words.length)) (2 * words.length)) {k : Nat} {w : Word}
    (hw : words.reverse[k]? = some w) : t.wordAt (t.sp + BitVec.ofNat 16 (2 * k)) = w := by
  rw [h.sp]
  exact h.stores.wordAt h.ps h.backing hq hwf (by rw [List.length_reverse]; exact hram) hw

theorem Pushed.checkSized {len : Nat} {words : List Word} {s t : State} (h : Pushed len words s t) (kind : Access)
    (sz : Size) (a : Word) : t.checkSized kind sz a = s.checkSized kind sz a := h.stores.checkSized h.ps kind sz a

/-- The words just pushed may be popped. -/
theorem poppable_of_pushable {s t : State} {n : Nat} (hsp : t.sp = s.sp - BitVec.ofNat 16 (2 * n))
    (hcheck : ∀ kind sz a, t.checkSized kind sz a = s.checkSized kind sz a) (hpush : s.pushable n) : t.poppable n := by
  intro k hk
  have haddr : t.sp + BitVec.ofNat 16 (2 * k) = s.sp - BitVec.ofNat 16 (2 * (n - 1 - k + 1)) := by
    have hsum : BitVec.ofNat 16 (2 * n) = BitVec.ofNat 16 (2 * k) + BitVec.ofNat 16 (2 * (n - 1 - k + 1)) := by
      rw [← BitVec.ofNat_add]; congr 1; omega
    rw [hsp, hsum]
    bv_omega
  rw [haddr, hcheck]
  exact checkSized_read_of_write (hpush _ (by omega))

theorem Pushed.poppable {len : Nat} {words : List Word} {s t : State} (h : Pushed len words s t)
    (hpush : s.pushable words.length) : t.poppable words.length := poppable_of_pushable h.sp h.checkSized hpush

theorem Pushed.plainFrom {len : Nat} {words : List Word} {s t : State} (h : Pushed len words s t)
    (hram : s.ramFrom (s.sp - BitVec.ofNat 16 (2 * words.length)) (2 * words.length)) :
    t.plainFrom t.sp (2 * words.length) := by
  intro k hk
  rw [h.stores.translate h.ps, h.backing, h.sp, hram k hk]
  decide

/-! ## Pops -/

theorem mapWord_congr {s t : State} (hps : t.ps = s.ps) (hU : t.mmuU = s.mmuU) (hS : t.mmuS = s.mmuS) (k : Fin 4) :
    t.mapWord k = s.mapWord k := by
  have hon : t.mmuOn = s.mmuOn := by rw [State.mmuOn, hps]; rfl
  have hsup : t.supervisor = s.supervisor := by rw [State.supervisor, hps]; rfl
  simp only [State.mapWord, hon, hsup, hU, hS]

theorem translate_congr {s t : State} (hps : t.ps = s.ps) (hU : t.mmuU = s.mmuU) (hS : t.mmuS = s.mmuS) (a : Word) :
    t.translate a = s.translate a := by
  rw [State.translate, mapWord_congr hps hU hS, State.translate]

theorem checkSized_congr {s t : State} (hps : t.ps = s.ps) (hU : t.mmuU = s.mmuU) (hS : t.mmuS = s.mmuS)
    (kind : Access) (sz : Size) (a : Word) : t.checkSized kind sz a = s.checkSized kind sz a := by
  have hon : t.mmuOn = s.mmuOn := by rw [State.mmuOn, hps]; rfl
  have hsup : t.supervisor = s.supervisor := by rw [State.supervisor, hps]; rfl
  have hcheck : ∀ x, t.check kind x = s.check kind x := fun x => by
    simp only [State.check, hon, hsup, mapWord_congr hps hU hS]
  cases sz <;> simp only [State.checkSized, hcheck]

/-- `t` is as `s` after `n` pops in all that a further pop looks at. -/
structure PopsTo (s : State) (n : Nat) (t : State) : Prop where
  ps : t.ps = s.ps
  mmuU : t.mmuU = s.mmuU
  mmuS : t.mmuS = s.mmuS
  devices : t.devices = s.devices
  platform : t.platform = s.platform
  sp : t.sp = s.sp + BitVec.ofNat 16 (2 * n)
  memory : s.quiet → sameMemory s t
  drawn : s.quiet → s.plainFrom s.sp (2 * n) → t.freeCount = s.freeCount

theorem PopsTo.refl (s : State) : PopsTo s 0 s :=
  ⟨rfl, rfl, rfl, rfl, rfl, (BitVec.add_zero s.sp).symm, fun _ => ⟨rfl, rfl⟩, fun _ _ => rfl⟩

/-- A pop looks at no register but PS and the stack pointer in force. -/
theorem PopsTo.congr {s t t' : State} {n : Nat} (h : PopsTo s n t) (hps : t'.ps = t.ps) (hU : t'.mmuU = t.mmuU)
    (hS : t'.mmuS = t.mmuS) (hd : t'.devices = t.devices) (hp : t'.platform = t.platform) (hsp : t'.sp = t.sp)
    (hm : t'.mem = t.mem) (hb : t'.bus = t.bus) (hf : t'.freeCount = t.freeCount) : PopsTo s n t' where
  ps := hps.trans h.ps
  mmuU := hU.trans h.mmuU
  mmuS := hS.trans h.mmuS
  devices := hd.trans h.devices
  platform := hp.trans h.platform
  sp := hsp.trans h.sp
  memory hq := ⟨hm.trans (h.memory hq).1, hb.trans (h.memory hq).2⟩
  drawn hq hplain := hf.trans (h.drawn hq hplain)

theorem plainFrom_of_le {s : State} {a : Word} {m n : Nat} (h : s.plainFrom a n) (hmn : m ≤ n) : s.plainFrom a m :=
  fun k hk => h k (Nat.lt_of_lt_of_le hk hmn)

theorem add_ofNat_add (a : Word) (m n : Nat) :
    a + BitVec.ofNat 16 m + BitVec.ofNat 16 n = a + BitVec.ofNat 16 (m + n) := by
  rw [BitVec.add_assoc, BitVec.ofNat_add]

theorem PopsTo.checkSized {s t : State} {n : Nat} (h : PopsTo s n t) :
    t.checkSized .read .word t.sp = s.checkSized .read .word (s.sp + BitVec.ofNat 16 (2 * n)) := by
  rw [checkSized_congr h.ps h.mmuU h.mmuS, h.sp]

/-- The next pop, where it is allowed. -/
theorem PopsTo.pop {s t : State} {n : Nat} (h : PopsTo s n t)
    (hc : s.checkSized .read .word (s.sp + BitVec.ofNat 16 (2 * n)) = none) :
    ∃ v t', Machine.pop t = .ok v t' ∧ PopsTo s (n + 1) t' ∧
      t' = { t.setSp (s.sp + BitVec.ofNat 16 (2 * (n + 1))) with
        mem := t'.mem, bus := t'.bus, freeCount := t'.freeCount } ∧
      (s.quiet → s.plainFrom s.sp (2 * (n + 1)) → v = s.wordAt (s.sp + BitVec.ofNat 16 (2 * n))) := by
  obtain ⟨t', hpop, ht', hmem, hplainPop⟩ := pop_value (h.checkSized.trans hc)
  have hsp : t.sp + 2 = s.sp + BitVec.ofNat 16 (2 * (n + 1)) := by rw [h.sp, Nat.mul_succ]; exact add_ofNat_add ..
  rw [hsp] at ht'
  have hquiet : s.quiet → t.quiet := fun hq => (h.memory hq).2.trans hq
  have hplain : s.plainFrom s.sp (2 * (n + 1)) → t.plainFrom t.sp 2 := fun hp k hk => by
    rw [translate_congr h.ps h.mmuU h.mmuS, backing_of_eq h.platform h.devices, h.sp, add_ofNat_add]
    exact hp _ (by omega)
  refine ⟨_, t', hpop, ?_, ht', fun hq hp => ?_⟩
  · constructor
    case memory =>
      intro hq
      obtain ⟨hm, hb⟩ := hmem (hquiet hq)
      exact ⟨hm.trans (h.memory hq).1, hb.trans (h.memory hq).2⟩
    case drawn =>
      intro hq hp
      have heq := (hplainPop (hquiet hq) (hplain hp)).1
      rw [heq, freeCount_setSp]
      exact h.drawn hq (plainFrom_of_le hp (by omega))
    case sp =>
      have hsp' : t'.sp = (t.setSp (s.sp + BitVec.ofNat 16 (2 * (n + 1)))).sp := by rw [ht']; rfl
      rw [hsp', sp_setSp]
    case ps => rw [ht']; exact (ps_setSp ..).trans h.ps
    case mmuU => rw [ht']; exact (mmuU_setSp ..).trans h.mmuU
    case mmuS => rw [ht']; exact (mmuS_setSp ..).trans h.mmuS
    case devices => rw [ht']; exact (devices_setSp ..).trans h.devices
    case platform => rw [ht']; exact (platform_setSp ..).trans h.platform
  · have hvalue := (hplainPop (hquiet hq) (hplain hp)).2
    rw [hvalue, h.sp]
    exact wordAt_congr (h.memory hq).1 (h.drawn hq (plainFrom_of_le hp (by omega)))
      (translate_congr h.ps h.mmuU h.mmuS) (backing_of_eq h.platform h.devices)

/-- The next pop, where it is refused. -/
theorem PopsTo.pop_fault {s t : State} {n : Nat} {f : BankFault} (h : PopsTo s n t)
    (hc : s.checkSized .read .word (s.sp + BitVec.ofNat 16 (2 * n)) = some f) :
    Machine.pop t = .trap (.bankFault f) t := by
  rw [Machine.pop, memRead_fault (h.checkSized.trans hc)]
  rfl

/-! ## POP of general registers -/

theorem PopsTo.setReg {s t : State} {n : Nat} (h : PopsTo s n t) (r : Reg) (v : Word) : PopsTo s n (t.setReg r v) :=
  h.congr rfl rfl rfl rfl rfl rfl rfl rfl rfl

/-- What pops into the general registers `rs` leave of `t`, when `n` words of `s` were popped before. -/
structure RegsPopped (s : State) (n : Nat) (rs : List Reg) (t u : State) : Prop where
  only : u = { t.setSp (s.sp + BitVec.ofNat 16 (2 * (n + rs.length))) with
    regs := u.regs, mem := u.mem, bus := u.bus, freeCount := u.freeCount }
  others : ∀ r, r ∉ rs → u.reg r = t.reg r
  values : s.quiet → s.plainFrom s.sp (2 * (n + rs.length)) →
    ∀ k r, rs[k]? = some r → u.reg r = s.wordAt (s.sp + BitVec.ofNat 16 (2 * (n + k)))

/-- Pops into general registers, all of which are allowed. -/
theorem popRegs_popped {s : State} {rs : List Reg} {n : Nat} {t : State} (hd : rs.Nodup) (ht : PopsTo s n t)
    (h : s.poppable (n + rs.length)) :
    ∃ u, popRegs rs t = .ok () u ∧ PopsTo s (n + rs.length) u ∧ RegsPopped s n rs t u := by
  induction rs generalizing n t with
  | nil =>
    have hsp : t.setSp (s.sp + BitVec.ofNat 16 (2 * n)) = t := by rw [← ht.sp, setSp_sp]
    exact ⟨t, rfl, ht, by rw [List.length_nil, Nat.add_zero, hsp], fun _ _ => rfl, fun _ _ k r hk => by simp at hk⟩
  | cons r rest ih =>
    obtain ⟨hr, hrest⟩ := List.nodup_cons.mp hd
    have hlength : n + 1 + rest.length = n + (r :: rest).length := by rw [List.length_cons]; omega
    obtain ⟨v, t', hpop, ht', honly, hv⟩ := ht.pop (h n (by rw [← hlength]; omega))
    obtain ⟨u, hu, hpops, hframe, hothers, hvalues⟩ := ih hrest (ht'.setReg r v) (by rw [hlength]; exact h)
    rw [hlength] at hpops hframe hvalues
    refine ⟨u, by rw [popRegs, hpop, bind_ok, hu], hpops, ?_, fun x hx => ?_, fun hq hp k x hk => ?_⟩
    · have hset : ∀ y, { (t'.setReg r v).setSp y with
          regs := u.regs, mem := u.mem, bus := u.bus, freeCount := u.freeCount } =
          { t.setSp y with regs := u.regs, mem := u.mem, bus := u.bus, freeCount := u.freeCount } := fun y => by
        rw [honly]
        unfold State.setSp
        cases hs : t.supervisor <;> simp [State.supervisor, State.setReg] at hs ⊢ <;> simp [hs]
      rw [← hset]; exact hframe
    · obtain ⟨hxr, hx'⟩ := not_or.mp (mt List.mem_cons.mpr hx)
      have ht'x : t'.reg x = t.reg x := by rw [honly]; exact reg_setSp ..
      rw [hothers x hx', reg_setReg_ne _ _ hxr, ht'x]
    · cases k with
      | zero =>
        obtain rfl : r = x := Option.some.inj hk
        rw [hothers r hr, reg_setReg_self]
        exact hv hq (plainFrom_of_le hp (by omega))
      | succ k =>
        rw [hvalues hq hp k x hk]
        congr 3; omega

/-! ## The masks of PSH and POP -/

theorem length_filter_le_eight {α : Type} (p : α → Bool) {l : List α} (h : l.length = 8) : (l.filter p).length ≤ 8 :=
  h ▸ List.length_filter_le p l

theorem length_maskRegs_le (mask : BitVec 8) : (maskRegs mask).length ≤ 8 := length_filter_le_eight _ rfl

/-- The numbers a mask names, and the registers of these numbers. -/
theorem range_filter_eq (mask : BitVec 8) :
    ((List.range 8).filter fun n => mask.getLsbD n) = (maskRegs mask).map Fin.val := by
  rw [maskRegs, show List.range 8 = (List.finRange 8).map Fin.val from rfl, List.filter_map]
  rfl

theorem maskRegs_values (mask : BitVec 8) (s : State) :
    (((List.range 8).filter fun n => mask.getLsbD n).map fun n => s.regs.toList.getD n 0) =
      (maskRegs mask).map s.reg := by
  rw [range_filter_eq, List.map_map]
  refine List.map_congr_left fun r _ => ?_
  have hr : (r : Nat) < s.regs.toList.length := by rw [Vector.length_toList]; exact r.isLt
  rw [Function.comp_apply, List.getD_eq_getElem _ _ hr]
  exact Vector.getElem_toList ..

/-- POP's order is PSH's from its end. -/
theorem maskRegs_reverse (mask : BitVec 8) :
    (maskRegs mask).reverse = ([7, 6, 5, 4, 3, 2, 1, 0] : List Reg).filter fun r => mask.getLsbD r.val := by
  rw [maskRegs, ← List.filter_reverse]
  rfl

theorem maskRegs_reverse_nodup (mask : BitVec 8) : (maskRegs mask).reverse.Nodup :=
  List.nodup_reverse.mpr ((List.nodup_finRange 8).filter _)

/-- Settles O34: the registers the mask names are pushed in the order of `maskRegs`. -/
theorem pushGeneral : Obligations.PushGeneral := by
  intro mask s words h
  have hwords : words = (maskRegs mask).map s.reg := maskRegs_values mask s
  rw [hwords] at h ⊢
  have hl : ((maskRegs mask).map s.reg).length ≤ 8192 := by
    rw [List.length_map]; have := length_maskRegs_le mask; omega
  obtain ⟨t, hpush, hpushed⟩ := pushAll_pushed hl h 1
  exact ⟨t, runBody_ok hpush, hpushed⟩

/-- POP of general registers from a stack that may be read. -/
theorem exec_popGeneral {mask : BitVec 8} {s : State} (h : s.poppable (maskRegs mask).reverse.length) :
    ∃ t, exec (.popGeneral mask) s = .next t ∧ PopsTo s (maskRegs mask).reverse.length t ∧
      RegsPopped s 0 (maskRegs mask).reverse (s.started 1) t := by
  have hstart : PopsTo s 0 (s.started 1) := (PopsTo.refl s).congr rfl rfl rfl rfl rfl rfl rfl rfl rfl
  obtain ⟨t, hpop, hpops, hpopped⟩ :=
    popRegs_popped (maskRegs_reverse_nodup mask) hstart (by rw [Nat.zero_add]; exact h)
  rw [Nat.zero_add] at hpops
  exact ⟨t, runBody_ok hpop, hpops, hpopped⟩

/-- Settles O35, by `exec_popGeneral`. -/
theorem popGeneral : Obligations.PopGeneral := by
  intro mask s order h
  have horder : order = (maskRegs mask).reverse := (maskRegs_reverse mask).symm
  rw [horder] at h ⊢
  obtain ⟨t, hexec, hpops, honly, hothers, hvalues⟩ := exec_popGeneral h
  simp only [Nat.zero_add] at honly hvalues
  exact ⟨t, hexec, honly, hothers, hpops.memory, hvalues⟩

/-- Settles O36: each register is popped from the slot it was pushed to. -/
theorem popUndoesPush : Obligations.PopUndoesPush := by
  intro mask s n hpush hq hwf hram
  have hn : n = ((maskRegs mask).map s.reg).length := by
    rw [List.length_map, show n = _ from congrArg List.length (range_filter_eq mask), List.length_map]
  have hrev : (maskRegs mask).reverse.length = n := by rw [hn, List.length_reverse, List.length_map]
  rw [hn] at hpush hram
  have hl : ((maskRegs mask).map s.reg).length ≤ 8192 := by
    rw [List.length_map]; have := length_maskRegs_le mask; omega
  obtain ⟨t, hpushAll, hpushed⟩ := pushAll_pushed hl hpush 1
  have hpoppable := hpushed.poppable hpush
  have hplain := hpushed.plainFrom hram
  have hwords := fun {k w} => hpushed.wordAt (k := k) (w := w) hq hwf hram
  rw [← hn] at hpoppable hplain
  obtain ⟨u, hexec, hpops, honly, hothers, hvalues⟩ :=
    exec_popGeneral (mask := mask) (s := t) (by rw [hrev]; exact hpoppable)
  have hqt := hpushed.stores.quiet hq
  rw [Nat.zero_add, hrev] at honly hvalues
  rw [hrev] at hpops
  have hsp : s.sp - BitVec.ofNat 16 (2 * n) + BitVec.ofNat 16 (2 * n) = s.sp := BitVec.sub_add_cancel ..
  have hregs : u.regs = s.regs := by
    ext1 i hi
    have hreg : u.reg ⟨i, hi⟩ = s.reg ⟨i, hi⟩ := by
      by_cases hmem : (⟨i, hi⟩ : Reg) ∈ (maskRegs mask).reverse
      · obtain ⟨k, hk⟩ := List.mem_iff_getElem?.mp hmem
        rw [hvalues hqt hplain k _ hk, Nat.zero_add]
        exact hwords (by rw [← List.map_reverse, List.getElem?_map, hk]; rfl)
      · rw [hothers _ hmem]
        show t.regs[i] = _
        rw [hpushed.regs]; rfl
    exact hreg
  obtain ⟨hmem, hbus⟩ := hpops.memory hqt
  have hfreePush : t.freeCount = (s.started 1).freeCount := pushAll_freeCount hpushAll
  have hfree : u.freeCount = s.freeCount := (hpops.drawn hqt hplain).trans hfreePush
  have hsp' : t.sp + BitVec.ofNat 16 (2 * n) = s.sp := by rw [hpushed.sp, ← hn, hsp]
  rw [hregs, hmem, hbus.trans (hpushed.stores.schedule hq), hfree, hsp'] at honly
  refine ⟨t, u, runBody_ok hpushAll, hexec, honly.trans ?_⟩
  have hpc : s.pc + 2 + 2 = s.pc + 4 := BitVec.add_assoc ..
  have hsup : (t.started 1).supervisor = s.supervisor := by
    show t.supervisor = _
    rw [State.supervisor, hpushed.ps]; rfl
  have honly' := hpushed.only
  rw [← hpc]
  cases hs : s.supervisor with
  | true =>
    rw [ssp_setSp_supervisor (s.started 1) _ hs] at honly'
    rw [ssp_setSp_supervisor _ _ (hsup.trans hs), sp_of_supervisor s hs, honly']
    rfl
  | false =>
    rw [usp_setSp_user (s.started 1) _ hs] at honly'
    rw [usp_setSp_user _ _ (hsup.trans hs), sp_of_user s hs, honly']
    rfl

/-! ## PSH of processor registers -/

/-- Whether a mask names one of PS, P2, II and IA. -/
theorem mask_privileged_eq_zero (mask : BitVec 8) :
    mask &&& 0x3C = 0 ↔ ∀ p, supervisorOnly p = true → masked mask p = false := by
  constructor
  · intro h p hp
    have hbit : ∀ i, (0x3C : BitVec 8).getLsbD i = true → mask.getLsbD i = false := fun i hi => by
      have hand : (mask &&& 0x3C).getLsbD i = false := by rw [h]; exact BitVec.getLsbD_zero
      rwa [BitVec.getLsbD_and, hi, Bool.and_true] at hand
    cases p with
    | ps | p2 | ii | ia => exact hbit _ (by decide)
    | fl | pc | usp | sp => cases hp
  · intro h
    have h5 : mask.getLsbD 5 = false := h .ps rfl
    have h4 : mask.getLsbD 4 = false := h .p2 rfl
    have h3 : mask.getLsbD 3 = false := h .ii rfl
    have h2 : mask.getLsbD 2 = false := h .ia rfl
    apply BitVec.eq_of_getLsbD_eq
    intro i hi
    have hcases : ∀ j < 8, (0x3C : BitVec 8).getLsbD j = true → j = 2 ∨ j = 3 ∨ j = 4 ∨ j = 5 := by decide
    rw [BitVec.getLsbD_and, show (0 : BitVec 8).getLsbD i = false from BitVec.getLsbD_zero]
    cases hbit : (0x3C : BitVec 8).getLsbD i with
    | false => exact Bool.and_false _
    | true =>
      rw [Bool.and_true]
      rcases hcases i hi hbit with rfl | rfl | rfl | rfl
      · exact h2
      · exact h3
      · exact h4
      · exact h5

theorem namesForbidden_supervisor {s : State} (h : s.supervisor = true) (mask : BitVec 8) :
    namesForbidden mask s = false := by
  simp [namesForbidden, procAllowed, h]

theorem mem_procOrder (p : ProcReg) : p ∈ procOrder := by cases p <;> decide

theorem namesForbidden_user {s : State} (h : s.supervisor = false) (mask : BitVec 8) :
    namesForbidden mask s = !decide (mask &&& 0x3C = 0) := by
  rw [Bool.eq_iff_iff]
  simp only [Bool.not_eq_true', decide_eq_false_iff_not, mask_privileged_eq_zero, namesForbidden, procAllowed, h,
    List.any_eq_true, mem_procOrder, true_and, Bool.and_eq_true, Bool.false_or, Bool.not_not, not_forall,
    Bool.not_eq_false, exists_prop, and_comm]

/-- PSH and POP of processor registers end as the mask and the mode say. -/
theorem exec_afterTransfers {mask : BitVec 8} {s t : State} {body : State → Res Unit}
    (h : body (s.started 1) = afterTransfers (namesForbidden mask (s.started 1)) t) :
    if s.supervisor = true ∨ mask &&& 0x3C = 0 then runBody 1 body s = .next t
    else raisesFrom .unprivOpcode s.pc t (runBody 1 body s) := by
  cases hs : s.supervisor with
  | true =>
    rw [namesForbidden_supervisor (s := s.started 1) hs] at h
    rw [if_pos (.inl rfl)]
    exact runBody_ok h
  | false =>
    rw [namesForbidden_user (s := s.started 1) hs] at h
    by_cases hmask : mask &&& 0x3C = 0
    · rw [if_pos (.inr hmask)]
      rw [decide_eq_true hmask] at h
      exact runBody_ok h
    · rw [if_neg (by rintro (h | h); exact nomatch h; exact hmask h)]
      rw [decide_eq_false hmask] at h
      exact runBody_error (i := .unprivOpcode) rfl h

theorem map_reverse_filter_cons {α β : Type} (p : α → Bool) (g : α → β) (x : α) (l : List α) :
    ((x :: l).filter p).reverse.map g = (l.filter p).reverse.map g ++ if p x then [g x] else [] := by
  rw [List.filter_cons]
  split
  · rw [List.reverse_cons, List.map_append]; rfl
  · rw [List.append_nil]

/-- The words PSH pushes, by the registers the mask names and the mode allows (R252, R255). -/
theorem maskProcs_values (mask : BitVec 8) (s : State) :
    (maskProcs mask (s.started 1)).reverse.map (s.started 1).proc =
      (if mask.getLsbD 0 && (s.supervisor || !false) then [s.sp] else []) ++
      (if mask.getLsbD 1 && (s.supervisor || !false) then [s.usp] else []) ++
      (if mask.getLsbD 2 && (s.supervisor || !true) then [s.ia] else []) ++
      (if mask.getLsbD 3 && (s.supervisor || !true) then [s.ii] else []) ++
      (if mask.getLsbD 4 && (s.supervisor || !true) then [s.p2] else []) ++
      (if mask.getLsbD 5 && (s.supervisor || !true) then [s.ps] else []) ++
      (if mask.getLsbD 6 && (s.supervisor || !false) then [s.pc + 2] else []) ++
      (if mask.getLsbD 7 && (s.supervisor || !false) then [s.fl] else []) := by
  simp only [maskProcs, procOrder, map_reverse_filter_cons]
  rfl

theorem length_maskProcs_le (mask : BitVec 8) (s : State) : (maskProcs mask s).length ≤ 8 :=
  length_filter_le_eight _ rfl

/-- Settles O37: the pushes of `maskProcs_values`, then `exec_afterTransfers`. -/
theorem pushStatus : Obligations.PushStatus := by
  intro mask s wanted words h
  have hwords : words = (maskProcs mask (s.started 1)).reverse.map (s.started 1).proc :=
    (maskProcs_values mask s).symm
  have hl : words.length ≤ 8192 := by
    rw [hwords, List.length_map, List.length_reverse]
    have := length_maskProcs_le mask (s.started 1); omega
  obtain ⟨t, hpush, hpushed⟩ := pushAll_pushed hl h 1
  refine ⟨t, hpushed, exec_afterTransfers ?_⟩
  rw [hwords] at hpush
  rw [pushStatusBody, hpush, bind_ok]

/-! ## Transfers in Supervisor mode: RTI, MML and MMS -/

theorem popsTo_started (s : State) (len : Nat) : PopsTo s 0 (s.started len) :=
  (PopsTo.refl s).congr rfl rfl rfl rfl rfl rfl rfl rfl rfl

theorem PopsTo.supervisor {s t : State} {n : Nat} (h : PopsTo s n t) : t.supervisor = s.supervisor := by
  rw [State.supervisor, h.ps]; rfl

/-- A pop in Supervisor mode moves SSP alone. -/
theorem PopsTo.pop_supervisor {s t : State} {n : Nat} (hs : s.supervisor = true) (h : PopsTo s n t)
    (hc : s.checkSized .read .word (s.sp + BitVec.ofNat 16 (2 * n)) = none) :
    ∃ v t', Machine.pop t = .ok v t' ∧ PopsTo s (n + 1) t' ∧
      t' = { t with
        ssp := s.ssp + BitVec.ofNat 16 (2 * (n + 1)), mem := t'.mem, bus := t'.bus, freeCount := t'.freeCount } ∧
      (s.quiet → s.plainFrom s.ssp (2 * (n + 1)) → v = s.wordAt (s.ssp + BitVec.ofNat 16 (2 * n))) := by
  obtain ⟨v, t', hpop, ht', honly, hv⟩ := h.pop hc
  rw [ssp_setSp_supervisor t _ (h.supervisor.trans hs)] at honly
  rw [sp_of_supervisor s hs] at honly hv
  exact ⟨v, t', hpop, ht', honly, hv⟩

/-- Settles O50: two pops in Supervisor mode. -/
theorem rti_returnFromInterrupt : Obligations.ReturnFromInterrupt := by
  intro s hs h
  obtain ⟨v, t, hpop, ht, hframe, hv⟩ := (popsTo_started s 1).pop_supervisor hs (h 0 (by decide))
  obtain ⟨w, u, hpop', hu, hframe', hw⟩ := ht.pop_supervisor hs (h 1 (by decide))
  have hbody : Machine.returnFromInterrupt (s.started 1) = .ok () { u with pc := v, ps := w &&& 0xF1FF } := by
    rw [Machine.returnFromInterrupt, hpop, bind_ok, hpop', bind_ok]
  refine ⟨_, runBody_ok ((privileged_supervisor (s := s.started 1) hs).trans hbody), ?_, hu.memory, fun hq hp => ?_⟩
  · rw [hframe', hframe]; rfl
  · have hv' := hv hq (plainFrom_of_le hp (by decide))
    exact ⟨by simpa using hv', congrArg (· &&& 0xF1FF) (hw hq hp)⟩

theorem quiet_enter {s : State} (h : s.quiet) (i : Interrupt) : (s.enter i).quiet := (bus_enter i s).trans h

/-- Settles O51: RTI pops the two words the entry pushed. -/
theorem returnUndoesEntry : Obligations.ReturnUndoesEntry := by
  intro i savedPc s t hnext hq hwf hram
  have hentered := takeInterrupt_next_enteredHandler hnext
  obtain ⟨hpush, -⟩ := interruptible_of_next hnext
  have hps : t.ps = (s.enter i).ps := by
    rw [hentered.only, ← entryPs_eq_entryStatus]; cases i <;> rfl
  have hsup : t.supervisor = true := by
    rw [State.supervisor, hps]; exact enter_supervisor i s
  have hssp : t.ssp = s.ssp - 4 := by rw [hentered.only]
  have hsp : t.sp = (s.enter i).sp - BitVec.ofNat 16 (2 * 2) := by
    rw [sp_of_supervisor t hsup, hssp, sp_enter]; rfl
  have hframe : Stores (s.ssp - 4) ([savedPc, s.ps].flatMap bytesOfWord) (s.enter i) t := hentered.frame
  have hpop := poppable_of_pushable hsp (hframe.checkSized hps) hpush
  have hbacking : ∀ pa, t.backing pa = (s.enter i).backing pa := fun pa => by
    rw [backing_enter]
    exact backing_of_eq (by rw [hentered.only]) (by rw [hentered.only]) pa
  have hq' := quiet_enter hq i
  have hwf' : Mem.wf (s.enter i).mem = true := by rw [mem_enter]; exact hwf
  have hwords := fun {k w} => hframe.wordAt (k := k) (w := w) hps hbacking hq' hwf' hram
  obtain ⟨u, hexec, honly, -, hvalues⟩ := rti_returnFromInterrupt t hsup hpop
  have hplain : t.plainFrom t.ssp 4 := fun k hk => by
    rw [hframe.translate hps, hbacking, hssp, hram k hk]; decide
  obtain ⟨hpc, hstatus⟩ := hvalues (hframe.quiet hq') hplain
  have hfirst : t.wordAt t.ssp = savedPc := by
    rw [hssp]; simpa using hwords (k := 0) rfl
  have hsecond : t.wordAt (t.ssp + 2) = s.ps := by
    rw [hssp]; exact hwords (k := 1) rfl
  refine ⟨u, hexec, hpc.trans hfirst, by rw [hstatus, hsecond], ?_, ?_, ?_, ?_⟩
  · have hssp' : u.ssp = t.ssp + 4 := by rw [honly]
    rw [hssp', hssp]; exact BitVec.sub_add_cancel ..
  · rw [honly]; show t.usp = _; rw [hentered.only]
  · rw [honly]; show t.regs = _; rw [hentered.only]
  · rw [honly]; show t.fl = _; rw [hentered.only]

/-- Settles O45: the pushes and pops of the half bit 0 of Rv selects. -/
theorem mmuCacheHalves : Obligations.MmuCacheHalves := by
  intro rv s hs
  refine ⟨fun h => ?_, fun h => ?_⟩
  · have hhalf : (if (s.reg rv).getLsbD 0 then s.mmuS.toList else s.mmuU.toList) =
        ((s.started 1).mmuHalf (((s.started 1).reg rv).getLsbD 0)).toList := by
      rw [State.mmuHalf]
      exact (apply_ite Vector.toList _ _ _).symm
    have hlength : (if (s.reg rv).getLsbD 0 then s.mmuS.toList else s.mmuU.toList).length = 4 := by
      rw [hhalf, Vector.length_toList]
    obtain ⟨t, hpush, hpushed⟩ :=
      pushAll_pushed (words := if (s.reg rv).getLsbD 0 then s.mmuS.toList else s.mmuU.toList)
      (by rw [hlength]; decide) (by rw [hlength]; exact h) 1
    rw [hhalf] at hpush
    exact ⟨t, runBody_ok ((privileged_supervisor (s := s.started 1) hs).trans hpush), hpushed⟩
  · obtain ⟨v3, s1, hpop1, hs1, hframe1, hv3⟩ := (popsTo_started s 1).pop_supervisor hs (h 0 (by decide))
    obtain ⟨v2, s2, hpop2, hs2, hframe2, hv2⟩ := hs1.pop_supervisor hs (h 1 (by decide))
    obtain ⟨v1, s3, hpop3, hs3, hframe3, hv1⟩ := hs2.pop_supervisor hs (h 2 (by decide))
    obtain ⟨v0, s4, hpop4, hs4, hframe4, hv0⟩ := hs3.pop_supervisor hs (h 3 (by decide))
    have hframe : s4 = { s with
        pc := s.pc + 2, ssp := s.ssp + 8, mem := s4.mem, bus := s4.bus, freeCount := s4.freeCount } := by
      rw [hframe4, hframe3, hframe2, hframe1]; rfl
    have hrv : s4.reg rv = s.reg rv := by rw [hframe]; rfl
    have hbody : mmsBody rv (s.started 1) = .ok () (s4.setMmuHalf ((s.reg rv).getLsbD 0) #v[v0, v1, v2, v3]) := by
      rw [mmsBody, hpop1, bind_ok, hpop2, bind_ok, hpop3, bind_ok, hpop4, bind_ok, hrv]
    refine ⟨_, runBody_ok ((privileged_supervisor (s := s.started 1) hs).trans hbody), ?_⟩
    have hvalues : s.quiet → s.plainFrom s.ssp 8 → ∀ k : Fin 4,
        (#v[v0, v1, v2, v3] : Vector Word 4)[k] =
          s.wordAt (s.ssp + BitVec.ofNat 16 (6 - 2 * k.val)) := fun hq hp k => by
      have h3 := hv3 hq (plainFrom_of_le hp (by decide))
      have h2 := hv2 hq (plainFrom_of_le hp (by decide))
      have h1 := hv1 hq (plainFrom_of_le hp (by decide))
      match k with
      | 0 => exact hv0 hq hp
      | 1 => exact h1
      | 2 => exact h2
      | 3 => exact h3
    cases (s.reg rv).getLsbD 0 with
    | true => exact ⟨by rw [State.setMmuHalf, hframe]; rfl, by rw [hframe]; rfl, hs4.memory, hvalues⟩
    | false => exact ⟨by rw [State.setMmuHalf, hframe]; rfl, by rw [hframe]; rfl, hs4.memory, hvalues⟩

end Sys2Proof.Machine

/-! POP of processor registers (spec/47_stack.md R254, R255, D13): pops that do not move the stack pointer in force,
said once for both modes; then the pops of USP and SP that end the instruction. -/

namespace Sys2Proof.Machine

/-! ## Registers that pops load -/

/-- The processor registers that are the stack pointer in force. -/
def movesStack (s : State) : ProcReg → Bool
  | .sp => true
  | .usp => !s.supervisor
  | _ => false

theorem proc_setProc_self (s : State) {p : ProcReg} (v : Word) : (s.setProc p v).proc p = v := by
  cases p with
  | sp => exact sp_setSp s v
  | _ => rfl

/-- A register that is not the stack pointer in force, or PS, written beside another one. -/
theorem proc_setProc_ne {s : State} {p q : ProcReg} (hp : movesStack s p = false) (hps : p ≠ .ps) (hne : q ≠ p)
    (v : Word) : (s.setProc p v).proc q = s.proc q := by
  cases p with
  | sp => cases hp
  | ps => exact absurd rfl hps
  | usp =>
    have hs : s.supervisor = true := by simpa [movesStack] using hp
    cases q with
    | usp => exact absurd rfl hne
    | sp => exact (sp_of_supervisor (s.setProc .usp v) hs).trans (sp_of_supervisor s hs).symm
    | _ => rfl
  | _ =>
    cases q with
    | fl | pc | ps | p2 | ii | ia => simp_all [State.setProc, State.proc]
    | usp | sp => rfl

theorem PopsTo.setProc {s t : State} {n : Nat} (h : PopsTo s n t) {p : ProcReg} (hp : movesStack s p = false)
    (hps : p ≠ .ps) (v : Word) : PopsTo s n (t.setProc p v) := by
  have hmoves : movesStack t p = false := by
    cases p with
    | usp => rw [movesStack, h.supervisor]; exact hp
    | _ => exact hp
  cases p with
  | sp => cases hp
  | ps => exact absurd rfl hps
  | _ => exact h.congr rfl rfl rfl rfl rfl (proc_setProc_ne (q := .sp) hmoves hps (by decide) v) rfl rfl rfl

/-- `u` is `t` but for the processor registers, PS apart, and what reads of memory change. -/
def StatusFrame (t u : State) : Prop :=
  u = { t with
    fl := u.fl, pc := u.pc, p2 := u.p2, ii := u.ii, ia := u.ia, usp := u.usp, ssp := u.ssp, mem := u.mem, bus := u.bus,
    freeCount := u.freeCount }

theorem StatusFrame.trans {s t u : State} (h : StatusFrame s t) (g : StatusFrame t u) : StatusFrame s u := by
  rw [StatusFrame, h] at g
  exact g

theorem statusFrame_setProc (t : State) {p : ProcReg} (hps : p ≠ .ps) (v : Word) : StatusFrame t (t.setProc p v) := by
  cases p with
  | sp => show StatusFrame t (t.setSp v); rw [StatusFrame, State.setSp]; split <;> rfl
  | ps => exact absurd rfl hps
  | _ => rfl

/-- The words popped into the processor registers `L`, when `n` words of `s` were popped before: `held` is the PS that
an earlier pop held, `held'` the one held now. -/
structure ProcsPopped (s : State) (n : Nat) (L : List ProcReg) (held : Option Word) (t u : State)
    (held' : Option Word) : Prop where
  frame : StatusFrame t u
  user : s.supervisor = false → u.ssp = t.ssp
  others : ∀ q, q ∉ L → movesStack s q = false → u.proc q = t.proc q
  kept : .ps ∉ L → held' = held
  values : s.quiet → s.plainFrom s.sp (2 * (n + L.length)) →
    ∀ k p, L[k]? = some p → p ≠ .ps → u.proc p = s.wordAt (s.sp + BitVec.ofNat 16 (2 * (n + k)))
  status : s.quiet → s.plainFrom s.sp (2 * (n + L.length)) →
    ∀ k, L[k]? = some .ps → held' = some (s.wordAt (s.sp + BitVec.ofNat 16 (2 * (n + k))))

theorem ProcsPopped.nil {s t : State} {n : Nat} {held : Option Word} : ProcsPopped s n [] held t t held :=
  ⟨rfl, fun _ => rfl, fun _ _ _ => rfl, fun _ => rfl, fun _ _ k p hk => by simp at hk, fun _ _ k hk => by simp at hk⟩

/-- A register loaded before the others. -/
theorem ProcsPopped.cons {s t t' u : State} {n : Nat} {p : ProcReg} {rest : List ProcReg}
    {held held' held1 : Option Word}
    (h : ProcsPopped s (n + 1) rest held1 t' u held') (hp : p ∉ rest) (hmoves : movesStack s p = false)
    (hframe : StatusFrame t t') (huser : s.supervisor = false → t'.ssp = t.ssp)
    (hothers : ∀ q, q ≠ p → movesStack s q = false → t'.proc q = t.proc q) (hkept : p ≠ .ps → held1 = held)
    (hvalue : s.quiet → s.plainFrom s.sp (2 * (n + 1)) →
      if p = .ps then held1 = some (s.wordAt (s.sp + BitVec.ofNat 16 (2 * n)))
      else t'.proc p = s.wordAt (s.sp + BitVec.ofNat 16 (2 * n))) :
    ProcsPopped s n (p :: rest) held t u held' := by
  have hlength : n + 1 + rest.length = n + (p :: rest).length := by rw [List.length_cons]; omega
  have hvalues := h.values
  have hstatus := h.status
  rw [hlength] at hvalues hstatus
  have hshift : ∀ k, 2 * (n + 1 + k) = 2 * (n + (k + 1)) := fun k => by omega
  refine ⟨hframe.trans h.frame, fun hs => (h.user hs).trans (huser hs), fun q hq hm => ?_, fun hps => ?_,
    fun hq hpl k x hk hx => ?_, fun hq hpl k hk => ?_⟩
  · obtain ⟨hqp, hqrest⟩ := not_or.mp (mt List.mem_cons.mpr hq)
    exact (h.others q hqrest hm).trans (hothers q hqp hm)
  · obtain ⟨hpsp, hpsrest⟩ := not_or.mp (mt List.mem_cons.mpr hps)
    exact (h.kept hpsrest).trans (hkept (Ne.symm hpsp))
  · cases k with
    | zero =>
      obtain rfl : p = x := Option.some.inj hk
      have hv := hvalue hq (plainFrom_of_le hpl (by rw [List.length_cons]; omega))
      rw [if_neg hx] at hv
      exact (h.others p hp hmoves).trans hv
    | succ k => rw [hvalues hq hpl k x hk hx, hshift]
  · cases k with
    | zero =>
      obtain rfl : p = .ps := Option.some.inj hk
      have hv := hvalue hq (plainFrom_of_le hpl (by rw [List.length_cons]; omega))
      rw [if_pos rfl] at hv
      exact (h.kept hp).trans hv
    | succ k => rw [hstatus hq hpl k hk, hshift]

/-- Pops into registers that are not the stack pointer in force, all of which are allowed. -/
theorem popProcs_popped {s : State} {L : List ProcReg} (B : List ProcReg) {n : Nat} {held : Option Word} {t : State}
    (hd : L.Nodup) (hL : ∀ p ∈ L, movesStack s p = false) (ht : PopsTo s n t) (h : s.poppable (n + L.length)) :
    ∃ held' u, popProcs (L ++ B) held t = popProcs B held' u ∧ PopsTo s (n + L.length) u ∧
      ProcsPopped s n L held t u held' := by
  induction L generalizing n t held with
  | nil => exact ⟨held, t, rfl, ht, .nil⟩
  | cons p rest ih =>
    obtain ⟨hp, hrest⟩ := List.nodup_cons.mp hd
    obtain ⟨hmoves, hL'⟩ := List.forall_mem_cons.mp hL
    have hlength : n + 1 + rest.length = n + (p :: rest).length := by rw [List.length_cons]; omega
    obtain ⟨v, t', hpop, ht', honly, hv⟩ := ht.pop (h n (by rw [← hlength]; omega))
    have hframe : StatusFrame t t' := by
      have hset := statusFrame_setProc t (p := .sp) (by decide) (s.sp + BitVec.ofNat 16 (2 * (n + 1)))
      rw [honly]
      exact hset.trans rfl
    have hssp : s.supervisor = false → t'.ssp = t.ssp := fun hs => by
      rw [honly, usp_setSp_user t _ (ht.supervisor.trans hs)]
    have hproc : ∀ q, movesStack s q = false → t'.proc q = t.proc q := fun q hq => by
      have hset : t'.proc q = (t.setSp (s.sp + BitVec.ofNat 16 (2 * (n + 1)))).proc q := by
        rw [honly]; cases q <;> rfl
      rw [hset]
      cases q with
      | sp => cases hq
      | usp =>
        have hs : s.supervisor = true := by simpa [movesStack] using hq
        rw [ssp_setSp_supervisor t _ (ht.supervisor.trans hs)]; rfl
      | _ => simp [State.proc]
    by_cases hps : p = .ps
    · obtain ⟨held', u, hu, hpops, hpopped⟩ := ih (held := some v) hrest hL' ht' (by rw [hlength]; exact h)
      rw [hlength] at hpops
      refine ⟨held', u, by rw [List.cons_append, popProcs, hpop, ← hu]; exact if_pos hps, hpops, ?_⟩
      refine hpopped.cons hp hmoves hframe hssp (fun q _ hq => hproc q hq) (fun hne => absurd hps hne) fun hq hpl => ?_
      rw [if_pos hps, hv hq hpl]
    · obtain ⟨held', u, hu, hpops, hpopped⟩ :=
        ih (held := held) hrest hL' (ht'.setProc hmoves hps v) (by rw [hlength]; exact h)
      rw [hlength] at hpops
      have hmoves' : movesStack t' p = false := by
        cases p with
        | usp => rw [movesStack, ht'.supervisor]; exact hmoves
        | _ => exact hmoves
      refine ⟨held', u, by rw [List.cons_append, popProcs, hpop, ← hu]; exact if_neg hps, hpops, ?_⟩
      refine hpopped.cons hp hmoves (hframe.trans (statusFrame_setProc t' hps v)) (fun hs => ?_) (fun q hqp hq => ?_)
        (fun _ => rfl) fun hq hpl => ?_
      · refine Eq.trans ?_ (hssp hs)
        cases p with
        | sp => cases hmoves
        | _ => rfl
      · rw [proc_setProc_ne hmoves' hps hqp, hproc q hq]
      · rw [if_neg hps, proc_setProc_self, hv hq hpl]

/-- The value of a register after the pops. -/
theorem ProcsPopped.proc_eq {s t u : State} {L : List ProcReg} {held held' : Option Word}
    (h : ProcsPopped s 0 L held t u held') (hq : s.quiet) (hpl : s.plainFrom s.sp (2 * L.length)) {p : ProcReg}
    (hp : movesStack s p = false) (hps : p ≠ .ps) :
    u.proc p = if p ∈ L then s.wordAt (s.sp + BitVec.ofNat 16 (2 * L.idxOf p)) else t.proc p := by
  split
  · next hmem =>
    have hvalues := h.values hq (by rw [Nat.zero_add]; exact hpl) _ p (List.getElem?_idxOf hmem) hps
    rwa [Nat.zero_add] at hvalues
  · next hmem => exact h.others p hmem hp

/-- PS once the held word is written. -/
theorem ProcsPopped.ps_eq {s t u : State} {L : List ProcReg} {held' : Option Word}
    (h : ProcsPopped s 0 L none t u held') (hq : s.quiet) (hpl : s.plainFrom s.sp (2 * L.length)) :
    (commitPs held' u).ps = if .ps ∈ L then s.wordAt (s.sp + BitVec.ofNat 16 (2 * L.idxOf .ps)) else t.ps := by
  split
  · next hmem =>
    have hstatus := h.status hq (by rw [Nat.zero_add]; exact hpl) _ (List.getElem?_idxOf hmem)
    rw [hstatus, Nat.zero_add]
    rfl
  · next hmem =>
    rw [h.kept hmem]
    show u.ps = t.ps
    rw [h.frame]

/-! ## Supervisor mode -/

/-- The processor registers a mask names, in the order POP takes them (R254). -/
def statusOrder (mask : BitVec 8) : List ProcReg := procOrder.filter (masked mask)

theorem procOrder_nodup : procOrder.Nodup := by decide

theorem statusOrder_nodup (mask : BitVec 8) : (statusOrder mask).Nodup := procOrder_nodup.filter _

/-- SP comes last. -/
theorem statusOrder_eq (mask : BitVec 8) :
    statusOrder mask = ([.fl, .pc, .ps, .p2, .ii, .ia, .usp] : List ProcReg).filter (masked mask) ++
      if masked mask .sp then [.sp] else [] := by
  rw [statusOrder, show procOrder = [.fl, .pc, .ps, .p2, .ii, .ia, .usp] ++ [.sp] from rfl, List.filter_append,
    List.filter_singleton]
  cases masked mask .sp <;> rfl

theorem statusOrder_of_sp {mask : BitVec 8} (h : masked mask .sp = true) :
    ∃ first, statusOrder mask = first ++ [.sp] ∧ ProcReg.sp ∉ first := by
  have hlast := statusOrder_eq mask
  rw [h, if_pos rfl] at hlast
  exact ⟨_, hlast, fun hmem => absurd (List.mem_filter.mp hmem).1 (by decide)⟩

/-- A pop that is not the last one is not SP's. -/
theorem sp_not_mem_take {mask : BitVec 8} {n : Nat} (h : n < (statusOrder mask).length ∨ masked mask .sp = false) :
    ProcReg.sp ∉ (statusOrder mask).take n := by
  have hfirst : ProcReg.sp ∉ ([.fl, .pc, .ps, .p2, .ii, .ia, .usp] : List ProcReg).filter (masked mask) := fun hmem =>
    absurd (List.mem_filter.mp hmem).1 (by decide)
  rw [statusOrder_eq] at h ⊢
  cases hsp : masked mask .sp with
  | false =>
    rw [if_neg (by decide), List.append_nil]
    exact fun hmem => hfirst (List.mem_of_mem_take hmem)
  | true =>
    rw [hsp, if_pos rfl, List.length_append, List.length_singleton] at h
    have hn := h.resolve_right (by decide)
    rw [if_pos rfl, List.take_append_of_le_length (by omega)]
    exact fun hmem => hfirst (List.mem_of_mem_take hmem)

theorem maskProcs_supervisor {s : State} (hs : s.supervisor = true) (mask : BitVec 8) :
    maskProcs mask s = statusOrder mask := by
  simp only [maskProcs, statusOrder, procAllowed, hs, Bool.true_or, Bool.and_true]

/-- The word popped into `p` by the first `n` pops of `order`, or the old one. -/
def poppedWord (s : State) (order : List ProcReg) (n : Nat) (p : ProcReg) (old : Word) : Word :=
  if p ∈ order.take n then s.wordAt (s.ssp + BitVec.ofNat 16 (2 * order.idxOf p)) else old

/-- What the first `n` pops of `order` leave in Supervisor mode, PS written. -/
structure StatusPopped (s : State) (order : List ProcReg) (n : Nat) (w : State) : Prop where
  frame : w = { s with
    fl := w.fl, pc := w.pc, ps := w.ps, p2 := w.p2, ii := w.ii, ia := w.ia, usp := w.usp,
    ssp := s.ssp + BitVec.ofNat 16 (2 * n), mem := w.mem, bus := w.bus, freeCount := w.freeCount }
  memory : s.quiet → sameMemory s w
  values : s.quiet → s.plainFrom s.ssp (2 * n) →
    w.fl = poppedWord s order n .fl s.fl ∧ w.pc = poppedWord s order n .pc (s.pc + 2) ∧
    w.ps = poppedWord s order n .ps s.ps ∧ w.p2 = poppedWord s order n .p2 s.p2 ∧
    w.ii = poppedWord s order n .ii s.ii ∧ w.ia = poppedWord s order n .ia s.ia ∧
    w.usp = poppedWord s order n .usp s.usp

theorem commitPs_eq (held : Option Word) (s : State) : commitPs held s = { s with ps := (commitPs held s).ps } := by
  cases held <;> rfl

/-- The first `n` pops of POP in Supervisor mode, none of which is SP's. -/
theorem popProcs_statusPopped {mask : BitVec 8} {s : State} {n : Nat} (hs : s.supervisor = true)
    (hn : n ≤ (statusOrder mask).length) (hsp : ProcReg.sp ∉ (statusOrder mask).take n) (h : s.poppable n) :
    ∃ held u, popProcs (statusOrder mask) none (s.started 1) = popProcs ((statusOrder mask).drop n) held u ∧
      PopsTo s n u ∧ StatusPopped s (statusOrder mask) n (commitPs held u) := by
  have hlength : ((statusOrder mask).take n).length = n := List.length_take_of_le hn
  have hmoves : ∀ p, p ≠ .sp → movesStack s p = false := fun p hp => by
    cases p with
    | sp => exact absurd rfl hp
    | usp => rw [movesStack, hs]; rfl
    | _ => rfl
  obtain ⟨held, u, hpop, hpops, hpopped⟩ := popProcs_popped ((statusOrder mask).drop n) (held := none)
    ((statusOrder_nodup mask).take (i := n)) (fun p hp => hmoves p fun he => hsp (he ▸ hp)) (popsTo_started s 1)
    (by rw [Nat.zero_add, hlength]; exact h)
  rw [List.take_append_drop] at hpop
  rw [Nat.zero_add, hlength] at hpops
  have hssp : u.ssp = s.ssp + BitVec.ofNat 16 (2 * n) := by
    rw [← sp_of_supervisor u (hpops.supervisor.trans hs), ← sp_of_supervisor s hs]; exact hpops.sp
  have hcommit := commitPs_eq held u
  have hframe := hpopped.frame
  refine ⟨held, u, hpop, hpops, ⟨?_, fun hq => ?_, fun hq hpl => ?_⟩⟩
  · rw [hcommit, ← hssp]
    exact congrArg (fun x : State => { x with ps := (commitPs held u).ps }) hframe
  · rw [hcommit]; exact hpops.memory hq
  · have hpl' : s.plainFrom s.sp (2 * ((statusOrder mask).take n).length) := by
      rw [hlength, sp_of_supervisor s hs]; exact hpl
    have hidx : ∀ p, p ∈ (statusOrder mask).take n → ((statusOrder mask).take n).idxOf p = (statusOrder mask).idxOf p :=
      fun p hp => by
        conv_rhs => rw [← List.take_append_drop n (statusOrder mask)]
        exact (List.idxOf_append_of_mem hp).symm
    have hproc : ∀ p, p ≠ .sp → p ≠ .ps →
        u.proc p = poppedWord s (statusOrder mask) n p ((s.started 1).proc p) := fun p hp hps => by
      rw [hpopped.proc_eq hq hpl' (hmoves p hp) hps, poppedWord, sp_of_supervisor s hs]
      split
      · next hmem => rw [hidx p hmem]
      · rfl
    have hps : (commitPs held u).ps = poppedWord s (statusOrder mask) n .ps s.ps := by
      rw [hpopped.ps_eq hq hpl', poppedWord, sp_of_supervisor s hs]
      split
      · next hmem => rw [hidx .ps hmem]
      · rfl
    rw [hcommit]
    exact ⟨hproc .fl (by decide) (by decide), hproc .pc (by decide) (by decide), hps, hproc .p2 (by decide) (by decide),
      hproc .ii (by decide) (by decide), hproc .ia (by decide) (by decide), hproc .usp (by decide) (by decide)⟩

/-- POP of processor registers in Supervisor mode ends with its pops. -/
theorem popStatusBody_supervisor {mask : BitVec 8} {s : State} (hs : s.supervisor = true) {x : Res Unit}
    (h : popProcs (statusOrder mask) none (s.started 1) = x) :
    popStatusBody mask (s.started 1) = x.bind fun _ t => .ok () t := by
  rw [popStatusBody, maskProcs_supervisor (s := s.started 1) hs, namesForbidden_supervisor (s := s.started 1) hs, h]
  rfl

/-- Settles O38: the pops before SP's, `popProcs_statusPopped`, and SP's. -/
theorem popStatusSupervisor : Obligations.PopStatusSupervisor := by
  intro mask s hs order popped h
  have horder : order = statusOrder mask := rfl
  have hword : ∀ n, (∀ p, p ≠ .sp → (p ∈ order.take n ↔ p ∈ order)) → ∀ p old, p ≠ .sp →
      poppedWord s (statusOrder mask) n p old = popped p old := fun n hn p old hp => by
    simp only [poppedWord, popped, ← horder, hn p hp]
  cases hsp : masked mask .sp with
  | false =>
    obtain ⟨held, u, hpop, hpops, hframe, hmem, hvalues⟩ :=
      popProcs_statusPopped hs (Nat.le_refl _) (sp_not_mem_take (.inr hsp)) h
    have hnot : ProcReg.sp ∉ order := fun hmem => Bool.noConfusion (hsp.symm.trans (List.mem_filter.mp hmem).2)
    rw [List.drop_length, popProcs] at hpop
    refine ⟨_, runBody_ok (popStatusBody_supervisor hs hpop), ?_, hmem, fun hq hpl => ?_⟩
    · rw [hframe]
    · obtain ⟨hfl, hpc, hps, hp2, hii, hia, husp⟩ := hvalues hq hpl
      have hw := hword order.length fun p _ => by rw [List.take_length]
      refine ⟨hfl.trans (hw .fl _ (by decide)), hpc.trans (hw .pc _ (by decide)), hps.trans (hw .ps _ (by decide)),
        hp2.trans (hw .p2 _ (by decide)), hii.trans (hw .ii _ (by decide)), hia.trans (hw .ia _ (by decide)),
        husp.trans (hw .usp _ (by decide)), ?_⟩
      refine Eq.trans ?_ (if_neg hnot).symm
      rw [hframe]
      rfl
  | true =>
    obtain ⟨first, hlast, hnot⟩ := statusOrder_of_sp hsp
    have hlength : order.length = first.length + 1 := by rw [horder, hlast, List.length_append]; rfl
    have htake : order.take first.length = first := by rw [horder, hlast, List.take_left]
    have hdrop : order.drop first.length = [.sp] := by rw [horder, hlast, List.drop_left]
    have hidx : order.idxOf .sp = first.length := by
      rw [horder, hlast, List.idxOf_append_of_notMem hnot]; rfl
    obtain ⟨held, u, hpop, hpops, hframe, hmem, hvalues⟩ :=
      popProcs_statusPopped (mask := mask) (n := first.length) hs (by rw [← horder, hlength]; exact Nat.le_succ _)
        (by rw [← horder, htake]; exact hnot) fun k hk => h k (by rw [hlength]; exact Nat.lt_succ_of_lt hk)
    obtain ⟨v, u', hlastPop, hpops', honly, hv⟩ :=
      hpops.pop_supervisor hs (h first.length (by rw [hlength]; exact Nat.lt_succ_self _))
    have hfinal : commitPs held (u'.setProc .sp v) = { commitPs held u with
        ssp := v, mem := u'.mem, bus := u'.bus, freeCount := u'.freeCount } := by
      rw [show u'.setProc .sp v =
        { u' with ssp := v } from ssp_setSp_supervisor u' v (hpops'.supervisor.trans hs), honly]
      cases held <;> rfl
    have hbody : popProcs (statusOrder mask) none (s.started 1) = .ok () (commitPs held (u'.setProc .sp v)) := by
      rw [hpop, ← horder, hdrop, popProcs, hlastPop]
      rfl
    refine ⟨_, runBody_ok (popStatusBody_supervisor hs hbody), ?_, ?_, ?_⟩
    · rw [hfinal, hframe]
    · rw [hfinal]; exact hpops'.memory
    · intro hq hpl
      obtain ⟨hfl, hpc, hps, hp2, hii, hia, husp⟩ := hvalues hq (plainFrom_of_le hpl (by rw [hlength]; omega))
      have hw := hword first.length fun p hp => by
        rw [htake, horder, hlast, List.mem_append, List.mem_singleton, or_iff_left hp]
      rw [hfinal]
      refine ⟨hfl.trans (hw .fl _ (by decide)), hpc.trans (hw .pc _ (by decide)), hps.trans (hw .ps _ (by decide)),
        hp2.trans (hw .p2 _ (by decide)), hii.trans (hw .ii _ (by decide)), hia.trans (hw .ia _ (by decide)),
        husp.trans (hw .usp _ (by decide)), ?_⟩
      refine Eq.trans ?_ (if_pos (show ProcReg.sp ∈ order by rw [horder, hlast]; simp)).symm
      rw [hidx]
      exact hv hq (by rw [← hlength]; exact hpl)

/-! ## User mode -/

/-- The processor registers a mask names that User mode transfers, but for SP, in the order POP takes them (R254,
R255). -/
def userOrder (mask : BitVec 8) : List ProcReg := ([.fl, .pc, .usp] : List ProcReg).filter (masked mask)

theorem userOrder_nodup (mask : BitVec 8) : (userOrder mask).Nodup :=
  List.Nodup.filter _ (show ([.fl, .pc, .usp] : List ProcReg).Nodup by decide)

theorem not_mem_userOrder {mask : BitVec 8} {p : ProcReg} (h : p ∉ ([.fl, .pc, .usp] : List ProcReg)) :
    p ∉ userOrder mask :=
  fun hmem => h (List.mem_filter.mp hmem).1

theorem mem_userOrder {mask : BitVec 8} {p : ProcReg} (h : p ∈ ([.fl, .pc, .usp] : List ProcReg)) :
    p ∈ userOrder mask ↔ masked mask p = true :=
  ⟨fun hmem => (List.mem_filter.mp hmem).2, fun hmem => List.mem_filter.mpr ⟨h, hmem⟩⟩

/-- USP is the last of them. -/
theorem userOrder_eq (mask : BitVec 8) :
    userOrder mask = ([.fl, .pc] : List ProcReg).filter (masked mask) ++ if masked mask .usp then [.usp] else [] := by
  rw [userOrder, show ([.fl, .pc, .usp] : List ProcReg) = [.fl, .pc] ++ [.usp] from rfl, List.filter_append,
    List.filter_singleton]
  cases masked mask .usp <;> rfl

/-- A pop that is not the last one is not USP's. -/
theorem usp_not_mem_take {mask : BitVec 8} {n : Nat} (h : n < (userOrder mask).length) :
    ProcReg.usp ∉ (userOrder mask).take n := by
  have hfirst : ProcReg.usp ∉ ([.fl, .pc] : List ProcReg).filter (masked mask) := fun hmem =>
    absurd (List.mem_filter.mp hmem).1 (by decide)
  have hlength : (if masked mask .usp then [ProcReg.usp] else []).length ≤ 1 := by split <;> decide
  rw [userOrder_eq] at h ⊢
  rw [List.length_append] at h
  rw [List.take_append_of_le_length (by omega)]
  exact fun hmem => hfirst (List.mem_of_mem_take hmem)

theorem maskProcs_user {s : State} (hs : s.supervisor = false) (mask : BitVec 8) :
    maskProcs mask s = userOrder mask ++ if masked mask .sp then [.sp] else [] := by
  have hallowed : procOrder.filter (procAllowed s) = [.fl, .pc, .usp] ++ [.sp] := by
    have hprivileged : procAllowed s = fun p => !supervisorOnly p := by
      funext p; rw [procAllowed, hs, Bool.false_or]
    rw [hprivileged]; rfl
  rw [maskProcs, ← List.filter_filter, hallowed, List.filter_append, userOrder, List.filter_singleton]
  cases masked mask .sp <;> rfl

/-- The word of the user stack that the pops of POP load into `p`. -/
def userWord (mask : BitVec 8) (s : State) (p : ProcReg) : Word :=
  s.wordAt (s.usp + BitVec.ofNat 16 (2 * (userOrder mask).idxOf p))

/-- The state after pops into `order` in User mode, with the stack pointer at `a`. -/
def userPopped (mask : BitVec 8) (s : State) (order : List ProcReg) (a : Word) : State :=
  { s with
    fl := if .fl ∈ order then userWord mask s .fl else s.fl
    pc := if .pc ∈ order then userWord mask s .pc else s.pc + 2
    usp := a }

theorem userPopped_userOrder (mask : BitVec 8) (s : State) (a : Word) :
    userPopped mask s (userOrder mask) a = { s with
      fl := if mask.getLsbD 7 then userWord mask s .fl else s.fl
      pc := if mask.getLsbD 6 then userWord mask s .pc else s.pc + 2
      usp := a } := by
  simp only [userPopped, mem_userOrder (mask := mask) (p := .fl) (by decide),
    mem_userOrder (mask := mask) (p := .pc) (by decide)]
  rfl

/-- A pop that reads plain memory. -/
theorem pop_userPopped {mask : BitVec 8} {s : State} {order : List ProcReg} {a : Word} (hs : s.supervisor = false)
    (hq : s.quiet) (hc : s.checkSized .read .word a = none) (hpl : s.plainFrom a 2) :
    pop (userPopped mask s order a) = .ok (s.wordAt a) (userPopped mask s order (a + 2)) := by
  have hsp : (userPopped mask s order a).sp = a := sp_of_user _ hs
  obtain ⟨t, hpop, -, -, hquiet⟩ := pop_value (s := userPopped mask s order a) (by rw [hsp]; exact hc)
  obtain ⟨ht, hv⟩ := hquiet hq (by rw [hsp]; exact hpl)
  have hword : (userPopped mask s order a).wordAt a = s.wordAt a := wordAt_congr rfl rfl (fun _ => rfl) fun _ => rfl
  rw [hpop, ht, hv, hsp, hword, usp_setSp_user (userPopped mask s order a) _ hs]
  rfl

/-- The first `n` pops of POP in User mode, none of which is USP's. -/
theorem popProcs_userPopped {mask : BitVec 8} {s : State} {n : Nat} (hs : s.supervisor = false) (hq : s.quiet)
    (hn : n ≤ (userOrder mask).length) (husp : ProcReg.usp ∉ (userOrder mask).take n) (h : s.poppable n)
    (hpl : s.plainFrom s.usp (2 * n)) :
    popProcs (maskProcs mask s) none (s.started 1) =
      popProcs ((userOrder mask).drop n ++ if masked mask .sp then [.sp] else []) none
        (userPopped mask s ((userOrder mask).take n) (s.usp + BitVec.ofNat 16 (2 * n))) := by
  have hlength : ((userOrder mask).take n).length = n := List.length_take_of_le hn
  have hsp : s.sp = s.usp := sp_of_user s hs
  have hnot : ∀ p, p ∉ ([.fl, .pc, .usp] : List ProcReg) → p ∉ (userOrder mask).take n := fun p hp hmem =>
    not_mem_userOrder hp (List.mem_of_mem_take hmem)
  have hmoves : ∀ p, p ∈ (userOrder mask).take n → movesStack s p = false := fun p hp => by
    cases p with
    | usp => exact absurd hp husp
    | sp => exact absurd hp (hnot .sp (by decide))
    | _ => rfl
  obtain ⟨held, u, hpop, hpops, hpopped⟩ := popProcs_popped
    ((userOrder mask).drop n ++ if masked mask .sp then [.sp] else []) (held := none)
    ((userOrder_nodup mask).take (i := n)) hmoves (popsTo_started s 1) (by rw [Nat.zero_add, hlength]; exact h)
  rw [Nat.zero_add, hlength] at hpops
  rw [← List.append_assoc, List.take_append_drop] at hpop
  have hplain : s.plainFrom s.sp (2 * ((userOrder mask).take n).length) := by rw [hlength, hsp]; exact hpl
  have hidx : ∀ p, p ∈ (userOrder mask).take n → ((userOrder mask).take n).idxOf p = (userOrder mask).idxOf p :=
    fun p hp => by
      conv_rhs => rw [← List.take_append_drop n (userOrder mask)]
      exact (List.idxOf_append_of_mem hp).symm
  have hproc : ∀ p, movesStack s p = false → p ≠ .ps → u.proc p =
      if p ∈ (userOrder mask).take n then userWord mask s p else (s.started 1).proc p := fun p hp hps => by
    rw [hpopped.proc_eq hq hplain hp hps]
    split
    · next hmem => rw [hidx p hmem, userWord, hsp]
    · rfl
  have hu : u = userPopped mask s ((userOrder mask).take n) (s.usp + BitVec.ofNat 16 (2 * n)) := by
    have hframe := hpopped.frame
    have hfl : u.fl = _ := hproc .fl rfl (by decide)
    have hpc : u.pc = _ := hproc .pc rfl (by decide)
    have hp2 : u.p2 = s.p2 := (hproc .p2 rfl (by decide)).trans (if_neg (hnot .p2 (by decide)))
    have hii : u.ii = s.ii := (hproc .ii rfl (by decide)).trans (if_neg (hnot .ii (by decide)))
    have hia : u.ia = s.ia := (hproc .ia rfl (by decide)).trans (if_neg (hnot .ia (by decide)))
    have hstack : u.usp = s.usp + BitVec.ofNat 16 (2 * n) := by
      rw [← sp_of_user u (hpops.supervisor.trans hs), ← hsp]; exact hpops.sp
    rw [StatusFrame, hfl, hpc, hp2, hii, hia, hstack, hpopped.user hs, (hpops.memory hq).1, (hpops.memory hq).2,
      hpops.drawn hq (by rw [hsp]; exact hpl)] at hframe
    exact hframe
  rw [maskProcs_user hs, hpop, hu, hpopped.kept (hnot .ps (by decide))]

/-- The pops before SP's: a popped USP is the stack pointer that SP's pop goes on from (D13). -/
theorem popProcs_userMoved {mask : BitVec 8} {s : State} (hs : s.supervisor = false) (hq : s.quiet)
    (h : s.poppable (userOrder mask).length) (hpl : s.plainFrom s.usp (2 * (userOrder mask).length)) :
    popProcs (maskProcs mask s) none (s.started 1) =
      popProcs (if masked mask .sp then [.sp] else []) none (userPopped mask s (userOrder mask)
        (if masked mask .usp then userWord mask s .usp
          else s.usp + BitVec.ofNat 16 (2 * (userOrder mask).length))) := by
  cases husp : masked mask .usp with
  | false =>
    have hnot : ProcReg.usp ∉ userOrder mask := fun hmem =>
      Bool.noConfusion (husp.symm.trans (List.mem_filter.mp hmem).2)
    rw [popProcs_userPopped hs hq (Nat.le_refl _) (by rw [List.take_length]; exact hnot) h hpl, List.take_length,
      List.drop_length]
    rfl
  | true =>
    have hlast := userOrder_eq mask
    have hfirst : ProcReg.usp ∉ ([.fl, .pc] : List ProcReg).filter (masked mask) := fun hmem =>
      absurd (List.mem_filter.mp hmem).1 (by decide)
    rw [husp, if_pos rfl] at hlast
    generalize ([.fl, .pc] : List ProcReg).filter (masked mask) = first at hlast hfirst
    have hlength : (userOrder mask).length = first.length + 1 := by rw [hlast, List.length_append]; rfl
    have hword : userWord mask s .usp = s.wordAt (s.usp + BitVec.ofNat 16 (2 * first.length)) := by
      rw [userWord, hlast, List.idxOf_append_of_notMem hfirst]; rfl
    have hmem : ∀ p, p ≠ .usp → (p ∈ first ↔ p ∈ userOrder mask) := fun p hp => by
      rw [hlast, List.mem_append, List.mem_singleton, or_iff_left hp]
    have hpopped : ∀ a, userPopped mask s first a = userPopped mask s (userOrder mask) a := fun a => by
      simp only [userPopped, hmem .fl (by decide), hmem .pc (by decide)]
    have hsp : s.sp = s.usp := sp_of_user s hs
    have hplain : s.plainFrom (s.usp + BitVec.ofNat 16 (2 * first.length)) 2 := fun k hk => by
      rw [add_ofNat_add]; exact hpl _ (by rw [hlength]; omega)
    rw [popProcs_userPopped (n := first.length) hs hq (by rw [hlength]; exact Nat.le_succ _)
      (by rw [hlast, List.take_left]; exact hfirst) (fun k hk => h k (by rw [hlength]; exact Nat.lt_succ_of_lt hk))
      (plainFrom_of_le hpl (by rw [hlength]; omega)), hlast, List.take_left, List.drop_left, ← hlast, hpopped,
      List.cons_append, List.nil_append, popProcs, pop_userPopped hs hq
        (by rw [← hsp]; exact h first.length (by rw [hlength]; exact Nat.lt_succ_self _)) hplain, if_pos rfl, hword]
    rfl

/-- Settles O39: the pops before SP's, `popProcs_userMoved`, and SP's. -/
theorem popStatusUser : Obligations.PopStatusUser := by
  intro mask s hs hq order value raised moved h hpl hlast t
  have hpopped : ∀ a, userPopped mask s (userOrder mask) a = { t with usp := a } := userPopped_userOrder mask s
  have hpop : popProcs (maskProcs mask s) none (s.started 1) = .ok () t := by
    rw [popProcs_userMoved hs hq h hpl]
    show popProcs _ none (userPopped mask s (userOrder mask) moved) = _
    cases hsp : masked mask .sp with
    | false =>
      have ht : t.usp = moved := if_neg fun hmem => Bool.noConfusion (hsp.symm.trans hmem)
      rw [if_neg (by decide), hpopped, ← ht]
      rfl
    | true =>
      obtain ⟨hc, hplain⟩ := hlast hsp
      have ht : t.usp = s.wordAt moved := if_pos hsp
      rw [if_pos rfl, popProcs, pop_userPopped hs hq hc hplain, hpopped]
      show Res.ok () ({ t with usp := moved + 2 }.setSp (s.wordAt moved)) = _
      rw [usp_setSp_user { t with usp := moved + 2 } _ hs, ← ht]
  have hbody : popStatusBody mask (s.started 1) = afterTransfers (namesForbidden mask (s.started 1)) t := by
    rw [popStatusBody, show maskProcs mask (s.started 1) = maskProcs mask s from rfl, hpop]
    rfl
  have hexec := exec_afterTransfers hbody
  simp only [hs, Bool.false_eq_true, false_or] at hexec
  exact hexec

end Sys2Proof.Machine

/-! Refused pushes and pops (spec/60_exceptions.md R287), and what they leave (spec/92_eei_decisions.md D20). -/

namespace Sys2Proof.Machine

/-! ## Pushes -/

/-- An instruction that begins with pushes, one of which is refused. -/
theorem raisesFrom_pushAll {words : List Word} {body : State → Res Unit} {s : State} {n : Nat} {f : BankFault}
    (hbody : ∀ i u, pushAll words (s.started 1) = .trap i u → body (s.started 1) = .trap i u)
    (hl : words.length ≤ 8192) (hn : n < words.length) (h : s.pushRefused n f) :
    ∃ u, PushFaulted 1 (words.take n) s u ∧ raisesFrom (.bankFault f) s.pc u (runBody 1 body s) := by
  obtain ⟨u, hpush, hfaulted⟩ := pushAll_pushFaulted hl hn h 1
  exact ⟨u, hfaulted, runBody_error rfl (hbody _ _ hpush)⟩

theorem pshGeneral_refused {mask : BitVec 8} {s : State} {n : Nat} {f : BankFault} (h : s.pushRefused n f)
    (hn : n < ((maskRegs mask).map s.reg).length) :
    ∃ u, PushFaulted 1 (((maskRegs mask).map s.reg).take n) s u ∧
      raisesFrom (.bankFault f) s.pc u (exec (.pshGeneral mask) s) := by
  have hl : ((maskRegs mask).map s.reg).length ≤ 8192 := by
    rw [List.length_map]; have := length_maskRegs_le mask; omega
  exact raisesFrom_pushAll (body := pushGeneralBody mask) (fun _ _ hpush => hpush) hl hn h

theorem pshStatus_refused {mask : BitVec 8} {s : State} {words : List Word} {n : Nat} {f : BankFault}
    (hwords : words = (maskProcs mask (s.started 1)).reverse.map (s.started 1).proc) (h : s.pushRefused n f)
    (hn : n < words.length) :
    ∃ u, PushFaulted 1 (words.take n) s u ∧ raisesFrom (.bankFault f) s.pc u (exec (.pshStatus mask) s) := by
  have hl : words.length ≤ 8192 := by
    rw [hwords, List.length_map, List.length_reverse]
    have := length_maskProcs_le mask (s.started 1); omega
  refine raisesFrom_pushAll (body := pushStatusBody mask) (fun i u hpush => ?_) hl hn h
  rw [hwords] at hpush
  rw [pushStatusBody, hpush]
  rfl

theorem mml_refused {rv : Reg} {s : State} {n : Nat} {f : BankFault} (hs : s.supervisor = true)
    (h : s.pushRefused n f) (hn : n < (s.mmuHalf ((s.reg rv).getLsbD 0)).toList.length) :
    ∃ u, PushFaulted 1 ((s.mmuHalf ((s.reg rv).getLsbD 0)).toList.take n) s u ∧
      raisesFrom (.bankFault f) s.pc u (exec (.mml rv) s) := by
  have hl : (s.mmuHalf ((s.reg rv).getLsbD 0)).toList.length ≤ 8192 := by rw [Vector.length_toList]; decide
  exact raisesFrom_pushAll (body := privileged (mmlBody rv))
    (fun _ _ hpush => (privileged_supervisor (s := s.started 1) hs).trans hpush) hl hn h

/-- A push that is refused in a state with the stack pointer and the mapping of `s`. -/
theorem push_refused {s t : State} {f : BankFault} (h : s.pushRefused 0 f) (hps : t.ps = s.ps) (hU : t.mmuU = s.mmuU)
    (hS : t.mmuS = s.mmuS) (hsp : t.sp = s.sp) (v : Word) : push v t = .trap (.bankFault f) (t.setSp (s.sp - 2)) := by
  have hc : t.checkSized .write .word (t.sp - 2) = some f := by
    rw [checkSized_congr hps hU hS, hsp]; exact h.2
  rcases push_cases v t with ⟨g, hg, hpush⟩ | ⟨hnone, -⟩
  · rw [hc] at hg
    rw [hpush, ← Option.some.inj hg, hsp]
  · rw [hc] at hnone; cases hnone

/-- The stack pointer written after a read of an operand. -/
theorem setSp_of_only {s t : State}
    (h : t = { s with regs := t.regs, mem := t.mem, bus := t.bus, freeCount := t.freeCount }) (x : Word) :
    t.setSp x = { s.setSp x with regs := t.regs, mem := t.mem, bus := t.bus, freeCount := t.freeCount } := by
  have ht : t.supervisor = s.supervisor := by rw [h]; rfl
  cases hs : s.supervisor with
  | true =>
    rw [ssp_setSp_supervisor s x hs, ssp_setSp_supervisor t x (ht.trans hs)]
    exact congrArg (fun y : State => { y with ssp := x }) h
  | false =>
    rw [usp_setSp_user s x hs, usp_setSp_user t x (ht.trans hs)]
    exact congrArg (fun y : State => { y with usp := x }) h

theorem sameMemory_setSp {s t : State} {x : Word} (h : sameMemory s t) : sameMemory s (t.setSp x) :=
  ⟨(mem_setSp t x).trans h.1, (bus_setSp t x).trans h.2⟩

/-- The operand of a near jump may be read, the push after it is refused. -/
theorem callNear_refused {m : JmpOperand} {s : State} {f : BankFault} (hread : nearReadable m s)
    (h : s.pushRefused 0 f) :
    ∃ u, u = { (s.started (nearWords m)).setSp (s.sp - 2) with
        regs := nearRegs m s, mem := u.mem, bus := u.bus, freeCount := u.freeCount } ∧
      (s.quiet ∨ nearInMemory m = false → sameMemory s u) ∧
      callNear m (s.started (nearWords m)) = .trap (.bankFault f) u := by
  obtain ⟨t, hvalue, honly, hmem⟩ := readNear_value (s := s.started (nearWords m)) hread
  have hregs : t.regs = nearRegs m s := by rw [honly]; cases m <;> rfl
  have hpush := push_refused (t := t) h (by rw [honly]; rfl) (by rw [honly]; rfl) (by rw [honly]; rfl)
    (by rw [honly]; rfl) t.pc
  refine ⟨t.setSp (s.sp - 2), ?_, fun hq => sameMemory_setSp (hmem hq), ?_⟩
  · rw [mem_setSp, bus_setSp, freeCount_setSp, ← hregs]
    exact setSp_of_only (by rw [hregs]; exact honly) (s.sp - 2)
  · rw [callNear, hvalue, bind_ok, hpush]; rfl

/-- JSR whose push is refused: the base of its operand has moved. -/
theorem jsr_refused {m : JmpOperand} {s : State} {f : BankFault} (hread : nearReadable m s) (h : s.pushRefused 0 f) :
    ∃ u, u = { (s.started (encode (.jsr m)).length).setSp (s.sp - 2) with
        regs := nearRegs m s, mem := u.mem, bus := u.bus, freeCount := u.freeCount } ∧
      (s.quiet ∨ nearInMemory m = false → sameMemory s u) ∧ raisesFrom (.bankFault f) s.pc u (exec (.jsr m) s) := by
  obtain ⟨u, honly, hmem, hbody⟩ := callNear_refused hread h
  rw [show (encode (.jsr m)).length = nearWords m from (Nat.add_comm ..).symm]
  exact ⟨u, honly, hmem, runBody_error rfl hbody⟩

/-- Both words of the operand of a far jump may be read, the push after them is refused. -/
theorem callFar_refused {m : FarOperand} {s : State} {f : BankFault} (hs : s.supervisor = true)
    (hread : farReadable m s) (h : s.pushRefused 0 f) :
    ∃ u, u = { s.started (farWords m) with
        ssp := s.ssp - 2, regs := farRegs m s, mem := u.mem, bus := u.bus, freeCount := u.freeCount } ∧
      (s.quiet ∨ farInMemory m = false → sameMemory s u) ∧
      callFar m (s.started (farWords m)) = .trap (.bankFault f) u := by
  obtain ⟨t, hvalue, honly, hmem⟩ := readFar_value (s := s.started (farWords m)) hread
  have hregs : t.regs = farRegs m s := by rw [honly]; cases m <;> rfl
  have hpush := push_refused (t := t) h (by rw [honly]; rfl) (by rw [honly]; rfl) (by rw [honly]; rfl)
    (by rw [honly]; rfl) t.pc
  refine ⟨t.setSp (s.sp - 2), ?_, fun hq => sameMemory_setSp (hmem hq), ?_⟩
  · rw [mem_setSp, bus_setSp, freeCount_setSp, ← hregs, sp_of_supervisor s hs]
    refine (setSp_of_only (by rw [hregs]; exact honly) (s.ssp - 2)).trans ?_
    rw [ssp_setSp_supervisor (s.started (farWords m)) _ hs]
  · rw [callFar, privileged_supervisor (s := s.started (farWords m)) hs, hvalue, bind_ok, hpush]; rfl

/-- JSR.F whose push is refused: PC and the mapping are as before. -/
theorem jsrF_refused {m : FarOperand} {s : State} {f : BankFault} (hs : s.supervisor = true) (hread : farReadable m s)
    (h : s.pushRefused 0 f) :
    ∃ u, u = { s.started (encode (.jsrF m)).length with
        ssp := s.ssp - 2, regs := farRegs m s, mem := u.mem, bus := u.bus, freeCount := u.freeCount } ∧
      (s.quiet ∨ farInMemory m = false → sameMemory s u) ∧ raisesFrom (.bankFault f) s.pc u (exec (.jsrF m) s) := by
  obtain ⟨u, honly, hmem, hbody⟩ := callFar_refused hs hread h
  rw [show (encode (.jsrF m)).length = farWords m from (Nat.add_comm ..).symm]
  exact ⟨u, honly, hmem, runBody_error rfl hbody⟩

/-! ## Pops -/

/-- The first `n` things that a body does are pops. -/
inductive PopsFirst : Nat → (State → Res Unit) → Prop
  | zero (body : State → Res Unit) : PopsFirst 0 body
  | succ {n : Nat} {rest : Word → State → Res Unit} (h : ∀ v, PopsFirst n (rest v)) :
    PopsFirst (n + 1) fun s => (pop s).bind rest

theorem popsFirst_rts : PopsFirst 1 fun t => (pop t).bind fun v s1 => .ok () (s1.setPc v) :=
  .succ fun _ => .zero _

theorem popsFirst_returnFromInterrupt : PopsFirst 2 returnFromInterrupt := .succ fun _ => .succ fun _ => .zero _

theorem popsFirst_mmsBody (rv : Reg) : PopsFirst 4 (mmsBody rv) :=
  .succ fun _ => .succ fun _ => .succ fun _ => .succ fun _ => .zero _

/-- A state that only pops have changed. -/
def PoppedOnly (s : State) (n : Nat) (t : State) : Prop :=
  t = { (s.started 1).setSp (s.sp + BitVec.ofNat 16 (2 * n)) with mem := t.mem, bus := t.bus, freeCount := t.freeCount }

theorem poppedOnly_started (s : State) : PoppedOnly s 0 (s.started 1) := by
  rw [PoppedOnly, Nat.mul_zero, BitVec.add_zero, show s.sp = (s.started 1).sp from rfl, setSp_sp]

theorem PoppedOnly.pop {s t t' : State} {n : Nat} (h : PoppedOnly s n t)
    (honly : t' = { t.setSp (s.sp + BitVec.ofNat 16 (2 * (n + 1))) with
      mem := t'.mem, bus := t'.bus, freeCount := t'.freeCount }) : PoppedOnly s (n + 1) t' := by
  have hregs : t.regs = ((s.started 1).setSp (s.sp + BitVec.ofNat 16 (2 * n))).regs := by rw [h]
  have hset := setSp_of_only (t := t) (by rw [hregs]; exact h) (s.sp + BitVec.ofNat 16 (2 * (n + 1)))
  rw [setSp_setSp, hregs, regs_setSp, ← regs_setSp (s.started 1) (s.sp + BitVec.ofNat 16 (2 * (n + 1)))] at hset
  rw [hset] at honly
  exact honly

/-- Pops alone, when the pop after the first `n` of them is refused. -/
theorem PopsFirst.refused {s t : State} {m n k : Nat} {f : BankFault} {body : State → Res Unit}
    (hbody : PopsFirst m body)
    (ht : PopsTo s k t) (hframe : PoppedOnly s k t) (hkn : k ≤ n) (hn : n < k + m) (h : s.popRefused n f) :
    ∃ u, body t = .trap (.bankFault f) u ∧ Reads ((s.started 1).setSp (s.sp + BitVec.ofNat 16 (2 * n))) u := by
  induction hbody generalizing k t with
  | zero body => omega
  | @succ m rest _ ih =>
    rcases Nat.eq_or_lt_of_le hkn with rfl | hlt
    · refine ⟨t, congrArg (Res.bind · rest) (ht.pop_fault h.2), hframe, fun hq => ?_⟩
      rw [State.quiet, bus_setSp] at hq
      rw [sameMemory, mem_setSp, bus_setSp]
      exact ht.memory hq
    · obtain ⟨v, t', hpop, ht', honly, -⟩ := ht.pop (h.1 k hlt)
      obtain ⟨u, hu, hreads⟩ := ih v ht' (hframe.pop honly) hlt (by omega)
      exact ⟨u, (congrArg (Res.bind · rest) hpop).trans hu, hreads⟩

/-- An instruction that begins with pops, one of which is refused. -/
theorem raisesFrom_popsFirst {body : State → Res Unit} {s : State} {m n : Nat} {f : BankFault}
    (hbody : PopsFirst m body)
    (hn : n < m) (h : s.popRefused n f) :
    ∃ u, Reads ((s.started 1).setSp (s.sp + BitVec.ofNat 16 (2 * n))) u ∧
      raisesFrom (.bankFault f) s.pc u (runBody 1 body s) := by
  obtain ⟨u, hu, hreads⟩ :=
    hbody.refused (popsTo_started s 1) (poppedOnly_started s) (Nat.zero_le n) (by rw [Nat.zero_add]; exact hn) h
  exact ⟨u, hreads, runBody_error rfl hu⟩

theorem runBody_privileged {body : State → Res Unit} {s : State} (hs : s.supervisor = true) :
    runBody 1 (privileged body) s = runBody 1 body s := by
  rw [runBody, runBody, privileged_supervisor (s := s.setPc (s.pc + BitVec.ofNat 16 (2 * 1))) hs]

theorem popGeneral_refused {mask : BitVec 8} {s : State} {n : Nat} {f : BankFault} (h : s.popRefused n f)
    (hn : n < (maskRegs mask).reverse.length) :
    ∃ u, Reads { (s.started 1).setSp (s.sp + BitVec.ofNat 16 (2 * n)) with regs := u.regs } u ∧
      (∀ r, r ∉ (maskRegs mask).reverse.take n → u.reg r = s.reg r) ∧
      (s.quiet → s.plainFrom s.sp (2 * n) → ∀ k r, ((maskRegs mask).reverse.take n)[k]? = some r →
        u.reg r = s.wordAt (s.sp + BitVec.ofNat 16 (2 * k))) ∧
      raisesFrom (.bankFault f) s.pc u (exec (.popGeneral mask) s) := by
  obtain ⟨u, hu, hreads, hothers, hvalues⟩ :=
    popRegs_refused (s := s.started 1) (maskRegs_reverse_nodup mask) hn h
  refine ⟨u, hreads, hothers, fun hq hpl k r hk => ?_, runBody_error (body := popGeneralBody mask) rfl hu⟩
  rw [hvalues hq hpl k r hk]
  exact wordAt_congr rfl rfl (fun _ => rfl) fun _ => rfl

theorem popProcs_trap {p : ProcReg} {rest : List ProcReg} {held : Option Word} {s t : State} {i : Interrupt}
    (h : pop s = .trap i t) : popProcs (p :: rest) held s = .trap i (commitPs held t) := by
  rw [popProcs, h]

theorem popStatus_raises {mask : BitVec 8} {s u : State} {i : Interrupt} (hi : i.isError = true)
    (h : popProcs (maskProcs mask s) none (s.started 1) = .trap i u) :
    raisesFrom i s.pc u (exec (.popStatus mask) s) := by
  refine runBody_error (body := popStatusBody mask) hi ?_
  rw [popStatusBody, show maskProcs mask (s.started 1) = maskProcs mask s from rfl, h]
  rfl

theorem popStatus_refused_supervisor {mask : BitVec 8} {s : State} {n : Nat} {f : BankFault} (hs : s.supervisor = true)
    (h : s.popRefused n f) (hn : n < (statusOrder mask).length) :
    ∃ u, Reads { s with
        fl := u.fl, pc := u.pc, ps := u.ps, p2 := u.p2, ii := u.ii, ia := u.ia, usp := u.usp,
        ssp := s.ssp + BitVec.ofNat 16 (2 * n) } u ∧ StatusPopped s (statusOrder mask) n u ∧
      raisesFrom (.bankFault f) s.pc u (exec (.popStatus mask) s) := by
  obtain ⟨held, u, hpop, hpops, hpopped⟩ :=
    popProcs_statusPopped (mask := mask) hs (Nat.le_of_lt hn) (sp_not_mem_take (.inl hn)) h.1
  refine ⟨commitPs held u, ⟨hpopped.frame, hpopped.memory⟩, hpopped, popStatus_raises rfl ?_⟩
  rw [maskProcs_supervisor hs, hpop, List.drop_eq_getElem_cons hn, popProcs_trap (hpops.pop_fault h.2)]

/-- A pop in User mode that is refused. -/
theorem pop_userPopped_fault {mask : BitVec 8} {s : State} {order : List ProcReg} {a : Word} {f : BankFault}
    (hs : s.supervisor = false) (hc : s.checkSized .read .word a = some f) :
    pop (userPopped mask s order a) = .trap (.bankFault f) (userPopped mask s order a) := by
  have hsp : (userPopped mask s order a).sp = a := sp_of_user _ hs
  rw [pop, memRead_fault (f := f) (by rw [hsp]; exact hc)]
  rfl

theorem popStatus_refused_user {mask : BitVec 8} {s : State} {n : Nat} {f : BankFault} (hs : s.supervisor = false)
    (hq : s.quiet) (h : s.popRefused n f) (hn : n < (userOrder mask).length) (hpl : s.plainFrom s.usp (2 * n)) :
    raisesFrom (.bankFault f) s.pc (userPopped mask s ((userOrder mask).take n) (s.usp + BitVec.ofNat 16 (2 * n)))
      (exec (.popStatus mask) s) := by
  have hc : s.checkSized .read .word (s.usp + BitVec.ofNat 16 (2 * n)) = some f := by
    rw [← sp_of_user s hs]; exact h.2
  refine popStatus_raises rfl ?_
  rw [popProcs_userPopped hs hq (Nat.le_of_lt hn) (usp_not_mem_take hn) h.1 hpl, List.drop_eq_getElem_cons hn,
    List.cons_append, popProcs_trap (pop_userPopped_fault hs hc)]
  rfl

/-- SP's pop is refused: it goes on from a popped USP (D13). -/
theorem popStatus_refused_sp {mask : BitVec 8} {s : State} {a : Word} {f : BankFault} (hs : s.supervisor = false)
    (hq : s.quiet) (hsp : masked mask .sp = true) (h : s.poppable (userOrder mask).length)
    (hpl : s.plainFrom s.usp (2 * (userOrder mask).length))
    (ha : a = if masked mask .usp then userWord mask s .usp else s.usp + BitVec.ofNat 16 (2 * (userOrder mask).length))
    (hc : s.checkSized .read .word a = some f) :
    raisesFrom (.bankFault f) s.pc (userPopped mask s (userOrder mask) a) (exec (.popStatus mask) s) := by
  refine popStatus_raises rfl ?_
  rw [popProcs_userMoved hs hq h hpl, ← ha, hsp, if_pos rfl, popProcs_trap (pop_userPopped_fault hs hc)]
  rfl

/-- Settles O60: each group of instructions has its own lemma above. -/
theorem stackFaultsTrap : Obligations.StackFaultsTrap := by
  refine ⟨fun mask rv n f s h => ?_, fun m f s hread h => jsr_refused hread h,
    fun m f s hs hread h => jsrF_refused hs hread h, fun rv n f s h => ?_, fun mask n f s h => ?_,
    fun mask n f s hs h => ?_, fun mask f s hs hq => ?_⟩
  · intro general wanted status half q hqmem hn
    have hgeneral : general = (maskRegs mask).map s.reg := maskRegs_values mask s
    have hstatus : status = (maskProcs mask (s.started 1)).reverse.map (s.started 1).proc :=
      (maskProcs_values mask s).symm
    have hhalf : half = (s.mmuHalf ((s.reg rv).getLsbD 0)).toList := by
      rw [State.mmuHalf]; exact (apply_ite Vector.toList _ _ _).symm
    rcases List.mem_append.mp hqmem with hfree | hprivileged
    · rcases List.mem_pair.mp hfree with rfl | rfl
      · rw [hgeneral] at hn ⊢; exact pshGeneral_refused h hn
      · exact pshStatus_refused hstatus h hn
    · split at hprivileged
      · next hs =>
        obtain rfl := List.mem_singleton.mp hprivileged
        rw [hhalf] at hn ⊢
        exact mml_refused hs h hn
      · cases hprivileged
  · intro q hqmem hn
    rcases List.mem_append.mp hqmem with hfree | hprivileged
    · obtain rfl := List.mem_singleton.mp hfree
      exact raisesFrom_popsFirst popsFirst_rts hn h
    · split at hprivileged
      · next hs =>
        rcases List.mem_pair.mp hprivileged with rfl | rfl
        · show ∃ u, _ ∧ raisesFrom _ _ u (runBody 1 (privileged returnFromInterrupt) s)
          rw [runBody_privileged hs]
          exact raisesFrom_popsFirst popsFirst_returnFromInterrupt hn h
        · show ∃ u, _ ∧ raisesFrom _ _ u (runBody 1 (privileged (mmsBody rv)) s)
          rw [runBody_privileged hs]
          exact raisesFrom_popsFirst (popsFirst_mmsBody rv) hn h
      · cases hprivileged
  · intro order hn
    have horder : order = (maskRegs mask).reverse := (maskRegs_reverse mask).symm
    rw [horder] at hn ⊢
    exact popGeneral_refused h hn
  · intro order popped hn
    obtain ⟨u, hreads, hpopped, hraises⟩ := popStatus_refused_supervisor hs h hn
    exact ⟨u, hreads, hpopped.values, hraises⟩
  · intro order value moved
    refine ⟨fun n hn h hpl => popStatus_refused_user hs hq h hn hpl, fun hsp h hpl hc => ?_⟩
    have hraises := popStatus_refused_sp (a := moved) hs hq hsp h hpl rfl hc
    rw [userPopped_userOrder] at hraises
    exact hraises

end Sys2Proof.Machine

/-! Jumps, calls and returns (spec/46_jump.md). -/

namespace Sys2Proof.Machine

/-! ## The push of a call -/

/-- `t` is the state of an instruction of `len` words once its operand was read. -/
structure OperandTaken (len : Nat) (s t : State) : Prop where
  only : t = { s.started len with regs := t.regs, mem := t.mem, bus := t.bus, freeCount := t.freeCount }
  memory : s.quiet → sameMemory s t

/-- Stores after a read are stores from the state before it. -/
theorem OperandTaken.stores {len : Nat} {s t u : State} {a : Word} {bytes : List Byte} (h : OperandTaken len s t)
    (hstores : Stores a bytes t u) : Stores a bytes s u := by
  have hps : t.ps = s.ps := by rw [h.only]; rfl
  have hU : t.mmuU = s.mmuU := by rw [h.only]; rfl
  have hS : t.mmuS = s.mmuS := by rw [h.only]; rfl
  by_cases hq : s.quiet
  · obtain ⟨hmem, hbus⟩ := h.memory hq
    exact hstores.congr hmem.symm hbus.symm hps.symm hU.symm hS.symm (by rw [h.only]; rfl) (by rw [h.only]; rfl)
      rfl rfl rfl rfl
  · have hon : t.mmuOn = s.mmuOn := by rw [State.mmuOn, hps]; rfl
    have hsup : t.supervisor = s.supervisor := by rw [State.supervisor, hps]; rfl
    refine ⟨fun hq' => absurd hq' hq, fun hq' => absurd hq' hq, fun hq' => absurd hq' hq, fun k => ?_, fun k => ?_⟩
    · rw [hstores.accessedS k, hon, hsup, hS]
    · rw [hstores.accessedU k, hon, hsup, hU]

/-- The push of a call, after the operand was read. -/
theorem OperandTaken.push {len : Nat} {s t : State} (h : OperandTaken len s t) (hpush : s.pushable 1) (v : Word) :
    ∃ u, Machine.push v t = .ok () u ∧ StoreStep (t.setSp (s.sp - 2)) u ∧ Stores (s.sp - 2) (bytesOfWord v) s u := by
  have hsp : t.sp = s.sp := by rw [h.only]; rfl
  have hc : t.checkSized .write .word (t.sp - 2) = none := by
    rw [checkSized_congr (t := t) (s := s) (by rw [h.only]; rfl) (by rw [h.only]; rfl) (by rw [h.only]; rfl), hsp]
    exact hpush 0 Nat.one_pos
  obtain ⟨u, hu, hstep, hstores⟩ := push_stores v t hc
  rw [hsp] at hstep hstores
  exact ⟨u, hu, hstep, h.stores hstores⟩

theorem OperandTaken.pc {len : Nat} {s t : State} (h : OperandTaken len s t) :
    t.pc = s.pc + BitVec.ofNat 16 (2 * len) := by
  rw [h.only]; rfl

/-- The stack pointer lowered, after the operand was read. -/
theorem OperandTaken.setSp {len : Nat} {s t : State} (h : OperandTaken len s t) (x : Word) :
    t.setSp x =
      { s.setSp x with pc := t.pc, regs := t.regs, mem := t.mem, bus := t.bus, freeCount := t.freeCount } := by
  rw [setSp_of_only h.only x, h.pc]
  exact congrArg (fun y : State => { y with regs := t.regs, mem := t.mem, bus := t.bus, freeCount := t.freeCount })
    (setSp_setPc s x _)

/-! ## Near jumps and calls -/

theorem readValue_setPc (sz : Size) (a : Word) (s : State) (x : Word) :
    readValue sz a (s.setPc x) = readValue sz a s := readValue_outer sz a s s.regs s.fl x s.usp s.ssp

theorem nearValue_setPc (m : JmpOperand) (s : State) (x : Word) : nearValue m (s.setPc x) = nearValue m s := by
  cases m with
  | imm _ | reg _ => rfl
  | mem mode => exact readValue_setPc ..

theorem readNear_taken {m : JmpOperand} {s : State} (h : nearReadable m s) :
    ∃ t, readNear m (s.started (nearWords m)) = .ok (nearValue m s) t ∧ OperandTaken (nearWords m) s t ∧
      t.regs = nearRegs m s ∧ (s.quiet ∨ nearInMemory m = false → sameMemory s t) := by
  obtain ⟨t, hvalue, honly, hmem⟩ := readNear_value (s := s.started (nearWords m)) h
  have hregs : t.regs = nearRegs m s := by rw [honly]; cases m <;> rfl
  refine ⟨t, ?_, ⟨by rw [hregs]; exact honly, fun hq => hmem (.inl hq)⟩, hregs, hmem⟩
  rw [hvalue, State.started, nearValue_setPc]

/-- Settles O41. -/
theorem nearJumps : Obligations.NearJumps := by
  intro m s hread
  obtain ⟨t, hvalue, htaken, hregs, hmem⟩ := readNear_taken hread
  refine ⟨⟨t.setPc (nearValue m s), runBody_ok (by rw [jumpNear, hvalue, bind_ok]), ?_, hmem⟩, fun hpush => ?_⟩
  · rw [← hregs, htaken.only]; rfl
  · obtain ⟨u, hu, hstep, hstores⟩ := htaken.push hpush t.pc
    have hbody : callNear m (s.started (nearWords m)) = .ok () (u.setPc (nearValue m s)) := by
      rw [callNear, hvalue, bind_ok, hu]; rfl
    refine ⟨_, runBody_ok hbody, ?_, ?_⟩
    · have honly := hstep.only
      rw [htaken.setSp, hregs] at honly
      exact congrArg (·.setPc (nearValue m s)) honly
    · rw [htaken.pc, show nearWords m = (encode (.jsr m)).length from Nat.add_comm ..] at hstores
      exact hstores.congr rfl rfl rfl rfl rfl rfl rfl rfl rfl rfl rfl

/-! ## Far jumps and calls -/

theorem farValue_setPc (m : FarOperand) (s : State) (x : Word) : farValue m (s.setPc x) = farValue m s := by
  cases m with
  | imm _ _ | reg _ => rfl
  | mem mode =>
    have haddr : effectiveAddress mode 4 (s.setPc x) = effectiveAddress mode 4 s := rfl
    simp only [farValue, haddr, memRead_setPc]
    cases memRead .word (effectiveAddress mode 4 s + (farOffsets mode).1) s with
    | ok v t => simp only [Res.mapState, readValue_setPc]
    | _ => rfl

theorem readFar_taken {m : FarOperand} {s : State} (h : farReadable m s) :
    ∃ t, readFar m (s.started (farWords m)) = .ok (farValue m s) t ∧ OperandTaken (farWords m) s t ∧
      t.regs = farRegs m s ∧ (s.quiet ∨ farInMemory m = false → sameMemory s t) := by
  obtain ⟨t, hvalue, honly, hmem⟩ := readFar_value (s := s.started (farWords m)) h
  have hregs : t.regs = farRegs m s := by rw [honly]; cases m <;> rfl
  refine ⟨t, ?_, ⟨by rw [hregs]; exact honly, fun hq => hmem (.inl hq)⟩, hregs, hmem⟩
  rw [hvalue, State.started, farValue_setPc]

/-- Settles O42. -/
theorem farJumps : Obligations.FarJumps := by
  intro m s hs hread k e
  obtain ⟨t, hvalue, htaken, hregs, hmem⟩ := readFar_taken hread
  have hprivileged : ∀ body, privileged body (s.started (farWords m)) = body (s.started (farWords m)) := fun body =>
    privileged_supervisor (s := s.started (farWords m)) hs
  refine ⟨?_, fun hpush => ?_⟩
  · have hbody : jumpFar m (s.started (farWords m)) =
        .ok () ((farSwitch (farValue m s).1 (farValue m s).2 t).setPc (farValue m s).1) := by
      rw [jumpFar, hprivileged, hvalue, bind_ok]
    refine ⟨_, runBody_ok hbody, ?_, hmem⟩
    rw [← hregs, htaken.only]; rfl
  · obtain ⟨u, hu, hstep, hstores⟩ := htaken.push hpush t.pc
    have hbody : callFar m (s.started (farWords m)) =
        .ok () ((farSwitch (farValue m s).1 (farValue m s).2 u).setPc (farValue m s).1) := by
      rw [callFar, hprivileged, hvalue, bind_ok, hu]; rfl
    rw [htaken.pc, show farWords m = (encode (.jsrF m)).length from Nat.add_comm ..] at hstores
    rw [sp_of_supervisor s hs] at hstep hstores
    have htSup : (t.setSp (s.ssp - 2)).supervisor = true := by
      rw [supervisor_setSp, htaken.only]; exact hs
    have hU : u.mmuU = s.mmuU := by rw [hstep.sup htSup, mmuU_setSp, htaken.only]; rfl
    refine ⟨u, _, hstores, ?_, runBody_ok hbody, rfl⟩
    have honly := hstep.only
    rw [htaken.setSp, hregs, hU, ssp_setSp_supervisor s _ hs] at honly
    rw [honly]

/-! ## Mode rows -/

/-- Settles O43: a mode row runs the jump or the call itself. -/
theorem jumpModeRowsComplete : Obligations.JumpModeRowsComplete := by
  intro call r i x y slot s hpush
  refine ⟨fun q hq hread => ?_, fun q hq hs hread => ?_⟩
  · have hexec : exec q.1 s = exec (if call then .jsr q.2 else .jmp q.2) s := by
      simp only [List.mem_cons, List.not_mem_nil, or_false] at hq
      rcases hq with rfl | rfl | rfl | rfl | rfl | rfl | rfl | rfl | rfl <;> cases call <;> rfl
    obtain ⟨⟨t, hjump, -⟩, hcall⟩ := nearJumps q.2 s hread
    cases call with
    | false => exact ⟨t, hexec.trans hjump, hjump⟩
    | true =>
      obtain ⟨u, hu, -⟩ := hcall (hpush rfl)
      exact ⟨u, hexec.trans hu, hu⟩
  · have hexec : exec q.1 s = exec (if call then .jsrF q.2 else .jmpF q.2) s := by
      simp only [List.mem_cons, List.not_mem_nil, or_false] at hq
      rcases hq with rfl | rfl | rfl | rfl | rfl | rfl | rfl | rfl | rfl <;> cases call <;> rfl
    obtain ⟨⟨t, hjump, -⟩, hcall⟩ := farJumps q.2 s hs hread
    cases call with
    | false => exact ⟨t, hexec.trans hjump, hjump⟩
    | true =>
      obtain ⟨u, t', -, -, hu, -⟩ := hcall (hpush rfl)
      exact ⟨t', hexec.trans hu, hu⟩

/-! ## Returns -/

/-- RTS is one pop (R245). -/
theorem exec_rts {s : State} (h : s.checkSized .read .word s.sp = none) :
    ∃ t, exec .rts s = .next t ∧
      t = { s.setSp (s.sp + 2) with pc := t.pc, mem := t.mem, bus := t.bus, freeCount := t.freeCount } ∧
      (s.quiet → sameMemory s t) ∧ (s.quiet → s.plainFrom s.sp 2 → t.pc = s.wordAt s.sp) := by
  obtain ⟨t, hpop, honly, hmem, hvalue⟩ := pop_value (s := s.started 1) h
  have hbody : ((pop (s.started 1)).bind fun v s1 => .ok () (s1.setPc v)) =
      .ok () (t.setPc (readValue .word s.sp s)) := by
    rw [hpop, bind_ok, State.started, readValue_setPc]; rfl
  refine ⟨t.setPc (readValue .word s.sp s), runBody_ok (body := fun x => (pop x).bind fun v s1 => .ok () (s1.setPc v))
    hbody, ?_, hmem, fun hq hpl => ?_⟩
  · rw [show (s.started 1).setSp ((s.started 1).sp + 2) = (s.setSp (s.sp + 2)).setPc (s.pc + 2) from
      setSp_setPc s _ _] at honly
    exact congrArg (·.setPc (readValue .word s.sp s)) honly
  · have hread := (hvalue hq hpl).2
    rw [State.started, readValue_setPc] at hread
    exact hread.trans (wordAt_congr rfl rfl (fun _ => rfl) fun _ => rfl)

/-- Settles O40. -/
theorem subroutineReturns : Obligations.SubroutineReturns := by
  refine ⟨fun s h => exec_rts h, fun m s hread hpush hq hwf hram => ?_⟩
  obtain ⟨t, hjsr, honly, hstores⟩ := (nearJumps m s hread).2 hpush
  have hps : t.ps = s.ps := by rw [honly]; exact ps_setSp ..
  have hfl : t.fl = s.fl := by rw [honly]; exact fl_setSp ..
  have hsp : t.sp = s.sp - 2 := by
    have hset : t.sp = (s.setSp (s.sp - 2)).sp := by rw [honly]; rfl
    rw [hset, sp_setSp]
  have hbacking : ∀ pa, t.backing pa = s.backing pa := fun pa => by
    refine backing_of_eq ?_ ?_ pa
    · rw [honly]; exact platform_setSp ..
    · rw [honly]; exact devices_setSp ..
  have hpop : t.checkSized .read .word t.sp = none := by
    have hpoppable := poppable_of_pushable (n := 1) hsp (hstores.checkSized hps) hpush 0 Nat.one_pos
    rwa [Nat.mul_zero, BitVec.add_zero] at hpoppable
  have hplain : t.plainFrom t.sp 2 := fun k hk => by
    rw [hstores.translate hps, hbacking, hsp, hram k hk]; decide
  obtain ⟨u, hrts, honly', -, hpc⟩ := exec_rts hpop
  have hword := hstores.wordAt (ws := [s.pc + BitVec.ofNat 16 (2 * (encode (.jsr m)).length)]) (k := 0) hps hbacking hq
    hwf hram rfl
  rw [Nat.mul_zero, BitVec.add_zero, ← hsp] at hword
  refine ⟨t, u, hjsr, hrts, (hpc (hstores.quiet hq) hplain).trans hword, ?_, ?_, ?_, ?_⟩
  · have hset : u.sp = (t.setSp (t.sp + 2)).sp := by rw [honly']; rfl
    rw [hset, sp_setSp, hsp, BitVec.sub_add_cancel]
  · rw [honly']
    refine (regs_setSp ..).trans ?_
    rw [honly]
  · rw [honly']; exact (fl_setSp ..).trans hfl
  · rw [honly']; exact (ps_setSp ..).trans hps

end Sys2Proof.Machine

/-! The processor functions (spec/48_processor.md): single words of the MMU cache, the hardware bus, the RTC, SLP. -/

namespace Sys2Proof.Machine

/-- A privileged instruction of one word that completes in Supervisor mode. -/
theorem runBody_privileged_ok {body : State → Res Unit} {s t : State} (hs : s.supervisor = true)
    (h : body (s.started 1) = .ok () t) : runBody 1 (privileged body) s = .next t :=
  (runBody_privileged hs).trans (runBody_ok h)

/-! ## Words of the MMU cache -/

/-- The index that names word `k` of a half (R269, D23). -/
theorem mmuIndex_eq_some {map : MmuIndexMap} {i : Word} {k : Fin 4} {sup : Bool}
    (h : i.toNat = match map with
      | .compact => (if sup then 4 else 0) + k.val
      | .wide => (if sup then 8 else 0) + 2 * k.val) : mmuIndex map i = some (sup, k) := by
  have hk := k.isLt
  cases map with
  | compact =>
    replace h : i.toNat = (if sup then 4 else 0) + k.val := h
    have hlt : i.toNat < 8 := by rw [h]; split <;> omega
    have hhalf : decide (4 ≤ i.toNat) = sup := by rw [h]; cases sup <;> simp
    have hword : i.toNat % 4 = k.val := by rw [h]; split <;> omega
    rw [mmuIndex, if_pos hlt, hhalf]
    exact congrArg (fun x => some (sup, x)) (Fin.ext hword)
  | wide =>
    replace h : i.toNat = (if sup then 8 else 0) + 2 * k.val := h
    have hlt : i.toNat < 16 ∧ i.toNat % 2 = 0 := by rw [h]; split <;> omega
    have hhalf : decide (8 ≤ i.toNat) = sup := by rw [h]; cases sup <;> simp; omega
    have hword : i.toNat / 2 % 4 = k.val := by rw [h]; split <;> omega
    rw [mmuIndex, if_pos hlt, hhalf]
    exact congrArg (fun x => some (sup, x)) (Fin.ext hword)

/-- Settles O44. -/
theorem mmuCacheWords : Obligations.MmuCacheWords := by
  intro rv ra k sup s hs h
  have hindex : mmuIndex (s.started 1).platform.mmuIndexMap ((s.started 1).reg ra) = some (sup, k) := mmuIndex_eq_some h
  constructor
  · refine runBody_privileged_ok (body := mmrBody rv ra) hs ?_
    rw [mmrBody, hindex]
    cases sup <;> rfl
  · refine runBody_privileged_ok (body := mmwBody rv ra) hs ?_
    rw [mmwBody, hindex]
    cases sup <;> rfl

/-! ## The hardware bus -/

/-- The slots but slot 0, as a list and by their index. -/
theorem deviceCount_eq (s : State) :
    deviceCount s = (List.finRange 16).countP fun (i : Fin 16) => decide (i ≠ 0) && s.devices[i].isSome := by
  have hlist : s.devices.toList = (List.finRange 16).map fun i => s.devices[i] := by
    refine List.ext_getElem (by simp) fun n _ _ => ?_
    simp
  rw [deviceCount, hlist, List.finRange_succ, List.map_cons, List.drop_one, List.tail_cons, List.map_map,
    List.countP_map,
    List.countP_cons, List.countP_map]
  refine Eq.trans (List.countP_congr fun i _ => ?_) (Nat.add_zero _).symm
  simp

theorem deviceAt_eq {s : State} {w : Word} {i : Fin 16} (hw : w.toNat = i.val) (hi : i ≠ 0) :
    deviceAt s w = s.devices[i] := by
  have hne : w.toNat ≠ 0 := fun h => hi (Fin.ext (hw.symm.trans h))
  rw [deviceAt, if_neg hne, hw, Vector.getElem?_eq_getElem i.isLt]
  rfl

theorem deviceAt_eq_none {s : State} {w : Word} (h : ∀ i : Fin 16, w.toNat = i.val → i = 0 ∨ s.devices[i] = none) :
    deviceAt s w = none := by
  by_cases hzero : w.toNat = 0
  · rw [deviceAt, if_pos hzero]
  · by_cases hlt : w.toNat < 16
    · have hne : (⟨w.toNat, hlt⟩ : Fin 16) ≠ 0 := fun he => hzero (congrArg Fin.val he)
      rw [deviceAt_eq (i := ⟨w.toNat, hlt⟩) rfl hne]
      exact (h ⟨w.toNat, hlt⟩ rfl).resolve_left hne
    · rw [deviceAt, if_neg hzero, Vector.getElem?_eq_none (by omega)]
      rfl

theorem setFour_regs (a b c d : Word) (s : State) :
    [(setFour a b c d s).reg 0, (setFour a b c d s).reg 1, (setFour a b c d s).reg 2, (setFour a b c d s).reg 3] =
      [a, b, c, d] := by
  simp [setFour, reg_setReg]

theorem setFour_others (a b c d : Word) (s : State) {r : Reg} (hr : 4 ≤ r.val) :
    (setFour a b c d s).reg r = s.reg r := by
  have hne : ∀ q : Reg, q.val < 4 → r ≠ q := fun q hq h => by rw [h] at hr; omega
  rw [setFour, reg_setReg_ne _ _ (hne 3 (by decide)), reg_setReg_ne _ _ (hne 2 (by decide)),
    reg_setReg_ne _ _ (hne 1 (by decide)), reg_setReg_ne _ _ (hne 0 (by decide))]

theorem deviceWrites_bus (ws : List DeviceWrite) (s : State) : (s.deviceWrites ws).bus = s.bus := by
  induction ws generalizing s with
  | nil => rfl
  | cons w ws ih =>
    refine (ih (s.physWrite w.addr w.value)).trans ?_
    unfold State.physWrite
    split <;> rfl

/-- HWQ $00 (R263). -/
theorem exec_hwq00 {s : State} (hs : s.supervisor = true) :
    exec .hwq00 s = .next { s with
      pc := s.pc + 2
      regs := s.regs.set 0
        (BitVec.ofNat 16 ((List.finRange 16).countP fun (i : Fin 16) => decide (i ≠ 0) && s.devices[i].isSome)) } := by
  rw [← deviceCount_eq]
  exact runBody_privileged_ok (body := fun t => .ok () (t.setReg 0 (BitVec.ofNat 16 (deviceCount t)))) hs rfl

/-- The identity words that HWQ $01 gives, of the YCPU or of a device (R264). -/
theorem exec_hwq01_identity {s : State} {id : Identity} (hs : s.supervisor = true)
    (h : queryBody (s.started 1) = .ok () (setIdentity id (s.started 1))) :
    ∃ t, exec .hwq01 s = .next t ∧ t = { s with pc := s.pc + 2, regs := t.regs } ∧
      (∀ r : Reg, 4 ≤ r.val → t.reg r = s.reg r) ∧
      [t.reg 0, t.reg 1, t.reg 2, t.reg 3] = [id.deviceType, id.manufacturer, id.deviceId, id.flags] :=
  ⟨_, runBody_privileged_ok (body := queryBody) hs h, rfl, fun _ hr => setFour_others _ _ _ _ (s.started 1) hr,
    setFour_regs _ _ _ _ (s.started 1)⟩

/-- HWQ $01 without a device (R264, D34). -/
theorem exec_hwq01_empty {s : State} (hs : s.supervisor = true) (hzero : s.reg 0 ≠ 0)
    (h : deviceAt s (s.reg 0) = none) :
    exec .hwq01 s = .next ((s.started 1).setReg 0 0) := by
  have hbody : queryBody (s.started 1) = .ok () ((s.started 1).setReg 0 0) := by
    have hdevice : deviceAt (s.started 1) ((s.started 1).reg 0) = none := h
    rw [queryBody, if_neg (show (s.started 1).reg 0 ≠ 0 from hzero), hdevice]
  exact runBody_privileged_ok hs hbody

/-- HWQ $02 without a device (R265). -/
theorem exec_hwq02_empty {s : State} (hs : s.supervisor = true) (h : deviceAt s (s.reg 0) = none) :
    exec .hwq02 s = .next { s with pc := s.pc + 2 } := by
  have hbody : messageBody (s.started 1) = .ok () (s.started 1) := by
    have hdevice : deviceAt (s.started 1) ((s.started 1).reg 0) = none := h
    rw [messageBody, hdevice]
  exact runBody_privileged_ok hs hbody

/-- HWQ $02 with a device (R265). -/
theorem exec_hwq02_device {s : State} {d : Device} (hs : s.supervisor = true) (h : deviceAt s (s.reg 0) = some d) :
    exec .hwq02 s = .next (applyReply (Config.deviceReply s.freeCount (s.reg 1) (s.reg 2))
      { s.started 1 with freeCount := s.freeCount + 1 }) := by
  have hbody : messageBody (s.started 1) = .ok () (applyReply (Config.deviceReply s.freeCount (s.reg 1) (s.reg 2))
      { s.started 1 with freeCount := s.freeCount + 1 }) := by
    have hdevice : deviceAt (s.started 1) ((s.started 1).reg 0) = some d := h
    rw [messageBody, hdevice]
    rfl
  exact runBody_privileged_ok hs hbody

/-- The rows of the table of R265 that have an effect. -/
theorem applyReply_rows (r : Reply) (s : State) :
    applyReply r s = { s with
        regs := (applyReply r s).regs, mem := (applyReply r s).mem, freeCount := (applyReply r s).freeCount } ∧
      (∀ q : Reg, 3 ≤ q.val → (applyReply r s).reg q = s.reg q) ∧
      ((applyReply r s).reg 0 = 0x0001 ∨
        (((applyReply r s).reg 0 = 0x0002 ∨ (applyReply r s).reg 0 = 0xFFFF) ∧ (applyReply r s).reg 1 = s.reg 1 ∧
          (applyReply r s).reg 2 = s.reg 2 ∧ (applyReply r s).mem = s.mem)) := by
  have hne : ∀ q p : Reg, 3 ≤ q.val → p.val < 3 → q ≠ p := fun q p hq hp h => by rw [h] at hq; omega
  cases r with
  | ack r1 r2 writes =>
    have honly := (deviceWrites_memStep writes s).only
    rw [deviceWrites_bus] at honly
    refine ⟨congrArg (fun t : State => { t with regs := (applyReply (.ack r1 r2 writes) s).regs }) honly,
      fun q hq => ?_, .inl ?_⟩
    · rw [applyReply, reg_setReg_ne _ _ (hne q 2 hq (by decide)), reg_setReg_ne _ _ (hne q 1 hq (by decide)),
        reg_setReg_ne _ _ (hne q 0 hq (by decide)), honly]
      rfl
    · simp [applyReply, reg_setReg]
  | wait =>
    exact ⟨rfl, fun q hq => reg_setReg_ne _ _ (hne q 0 hq (by decide)),
      .inr ⟨.inl (reg_setReg_self ..), reg_setReg_ne _ _ (by decide), reg_setReg_ne _ _ (by decide), rfl⟩⟩
  | error =>
    exact ⟨rfl, fun q hq => reg_setReg_ne _ _ (hne q 0 hq (by decide)),
      .inr ⟨.inr (reg_setReg_self ..), reg_setReg_ne _ _ (by decide), reg_setReg_ne _ _ (by decide), rfl⟩⟩

/-- HWQ $01: the YCPU's identity at index 0, a device's at the index of one, else R0 = 0. -/
theorem exec_hwq01 {s : State} (hs : s.supervisor = true) :
    ∃ t, exec .hwq01 s = .next t ∧ t = { s with pc := s.pc + 2, regs := t.regs } ∧
      (∀ r : Reg, 4 ≤ r.val → t.reg r = s.reg r) ∧
      (s.reg 0 = 0 → [t.reg 0, t.reg 1, t.reg 2, t.reg 3] = [s.platform.cpuInfo.deviceType,
        s.platform.cpuInfo.manufacturer, s.platform.cpuInfo.deviceId, s.platform.cpuInfo.flags]) ∧
      (∀ (i : Fin 16) (d : Device), i ≠ 0 → (s.reg 0).toNat = i.val → s.devices[i] = some d →
        [t.reg 0, t.reg 1, t.reg 2, t.reg 3] =
          [d.identity.deviceType, d.identity.manufacturer, d.identity.deviceId, d.identity.flags]) ∧
      ((∀ i : Fin 16, (s.reg 0).toNat = i.val → i ≠ 0 ∧ s.devices[i] = none) →
        [t.reg 0, t.reg 1, t.reg 2, t.reg 3] = [0, s.reg 1, s.reg 2, s.reg 3]) := by
  by_cases hzero : s.reg 0 = 0
  · have hnat : (s.reg 0).toNat = (0 : Fin 16).val := by rw [hzero]; rfl
    obtain ⟨t, hexec, honly, hothers, hid⟩ := exec_hwq01_identity (id := s.platform.cpuInfo) hs (if_pos hzero)
    exact ⟨t, hexec, honly, hothers, fun _ => hid, fun i d hi hw _ => absurd (Fin.ext (hw.symm.trans hnat)) hi,
      fun hnone => absurd rfl (hnone 0 hnat).1⟩
  · cases hdevice : deviceAt s (s.reg 0) with
    | none =>
      refine ⟨_, exec_hwq01_empty hs hzero hdevice, rfl, fun r hr => reg_setReg_ne _ _ fun h => ?_,
        fun h => absurd h hzero, fun i d hi hw hd => ?_, fun _ => ?_⟩
      · rw [h] at hr; exact absurd hr (by decide)
      · rw [deviceAt_eq hw hi, hd] at hdevice; cases hdevice
      · simp only [reg_setReg]; rfl
    | some d =>
      have hbody : queryBody (s.started 1) = .ok () (setIdentity d.identity (s.started 1)) := by
        have hstarted : deviceAt (s.started 1) ((s.started 1).reg 0) = some d := hdevice
        rw [queryBody, if_neg (show (s.started 1).reg 0 ≠ 0 from hzero), hstarted]
      obtain ⟨t, hexec, honly, hothers, hid⟩ := exec_hwq01_identity hs hbody
      refine ⟨t, hexec, honly, hothers, fun h => absurd h hzero, fun i d' hi hw hd => ?_, fun hnone => ?_⟩
      · rw [deviceAt_eq hw hi, hd] at hdevice
        rw [hid, Option.some.inj hdevice]
      · rw [deviceAt_eq_none fun i hi => .inr (hnone i hi).2] at hdevice; cases hdevice

/-- Settles O46. -/
theorem busQueries : Obligations.BusQueries := by
  refine ⟨fun s hs => ⟨exec_hwq00 hs, exec_hwq01 hs⟩, fun s hs => ⟨fun hnone => ?_, fun i hi hne hsome => ?_⟩⟩
  · exact exec_hwq02_empty hs (deviceAt_eq_none hnone)
  · obtain ⟨d, hd⟩ := Option.ne_none_iff_exists'.mp hsome
    have hrows := applyReply_rows (Config.deviceReply s.freeCount (s.reg 1) (s.reg 2))
      { s.started 1 with freeCount := s.freeCount + 1 }
    obtain ⟨honly, hothers, hcases⟩ := hrows
    exact ⟨_, exec_hwq02_device hs ((deviceAt_eq hi hne).trans hd), honly, hothers, hcases⟩

/-! ## The RTC -/

/-- A gap of `n` bits above the lowest field. -/
theorem gap_layout {k m n p : Nat} (top : BitVec k) (hi : BitVec m) (lo : BitVec p) :
    (top ++ hi ++ (0 : BitVec n) ++ lo) &&& ((0 : BitVec k) ++ (0 : BitVec m) ++ BitVec.allOnes n ++ (0 : BitVec p)) =
      0 := by
  simp [BitVec.and_append]

/-- Two fields of `n` bits, `m` bits apart. -/
theorem fieldPair_layout {m n : Nat} (hi lo : BitVec n) :
    ((0 : BitVec m) ++ hi ++ (0 : BitVec m) ++ lo) &&&
      (BitVec.allOnes m ++ (0 : BitVec n) ++ BitVec.allOnes m ++ (0 : BitVec n)) = 0 := by
  simp [BitVec.and_append]

/-- The bits that the layout of the time leaves 0 (R266, D40). -/
theorem setTime_layout (t : RtcTime) (s : State) :
    (setTime t s).reg 0 &&& 0x00F0 = 0 ∧ (setTime t s).reg 1 &&& 0xE0E0 = 0 ∧ (setTime t s).reg 2 &&& 0xC0C0 = 0 := by
  have hregs := setFour_regs (BitVec.ofBool t.yearTop ++ t.year ++ (0 : BitVec 4) ++ t.month)
    ((0 : BitVec 3) ++ t.day ++ (0 : BitVec 3) ++ t.hour) ((0 : BitVec 2) ++ t.minute ++ (0 : BitVec 2) ++ t.second)
    t.tick s
  obtain ⟨h0, h1, h2, -⟩ : _ ∧ _ ∧ _ ∧ _ := by simpa only [List.cons.injEq, and_true] using hregs
  rw [setTime, h0, h1, h2]
  exact ⟨gap_layout (n := 4) (BitVec.ofBool t.yearTop) t.year t.month, fieldPair_layout (m := 3) t.day t.hour,
    fieldPair_layout (m := 2) t.minute t.second⟩

/-- Settles O47. -/
theorem clockQueries : Obligations.ClockQueries := by
  refine ⟨fun s hs => ?_, fun s hs => ?_⟩
  · exact ⟨_, runBody_privileged_ok (body := clockReadBody) hs rfl, rfl, fun r hr => setFour_others _ _ _ _ _ hr,
      setTime_layout _ _⟩
  · intro rate
    refine runBody_privileged_ok (body := clockSetBody) hs ?_
    have hrate : (if s.reg 0 = 0 then 0 else cappedRate s.platform (s.reg 0)) = rate := by
      split
      · next h => simp only [rate, h]; rfl
      · rfl
    have henabled : (s.reg 0 != 0) = decide (s.reg 0 ≠ 0) := by rw [bne, decide_not]; rfl
    show Res.ok () (({ s.started 1 with rtc := { s.rtc with
      enabled := s.reg 0 != 0, rate := if s.reg 0 = 0 then 0 else cappedRate s.platform (s.reg 0) } } : State).setReg 0
        (if s.reg 0 = 0 then 0 else cappedRate s.platform (s.reg 0))) = _
    rw [hrate, henabled]
    rfl

/-! ## SLP -/

theorem chooseAsync_of_ready_nil {s : State} (h : s.ready = []) : chooseAsync s = none := by rw [chooseAsync, h]

/-- Settles O48. -/
theorem sleepUntilInterrupt : Obligations.SleepUntilInterrupt := by
  refine ⟨fun s hs => runBody_privileged_ok (body := fun t => .ok () { t with halted := true }) hs rfl,
    fun s hreset hhalted hready => ?_⟩
  rw [step, stepSampled, if_neg (by rw [hreset]; decide), chooseAsync_of_ready_nil hready, if_pos hhalted]
  exact ite_self _

end Sys2Proof.Machine

/-! Reset, asynchronous interrupts and what a step fetches (spec/70_reset_and_hazards.md R330, spec/60_exceptions.md
R280). -/

namespace Sys2Proof.Machine

/-! ## Reset -/

/-- Settles O6. -/
theorem resetState : Obligations.ResetState := ⟨rfl, rfl, rfl, rfl, rfl, rfl⟩

/-- Settles O8. -/
theorem resetInv : Obligations.ResetInv where
  mem := rfl
  platform := by
    have hfrequency : 1024 ≤ 1024 + Config.cpuFrequencyAbove1024 := Nat.le_add_right ..
    exact decide_eq_true ⟨by decide, by decide, by decide, by decide, hfrequency⟩
  rtc := by
    have hrate : (0 : Word).toNat ≤ Platform.default.cpuFrequency / 1024 := Nat.zero_le _
    rw [rtcWf]
    exact decide_eq_true hrate

theorem mmuOff_of_resetPs {s : State} (h : s.ps = 0x8000) : s.mmuOn = false := by
  rw [State.mmuOn, h]; decide

/-- With the MMU off the first two bytes of the address space are those of ROM bank $80 (R66, R72). -/
theorem wordAt_zero_rom {s : State} (hoff : s.mmuOn = false) (hvalid : s.platform.valid = true) :
    s.plainFrom 0 2 ∧ s.wordAt 0 = Mem.get s.mem 0x200001 ++ Mem.get s.mem 0x200000 := by
  obtain ⟨-, -, hrom, -, -⟩ := of_decide_eq_true hvalid
  have hbacking : ∀ pa : PAddr, pa = 0x200000 ∨ pa = 0x200001 → s.backing pa = .rom := fun pa hpa => by
    have hdevice : (pa.extractLsb' 22 4 : BitVec 4) = 0 := by rcases hpa with rfl | rfl <;> decide
    have hbank : (pa.extractLsb' 14 8 : Byte) = 0x80 := by rcases hpa with rfl | rfl <;> decide
    refine (if_pos hdevice).trans ?_
    rw [hbank, ownBacking, if_neg (by decide)]
    exact if_pos hrom
  have h0 : s.translate 0 = 0x200000 := by rw [translate_mmuOff hoff]; decide
  have h1 : s.translate 1 = 0x200001 := by rw [translate_mmuOff hoff]; decide
  have hbyte : ∀ a pa, s.translate a = pa → s.backing pa = .rom → s.byteAt a = Mem.get s.mem pa.toNat :=
    fun a pa ha hpa => by rw [State.byteAt, ha, State.physRead, hpa]
  constructor
  · intro k hk
    have hcases : s.translate (0 + BitVec.ofNat 16 k) = 0x200000 ∨ s.translate (0 + BitVec.ofNat 16 k) = 0x200001 := by
      obtain rfl | rfl : k = 0 ∨ k = 1 := by omega
      · exact .inl h0
      · exact .inr h1
    rw [hbacking _ hcases]; decide
  · rw [State.wordAt, show (0 : Word) + 1 = 1 from rfl, hbyte _ _ h0 (hbacking _ (.inl rfl)),
      hbyte _ _ h1 (hbacking _ (.inr rfl))]
    rfl

/-- The state in which the RESET sequence reads its vector (R330). -/
def State.resetting (s : State) : State := { s with rtc := { s.rtc with enabled := false }, ps := 0x8000, ia := 0 }

theorem resetSequence_of_read {s t : State} {v : Word} (h : memRead .word 0 s.resetting = .ok v t) :
    resetSequence s = .next { t with pc := v, halted := false } := by
  simp only [State.resetting] at h
  simp only [resetSequence, h]

/-- Settles O7: the vector is read with the MMU off. -/
theorem resetSequence_step : Obligations.ResetSequence := by
  intro s hreset
  have hplatform : s.sample.busCycle.platform = s.platform := by
    rw [(busCycle_memStep s.sample).only]; exact sample_platform s
  rw [← hplatform, step, stepSampled, if_pos hreset]
  generalize s.sample.busCycle = u
  have hoff : u.resetting.mmuOn = false := mmuOff_of_resetPs rfl
  have hcheck := checkSized_mmuOff hoff .read .word 0
  obtain ⟨t, hread, hstep, hmem⟩ := memRead_value hcheck
  refine ⟨_, resetSequence_of_read hread, ?_, hmem, fun hq hvalid => ?_⟩
  · rw [hstep.only]; rfl
  · obtain ⟨hplain, hword⟩ := wordAt_zero_rom hoff hvalid
    have hquiet := memRead_quiet (s := u.resetting) (sz := .word) hq hcheck hplain
    exact (Res.ok.inj (hread.symm.trans hquiet)).1.trans hword

/-! ## Asynchronous interrupts -/

theorem mem_ready {e : Async} {s : State} : e ∈ s.ready ↔ s.accepts e = true := by
  have hall : e ∈ [Async.clock, .hwi, .busRefresh, .debugQuery] := by cases e <;> decide
  rw [State.ready, List.mem_filter, and_iff_right hall]

theorem lowestIrq_isSome (irq : BitVec 16) :
    (lowestIrq irq).isSome = true ↔ ∃ k, 1 ≤ k ∧ k < 16 ∧ irq.getLsbD k = true := by
  simp only [lowestIrq, List.find?_isSome, List.mem_range'_1, and_assoc]

theorem lowestIrq_eq {irq : BitVec 16} {k : Nat} (hpos : 1 ≤ k) (hlt : k < 16) (hk : irq.getLsbD k = true)
    (hlow : ∀ j, 1 ≤ j → j < k → irq.getLsbD j = false) : lowestIrq irq = some k := by
  rw [lowestIrq, List.find?_range'_eq_some]
  exact ⟨hk, List.mem_range'_1.mpr ⟨hpos, hlt⟩, fun j hj hjk => by rw [hlow j hj hjk]; rfl⟩

theorem accepts_hwi (s : State) :
    s.accepts .hwi = true ↔
      s.ps.getLsbD 13 = true ∧ s.ps.getLsbD 11 = false ∧ ∃ k, 1 ≤ k ∧ k < 16 ∧ s.lines.irq.getLsbD k = true := by
  rw [← lowestIrq_isSome, State.accepts, Bool.and_eq_true, Bool.and_eq_true, Bool.not_eq_true', and_assoc]
  rfl

/-- HWI serves the lowest index that asserts its line (R291). -/
theorem takeAsync_hwi {s : State} {k : Nat} (hpos : 1 ≤ k) (hlt : k < 16) (hk : s.lines.irq.getLsbD k = true)
    (hlow : ∀ j, 1 ≤ j → j < k → s.lines.irq.getLsbD j = false) :
    raisesFrom .hwi s.pc { s with ii := BitVec.ofNat 16 k } (takeAsync .hwi s) := by
  rw [takeAsync, lowestIrq_eq hpos hlt hk hlow]
  exact takeInterrupt_raisesFrom .hwi s.pc { s with ii := BitVec.ofNat 16 k }

/-- Past Reset and the stall a step takes an asynchronous interrupt that was chosen. -/
theorem stepSampled_takes {s t : State} {e : Async} (hreset : s.lines.reset = false) (hbusy : s.lines.busy = 0)
    (h : chooseAsync s = some (e, t)) : stepSampled s = takeAsync e t := by
  rw [stepSampled, if_neg (by rw [hreset]; decide), if_neg (not_not_intro hbusy), h]

/-- Settles O54. -/
theorem hardwareInterrupt : Obligations.HardwareInterrupt := by
  refine fun s => ⟨accepts_hwi s, fun k hpos hlt hk hlow hreset hbusy hready => ?_⟩
  rw [stepSampled_takes hreset hbusy (e := .hwi) (t := s) (by rw [chooseAsync, hready])]
  exact takeAsync_hwi hpos hlt hk hlow

/-- One of the interrupts that are ready is chosen. -/
theorem chooseAsync_of_ready {s : State} (h : s.ready ≠ []) :
    ∃ (e : Async) (n : Nat), e ∈ s.ready ∧ chooseAsync s = some (e, { s with freeCount := n }) := by
  rw [chooseAsync]
  generalize s.ready = l at h ⊢
  match l with
  | [] => exact absurd rfl h
  | [e] => exact ⟨e, s.freeCount, List.mem_singleton_self e, rfl⟩
  | e :: e' :: more =>
    refine ⟨_, _, ?_, rfl⟩
    have hlt : Config.asyncPick s.freeCount % ((e' :: more).length + 1) < (e :: e' :: more).length :=
      Nat.mod_lt _ (Nat.succ_pos _)
    rw [List.getD_eq_getElem _ _ hlt]
    exact List.getElem_mem hlt

/-- A sampled step at which the hardware on the bus changes signals it, and nothing else raises BusRefresh (R292). -/
theorem busRefresh_sample (u : State) :
    (u.sample.devices ≠ u.devices → .busRefresh ∈ u.sample.ready) ∧
      (.busRefresh ∈ u.sample.ready → u.lines.busRefresh = true ∨ ∃ e ∈ u.inputs.head?, e.devices.isSome = true) := by
  simp only [mem_ready, State.accepts]
  cases hinputs : u.inputs with
  | nil =>
    have hsample : u.sample = u := by rw [State.sample, hinputs]
    rw [hsample]
    exact ⟨fun h => absurd rfl h, .inl⟩
  | cons e rest =>
    have hdevices : u.sample.devices = e.devices.getD u.devices := by rw [State.sample, hinputs]
    have hrefresh : u.sample.lines.busRefresh = (e.devices.isSome || (u.lines.busRefresh && e.lines.busRefresh)) := by
      rw [State.sample, hinputs]; rfl
    rw [hdevices, hrefresh]
    cases hnew : e.devices with
    | none =>
      exact ⟨fun h => absurd rfl h, fun h => .inl (Bool.and_eq_true_iff.mp h).1⟩
    | some table => exact ⟨fun _ => rfl, fun _ => .inr ⟨e, rfl, by rw [hnew]; rfl⟩⟩

/-- Settles O55. -/
theorem asynchronousInterrupts : Obligations.AsynchronousInterrupts := by
  refine fun s hreset => ⟨fun hbusy => ?_, fun hbusy hready => ?_, ?_, mem_ready, mem_ready,
    takeInterrupt_raisesFrom .., takeInterrupt_raisesFrom .., takeInterrupt_raisesFrom ..,
    fun k => takeAsync_hwi, busRefresh_sample⟩
  · rw [stepSampled, if_neg (by rw [hreset]; decide), if_pos hbusy]
  · obtain ⟨e, n, he, hchoose⟩ := chooseAsync_of_ready hready
    exact ⟨e, n, he, stepSampled_takes hreset hbusy hchoose⟩
  · rw [mem_ready]
    exact Bool.and_eq_true_iff

/-! ## The instruction at PC -/

/-- The bytes at PC decode to what a fetch gives. -/
theorem fetch_of_decode {u : State} {i : Instr} {rest : List Byte} (hq : u.quiet)
    (hdecode : decode ((List.range 6).map fun k => u.byteAt (u.pc + BitVec.ofNat 16 k)) = .ok (i, rest))
    (hcheck : ∀ k < (encode i).length, u.checkSized .read .word (u.pc + BitVec.ofNat 16 (2 * k)) = none)
    (hplain : u.plainFrom u.pc (2 * (encode i).length)) : fetch u = .ok i u := by
  have hword : ∀ a, wordOfBytes (u.byteAt a) (u.byteAt (a + 1)) = u.wordAt a := fun _ => rfl
  have h0 : wordOfBytes (u.byteAt (u.pc + 0#16)) (u.byteAt (u.pc + 1#16)) = u.wordAt u.pc := by
    rw [BitVec.add_zero]; exact hword u.pc
  have h2 : wordOfBytes (u.byteAt (u.pc + 2#16)) (u.byteAt (u.pc + 3#16)) = u.wordAt (u.pc + 2) := by
    rw [← hword, BitVec.add_assoc]; rfl
  have h4 : wordOfBytes (u.byteAt (u.pc + 4#16)) (u.byteAt (u.pc + 5#16)) = u.wordAt (u.pc + 4) := by
    rw [← hword, BitVec.add_assoc]; rfl
  have hi : i = decodeWords (u.wordAt u.pc) (if 2 ≤ wordCount (u.wordAt u.pc) then u.wordAt (u.pc + 2) else 0)
      (if wordCount (u.wordAt u.pc) = 3 then u.wordAt (u.pc + 4) else 0) := by
    have hlist : (List.range 6).map (fun k => u.byteAt (u.pc + BitVec.ofNat 16 k)) =
        [u.byteAt (u.pc + 0#16), u.byteAt (u.pc + 1#16), u.byteAt (u.pc + 2#16), u.byteAt (u.pc + 3#16),
          u.byteAt (u.pc + 4#16), u.byteAt (u.pc + 5#16)] := rfl
    rw [hlist] at hdecode
    simp only [decode, h0] at hdecode
    rcases wordCount_cases (u.wordAt u.pc) with h | h | h
    all_goals
      simp only [h, h2, h4] at hdecode
      rw [h]
      exact (congrArg Prod.fst (Except.ok.inj hdecode)).symm
  have hlength : (encode i).length = wordCount (u.wordAt u.pc) := hi ▸ (decodeWords_decodedFrom ..).length
  rw [hlength] at hcheck hplain
  rw [fetch_quiet hq hcheck hplain, ← hi]

/-- Settles O56. -/
theorem stepRunsDecoded : Obligations.StepRunsDecoded := by
  intro s i rest u hreset hbusy hready hhalted hfetchable hq hdecode hcheck hplain
  show stepSampled u = exec i u
  rw [stepSampled, if_neg (by rw [hreset]; decide), if_neg (not_not_intro hbusy), chooseAsync_of_ready_nil hready]
  simp only [hhalted, Bool.false_eq_true, if_false]
  rw [fetchAndExec, if_pos hfetchable, fetch_of_decode hq hdecode hcheck hplain]

end Sys2Proof.Machine
